-- ==== Sys2Proof/Word.lean ====
section
/-!
DEFINITION. Sys2Proof/Word.lean: the bit widths the manual uses (00_scope.md, Units and number conventions;
12_record_layouts.md R168). Everything the manual counts is taken to a natural number with toNat before it is
computed with; byte order and field access stand in Machine/Ops.lean.
-/
namespace Sys2Proof

/-- One byte of shared memory, of a slip, of a table or of a token image. -/
abbrev Byte := BitVec 8

/-- A two-byte field: an own entry number, a section distance. -/
abbrev Half := BitVec 16

/-- A register of the part, an address, a time in reference minutes. -/
abbrev Word := BitVec 32

/-- A link: a 24-bit count of 16-byte units from the slip window base (R134). -/
abbrev Link := BitVec 24

/-- The serial of a journal key, 0 to 2^64 - 1 (R104). -/
abbrev Serial := BitVec 64

end Sys2Proof
end

