-- ==== Sys2Proof/Syntax.lean ====
section
/-!
DEFINITION. Sys2Proof/Syntax.lean: the commands, one constructor per row of spec/opcode_table.json. The rows give
no operands; the operands here are the least that lets every event the manual describes be said
(notes/assumptions/1.md).
-/
namespace Sys2Proof

/-- The two chains of slips (09_slips_and_chains.md): 0 interactive, 1 background. -/
inductive Chain where
  | interactive
  | background
  deriving DecidableEq, Repr

/-- The three stages the part writes into a slip (R132). -/
inductive StageWrite where
  | taken
  | answered
  | released
  deriving DecidableEq, Repr

/-- The name of one shared-memory access of the part (R156), so that a command can say which one failed.
Every access is of one byte (notes/assumptions/6.md). -/
inductive Access where
  /-- A read of the anchor block, `offset` bytes from its start: the read at START, or a head at a restart. -/
  | anchorRead (offset : Nat)
  /-- A read of the slip concerned, `offset` bytes from its start. -/
  | slipRead (offset : Nat)
  /-- A write into the slip concerned, other than a stage write. -/
  | slipWrite (offset : Nat)
  /-- The write of a stage into the slip concerned. -/
  | stageWrite (stage : StageWrite)
  /-- A read at `addr` in the table window, on behalf of network `slot` (255 for the directory and a route plan). -/
  | tableRead (slot : Byte) (addr : Nat)
  deriving DecidableEq, Repr

/-- What the part may be doing in shared memory when an access fails: the block that asked (R156). -/
inductive Activity where
  /-- The read of the anchor block at START. -/
  | anchorRead
  /-- The validation walk. -/
  | walk
  /-- The examination of a cursor slip. -/
  | examination
  /-- The working and answering of the slip in flight, whatever its kind. -/
  | work
  /-- The follow-up of the answered slip; the flag is that of the FOLLOW_UP command. -/
  | followUp (restartAfterLink : Bool)
  /-- The re-read of a parked chain's tail link. -/
  | tailReread (c : Chain)
  /-- The head read of a restart NUDGE written for chain `c`. -/
  | restartHead (c : Chain)
  deriving DecidableEq, Repr

/-- The registers that a REGISTER_WRITE_IGNORED command may name (R160). -/
inductive Register where
  | anchor
  | control
  | state
  | events
  | enable
  | nudge
  | fault
  deriving DecidableEq, Repr

/-- The commands. The first group is the host's register accesses (R160), the second the pins and the power (R167),
the third time (R20), the fourth the memory system (R156), the last the part's own steps. -/
inductive Instr where
  /-- START: a CONTROL write with START set and RESET clear; the other bits of the write (R161). -/
  | start (restReq wake holdReq : Bool)
  /-- CONTROL_RESET: a CONTROL write with RESET set; `others` are the bits it carries besides (ignored, R161). -/
  | controlReset (others : Word)
  /-- REST_REQ: a CONTROL write with REST_REQ set and START, RESET, WAKE clear. -/
  | restReq (holdReq : Bool)
  /-- WAKE: a CONTROL write with WAKE set and START, RESET clear. -/
  | wake (restReq holdReq : Bool)
  /-- HOLD_REQ_SET: a CONTROL write with HOLD_REQ alone. -/
  | holdReqSet
  /-- HOLD_REQ_CLEAR: a CONTROL write of 0. -/
  | holdReqClear
  /-- ANCHOR_WRITE: a write of `value` to ANCHOR. -/
  | anchorWrite (value : Word)
  /-- NUDGE: a NUDGE write with the restart flag clear; `chain` is the register's chain number field. -/
  | nudge (chain : BitVec 2)
  /-- NUDGE_RESTART: a NUDGE write with the restart flag set. -/
  | nudgeRestart (chain : BitVec 2)
  /-- EVENTS_CLEAR: a write of `value` to EVENTS. -/
  | eventsClear (value : Word)
  /-- ENABLE_WRITE: a write of `value` to ENABLE. -/
  | enableWrite (value : Word)
  /-- FAULT_READ: a read of FAULT. -/
  | faultRead
  /-- REGISTER_WRITE_IGNORED: a write to STATE or FAULT, or to bits with no function. -/
  | registerWriteIgnored (reg : Register) (value : Word)
  /-- RESET_PIN: the reset pin is asserted. -/
  | resetPin
  /-- POWER_ON. -/
  | powerOn
  /-- MINUTE_TICK: one minute of the part's time base ends. -/
  | minuteTick
  /-- WINDOW_MINUTES_EXPIRY: every open window standing at 0 minutes closes. -/
  | windowMinutesExpiry
  /-- WINDOW_COUNT_EXPIRY: every open window standing at count 0 closes. -/
  | windowCountExpiry
  /-- ACCESS_TIMEOUT: the activity `a`, in which the accesses `failing` get no response within 1 ms. -/
  | accessTimeout (a : Activity) (failing : List Access)
  /-- ANCHOR_CHECK: the anchor read completes. -/
  | anchorCheck
  /-- VALIDATION_WALK: the walk comes to its end. -/
  | validationWalk
  /-- ARBITER_CHOICE: the arbiter chooses a chain to examine. -/
  | arbiterChoice
  /-- EXAMINATION: the stage read of the examination under way completes. -/
  | examination
  /-- TRIP_BEGIN: the TRIP slip in flight is worked as a BEGIN. -/
  | tripBegin
  /-- TRIP_END: the TRIP slip in flight is worked as an END. -/
  | tripEnd
  /-- POSITION: the POSITION slip in flight is worked. -/
  | position
  /-- INSPECT: the INSPECT slip in flight on the interactive chain is worked. -/
  | inspect
  /-- PROBE: the INSPECT slip in flight on the background chain is worked. -/
  | probe
  /-- AMEND: the AMEND slip in flight is worked. -/
  | amend
  /-- MERGE: the MERGE slip in flight is worked. -/
  | merge
  /-- RECALL: the RECALL slip in flight is worked. -/
  | recallEntries
  /-- FOLLOW_UP: the answered slip is followed up; the flag says that a restart NUDGE on its chain came after the
  follow-up had read the link (R141, last row of its table). -/
  | followUp (restartAfterLink : Bool)
  /-- HOLD_GRANT: a hold request that had to wait is granted. -/
  | holdGrant
  /-- REST_GIVEN: a pending rest is given. -/
  | restGiven
  /-- TAIL_LINK_REREAD: the re-read of chain `c`'s tail link ends. -/
  | tailLinkReread (c : Chain)
  /-- ACCESS_ERROR_RESPONSE: the activity `a`, in which the accesses `failing` return an error response. -/
  | accessErrorResponse (a : Activity) (failing : List Access)
  /-- LATE_RESPONSE: a response arrives after its access has been given up. -/
  | lateResponse
  /-- RESET_PIN_RELEASE: the reset pin is released. -/
  | resetPinRelease
  deriving DecidableEq, Repr

end Sys2Proof
end

