-- ==== Sys2Proof/Decode.lean ====
section
/-!
DEFINITION. Sys2Proof/Decode.lean: the command a word spells by the bits of spec/opcode_table.json, and the command a
host's access to a register is (R160, R161). No row of the table gives bits (98_reader.md: n_rows_with_fixed 0), so no
word alone spells a command (notes/assumptions/18.md); an offset and a word do.
-/
namespace Sys2Proof

/-- The command spelled by an `nbits`-bit word `w`: none, whatever the word. -/
def decodeTableWord (_nbits _w : Nat) : Option Instr := none

/-! ### Register accesses (R160) -/

/-- The word offset of a register from the register base (R160). -/
def Register.offset : Register → Nat
  | .anchor => 0x00
  | .control => 0x04
  | .state => 0x08
  | .events => 0x0C
  | .enable => 0x10
  | .nudge => 0x14
  | .fault => 0x18

/-- The register at an offset; the part has seven (R160). -/
def registerAt (offset : Nat) : Option Register :=
  [Register.anchor, .control, .state, .events, .enable, .nudge, .fault].find? (fun r => decide (r.offset = offset))

/-- A write to CONTROL (R160, R161): bit 0 START, 1 RESET, 2 REST_REQ, 3 WAKE, 4 HOLD_REQ; RESET prevails over all,
START is named before WAKE and WAKE before REST_REQ, and the row's operands carry the other bits
(notes/assumptions/1.md). -/
def controlWrite (w : Word) : Instr :=
  if w.getLsbD 1 then .controlReset (w &&& ~~~2#32)
  else if w.getLsbD 0 then .start (w.getLsbD 2) (w.getLsbD 3) (w.getLsbD 4)
  else if w.getLsbD 3 then .wake (w.getLsbD 2) (w.getLsbD 4)
  else if w.getLsbD 2 then .restReq (w.getLsbD 4)
  else if w.getLsbD 4 then .holdReqSet
  else .holdReqClear

/-- A write to NUDGE (R160): bits 1:0 chain number, bit 8 restart. -/
def nudgeWrite (w : Word) : Instr :=
  if w.getLsbD 8 then .nudgeRestart (w.extractLsb' 0 2) else .nudge (w.extractLsb' 0 2)

/-- A write to EVENTS (R160, R162): one with none of the eleven flag bits is a write to bits with no function. -/
def eventsWrite (w : Word) : Instr :=
  if w.setWidth 11 = 0#11 then .registerWriteIgnored .events w else .eventsClear w

/-- The command a write of `w` to a register is; writes to STATE and FAULT are ignored (R160). -/
def Register.write (w : Word) : Register → Instr
  | .anchor => .anchorWrite w
  | .control => controlWrite w
  | .state => .registerWriteIgnored .state w
  | .events => eventsWrite w
  | .enable => .enableWrite w
  | .nudge => nudgeWrite w
  | .fault => .registerWriteIgnored .fault w

/-- The command a write of `w` at an offset from the register base is; none where no register stands (R160). -/
def commandOfWrite (offset : Nat) (w : Word) : Option Instr := (registerAt offset).map (Register.write w)

/-- The command a read at an offset is: FAULT_READ for FAULT; a read of another register has no effect on the part and
is no command (R160). What a read returns is Machine.readRegister. -/
def commandOfRead (offset : Nat) : Option Instr := if offset = Register.fault.offset then some .faultRead else none

end Sys2Proof
end

