-- ==== Sys2Proof/Config.lean ====
section
/-!
DEFINITION. Sys2Proof/Config.lean: the fixed sizes the manual states, and the free values, which have no body:
nothing in Lean can evaluate one, so a statement about a free value holds whatever it is (notes/assumptions/14.md).
Each free value is applied to State.freeCount, which every evaluated inspection advances.
-/
namespace Sys2Proof.Config

/-- Bytes of one slip (R131). -/
def slipBytes : Nat := 512

/-- Entries the journal holds at most (R103). -/
def journalCapacity : Nat := 256

/-- Elements walked at most in one token (R40). -/
def elementLimit : Nat := 12

/-- The largest clock value, evaluation time and own inspection count (R2, R20). -/
def maxWord : Nat := 4294967295

/-- One more than the largest value of the 48-bit arithmetic (R26, R80). -/
def limit48 : Nat := 281474976710656

/-- FREE VALUE. A product or sum of the fare arithmetic that exceeds 48 bits: R80 states no result for it (it
cannot arise from tables that passed the walk). Arguments: the counter and the exact value. -/
opaque beyond48 : Nat → Nat → BitVec 48

/-- FREE VALUE. The end of validity under a rule code that is none of R28's three (a product table rewritten
outside a hold). Argument: the counter. -/
opaque validityEnd : Nat → BitVec 48

/-- FREE VALUE. The class percent for a class that is neither 1 nor 2 (R77; a product table rewritten outside a
hold). Argument: the counter. -/
opaque classPercent : Nat → BitVec 16

/-- FREE VALUE. Whether token fields are read most-significant byte first under a byte order that is neither 0 nor
1 (R45; a profile rewritten outside a hold). Argument: the counter. -/
opaque msbFirst : Nat → Bool

end Sys2Proof.Config
end

