-- ==== Sys2Proof/Machine/State.lean ====
section
/-!
DEFINITION. Sys2Proof/Machine/State.lean: every piece of state the manual gives the part, as plain data, with the
shared memory it works in and the queue of commands; State.reset is the part after power-on.
-/
namespace Sys2Proof.Machine

/-- Why a step stops with a fault. The manual gives the part no command that stops it: every error it describes is
a value of its own state (HALTED, UNUSABLE, BROKEN and the FAULT record), so nothing is here and nobody raises one.
Safe: a machine that never stops hides no behaviour. -/
inductive Fault where
  deriving DecidableEq, Repr

/-- Why a command is refused. -/
inductive Refusal where
  /-- Raised by an arm of exec whose command has no meaning yet (none today). Safe: nothing is claimed of it. -/
  | notModelled (mnemonic : String)
  deriving DecidableEq, Repr

/-! ### Link Port (11_link_port_registers_and_power.md) -/

/-- The part states (R164). -/
inductive PartState where
  | idle
  | starting
  | running
  | resting
  | halted
  deriving DecidableEq, Repr

/-- The two windows captured from the anchor block at START (R159): base and limit of each, as taken. -/
structure Windows where
  slipBase : Word
  slipLimit : Word
  tableBase : Word
  tableLimit : Word
  deriving DecidableEq, Repr

/-- The fault held by the FAULT record, with its detail (R163). -/
inductive FaultDetail where
  /-- Class CHAIN: the chain and the link concerned. -/
  | chain (c : Chain) (link : Link)
  /-- Class TABLE: the slot and the check, 1 to 16 (R59). -/
  | table (slot : Byte) (check : Byte)
  /-- Class PART: the anchor check, 1 to 6 (R158). -/
  | part (check : BitVec 4)
  deriving DecidableEq, Repr

/-! ### Slip Scheduler (09_slips_and_chains.md) -/

/-- The chain states, PARKED with its park reason (R135, R160). -/
inductive ChainState where
  | empty
  | ahead
  | active
  | parkedOnStage
  | parkedOnLink
  | broken
  deriving DecidableEq, Repr

/-- The Scheduler's record of one chain (R135), with the re-read of the tail's link that R140 says may be under
way. -/
structure ChainRec where
  state : ChainState
  cursor : Link
  tail : Link
  pendingNudge : Bool
  restartRemembered : Bool
  rereading : Bool
  deriving DecidableEq, Repr

/-- How far the slip in flight has come: its kind is being worked, or it is answered and awaits its follow-up
(R138, R139). -/
inductive Progress where
  | working
  | answered
  deriving DecidableEq, Repr

/-- The record of the slip in flight: its chain and kind (R135), its progress, and the clock value read when it was
taken, the evaluation time of an INSPECT (R22). -/
structure InFlight where
  chain : Chain
  kind : Byte
  progress : Progress
  evalTime : Word
  deriving DecidableEq, Repr

/-! ### Table Access Unit (04_network_tables.md, 10_table_hold_and_revalidation.md) -/

/-- The table access states (R148). The grant is given exactly while HELD; a walk is under way exactly while
CHECKING. -/
inductive TableState where
  | unusable
  | checking
  | usable
  | held
  deriving DecidableEq, Repr

/-! ### Trip Context Unit (01_the_trip_context.md) -/

/-- The trip states (R1). -/
inductive TripState where
  | noTrip
  | inTrip
  deriving DecidableEq, Repr

/-- One claim: a network id and the zone id of that network (R3). -/
structure Claim where
  network : Byte
  zone : Byte
  deriving DecidableEq, Repr

/-- One section of the route plan copy: its distance and its claim list (R5). -/
structure RouteSection where
  distance : Half
  claims : List Claim
  deriving DecidableEq, Repr

/-- The trip context (R2). The section count N is the length of the route plan copy. -/
structure TripContext where
  state : TripState
  ownId : Byte
  plan : List RouteSection
  priority : List Byte
  fallback : Byte
  current : Byte
  delay : Byte
  horizon : Byte
  reachCount : Byte
  reachMinutes : Byte
  lo : Byte
  hi : Byte
  cap : Word
  ownCount : Word
  deriving DecidableEq, Repr

/-! ### Inspection Journal (07_the_inspection_journal.md, 08_amendment_windows.md) -/

/-- The verdicts (R87). -/
inductive Verdict where
  | valid
  | noted
  | excess
  | challenge
  | invalid
  deriving DecidableEq, Repr

/-- The outcomes of a journal entry (R104). -/
inductive Outcome where
  | none
  | settled
  | waived
  | confirmed
  | voided
  deriving DecidableEq, Repr

/-- An open amendment window: remaining count and remaining minutes (R120). -/
structure Window where
  count : Byte
  minutes : Byte
  deriving DecidableEq, Repr

/-- A journal entry (R104). A closed or absent window is `none`. -/
structure Entry where
  originId : Byte
  originNumber : Half
  issuer : Byte
  serial : Serial
  section_ : Byte
  time : Word
  adults : Byte
  children : Byte
  verdict : Verdict
  outcome : Outcome
  window : Option Window
  deriving DecidableEq, Repr

/-- The journal's state (R103). The entry list is in insertion order, oldest first. -/
structure Journal where
  entries : List Entry
  ownCounter : Half
  wrapped : Bool
  evictedThrough : Word
  deriving DecidableEq, Repr

/-! ### The whole state -/

/-- The state of the part, the shared memory it works in, and the queue of commands. -/
structure State where
  /-- Part state (R164). -/
  part : PartState
  /-- ANCHOR (R157). -/
  anchor : Word
  /-- The captured windows; none before an anchor has been accepted (R159, R167). -/
  windows : Option Windows
  /-- The HOLD_REQ level (R150). -/
  holdReq : Bool
  /-- A rest request is pending (R165). -/
  restPending : Bool
  /-- EVENTS, one bit per flag in the register's positions (R160, R162). -/
  events : BitVec 11
  /-- ENABLE, same positions (R160). -/
  enable : BitVec 11
  /-- The FAULT record: nothing or one fault (R163). -/
  faultRecord : Option FaultDetail
  /-- MORE (R163). -/
  faultMore : Bool
  /-- The model's own field: what the last read of FAULT returned (notes/assumptions/11.md). -/
  readData : Word
  /-- The reset pin is held (R167). -/
  resetHeld : Bool
  /-- The record of the interactive chain (R135). -/
  interactive : ChainRec
  /-- The record of the background chain (R135). -/
  background : ChainRec
  /-- The slip in flight (R135). -/
  inFlight : Option InFlight
  /-- The chain whose cursor slip is under examination (R137). -/
  examining : Option Chain
  /-- The phase table; empty while none is held (R143). -/
  phaseTable : List Chain
  /-- The phase pointer p (R143). -/
  phase : Fin 16
  /-- Table access state (R148). -/
  tables : TableState
  /-- The directory snapshot: 16 slots, each empty or holding a profile offset (R50). -/
  snapshot : List (Option Word)
  /-- The trip context (R2). -/
  trip : TripContext
  /-- The clock value (R19). -/
  clock : Word
  /-- The clock's running state: RUNNING or STOPPED (R19). -/
  clockRunning : Bool
  /-- The Inspection Journal (R103). -/
  journal : Journal
  /-- The shared memory: address and byte, addresses strictly rising, no byte equal to what an unlisted address
  reads as (Memory.wf in Machine/Ops.lean). -/
  mem : List Host.Cell
  /-- The model's own field: the counter the free values are applied to (notes/assumptions/15.md). -/
  freeCount : Nat
  /-- The commands waiting, the next one first. -/
  pending : List Instr
  deriving DecidableEq, Repr

/-- A chain record after every reset (R135). -/
def ChainRec.reset : ChainRec :=
  { state := .empty, cursor := 0, tail := 0, pendingNudge := false, restartRemembered := false, rereading := false }

/-- The trip context in NO_TRIP: the last column of R2. -/
def TripContext.none : TripContext :=
  { state := .noTrip, ownId := 0, plan := [], priority := [], fallback := 0, current := 0, delay := 0, horizon := 0,
    reachCount := 0, reachMinutes := 0, lo := 0, hi := 0, cap := 0, ownCount := 0 }

/-- The journal when it has been emptied (R103, R105). -/
def Journal.empty : Journal :=
  { entries := [], ownCounter := 0, wrapped := false, evictedThrough := 0 }

/-- The snapshot after every reset: every slot empty (R50). -/
def emptySnapshot : List (Option Word) := List.replicate 16 Option.none

/-- The part after power-on (R167), with no command waiting and nothing listed in the shared memory. The reset pin
is taken as released, the model's own fields are 0 (notes/assumptions/3.md, 11.md, 12.md, 15.md). -/
def State.reset : State :=
  { part := .idle, anchor := 0, windows := Option.none, holdReq := false, restPending := false, events := 0,
    enable := 0, faultRecord := Option.none, faultMore := false, readData := 0, resetHeld := false,
    interactive := .reset, background := .reset, inFlight := Option.none, examining := Option.none, phaseTable := [],
    phase := 0, tables := .unusable, snapshot := emptySnapshot, trip := .none, clock := 0, clockRunning := false,
    journal := .empty, mem := [], freeCount := 0, pending := [] }

/-- The outcomes of a command's meaning. -/
abbrev Answer := Host.Outcome State Fault Refusal

end Sys2Proof.Machine
end

