-- ==== Sys2Proof/Machine/Flags.lean ====
section
/-!
DEFINITION. Sys2Proof/Machine/Flags.lean: the event flags and the ATTN line (R162), the coded fields of the register
set and the words the registers read as (R160, R163), and the set fields of the verdict record (R168, R174).
-/
namespace Sys2Proof.Machine

/-- The eleven events, in the bit order of EVENTS (R160). -/
inductive Event where
  | started
  | intAnswer
  | bgAnswer
  | holdGrant
  | clockStep
  | timeReject
  | journalWrap
  | chainFault
  | tableFault
  | partFault
  | restEntered
  deriving DecidableEq, Repr

/-- The bit of an event in EVENTS and ENABLE (R160). -/
def Event.bit : Event → Nat
  | .started => 0
  | .intAnswer => 1
  | .bgAnswer => 2
  | .holdGrant => 3
  | .clockStep => 4
  | .timeReject => 5
  | .journalWrap => 6
  | .chainFault => 7
  | .tableFault => 8
  | .partFault => 9
  | .restEntered => 10

/-- The event's flag alone. -/
def Event.mask (e : Event) : BitVec 11 := BitVec.ofNat 11 (2 ^ e.bit)

/-- A block reports an event: its flag is set, whether or not it is enabled, and stays set if it was (R162). -/
def State.raise (e : Event) (s : State) : State := { s with events := s.events ||| e.mask }

/-- The flag of an event, as EVENTS shows it. -/
def State.flag (s : State) (e : Event) : Bool := s.events.getLsbD e.bit

/-- The ATTN line: asserted while at least one flag is set together with its enable (R162). -/
def attn (s : State) : Bool := decide (s.events &&& s.enable ≠ 0#11)

/-- The answer event of a chain (R133). -/
def answerEvent : Chain → Event
  | .interactive => .intAnswer
  | .background => .bgAnswer

/-! ### Register words -/

/-- The chain number (09_slips_and_chains.md). -/
def chainCode : Chain → Nat
  | .interactive => 0
  | .background => 1

/-- Part state codes (R160). -/
def PartState.code : PartState → Nat
  | .idle => 0
  | .starting => 1
  | .running => 2
  | .resting => 3
  | .halted => 4

/-- Chain state codes (R160). -/
def ChainState.code : ChainState → Nat
  | .empty => 0
  | .ahead => 1
  | .active => 2
  | .parkedOnStage => 3
  | .parkedOnLink => 4
  | .broken => 5

/-- Trip state codes (R160). -/
def TripState.code : TripState → Nat
  | .noTrip => 0
  | .inTrip => 1

/-- Table access state codes (R160). -/
def TableState.code : TableState → Nat
  | .unusable => 0
  | .checking => 1
  | .usable => 2
  | .held => 3

/-- A Bool as a bit. -/
def bit (b : Bool) : Nat := if b then 1 else 0

/-- The grant is given exactly while the table access state is HELD (R148). -/
def State.granted (s : State) : Bool := decide (s.tables = .held)

/-- STATE as read (R160): part state 2:0, interactive chain 6:4, background chain 10:8, trip state 12, table access
state 17:16, hold granted 20, rest pending 21. -/
def stateWord (s : State) : Word :=
  BitVec.ofNat 32 (s.part.code + 2 ^ 4 * s.interactive.state.code + 2 ^ 8 * s.background.state.code
    + 2 ^ 12 * s.trip.state.code + 2 ^ 16 * s.tables.code + 2 ^ 20 * bit s.granted + 2 ^ 21 * bit s.restPending)

/-- Class and detail of a held fault in their places of FAULT (R163). -/
def FaultDetail.code : FaultDetail → Nat
  | .chain c link => 1 + 2 ^ 4 * chainCode c + 2 ^ 8 * link.toNat
  | .table slot check => 2 + 2 ^ 8 * slot.toNat + 2 ^ 16 * check.toNat
  | .part check => 3 + 2 ^ 8 * check.toNat

/-- FAULT as read: class 1:0, MORE 3, detail 31:4 (R160, R163); an empty record reads class 0 and detail 0. -/
def faultWord (s : State) : Word :=
  BitVec.ofNat 32 ((match s.faultRecord with | none => 0 | some d => d.code) + 2 ^ 3 * bit s.faultMore)

/-- What a read of a register returns (R160): CONTROL reads back HOLD_REQ in bit 4, NUDGE reads 0. -/
def readRegister (s : State) : Register → Word
  | .anchor => s.anchor
  | .control => BitVec.ofNat 32 (2 ^ 4 * bit s.holdReq)
  | .state => stateWord s
  | .events => s.events.setWidth 32
  | .enable => s.enable.setWidth 32
  | .nudge => 0
  | .fault => faultWord s

/-! ### Set fields of the verdict record -/

/-- The INVALID causes (R88). -/
inductive Cause where
  | malformed
  | unknownIssuer
  | unknownProduct
  | denied
  | authFailed
  | expired
  | notYetValid
  deriving DecidableEq, Repr

/-- The causes in reason order (R88). -/
def Cause.inOrder : List Cause :=
  [.malformed, .unknownIssuer, .unknownProduct, .denied, .authFailed, .expired, .notYetValid]

/-- The reason code that reports a cause (R88). -/
def Cause.code : Cause → Nat
  | .malformed => 1
  | .unknownIssuer => 2
  | .unknownProduct => 3
  | .denied => 4
  | .authFailed => 5
  | .expired => 6
  | .notYetValid => 7

/-- The reason of a cause set: the member that stands first in reason order, or 0 (R88). -/
def reasonCode (causes : List Cause) : Nat :=
  match Cause.inOrder.find? (fun c => causes.contains c) with
  | none => 0
  | some c => c.code

/-- The cause set field: bit (code - 1) for each cause (R174). -/
def causeBits (causes : List Cause) : Nat :=
  (Cause.inOrder.map (fun c => if causes.contains c then 2 ^ (c.code - 1) else 0)).sum

/-- The notes (R90). -/
inductive Note where
  | grace
  | delay
  | watch
  | idCheck
  | reseen
  | reseenPeer
  | unverified
  | travellersClamped
  | spanClamped
  | partialHistory
  deriving DecidableEq, Repr

/-- The notes in the bit order of the note set (R174). -/
def Note.inOrder : List Note :=
  [.grace, .delay, .watch, .idCheck, .reseen, .reseenPeer, .unverified, .travellersClamped, .spanClamped,
    .partialHistory]

/-- The bit of a note in the note set field (R174). -/
def Note.bit : Note → Nat
  | .grace => 0
  | .delay => 1
  | .watch => 2
  | .idCheck => 3
  | .reseen => 4
  | .reseenPeer => 5
  | .unverified => 6
  | .travellersClamped => 7
  | .spanClamped => 8
  | .partialHistory => 9

/-- The note set field (R174). -/
def noteBits (notes : List Note) : Nat :=
  (Note.inOrder.map (fun n => if notes.contains n then 2 ^ n.bit else 0)).sum

/-- The arithmetic flags field: bit 0 ROUNDED, bit 1 SURCHARGED, bit 2 CAPPED (R174). -/
def flagBits (rounded surcharged capped : Bool) : Nat := bit rounded + 2 * bit surcharged + 4 * bit capped

/-- The answer flags of a POSITION: bit 0 STEPPED, bit 1 TIME_NOT_ADOPTED (R173). -/
def positionFlagBits (stepped notAdopted : Bool) : Nat := bit stepped + 2 * bit notAdopted

end Sys2Proof.Machine
end

