-- ==== Sys2Proof/Machine/Ops.lean ====
section
/-!
DEFINITION. Sys2Proof/Machine/Ops.lean: the named operations every meaning is built from: the shared memory and the
Link Port's accesses to it (R156, R168), the FAULT record (R163), the chain records and what a fault on a chain does
(R134, R145, R146), the answer of a slip (R132, R169), the hold grant (R151) and the reset (R167).
-/
namespace Sys2Proof.Machine

/-! ### The shared memory -/

/-- What a byte of shared memory that nothing has written reads as (DESIGN CHOICE, notes/assumptions/3.md). -/
def Memory.unlisted : Byte := 0

/-- One more than the highest address of the shared memory: addresses are 32 bits (R170). -/
def Memory.size : Nat := 4294967296

/-- Read one byte. -/
def Memory.read : List Host.Cell → Nat → Byte
  | [], _ => Memory.unlisted
  | (k, v) :: rest, a => if a = k then v else Memory.read rest a

/-- Write one byte, keeping the canonical form: addresses rise, and a byte written as what an unlisted address reads
as leaves the list. -/
def Memory.write : List Host.Cell → Nat → Byte → List Host.Cell
  | [], a, b => if b = Memory.unlisted then [] else [(a, b)]
  | (k, v) :: rest, a, b =>
    if a < k then (if b = Memory.unlisted then (k, v) :: rest else (a, b) :: (k, v) :: rest)
    else if a = k then (if b = Memory.unlisted then rest else (a, b) :: rest)
    else (k, v) :: Memory.write rest a b

/-- The canonical form: addresses strictly rising and inside the address space, no byte equal to what an unlisted
address reads as. -/
def Memory.wf : List Host.Cell → Bool
  | [] => true
  | (k, v) :: rest =>
    decide (v ≠ Memory.unlisted) && decide (k < Memory.size) && rest.all (fun c => decide (k < c.1))
      && Memory.wf rest

/-- What the host (or anything else outside the part) does when it stores a byte: between commands, at any address
of the 32-bit space (notes/assumptions/4.md). -/
def State.hostStore (s : State) (a : Word) (b : Byte) : State := { s with mem := Memory.write s.mem a.toNat b }

/-- A run of host stores from address `a` up. -/
def State.hostStoreAll (s : State) : Nat → List Byte → State
  | _, [] => s
  | a, b :: bs => State.hostStoreAll (s.hostStore (BitVec.ofNat 32 a) b) (a + 1) bs

/-! ### Byte order -/

/-- Little-endian value of bytes, first byte least significant (R168). -/
def leNat : List Byte → Nat
  | [] => 0
  | b :: bs => b.toNat + 256 * leNat bs

/-- The `n` bytes of a value, least significant first (R168); the value is taken modulo 2^(8 n). -/
def leBytes : Nat → Nat → List Byte
  | 0, _ => []
  | n + 1, v => BitVec.ofNat 8 v :: leBytes n (v / 256)

/-- A two-byte or wider field read as two's complement (R168). -/
def signedOf (bits v : Nat) : Int := if v < 2 ^ (bits - 1) then v else (v : Int) - 2 ^ bits

/-! ### Accesses through the Link Port -/

/-- Bytes `a` to `a + n - 1`, in address order, by a reader that may fail at any of them. -/
def readBytes (get : Nat → Option Byte) : Nat → Nat → Option (List Byte)
  | _, 0 => some []
  | a, n + 1 =>
    match get a with
    | none => none
    | some b =>
      match readBytes get (a + 1) n with
      | none => none
      | some bs => some (b :: bs)

/-- A little-endian field of `n` bytes at `a`. -/
def readField (get : Nat → Option Byte) (a n : Nat) : Option Nat :=
  match readBytes get a n with
  | none => none
  | some bs => some (leNat bs)

/-- The Link Port's own test: the byte lies inside one of the two windows (R156). -/
def Windows.admits (w : Windows) (a : Nat) : Bool :=
  decide (w.slipBase.toNat ≤ a ∧ a ≤ w.slipLimit.toNat) || decide (w.tableBase.toNat ≤ a ∧ a ≤ w.tableLimit.toNat)

/-- Whether the two captured windows admit a byte; none captured admits nothing. -/
def State.admits (s : State) (a : Nat) : Bool :=
  match s.windows with
  | none => false
  | some w => w.admits a

/-- The address of the slip a link names: slip window base plus 16 times the link, computed exactly (R134). -/
def State.slipAddress (s : State) (l : Link) : Nat :=
  match s.windows with
  | none => 0
  | some w => w.slipBase.toNat + 16 * l.toNat

/-- A nonzero link is valid when the whole slip lies inside the slip window (R134). -/
def State.linkValid (s : State) (l : Link) : Bool :=
  match s.windows with
  | none => false
  | some w => decide (l ≠ 0#24) && decide (w.slipBase.toNat + 16 * l.toNat + 511 ≤ w.slipLimit.toNat)

/-- A read of byte `o` of the slip at link `l`; `none` is an access error (R145, R156). -/
def State.slipByte (s : State) (failing : List Access) (l : Link) (o : Nat) : Option Byte :=
  if failing.contains (.slipRead o) then none
  else if s.admits (s.slipAddress l + o) then some (Memory.read s.mem (s.slipAddress l + o)) else none

/-- A read of a byte of the anchor block at ANCHOR; its reads are not tested against the windows (R156). -/
def State.anchorByte (s : State) (failing : List Access) (o : Nat) : Option Byte :=
  if failing.contains (.anchorRead o) then none else some (Memory.read s.mem (s.anchor.toNat + o))

/-- A read of a byte of the table window, at address `a`, on behalf of network `slot` (255: none). -/
def State.tableByte (s : State) (failing : List Access) (slot : Byte) (a : Nat) : Option Byte :=
  if failing.contains (.tableRead slot a) then none
  else if s.admits a then some (Memory.read s.mem a) else none

/-- Writes of the part into a slip at address `base`: each item is the access, the offset and the byte. They are
made in order and end at the first that meets an access error, which is treated as not made (R145, R156). What the
memory holds at that byte R156 leaves open; it keeps what it held, the model's choice (notes/assumptions/6.md). -/
def storeAll (admits : Nat → Bool) (failing : List Access) (base : Nat) :
    List (Access × Nat × Byte) → List Host.Cell → List Host.Cell × Bool
  | [], m => (m, true)
  | (a, o, b) :: rest, m =>
    if failing.contains a || !admits (base + o) then (m, false)
    else storeAll admits failing base rest (Memory.write m (base + o) b)

/-- The writes of bytes at consecutive offsets from `o` up. -/
def slipWrites : Nat → List Byte → List (Access × Nat × Byte)
  | _, [] => []
  | o, b :: bs => (.slipWrite o, o, b) :: slipWrites (o + 1) bs

/-- Make writes into the slip at link `l`. -/
def State.storeSlip (s : State) (failing : List Access) (l : Link) (items : List (Access × Nat × Byte)) :
    List Host.Cell × Bool :=
  storeAll s.admits failing (s.slipAddress l) items s.mem

/-! ### The FAULT record -/

/-- A fault is offered: captured by an empty record with MORE clear, else only MORE is set (R163). -/
def State.offerFault (d : FaultDetail) (s : State) : State :=
  match s.faultRecord with
  | none => { s with faultRecord := some d, faultMore := false }
  | some _ => { s with faultMore := true }

/-- A table fault: UNUSABLE, TABLE_FAULT, and the fault offered with its slot and check (R59, R65, R11). -/
def State.tableFault (slot : Byte) (check : Nat) (s : State) : State :=
  ({ s with tables := .unusable }.raise .tableFault).offerFault (.table slot (BitVec.ofNat 8 check))

/-! ### Chain records -/

/-- The record of a chain. -/
def State.chain (s : State) : Chain → ChainRec
  | .interactive => s.interactive
  | .background => s.background

/-- Replace the record of a chain. -/
def State.setChain (c : Chain) (r : ChainRec) (s : State) : State :=
  match c with
  | .interactive => { s with interactive := r }
  | .background => { s with background := r }

/-- The other chain. -/
def otherChain : Chain → Chain
  | .interactive => .background
  | .background => .interactive

/-- A BROKEN chain's record: no cursor, tail or flags in use (R146; both links held as 0,
notes/assumptions/13.md). -/
def ChainRec.broken : ChainRec := { ChainRec.reset with state := .broken }

/-- A chain AHEAD at a link, with no tail and no flag (R136, R141). -/
def ChainRec.aheadAt (l : Link) : ChainRec := { ChainRec.reset with state := .ahead, cursor := l }

/-- A chain becomes BROKEN: CHAIN_FAULT, and the fault offered with the chain and the link (R134, R145, R146). -/
def State.breakChain (c : Chain) (l : Link) (s : State) : State :=
  ((s.setChain c .broken).raise .chainFault).offerFault (.chain c l)

/-- The work on the slip in flight ends on an access error (R145): nothing is in flight, its chain is BROKEN. -/
def State.endOnFault (f : InFlight) (s : State) : State :=
  { s with inFlight := none }.breakChain f.chain (s.chain f.chain).cursor

/-- Where a chain's head stands in the anchor block (R170). -/
def headOffset : Chain → Nat
  | .interactive => 20
  | .background => 24

/-- The record a head read from the anchor block gives (R136, R141). -/
def State.setHead (c : Chain) (h : Link) (s : State) : State :=
  if h = 0#24 then s.setChain c .reset
  else if s.linkValid h then s.setChain c (.aheadAt h)
  else s.breakChain c h

/-- A restart reads the chain's head and takes it, both flags cleared and the tail 0; an access error makes the
chain BROKEN with link 0 in the detail (R141). -/
def State.takeHead (failing : List Access) (c : Chain) (s : State) : State :=
  match readField (s.anchorByte failing) (headOffset c) 3 with
  | none => s.breakChain c 0#24
  | some h => s.setHead c (BitVec.ofNat 24 h)

/-! ### The answer of a slip -/

/-- The refusal reasons (R133). -/
inductive Reason where
  | kindUnknown
  | wrongChain
  | noTrip
  | tripActive
  | tablesUnusable
  | tableRead
  | badField
  | badRoute
  | badNetwork
  | positionBackward
  | notFound
  | late
  | notAmendable
  deriving DecidableEq, Repr

/-- The reason codes (R133). -/
def Reason.code : Reason → Nat
  | .kindUnknown => 1
  | .wrongChain => 2
  | .noTrip => 3
  | .tripActive => 4
  | .tablesUnusable => 5
  | .tableRead => 6
  | .badField => 7
  | .badRoute => 8
  | .badNetwork => 9
  | .positionBackward => 10
  | .notFound => 11
  | .late => 12
  | .notAmendable => 13

/-- The answer code field: DONE 1, REFUSED 2 (R131). -/
def answerCode : Option Reason → Byte
  | none => 1
  | some _ => 2

/-- The reason field: 0 with DONE (R133). -/
def reasonField : Option Reason → Byte
  | none => 0
  | some r => BitVec.ofNat 8 r.code

/-- The part stamp: the clock value, or 0 when no trip is in force (R22). -/
def State.stamp (s : State) : Word := if s.trip.state = .inTrip then s.clock else 0#32

/-- The writes of an answer in the order of R132: the body results, then answer code and reason, then the part
stamp, then the stage ANSWERED. -/
def answerWrites (resultAt : Nat) (result : List Byte) (refusal : Option Reason) (stamp : Word) :
    List (Access × Nat × Byte) :=
  slipWrites resultAt result ++
    ((.slipWrite 2, 2, answerCode refusal) :: (.slipWrite 3, 3, reasonField refusal) ::
      (slipWrites 12 (leBytes 4 stamp.toNat) ++ [(.stageWrite .answered, 0, 3#8)]))

/-- The slip in flight `f` is answered: its result area at `resultAt`, its answer code and reason, the stamp, the
stage, and the answer event of its chain (R132, R133, R169). An access error on any of the writes ends the work and
makes the chain BROKEN, with the bytes before it written and no answer event (R145). -/
def State.answer (failing : List Access) (f : InFlight) (resultAt : Nat) (result : List Byte)
    (refusal : Option Reason) (s : State) : State :=
  let stored := s.storeSlip failing (s.chain f.chain).cursor (answerWrites resultAt result refusal s.stamp)
  if stored.2 then
    { s with mem := stored.1, inFlight := some { f with progress := .answered } }.raise (answerEvent f.chain)
  else { s with mem := stored.1 }.endOnFault f

/-- The slip in flight while its kind is being worked, if that kind is `kind`. -/
def State.working (s : State) (kind : Byte) : Option InFlight :=
  match s.inFlight with
  | none => none
  | some f => if f.kind = kind ∧ f.progress = .working then some f else none

/-! ### Hold and rest -/

/-- No slip is in flight and no examination is under way (R151, R152, R165). -/
def State.free (s : State) : Bool := s.inFlight.isNone && s.examining.isNone

/-- The part is RUNNING or RESTING. -/
def State.awake (s : State) : Bool := decide (s.part = .running ∨ s.part = .resting)

/-- The conditions of the grant (R151). -/
def State.mayGrant (s : State) : Bool := s.holdReq && s.awake && !s.granted && s.free

/-- The grant: HELD, and HOLD_GRANT reported; a walk under way is abandoned and the snapshot kept (R151). -/
def State.grant (s : State) : State := { s with tables := .held }.raise .holdGrant

/-- The grant, if its conditions hold. -/
def State.grantIfFree (s : State) : State := if s.mayGrant then s.grant else s

/-- The conditions of the rest besides a request: no slip in flight, no examination under way, not CHECKING
(R165). -/
def State.mayRest (s : State) : Bool := s.free && decide (s.tables ≠ .checking)

/-- The rest is given: the pending flag clears, the part enters RESTING and REST_ENTERED is raised (R165). -/
def State.rest (s : State) : State := { s with restPending := false, part := .resting }.raise .restEntered

/-! ### Reset -/

/-- Every piece of state of the part takes its reset value; the shared memory, the level of the reset pin, what the
last FAULT read returned, the free-value counter and the queue are not the part's and stand (R167,
notes/assumptions/12.md). `anchor` is what ANCHOR takes. -/
def State.resetTo (anchor : Word) (s : State) : State :=
  { State.reset with
    anchor := anchor, mem := s.mem, resetHeld := s.resetHeld, readData := s.readData, freeCount := s.freeCount,
    pending := s.pending }

end Sys2Proof.Machine
end

