-- ==== Sys2Proof/Machine/Operands.lean ====
section
/-!
DEFINITION. Sys2Proof/Machine/Operands.lean: the operand forms, that is the record layouts of 12_record_layouts.md:
how each request, table record and anchor block is read, field by field, and the bytes of each result area. A reader
takes the access to one byte as an argument, so that any of its reads may fail; reserved bytes are not read (R168).
-/
namespace Sys2Proof.Machine

/-- `n` zero bytes: reserved bytes of a result area, and results left at 0 (R168, R169). -/
def zeros (n : Nat) : List Byte := List.replicate n 0#8

/-- One byte of a value. -/
def byteOf (v : Nat) : Byte := BitVec.ofNat 8 v

/-! ### Coded fields of the journal -/

/-- Verdict codes (R87). -/
def Verdict.code : Verdict → Nat
  | .valid => 1
  | .noted => 2
  | .excess => 3
  | .challenge => 4
  | .invalid => 5

/-- The verdict a code stands for; 0 and 6 upward stand for none (R87). -/
def verdictOf : Nat → Option Verdict
  | 1 => some .valid
  | 2 => some .noted
  | 3 => some .excess
  | 4 => some .challenge
  | 5 => some .invalid
  | _ => none

/-- Outcome codes (R104). -/
def Outcome.code : Outcome → Nat
  | .none => 0
  | .settled => 1
  | .waived => 2
  | .confirmed => 3
  | .voided => 4

/-- The outcome a code stands for (R104). -/
def outcomeOf : Nat → Option Outcome
  | 0 => some .none
  | 1 => some .settled
  | 2 => some .waived
  | 3 => some .confirmed
  | 4 => some .voided
  | _ => none

/-! ### The anchor block (R170) -/

/-- The fields of the anchor block, windows as written. -/
structure AnchorBlock where
  version : Nat
  slipBase : Nat
  slipLimit : Nat
  tableBase : Nat
  tableLimit : Nat
  interactiveHead : Nat
  backgroundHead : Nat
  phase : List Byte
  deriving DecidableEq, Repr

/-- A little-endian field of bytes already read. -/
def fieldOf (bytes : List Byte) (o n : Nat) : Nat := leNat ((bytes.drop o).take n)

/-- The fields of the block taken over by the pass (R170). Reserved bytes and bits 31:24 of a head are not read: no
field rests on them (R168). -/
def anchorFields (bs : List Byte) : AnchorBlock :=
  { version := fieldOf bs 0 1, slipBase := fieldOf bs 4 4, slipLimit := fieldOf bs 8 4,
    tableBase := fieldOf bs 12 4, tableLimit := fieldOf bs 16 4, interactiveHead := fieldOf bs 20 3,
    backgroundHead := fieldOf bs 24 3, phase := (bs.drop 28).take 16 }

/-- The anchor read of START: one pass over the whole block, 64 bytes, which fails when any of its accesses does (R156,
R157, R158 check 1), and then the fields of what it took over. That the pass covers the bytes that R168 keeps from
being read as fields is DEDUCED (notes/assumptions/28.md). -/
def readAnchorBlock (get : Nat → Option Byte) : Option AnchorBlock := (readBytes get 0 64).map anchorFields

/-- A window base is taken with its low 12 bits as zero (R159). -/
def baseOf (v : Nat) : Nat := v - v % 4096

/-- A window limit is taken with its low 12 bits as all ones (R159). -/
def limitOf (v : Nat) : Nat := v - v % 4096 + 4095

/-! ### Slip requests -/

/-- The request fields of a TRIP BEGIN after the form (R172); the priority list up to the count (R9). -/
structure TripRequest where
  ownId : Nat
  priorityCount : Nat
  fallback : Nat
  priority : List Byte
  planOffset : Nat
  start : Nat
  horizon : Nat
  reachCount : Nat
  reachMinutes : Nat
  lo : Nat
  hi : Nat
  startTime : Nat
  cap : Nat
  deriving DecidableEq, Repr

/-- Read the request fields of a TRIP BEGIN in address order, the priority list up to the count (R9). A count of 5 to
255, which the range check refuses, has more entries than the list has bytes; that none of them is then read is the
model's choice (notes/assumptions/19.md). -/
def readTripRequest (get : Nat → Option Byte) : Option TripRequest := do
  let ownId ← readField get 17 1
  let count ← readField get 18 1
  let fallback ← readField get 19 1
  let priority ← readBytes get 20 (if count ≤ 4 then count else 0)
  let planOffset ← readField get 24 4
  let start ← readField get 28 1
  let horizon ← readField get 29 1
  let reachCount ← readField get 30 1
  let reachMinutes ← readField get 31 1
  let lo ← readField get 32 1
  let hi ← readField get 33 1
  let startTime ← readField get 36 4
  let cap ← readField get 40 4
  some { ownId := ownId, priorityCount := count, fallback := fallback, priority := priority,
         planOffset := planOffset, start := start, horizon := horizon, reachCount := reachCount,
         reachMinutes := reachMinutes, lo := lo, hi := hi, startTime := startTime, cap := cap }

/-- The request fields of a POSITION (R173). -/
structure PositionRequest where
  section_ : Nat
  flag : Nat
  delay : Nat
  report : Nat
  deriving DecidableEq, Repr

/-- Read the request fields of a POSITION. The time report is not read when the flag is 0 (R14); that it is not read
either under a flag of 2 to 255, which BAD_FIELD refuses, is the model's choice (notes/assumptions/19.md). -/
def readPositionRequest (get : Nat → Option Byte) : Option PositionRequest := do
  let sec ← readField get 16 1
  let flag ← readField get 17 1
  let delay ← readField get 18 1
  let report ← if flag = 1 then readField get 20 4 else some 0
  some { section_ := sec, flag := flag, delay := delay, report := report }

/-- The request fields of an INSPECT before the token image (R174). -/
structure InspectRequest where
  authenticity : Nat
  presentation : Nat
  seated : Nat
  adults : Nat
  children : Nat
  boarding : Nat
  destination : Nat
  identity : Nat
  selfDeclared : Nat
  length : Nat
  deriving DecidableEq, Repr

/-- Read the request fields of an INSPECT. -/
def readInspectRequest (get : Nat → Option Byte) : Option InspectRequest := do
  let authenticity ← readField get 16 1
  let presentation ← readField get 17 1
  let seated ← readField get 18 1
  let adults ← readField get 19 1
  let children ← readField get 20 1
  let boarding ← readField get 21 1
  let destination ← readField get 22 1
  let identity ← readField get 23 1
  let selfDeclared ← readField get 24 1
  let length ← readField get 25 1
  some { authenticity := authenticity, presentation := presentation, seated := seated, adults := adults,
         children := children, boarding := boarding, destination := destination, identity := identity,
         selfDeclared := selfDeclared, length := length }

/-- Where the token image begins in an INSPECT slip (R174). -/
def imageAt : Nat := 32

/-- The request of an AMEND: entry number and outcome code (R173). -/
def readAmendRequest (get : Nat → Option Byte) : Option (Nat × Nat) := do
  let number ← readField get 16 2
  let outcome ← readField get 18 1
  some (number, outcome)

/-- A peer record of a MERGE (R175). -/
structure PeerRecord where
  originId : Nat
  issuer : Nat
  originNumber : Nat
  serial : Nat
  time : Nat
  section_ : Nat
  verdict : Nat
  outcome : Nat
  deriving DecidableEq, Repr

/-- Where record `i` of a MERGE, counted from 0, begins (R175). -/
def peerRecordAt (i : Nat) : Nat := 32 + 20 * i

/-- Read a peer record. -/
def readPeerRecord (get : Nat → Option Byte) (o : Nat) : Option PeerRecord := do
  let originId ← readField get o 1
  let issuer ← readField get (o + 1) 1
  let number ← readField get (o + 2) 2
  let serial ← readField get (o + 4) 8
  let time ← readField get (o + 12) 4
  let sec ← readField get (o + 16) 1
  let verdict ← readField get (o + 17) 1
  let outcome ← readField get (o + 18) 1
  some { originId := originId, issuer := issuer, originNumber := number, serial := serial, time := time,
         section_ := sec, verdict := verdict, outcome := outcome }

/-- The request of a RECALL: key issuer and serial (R175). -/
def readRecallRequest (get : Nat → Option Byte) : Option (Nat × Nat) := do
  let issuer ← readField get 16 1
  let serial ← readField get 24 8
  some (issuer, serial)

/-! ### Result areas -/

/-- TRIP results start here, 16 bytes (R172). -/
def tripResultAt : Nat := 64

/-- The result area of an accepted TRIP BEGIN (R12, R172), its reserved bytes 0 (R168). That no clock value
stands among them, which the text of R19 has against R12 and R172, is the model's choice (notes/assumptions/25.md). -/
def tripBeginResult (sections priorityCount horizon hi : Nat) : List Byte :=
  leBytes 2 sections ++ [byteOf priorityCount, byteOf horizon, byteOf hi] ++ zeros 11

/-- The result area of an accepted TRIP END (R13, R172). -/
def tripEndResult (discarded own clock : Nat) : List Byte :=
  leBytes 2 discarded ++ zeros 6 ++ leBytes 4 own ++ leBytes 4 clock

/-- POSITION and AMEND results start here, 8 and 4 bytes (R173). -/
def positionResultAt : Nat := 32

/-- The result area of a POSITION (R16, R173). -/
def positionResult (current delay flags clock : Nat) : List Byte :=
  [byteOf current, byteOf delay, byteOf flags, 0#8] ++ leBytes 4 clock

/-- The result area of an AMEND (R127, R173). -/
def amendResult (verdict outcome count minutes : Nat) : List Byte :=
  [byteOf verdict, byteOf outcome, byteOf count, byteOf minutes]

/-- MERGE results start here: four counts and 4 reserved bytes (R175). -/
def mergeResultAt : Nat := 352

/-- The result area of a MERGE (R117, R175). -/
def mergeResult (accepted duplicate updated rejected : Nat) : List Byte :=
  [byteOf accepted, byteOf duplicate, byteOf updated, byteOf rejected] ++ zeros 4

/-- RECALL results start here: match count, 2 reserved bytes, eight places of 24 bytes (R175). -/
def recallResultAt : Nat := 32

/-- Returned places of a RECALL (R118). -/
def recallPlaces : Nat := 8

/-- One returned place: every field of R104, the window's two values or 0 and 0 (R118, R175). -/
def placeBytes (e : Entry) : List Byte :=
  [e.originId, e.issuer] ++ leBytes 2 e.originNumber.toNat ++ leBytes 8 e.serial.toNat ++ leBytes 4 e.time.toNat
    ++ [e.section_, e.adults, e.children, byteOf e.verdict.code, byteOf e.outcome.code]
    ++ (match e.window with | none => [0#8, 0#8] | some w => [w.count, w.minutes]) ++ [0#8]

/-- The result area of a RECALL: the match count and the places of the entries given, the rest 0 (R118, R175). -/
def recallResult (matchCount : Nat) (places : List Entry) : List Byte :=
  leBytes 2 matchCount ++ zeros 2
    ++ (places.flatMap placeBytes ++ zeros (24 * (recallPlaces - places.length)))

/-- The verdict record starts here (R174). -/
def verdictRecordAt : Nat := 224

/-- The fields of a verdict record (R97). -/
structure VerdictRecord where
  verdict : Nat
  causes : List Cause
  rounded : Bool
  surcharged : Bool
  capped : Bool
  notes : List Note
  boarding : Nat
  destination : Nat
  covered : Nat
  firstUncovered : Nat
  entryNumber : Nat
  priorId : Nat
  priorNumber : Nat
  amount : Nat
  surcharge : Nat
  uncoveredSum : Nat
  extraSum : Nat
  classSum : Nat
  minutesSince : Nat
  evalTime : Nat
  deriving DecidableEq, Repr

/-- The 64 bytes of a verdict record (R174). -/
def verdictRecordBytes (v : VerdictRecord) : List Byte :=
  [byteOf v.verdict, byteOf (reasonCode v.causes), byteOf (causeBits v.causes),
    byteOf (flagBits v.rounded v.surcharged v.capped)]
    ++ leBytes 2 (noteBits v.notes)
    ++ [byteOf v.boarding, byteOf v.destination, byteOf v.covered, byteOf v.firstUncovered]
    ++ leBytes 2 v.entryNumber ++ [byteOf v.priorId, 0#8] ++ leBytes 2 v.priorNumber
    ++ leBytes 4 v.amount ++ leBytes 4 v.surcharge ++ leBytes 8 v.uncoveredSum ++ leBytes 8 v.extraSum
    ++ leBytes 8 v.classSum ++ leBytes 4 v.minutesSince ++ leBytes 4 v.evalTime ++ zeros 8

/-! ### Table records (R176); addresses are absolute -/

/-- A network profile as the validation walk reads it. -/
structure Profile where
  byteOrder : Nat
  serialWidth : Nat
  surcharge : Nat
  productOffset : Nat
  productCount : Nat
  bandCount : Nat
  bandOffset : Nat
  denyOffset : Nat
  denyCount : Nat
  deriving DecidableEq, Repr

/-- The deny table offset of the profile at `a`; under a deny count of 0 it is not read, and stands as 0 (R51). -/
def readDenyOffset (get : Nat → Option Byte) (a denyCount : Nat) : Option Nat :=
  if denyCount = 0 then some 0 else readField get (a + 28) 4

/-- Read a profile's fields. The values that R51 marks "On use" are read with it and not kept. -/
def readProfile (get : Nat → Option Byte) (a : Nat) : Option Profile := do
  let byteOrder ← readField get a 1
  let width ← readField get (a + 1) 1
  let _ ← readField get (a + 2) 10
  let surcharge ← readField get (a + 12) 4
  let productOffset ← readField get (a + 16) 4
  let productCount ← readField get (a + 20) 2
  let bandCount ← readField get (a + 22) 1
  let bandOffset ← readField get (a + 24) 4
  let denyCount ← readField get (a + 32) 2
  let denyOffset ← readDenyOffset get a denyCount
  some { byteOrder := byteOrder, serialWidth := width, surcharge := surcharge, productOffset := productOffset,
         productCount := productCount, bandCount := bandCount, bandOffset := bandOffset, denyOffset := denyOffset,
         denyCount := denyCount }

/-- A product entry (R53). -/
structure Product where
  code : Nat
  class_ : Nat
  rule : Nat
  duration : Nat
  coverage : Nat
  identity : Nat
  maxTravellers : Nat
  deriving DecidableEq, Repr

/-- Read a product entry. -/
def readProduct (get : Nat → Option Byte) (a : Nat) : Option Product := do
  let code ← readField get a 2
  let cls ← readField get (a + 2) 1
  let rule ← readField get (a + 3) 1
  let duration ← readField get (a + 4) 2
  let coverage ← readField get (a + 6) 1
  let identity ← readField get (a + 7) 1
  let most ← readField get (a + 8) 1
  some { code := code, class_ := cls, rule := rule, duration := duration, coverage := coverage,
         identity := identity, maxTravellers := most }

/-- A price band entry (R54). -/
structure Band where
  lower : Nat
  base : Nat
  rate : Nat
  deriving DecidableEq, Repr

/-- Read a price band entry. -/
def readBand (get : Nat → Option Byte) (a : Nat) : Option Band := do
  let lower ← readField get a 4
  let base ← readField get (a + 4) 4
  let rate ← readField get (a + 8) 2
  some { lower := lower, base := base, rate := rate }

/-- A deny entry (R55). -/
structure DenyRange where
  low : Nat
  high : Nat
  kind : Nat
  deriving DecidableEq, Repr

/-- Read a deny entry. -/
def readDenyRange (get : Nat → Option Byte) (a : Nat) : Option DenyRange := do
  let low ← readField get a 8
  let high ← readField get (a + 8) 8
  let kind ← readField get (a + 16) 1
  some { low := low, high := high, kind := kind }

/-- The claim pairs in use of a section record (R3). -/
def readClaims (get : Nat → Option Byte) : Nat → Nat → Option (List Claim)
  | _, 0 => some []
  | a, n + 1 => do
    let network ← get a
    let zone ← get (a + 1)
    let rest ← readClaims get (a + 2) n
    some ({ network := network, zone := zone } :: rest)

/-- What the read of one section record finds (R3, R4). -/
inductive SectionRead where
  | accessError
  | invalid
  | valid (s : RouteSection)
  deriving DecidableEq, Repr

/-- A section record is valid under R4: distance 1 to 4,095, claim count 0 to 4, each pair in use a network id 0 to
15 and a zone id 1 to 254, no network id in two pairs. Pairs beyond the count are not read; a count above 4 names no
pairs to read, and the pairs are read before the distance is judged (notes/assumptions/24.md). -/
def readSection (get : Nat → Option Byte) (a : Nat) : SectionRead :=
  match readField get a 2, readField get (a + 2) 1 with
  | some distance, some count =>
    if count > 4 then .invalid
    else
      match readClaims get (a + 4) count with
      | none => .accessError
      | some claims =>
        if 1 ≤ distance ∧ distance ≤ 4095
            ∧ claims.all (fun c => decide (c.network.toNat ≤ 15 ∧ 1 ≤ c.zone.toNat ∧ c.zone.toNat ≤ 254)) = true
            ∧ (claims.map Claim.network).Nodup then
          .valid { distance := BitVec.ofNat 16 distance, claims := claims }
        else .invalid
  | _, _ => .accessError

end Sys2Proof.Machine
end

