-- ==== Sys2Proof/Machine/LinkPort.lean ====
section
/-!
DEFINITION. Sys2Proof/Machine/LinkPort.lean: the meanings of the host's register accesses other than NUDGE, of the
resets, of the hold and the rest, and of the anchor check (10_table_hold_and_revalidation.md,
11_link_port_registers_and_power.md).
-/
namespace Sys2Proof.Machine

/-- A register write acts unless the reset pin is held (R167). -/
def hostWrite (act : State → State) (s : State) : State := if s.resetHeld then s else act s

/-- The HOLD_REQ level takes a write's bit (R150). Set: the grant comes at once where R151 gives it so. Clear: a
granted hold is withdrawn and the walk begins, a request not granted is cancelled (R154). -/
def State.setHoldLevel (level : Bool) (s : State) : State :=
  if level then { s with holdReq := true }.grantIfFree
  else { s with holdReq := false, tables := if s.tables = .held then .checking else s.tables }

/-- REST_REQ (R165): in RUNNING the rest is given at once where it may be, else it is pending; ignored elsewhere. -/
def State.requestRest (s : State) : State :=
  if s.part = .running then (if s.mayRest then s.rest else { s with restPending := true }) else s

/-- WAKE (R166): from RESTING to RUNNING; in RUNNING a pending rest request is cancelled; ignored elsewhere. -/
def State.wakeUp (s : State) : State :=
  if s.part = .resting then { s with part := .running }
  else if s.part = .running then { s with restPending := false } else s

/-- A CONTROL write with RESET clear (R161): the level first (notes/assumptions/8.md); in IDLE only START acts, in any
other part state START is ignored, and WAKE prevails over REST_REQ. -/
def State.writeControl (start restReq wake holdReq : Bool) (s : State) : State :=
  let s := s.setHoldLevel holdReq
  if s.part = .idle then (if start then { s with part := .starting } else s)
  else if wake then s.wakeUp
  else if restReq then s.requestRest
  else s

/-- START (R157). -/
def execStart (restReq wake holdReq : Bool) (s : State) : Answer :=
  .next (hostWrite (State.writeControl true restReq wake holdReq) s)

/-- CONTROL_RESET (R161, R167): every other bit of the write is ignored, ANCHOR keeps its value. -/
def execControlReset (_others : Word) (s : State) : Answer :=
  .next (hostWrite (fun s => s.resetTo s.anchor) s)

/-- REST_REQ (R165). -/
def execRestReq (holdReq : Bool) (s : State) : Answer :=
  .next (hostWrite (State.writeControl false true false holdReq) s)

/-- WAKE (R166); a write with REST_REQ set too is taken as WAKE (R161). -/
def execWake (restReq holdReq : Bool) (s : State) : Answer :=
  .next (hostWrite (State.writeControl false restReq true holdReq) s)

/-- HOLD_REQ_SET (R150, R151). -/
def execHoldReqSet (s : State) : Answer :=
  .next (hostWrite (State.writeControl false false false true) s)

/-- HOLD_REQ_CLEAR (R150, R154). -/
def execHoldReqClear (s : State) : Answer :=
  .next (hostWrite (State.writeControl false false false false) s)

/-- ANCHOR with its low 12 bits taken as zero (R157). -/
def anchorOf (value : Word) : Word := BitVec.ofNat 32 (baseOf value.toNat)

/-- ANCHOR_WRITE (R157): acts in IDLE alone. -/
def execAnchorWrite (value : Word) (s : State) : Answer :=
  .next (hostWrite (fun s => if s.part = .idle then { s with anchor := anchorOf value } else s) s)

/-- EVENTS_CLEAR (R162): each flag whose bit is written as 1 is cleared. -/
def execEventsClear (value : Word) (s : State) : Answer :=
  .next (hostWrite (fun s => { s with events := s.events &&& ~~~ (value.setWidth 11) }) s)

/-- ENABLE_WRITE (R162). -/
def execEnableWrite (value : Word) (s : State) : Answer :=
  .next (hostWrite (fun s => { s with enable := value.setWidth 11 }) s)

/-- FAULT_READ (R163): returns the record with MORE and empties it. -/
def execFaultRead (s : State) : Answer :=
  .next { s with readData := faultWord s, faultRecord := none, faultMore := false }

/-- REGISTER_WRITE_IGNORED (R160): no effect. -/
def execRegisterWriteIgnored (_reg : Register) (_value : Word) (s : State) : Answer := .next s

/-- RESET_PIN (R167): every reset value, ANCHOR included, and register writes are ignored while the pin is held. -/
def execResetPin (s : State) : Answer := .next { s.resetTo 0#32 with resetHeld := true }

/-- POWER_ON (R167): every reset value, ANCHOR included. -/
def execPowerOn (s : State) : Answer := .next (s.resetTo 0#32)

/-- RESET_PIN_RELEASE (R167): later writes act on the reset values. -/
def execResetPinRelease (s : State) : Answer := .next { s with resetHeld := false }

/-- HOLD_GRANT (R151): a request that waited for a follow-up or an examination is granted. -/
def execHoldGrant (s : State) : Answer := .next s.grantIfFree

/-- REST_GIVEN (R165): a pending rest is given when it may be. -/
def execRestGiven (s : State) : Answer :=
  .next (if s.restPending && decide (s.part = .running) && s.mayRest then s.rest else s)

/-- LATE_RESPONSE (R156): discarded. -/
def execLateResponse (s : State) : Answer := .next s

/-! ### The anchor check -/

/-- The windows an anchor block gives, as captured (R159). -/
def AnchorBlock.windows (a : AnchorBlock) : Windows :=
  { slipBase := BitVec.ofNat 32 (baseOf a.slipBase), slipLimit := BitVec.ofNat 32 (limitOf a.slipLimit),
    tableBase := BitVec.ofNat 32 (baseOf a.tableBase), tableLimit := BitVec.ofNat 32 (limitOf a.tableLimit) }

/-- The chain a phase entry names (R143). -/
def phaseChain (b : Byte) : Chain := if b = 0#8 then .interactive else .background

/-- Whether some byte lies in both windows (R158, check 5). -/
def AnchorBlock.windowsOverlap (a : AnchorBlock) : Bool :=
  decide (baseOf a.slipBase ≤ limitOf a.tableLimit ∧ baseOf a.tableBase ≤ limitOf a.slipLimit)

/-- Checks 2 to 6 of R158, in order: the first that fails, or none. -/
def AnchorBlock.failedCheck (a : AnchorBlock) : Option Nat :=
  if a.version ≠ 1 then some 2
  else if limitOf a.slipLimit < baseOf a.slipBase then some 3
  else if limitOf a.tableLimit < baseOf a.tableBase then some 4
  else if a.windowsOverlap then some 5
  else if a.phase.any (fun b => decide (1 < b.toNat)) then some 6
  else none

/-- An anchor fault (R158): HALTED, PART_FAULT, and the check offered to FAULT; nothing is captured. -/
def State.anchorFault (check : Nat) (s : State) : State :=
  ({ s with part := .halted }.raise .partFault).offerFault (.part (BitVec.ofNat 4 check))

/-- Acceptance of the anchor (R159): the windows and the phase table are captured, p is 0, the chains are set up from
their heads, the interactive one first (notes/assumptions/16.md), the part is RUNNING and STARTED is raised, and the
walk begins, or the hold is granted when its level is set. -/
def State.acceptAnchor (a : AnchorBlock) (s : State) : State :=
  let s := { s with windows := some a.windows, phaseTable := a.phase.map phaseChain, phase := 0 }
  let s := s.setHead .interactive (BitVec.ofNat 24 a.interactiveHead)
  let s := s.setHead .background (BitVec.ofNat 24 a.backgroundHead)
  let s := { s with part := .running }.raise .started
  if s.holdReq then s.grant else { s with tables := .checking }

/-- The anchor read of STARTING completes and is checked (R158), with the accesses `failing` in error (check 1). -/
def State.anchorRead (failing : List Access) (s : State) : State :=
  if s.part = .starting then
    match readAnchorBlock (s.anchorByte failing) with
    | none => s.anchorFault 1
    | some a =>
      match a.failedCheck with
      | some check => s.anchorFault check
      | none => s.acceptAnchor a
  else s

/-- ANCHOR_CHECK (R158). -/
def execAnchorCheck (s : State) : Answer := .next (s.anchorRead [])

end Sys2Proof.Machine
end

