-- ==== Sys2Proof/Machine/Scheduler.lean ====
section
/-!
DEFINITION. Sys2Proof/Machine/Scheduler.lean: the Slip Scheduler: NUDGE, the arbiter, the examination, the follow-up
and the re-read of a tail's link (09_slips_and_chains.md).
-/
namespace Sys2Proof.Machine

/-! ### NUDGE -/

/-- The chain a NUDGE names; chain numbers 2 and 3 name none (R142). -/
def nudgedChain (n : BitVec 2) : Option Chain :=
  if n = 0#2 then some .interactive else if n = 1#2 then some .background else none

/-- A NUDGE without restart acts on a chain record (R140): PARKED on link begins the re-read of the tail's link, or
sets the pending-nudge flag when one is under way. -/
def ChainRec.nudged (r : ChainRec) : ChainRec :=
  match r.state with
  | .parkedOnLink => if r.rereading then { r with pendingNudge := true } else { r with rereading := true }
  | .parkedOnStage => { r with state := .ahead }
  | .ahead => { r with pendingNudge := true }
  | .active => { r with pendingNudge := true }
  | .empty => r
  | .broken => r

/-- An access to the chain's slips is under way, or its slip is in flight (R141). -/
def State.chainBusy (c : Chain) (s : State) : Bool :=
  decide ((s.chain c).state = .active) || (s.chain c).rereading || decide (s.examining = some c)

/-- A restart NUDGE acts on a chain (R141): remembered while the chain is busy, else the head is read at once. -/
def State.restart (failing : List Access) (c : Chain) (s : State) : State :=
  if s.chainBusy c then s.setChain c { s.chain c with restartRemembered := true } else s.takeHead failing c

/-- A NUDGE acts in RUNNING and RESTING on a chain it names, waking the part in RESTING (R142, R164). -/
def State.onNudge (chain : BitVec 2) (act : Chain → State → State) (s : State) : State :=
  if s.awake then
    match nudgedChain chain with
    | none => s
    | some c => act c { s with part := .running }
  else s

/-- NUDGE (R140). -/
def execNudge (chain : BitVec 2) (s : State) : Answer :=
  .next (hostWrite (State.onNudge chain (fun c s => s.setChain c (s.chain c).nudged)) s)

/-- NUDGE_RESTART (R141). -/
def execNudgeRestart (chain : BitVec 2) (s : State) : Answer :=
  .next (hostWrite (State.onNudge chain (State.restart [])) s)

/-! ### The arbiter -/

/-- When the arbiter may choose a chain (R144); an examination under way is a choice already made (R152). -/
def State.mayChoose (s : State) : Bool :=
  s.free && decide (s.part = .running) && decide (s.tables = .usable ∨ s.tables = .unusable) && !s.holdReq
    && !s.restPending

/-- The chain the arbiter chooses (R143): the one phase entry p names when it is AHEAD, else the other when it is. -/
def State.choice (s : State) : Option Chain :=
  match s.phaseTable[s.phase.val]? with
  | none => none
  | some c =>
    if (s.chain c).state = .ahead then some c
    else if (s.chain (otherChain c)).state = .ahead then some (otherChain c)
    else none

/-- ARBITER_CHOICE (R143): the examination of the chosen chain's cursor slip begins. -/
def execArbiterChoice (s : State) : Answer :=
  .next (if s.mayChoose then { s with examining := s.choice } else s)

/-! ### The examination -/

/-- The kind codes (R131). -/
def kindTrip : Byte := 1
/-- POSITION. -/
def kindPosition : Byte := 2
/-- INSPECT. -/
def kindInspect : Byte := 3
/-- AMEND. -/
def kindAmend : Byte := 4
/-- MERGE. -/
def kindMerge : Byte := 5
/-- RECALL. -/
def kindRecall : Byte := 6

/-- The two checks before a kind is worked, in order (R138): the refusal, or none. -/
def dispatchRefusal (c : Chain) (kind : Byte) : Option Reason :=
  if kind.toNat < 1 ∨ 6 < kind.toNat then some .kindUnknown
  else
    match c with
    | .interactive => if kind = kindMerge ∨ kind = kindRecall then some .wrongChain else none
    | .background => if kind = kindTrip ∨ kind = kindAmend then some .wrongChain else none

/-- A slip is taken (R137): it is in flight with the evaluation time sampled, its chain is ACTIVE, p advances. -/
def State.take (c : Chain) (kind : Byte) (s : State) : State :=
  { s.setChain c { s.chain c with state := .active } with
    inFlight := some { chain := c, kind := kind, progress := .working, evalTime := s.clock },
    phase := s.phase + 1 }

/-- The slip just taken is refused at dispatch, its body left as it is, or left to the block of its kind (R138). -/
def State.dispatch (failing : List Access) (c : Chain) (kind : Byte) (s : State) : State :=
  match s.inFlight, dispatchRefusal c kind with
  | some f, some reason => s.answer failing f 16 [] (some reason) 
  | _, _ => s

/-- A chain parks on stage (R137). A remembered restart reads its head when the access ends (R141); otherwise a
pending nudge is cleared and the chain is AHEAD again at once. -/
def State.parkOnStage (failing : List Access) (c : Chain) (s : State) : State :=
  let r := s.chain c
  if r.restartRemembered then s.takeHead failing c
  else if r.pendingNudge then s.setChain c { r with state := .ahead, pendingNudge := false }
  else s.setChain c { r with state := .parkedOnStage }

/-- The examination under way ends (R137), with the accesses `failing` in error (R145). -/
def State.examine (failing : List Access) (s : State) : State :=
  match s.examining with
  | none => s
  | some c =>
    let s := { s with examining := none }
    let l := (s.chain c).cursor
    match readBytes (s.slipByte failing l) 0 2 with
    | some [stage, kind] =>
      if stage = 1#8 then
        let stored := s.storeSlip failing l [(.stageWrite .taken, 0, 2#8)]
        if stored.2 then ({ s with mem := stored.1 }.take c kind).dispatch failing c kind
        else s.breakChain c l
      else s.parkOnStage failing c
    | _ => s.breakChain c l

/-- EXAMINATION (R137, R138). -/
def execExamination (s : State) : Answer := .next (s.examine [])

/-! ### Links -/

/-- The link of slip `l` is read and acted on (R139, R140): RELEASED and AHEAD at a valid link, BROKEN at one that is
not valid, PARKED on link with tail and cursor on the slip at 0. An access error breaks the chain (R145). The chain's
flags are kept. -/
def State.followLink (failing : List Access) (c : Chain) (l : Link) (s : State) : State :=
  match readField (s.slipByte failing l) 8 3 with
  | none => s.breakChain c l
  | some v =>
    let k : Link := BitVec.ofNat 24 v
    if k = 0#24 then
      s.setChain c { s.chain c with state := .parkedOnLink, cursor := l, tail := l, rereading := false }
    else if s.linkValid k then
      let stored := s.storeSlip failing l [(.stageWrite .released, 0, 4#8)]
      if stored.2 then
        { s with mem := stored.1 }.setChain c
          { s.chain c with state := .ahead, cursor := k, tail := 0#24, rereading := false }
      else s.breakChain c l
    else s.breakChain c k

/-- A chain that has just parked on link with its pending-nudge flag set clears it and re-reads the tail's link at
once (R139, R140). -/
def State.usePendingNudge (c : Chain) (s : State) : State :=
  let r := s.chain c
  if r.state = .parkedOnLink ∧ r.pendingNudge = true then
    s.setChain c { r with pendingNudge := false, rereading := true }
  else s

/-- The end of a follow-up or a re-read: a restart that came meanwhile reads the head, unless the chain has become
BROKEN; otherwise a pending nudge of a parked chain is used (R139, R140, R141). That a re-read acts on its link before
the head is read is the model's choice (notes/assumptions/30.md). -/
def State.afterLink (failing : List Access) (c : Chain) (restart : Bool) (s : State) : State :=
  if (s.chain c).state = .broken then s
  else if restart then s.takeHead failing c
  else s.usePendingNudge c

/-- The follow-up of the answered slip (R139). A restart remembered before the link is read replaces the link read by
the head read, and the slip stays ANSWERED; `restartAfterLink` is a restart that came after it (R141). -/
def State.followUp (failing : List Access) (restartAfterLink : Bool) (s : State) : State :=
  match s.inFlight with
  | none => s
  | some f =>
    if f.progress = .answered then
      let s := { s with inFlight := none }
      let r := s.chain f.chain
      if r.restartRemembered then s.takeHead failing f.chain
      else (s.followLink failing f.chain r.cursor).afterLink failing f.chain restartAfterLink
    else s

/-- FOLLOW_UP (R139). -/
def execFollowUp (restartAfterLink : Bool) (s : State) : Answer := .next (s.followUp [] restartAfterLink)

/-- The re-read of a parked chain's tail link ends (R140, R141). A restart remembered meanwhile waits for all of it:
the link read is acted on as R140 says, RELEASED or BROKEN, and the head is read after that. R141 says only that the
head is read when the access ends, and that an ANSWERED tail stays ANSWERED: the model's choice
(notes/assumptions/30.md). -/
def State.tailReread (failing : List Access) (c : Chain) (s : State) : State :=
  let r := s.chain c
  if r.rereading then (s.followLink failing c r.tail).afterLink failing c r.restartRemembered else s

/-- TAIL_LINK_REREAD (R140). -/
def execTailLinkReread (c : Chain) (s : State) : Answer := .next (s.tailReread [] c)

end Sys2Proof.Machine
end

