-- ==== Sys2Proof/Machine/Tables.lean ====
section
/-!
DEFINITION. Sys2Proof/Machine/Tables.lean: the Table Access Unit: the validation walk, the route plan walk, and the
lookups of an inspection (04_network_tables.md, 01_the_trip_context.md R11).
-/
namespace Sys2Proof.Machine

/-- The table window's base, 0 when none is captured (no access is then admitted). -/
def State.tableBase (s : State) : Nat :=
  match s.windows with
  | none => 0
  | some w => w.tableBase.toNat

/-- `size` bytes from offset `offset` lie inside the table window, computed exactly (R56, R57). A `size` of 0 is not
asked for. -/
def State.tableHolds (s : State) (offset size : Nat) : Bool :=
  match s.windows with
  | none => false
  | some w => decide (w.tableBase.toNat + offset + size ≤ w.tableLimit.toNat + 1)

/-- The profile offset a slot list holds for a network, if any (R38, R50). -/
def slotOf (slots : List (Option Word)) (network : Byte) : Option Word :=
  match slots[network.toNat]? with
  | none => none
  | some o => o

/-! ### The validation walk -/

/-- The slot reported for reads that belong to no network (R59). -/
def noSlot : Byte := 255

/-- The product entries of a table, from entry `i` at address `a`: checks 4 and 5 entry by entry (R57). The result is
the check that failed, 13 for an access error. -/
def checkProducts (get : Nat → Option Byte) : Nat → Nat → Option Nat → Except Nat Unit
  | 0, _, _ => .ok ()
  | n + 1, a, previous =>
    match readProduct get a with
    | none => .error 13
    | some p =>
      if (p.class_ = 1 ∨ p.class_ = 2) ∧ 1 ≤ p.rule ∧ p.rule ≤ 3 ∧ (p.coverage = 1 ∨ p.coverage = 2)
          ∧ p.identity ≤ 1 ∧ 1 ≤ p.maxTravellers ∧ p.maxTravellers ≤ 9 then
        if previous.all (fun q => decide (q < p.code)) then checkProducts get n (a + 12) (some p.code) else .error 5
      else .error 4

/-- The band entries of a table: checks 7 and 8 entry by entry (R57). -/
def checkBands (get : Nat → Option Byte) : Nat → Nat → Option Nat → Except Nat Unit
  | 0, _, _ => .ok ()
  | n + 1, a, previous =>
    match readBand get a with
    | none => .error 13
    | some b =>
      if b.base ≤ 999999 then
        if (match previous with | none => decide (b.lower = 0) | some q => decide (q < b.lower)) then
          checkBands get n (a + 12) (some b.lower)
        else .error 8
      else .error 7

/-- The deny entries of a table: checks 10 and 11 entry by entry (R57). -/
def checkDeny (get : Nat → Option Byte) : Nat → Nat → Option Nat → Except Nat Unit
  | 0, _, _ => .ok ()
  | n + 1, a, previous =>
    match readDenyRange get a with
    | none => .error 13
    | some d =>
      if (d.kind = 1 ∨ d.kind = 2) ∧ d.low ≤ d.high then
        if previous.all (fun q => decide (q < d.low)) then checkDeny get n (a + 20) (some d.high) else .error 11
      else .error 10

/-- The eleven checks of one slot whose profile stands at `offset` (R57). -/
def State.walkSlot (s : State) (failing : List Access) (slot : Byte) (offset : Nat) : Except Nat Unit :=
  let get := s.tableByte failing slot
  if !s.tableHolds offset 40 then .error 1
  else
    match readProfile get (s.tableBase + offset) with
    | none => .error 13
    | some p =>
      if ¬ (p.byteOrder ≤ 1 ∧ 4 ≤ p.serialWidth ∧ p.serialWidth ≤ 8 ∧ p.surcharge ≤ 99999) then .error 2
      else if ¬ (1 ≤ p.productCount ∧ p.productCount ≤ 1024
          ∧ s.tableHolds p.productOffset (12 * p.productCount) = true) then .error 3
      else
        match checkProducts get p.productCount (s.tableBase + p.productOffset) none with
        | .error check => .error check
        | .ok _ =>
          if ¬ (1 ≤ p.bandCount ∧ p.bandCount ≤ 16 ∧ s.tableHolds p.bandOffset (12 * p.bandCount) = true) then
            .error 6
          else
            match checkBands get p.bandCount (s.tableBase + p.bandOffset) none with
            | .error check => .error check
            | .ok _ =>
              if 1 ≤ p.denyCount then
                if s.tableHolds p.denyOffset (20 * p.denyCount) then
                  checkDeny get p.denyCount (s.tableBase + p.denyOffset) none
                else .error 9
              else .ok ()

/-- Visit slots in order; an empty slot is not visited further (R49, R56). The result is the slot and check that
failed. -/
def State.walkSlots (s : State) (failing : List Access) : Nat → List (Option Word) → Except (Byte × Nat) Unit
  | _, [] => .ok ()
  | i, none :: rest => State.walkSlots s failing (i + 1) rest
  | i, some o :: rest =>
    match s.walkSlot failing (byteOf i) o.toNat with
    | .error check => .error (byteOf i, check)
    | .ok _ => State.walkSlots s failing (i + 1) rest

/-- The slots of the directory at address `a`, offset 0 marking a slot empty (R49). -/
def readDirectory (get : Nat → Option Byte) : Nat → Nat → Option (List (Option Word))
  | 0, _ => some []
  | n + 1, a =>
    match readField get a 4 with
    | none => none
    | some o =>
      match readDirectory get n (a + 4) with
      | none => none
      | some rest => some ((if o = 0 then none else some (BitVec.ofNat 32 o)) :: rest)

/-- The trip networks: the priority list followed by the fallback (R6). -/
def TripContext.networks (t : TripContext) : List Byte := t.priority ++ [t.fallback]

/-- The first trip network without a profile among the slots (R10, R58, R59). -/
def missingNetwork (slots : List (Option Word)) (networks : List Byte) : Option Byte :=
  networks.find? (fun n => (slotOf slots n).isNone)

/-- The walk from the directory to the trip-network check (R56 to R58): the slots read, or the slot and check that
failed. -/
def State.walkResult (s : State) (failing : List Access) : Except (Byte × Nat) (List (Option Word)) :=
  match readDirectory (s.tableByte failing noSlot) 16 s.tableBase with
  | none => .error (noSlot, 13)
  | some slots =>
    match s.walkSlots failing 0 slots with
    | .error e => .error e
    | .ok _ =>
      match (if s.trip.state = .inTrip then missingNetwork slots s.trip.networks else none) with
      | some n => .error (n, 12)
      | none => .ok slots

/-- The walk under way ends (R58, R59), with the accesses `failing` in error. -/
def State.walk (failing : List Access) (s : State) : State :=
  if s.tables = .checking then
    match s.walkResult failing with
    | .ok slots => { s with snapshot := slots, tables := .usable }
    | .error (slot, check) => s.tableFault slot check
  else s

/-- VALIDATION_WALK (R56). -/
def execValidationWalk (s : State) : Answer := .next (s.walk [])

/-! ### The route plan walk -/

/-- How the walk through a route plan ends (R11). -/
inductive RouteWalk where
  | badRoute
  | accessError
  | plan (sections : List RouteSection)
  deriving DecidableEq, Repr

/-- Read `n` section records from address `a`; the first invalid one ends the walk (R11). -/
def readSections (get : Nat → Option Byte) : Nat → Nat → RouteWalk
  | 0, _ => .plan []
  | n + 1, a =>
    match readSection get a with
    | .accessError => .accessError
    | .invalid => .badRoute
    | .valid sec =>
      match readSections get n (a + 12) with
      | .plan rest => .plan (sec :: rest)
      | .badRoute => .badRoute
      | .accessError => .accessError

/-- The five tests of the route walk, in order (R11). -/
def State.routeWalk (s : State) (failing : List Access) (offset start : Nat) : RouteWalk :=
  let get := s.tableByte failing noSlot
  if s.tableHolds offset 4 then
    match readField get (s.tableBase + offset) 2 with
    | none => .accessError
    | some n =>
      if 1 ≤ n ∧ n ≤ 96 then
        if s.tableHolds offset (4 + 12 * n) then
          match readSections get n (s.tableBase + offset + 4) with
          | .plan sections => if start < sections.length then .plan sections else .badRoute
          | .badRoute => .badRoute
          | .accessError => .accessError
        else .badRoute
      else .badRoute
  else .badRoute

/-! ### Lookups during an inspection -/

/-- Why an inspection ends without a verdict: an access error on its slip (R36, R145), or a table read that failed or
was not issued, with the slot and check reported (R64, R65). -/
inductive Stop where
  | slip
  | table (slot : Byte) (check : Nat)
  deriving DecidableEq, Repr

/-- A read of the slip in flight. -/
def fromSlip {α : Type} : Option α → Except Stop α
  | none => .error .slip
  | some a => .ok a

/-- A table read for network `slot`: an access error is check 15 (R65). -/
def fromTable {α : Type} (slot : Byte) : Option α → Except Stop α
  | none => .error (.table slot 15)
  | some a => .ok a

/-- A test made before a read; where it fails the read is not issued: check 16 (R64). -/
def require16 (slot : Byte) (ok : Bool) : Except Stop Unit := if ok then .ok () else .error (.table slot 16)

/-- Where the search goes after a probe (R61, R62). -/
inductive Probe (α : Type) where
  | found (a : α)
  | below
  | above

/-- The halving search (R61): the indices from `lower` up to but not including `bound` (one more than the manual's
upper index). A probe says that what is sought is the entry probed, lies below it, or above it. -/
def halving {α : Type} (probe : Nat → Except Stop (Probe α)) : Nat → Nat → Nat → Except Stop (Option α)
  | 0, _, _ => .ok none
  | fuel + 1, lower, bound =>
    if lower < bound then
      match probe ((lower + (bound - 1)) / 2) with
      | .error e => .error e
      | .ok (.found a) => .ok (some a)
      | .ok .below => halving probe fuel lower ((lower + (bound - 1)) / 2)
      | .ok .above => halving probe fuel ((lower + (bound - 1)) / 2 + 1) bound
    else .ok none

/-- One probe of the product lookup (R61). -/
def State.probeProduct (s : State) (failing : List Access) (slot : Byte) (table code i : Nat) :
    Except Stop (Probe Product) :=
  match readProduct (s.tableByte failing slot) (s.tableBase + table + 12 * i) with
  | none => .error (.table slot 15)
  | some p => .ok (if p.code = code then .found p else if code < p.code then .below else .above)

/-- The product lookup in the profile at address `profile` (R60 step 2, R61, R64). -/
def State.lookupProduct (s : State) (failing : List Access) (slot : Byte) (profile code : Nat) :
    Except Stop (Option Product) := do
  let get := s.tableByte failing slot
  let offset ← fromTable slot (readField get (profile + 16) 4)
  let count ← fromTable slot (readField get (profile + 20) 2)
  require16 slot (decide (1 ≤ count) && decide (count ≤ 1024) && s.tableHolds offset (12 * count))
  halving (s.probeProduct failing slot offset code) count 0 count

/-- One probe of the deny lookup (R62). In an entry whose low is above its high, a serial between the two counts as
below the low (notes/assumptions/27.md). -/
def State.probeDeny (s : State) (failing : List Access) (slot : Byte) (table serial i : Nat) :
    Except Stop (Probe DenyRange) :=
  match readDenyRange (s.tableByte failing slot) (s.tableBase + table + 20 * i) with
  | none => .error (.table slot 15)
  | some d => .ok (if serial < d.low then .below else if d.high < serial then .above else .found d)

/-- The deny lookup in the profile at address `profile` (R60 step 3, R62, R64). -/
def State.lookupDeny (s : State) (failing : List Access) (slot : Byte) (profile serial : Nat) :
    Except Stop (Option DenyRange) := do
  let get := s.tableByte failing slot
  let count ← fromTable slot (readField get (profile + 32) 2)
  if count = 0 then return none
  let offset ← fromTable slot (readField get (profile + 28) 4)
  require16 slot (s.tableHolds offset (20 * count))
  halving (s.probeDeny failing slot offset serial) count 0 count

/-- The candidate search of the band lookup (R63), same indices as `halving`. -/
def bandSearch (band : Nat → Except Stop Band) (d : Nat) : Nat → Nat → Nat → Option Band → Except Stop (Option Band)
  | 0, _, _, candidate => .ok candidate
  | fuel + 1, lower, bound, candidate =>
    if lower < bound then
      match band ((lower + (bound - 1)) / 2) with
      | .error e => .error e
      | .ok b =>
        if b.lower ≤ d then bandSearch band d fuel ((lower + (bound - 1)) / 2 + 1) bound (some b)
        else bandSearch band d fuel lower ((lower + (bound - 1)) / 2) candidate
    else .ok candidate

/-- The band lookup for distance `d` in the table at `offset` with `count` entries (R63, R64): check 16 when no
candidate is found. -/
def State.lookupBand (s : State) (failing : List Access) (slot : Byte) (offset count d : Nat) : Except Stop Band := do
  require16 slot (decide (1 ≤ count) && decide (count ≤ 16) && s.tableHolds offset (12 * count))
  let band (i : Nat) : Except Stop Band :=
    fromTable slot (readBand (s.tableByte failing slot) (s.tableBase + offset + 12 * i))
  match ← bandSearch band d count 0 count none with
  | none => .error (.table slot 16)
  | some b => .ok b

end Sys2Proof.Machine
end

