-- ==== Sys2Proof/Machine/TripClock.lean ====
section
/-!
DEFINITION. Sys2Proof/Machine/TripClock.lean: the minute tick, the closing of amendment windows on their two limits,
the judgement of a time report, and the validity periods (02_trip_time_and_validity_periods.md,
08_amendment_windows.md).
-/
namespace Sys2Proof.Machine

/-! ### Amendment windows -/

/-- An open window loses one minute (R122). -/
def Window.loseMinute (w : Window) : Window := { w with minutes := BitVec.ofNat 8 (w.minutes.toNat - 1) }

/-- An open window loses one from its count (R121). -/
def Window.loseCount (w : Window) : Window := { w with count := BitVec.ofNat 8 (w.count.toNat - 1) }

/-- Change an entry's window, if it is open. -/
def Entry.mapWindow (f : Window → Window) (e : Entry) : Entry := { e with window := e.window.map f }

/-- A window whose remaining minutes are 0 closes (R122). -/
def Entry.closeAtMinutes (e : Entry) : Entry :=
  { e with window := e.window.filter (fun w => decide (w.minutes ≠ 0#8)) }

/-- A window whose remaining count is 0 closes (R121). -/
def Entry.closeAtCount (e : Entry) : Entry :=
  { e with window := e.window.filter (fun w => decide (w.count ≠ 0#8)) }

/-- What a minute tick does to an entry's window (R122). -/
def Entry.tick (e : Entry) : Entry := (e.mapWindow Window.loseMinute).closeAtMinutes

/-- What an own insertion does to the window of an entry already held (R121). -/
def Entry.countDown (e : Entry) : Entry := (e.mapWindow Window.loseCount).closeAtCount

/-- Apply a change to every entry of the journal. -/
def State.mapEntries (f : Entry → Entry) (s : State) : State :=
  { s with journal := { s.journal with entries := s.journal.entries.map f } }

/-! ### The tick -/

/-- A count that stays at its maximum (R2, R20). -/
def saturate (w : Word) : Word := if w.toNat = Config.maxWord then w else w + 1#32

/-- MINUTE_TICK (R20, R122): while the clock runs, it rises by 1 or stays at its maximum, and every open window loses
a minute and closes at 0. In STOPPED no tick comes. A tick taken after an AMEND that was NOT_AMENDABLE lowers the named
window with the others, though R128 has a tick during the answer leave it: the model's choice
(notes/assumptions/29.md). -/
def execMinuteTick (s : State) : Answer :=
  .next (if s.clockRunning then { s with clock := saturate s.clock }.mapEntries Entry.tick else s)

/-- WINDOW_MINUTES_EXPIRY (R122): every open window at 0 minutes closes. The closing belongs to the tick that brings
the 0, so the command finds work only in a state that no tick has left (notes/assumptions/10.md). -/
def execWindowMinutesExpiry (s : State) : Answer := .next (s.mapEntries Entry.closeAtMinutes)

/-- WINDOW_COUNT_EXPIRY (R121): every open window at count 0 closes. The closing belongs to the own insertion that
brings the 0 (notes/assumptions/10.md). -/
def execWindowCountExpiry (s : State) : Answer := .next (s.mapEntries Entry.closeAtCount)

/-! ### Judging a time report -/

/-- The exact distance of two unsigned values (R23). -/
def distance (a b : Nat) : Nat := if a ≤ b then b - a else a - b

/-- The three outcomes of a judgement (R23). -/
inductive Judgement where
  | adopted
  | stepped
  | notAdopted
  deriving DecidableEq, Repr

/-- Judge report `r` against clock value `k` with tolerances `lo` and `hi` (R23). -/
def judge (lo hi k r : Nat) : Judgement :=
  if distance r k ≤ lo then .adopted else if distance r k ≤ hi then .stepped else .notAdopted

/-- Apply a judgement: the clock takes the report or keeps its value, CLOCK_STEP or TIME_REJECT is raised; no other
piece of time state and no window changes (R23, R24). -/
def State.applyJudgement (j : Judgement) (r : Nat) (s : State) : State :=
  match j with
  | .adopted => { s with clock := BitVec.ofNat 32 r }
  | .stepped => { s with clock := BitVec.ofNat 32 r }.raise .clockStep
  | .notAdopted => s.raise .timeReject

/-! ### Validity periods -/

/-- A network's calendar as used, each value clamped on use (R25). -/
structure Calendar where
  offset : Int
  dayStart : Nat
  grace : Nat
  deriving DecidableEq, Repr

/-- The calendar from the stored values (R25). -/
def calendarOf (offset : Int) (dayStart grace : Nat) : Calendar :=
  { offset := max (-720) (min 840 offset), dayStart := min dayStart 359, grace := min grace 120 }

/-- The local time of reference minute `m`; below 0 taken as 0 (R26). -/
def localTime (cal : Calendar) (m : Nat) : Int := max 0 ((m : Int) + cal.offset)

/-- The reference minute of local time `l`; below 0 taken as 0 (R26). -/
def referenceTime (cal : Calendar) (l : Int) : Nat := (l - cal.offset).toNat

/-- The service day of a local time, the quotient rounded toward minus infinity (R27). -/
def serviceDay (cal : Calendar) (l : Int) : Int := (l - cal.dayStart) / 1440

/-- The reference time at which the service day after the one containing `start` begins (R27, R28). -/
def nextServiceDay (cal : Calendar) (start : Nat) : Nat :=
  referenceTime cal ((serviceDay cal (localTime cal start) + 1) * 1440 + cal.dayStart)

/-- The validity rule codes (R53). -/
def ruleExplicit : Nat := 1
/-- DURATION. -/
def ruleDuration : Nat := 2
/-- SERVICE_DAY. -/
def ruleServiceDay : Nat := 3

/-- The end of validity E (R28). Under a rule code that is none of the three the end is a free value not before the
start (notes/assumptions/14.md). -/
def endOfValidity (fc : Nat) (cal : Calendar) (p : Product) (start : Nat) (carried : Option Nat) : Nat :=
  if p.rule = ruleExplicit then carried.getD start
  else if p.rule = ruleDuration then start + p.duration
  else if p.rule = ruleServiceDay then nextServiceDay cal start
  else max start (Config.validityEnd fc).toNat

/-- The findings of the validity test (R30). -/
inductive TimeFinding where
  | valid
  | grace
  | delay
  | notYetValid
  | expired
  deriving DecidableEq, Repr

/-- The validity test at evaluation time `t` of a ticket with start `start` and end `e`, grace `g` and declared delay
`d`: the effective end is `e + max g d` (R29, R30). -/
def validityTest (start e g d t : Nat) : TimeFinding :=
  if t < start then .notYetValid
  else if t < e then .valid
  else if t < e + max g d then (if d ≤ g then .grace else .delay)
  else .expired

/-- The cause a time finding records (R30). -/
def TimeFinding.causes : TimeFinding → List Cause
  | .expired => [.expired]
  | .notYetValid => [.notYetValid]
  | .valid => []
  | .grace => []
  | .delay => []

/-- The note a time finding records (R30). -/
def TimeFinding.notes : TimeFinding → List Note
  | .grace => [.grace]
  | .delay => [.delay]
  | .valid => []
  | .expired => []
  | .notYetValid => []

end Sys2Proof.Machine
end

