-- ==== Sys2Proof/Machine/TripContext.lean ====
section
/-!
DEFINITION. Sys2Proof/Machine/TripContext.lean: the meanings of TRIP_BEGIN, TRIP_END and POSITION
(01_the_trip_context.md).
-/
namespace Sys2Proof.Machine

/-- The forms of a TRIP slip (R172). -/
def formBegin : Nat := 1
/-- END. -/
def formEnd : Nat := 2

/-- Check 2 of a TRIP BEGIN: the body fields are in range (R8, R9). -/
def TripRequest.inRange (q : TripRequest) : Bool :=
  decide (1 ≤ q.ownId ∧ q.ownId ≤ 63) && decide (1 ≤ q.priorityCount ∧ q.priorityCount ≤ 4)
    && q.priority.all (fun n => decide (n.toNat ≤ 15)) && decide q.priority.Nodup && decide (q.fallback ≤ 15)
    && decide (1 ≤ q.reachCount ∧ q.reachCount ≤ 8) && decide (1 ≤ q.reachMinutes ∧ q.reachMinutes ≤ 60)
    && decide (q.lo ≤ 15) && decide (q.hi ≤ 120) && decide (1 ≤ q.cap ∧ q.cap ≤ 9999999)

/-- The trip context a TRIP BEGIN stores, with the handling of R8 applied: H above 240 as 240, hi below lo as lo
(R8, R12 steps 1 to 3 and 6). -/
def TripRequest.context (q : TripRequest) (plan : List RouteSection) : TripContext :=
  { state := .inTrip, ownId := byteOf q.ownId, plan := plan, priority := q.priority, fallback := byteOf q.fallback,
    current := byteOf q.start, delay := 0, horizon := byteOf (min q.horizon 240), reachCount := byteOf q.reachCount,
    reachMinutes := byteOf q.reachMinutes, lo := byteOf q.lo, hi := byteOf (max q.hi q.lo),
    cap := BitVec.ofNat 32 q.cap, ownCount := 0 }

/-- The trip begins: context, clock and journal (R12). -/
def State.beginTrip (q : TripRequest) (plan : List RouteSection) (s : State) : State :=
  { s with trip := q.context plan, clock := BitVec.ofNat 32 q.startTime, clockRunning := true, journal := .empty }

/-- What checks 3 to 6 of a TRIP BEGIN find (R9 to R11). -/
inductive TripCheck where
  | refused (r : Reason)
  | tableRead
  | accepted (plan : List RouteSection)
  deriving DecidableEq, Repr

/-- Checks 2 to 6 of a TRIP BEGIN, in order (R9). -/
def State.checkTripBegin (failing : List Access) (q : TripRequest) (s : State) : TripCheck :=
  if !q.inRange then .refused .badField
  else if s.tables ≠ .usable then .refused .tablesUnusable
  else if (missingNetwork s.snapshot (q.priority ++ [byteOf q.fallback])).isSome then .refused .badNetwork
  else
    match s.routeWalk failing q.planOffset q.start with
    | .badRoute => .refused .badRoute
    | .accessError => .tableRead
    | .plan sections => .accepted sections

/-- A refused TRIP slip: every byte of the result area 0 (R169). -/
def State.refuseTrip (failing : List Access) (f : InFlight) (r : Reason) (s : State) : State :=
  s.answer failing f tripResultAt (zeros 16) (some r)

/-- A TRIP BEGIN is worked and answered (R9 to R12). In IN_TRIP its fields after the form are not read
(notes/assumptions/19.md). -/
def State.workBegin (failing : List Access) (f : InFlight) (s : State) : State :=
  if s.trip.state = .inTrip then s.refuseTrip failing f .tripActive
  else
    match readTripRequest (s.slipByte failing (s.chain f.chain).cursor) with
    | none => s.endOnFault f
    | some q =>
      match s.checkTripBegin failing q with
      | .refused r => s.refuseTrip failing f r
      | .tableRead => (s.tableFault noSlot 14).refuseTrip failing f .tableRead
      | .accepted plan =>
        (s.beginTrip q plan).answer failing f tripResultAt
          (tripBeginResult plan.length q.priorityCount (min q.horizon 240) (max q.hi q.lo)) none

/-- The trip ends: journal emptied, clock stopped, every item of the context at its NO_TRIP value (R13, R19). -/
def State.endTrip (s : State) : State :=
  { s with journal := .empty, clockRunning := false, clock := 0#32, trip := .none }

/-- A TRIP END is worked and answered (R13). -/
def State.workEnd (failing : List Access) (f : InFlight) (s : State) : State :=
  if s.trip.state = .noTrip then s.refuseTrip failing f .noTrip
  else
    s.endTrip.answer failing f tripResultAt
      (tripEndResult s.journal.entries.length s.trip.ownCount.toNat s.clock.toNat) none

/-- The TRIP slip in flight, by its form (R9): a form that is neither BEGIN nor END is refused with BAD_FIELD in
either trip state. `wanted` is the form of the command that works it; a slip of the other form is left to the other
command. -/
def State.workTrip (failing : List Access) (wanted : Nat) (f : InFlight) (s : State) : State :=
  match readField (s.slipByte failing (s.chain f.chain).cursor) 16 1 with
  | none => s.endOnFault f
  | some form =>
    if form = formBegin then (if wanted = formBegin then s.workBegin failing f else s)
    else if form = formEnd then (if wanted = formEnd then s.workEnd failing f else s)
    else s.refuseTrip failing f .badField

/-- TRIP_BEGIN (R9 to R12). -/
def execTripBegin (s : State) : Answer :=
  .next (match s.working kindTrip with | none => s | some f => s.workTrip [] formBegin f)

/-- TRIP_END (R9, R13). -/
def execTripEnd (s : State) : Answer :=
  .next (match s.working kindTrip with | none => s | some f => s.workTrip [] formEnd f)

/-! ### POSITION -/

/-- Checks 2 and 3 of a POSITION, in order (R14). -/
def State.checkPosition (q : PositionRequest) (s : State) : Option Reason :=
  if 1 < q.flag ∨ s.trip.plan.length ≤ q.section_ then some .badField
  else if q.section_ < s.trip.current.toNat then some .positionBackward
  else none

/-- A POSITION refused: section and delay as they stand, flags clear, the clock, or 0 in NO_TRIP (R14, R169). -/
def State.refusePosition (failing : List Access) (f : InFlight) (r : Reason) (s : State) : State :=
  s.answer failing f positionResultAt
    (positionResult s.trip.current.toNat s.trip.delay.toNat 0 s.stamp.toNat) (some r)

/-- Steps 1 and 2 of an accepted POSITION (R16). -/
def State.place (q : PositionRequest) (s : State) : State :=
  { s with trip := { s.trip with current := byteOf q.section_, delay := byteOf q.delay } }

/-- The judgement of a POSITION's report, when it carries one (R16, R23). -/
def State.positionJudgement (q : PositionRequest) (s : State) : Option Judgement :=
  if q.flag = 1 then some (judge s.trip.lo.toNat s.trip.hi.toNat s.clock.toNat q.report) else none

/-- An accepted POSITION is applied (R16). -/
def State.applyPosition (q : PositionRequest) (s : State) : State :=
  match s.positionJudgement q with
  | none => s.place q
  | some j => (s.place q).applyJudgement j q.report

/-- The POSITION in flight is worked and answered (R14 to R16). In NO_TRIP its body is not read
(notes/assumptions/19.md). -/
def State.workPosition (failing : List Access) (f : InFlight) (s : State) : State :=
  if s.trip.state = .noTrip then s.refusePosition failing f .noTrip
  else
    match readPositionRequest (s.slipByte failing (s.chain f.chain).cursor) with
    | none => s.endOnFault f
    | some q =>
      match s.checkPosition q with
      | some r => s.refusePosition failing f r
      | none =>
        let j := s.positionJudgement q
        let s := s.applyPosition q
        s.answer failing f positionResultAt
          (positionResult s.trip.current.toNat s.trip.delay.toNat
            (positionFlagBits (decide (j = some .stepped)) (decide (j = some .notAdopted))) s.clock.toNat) none

/-- POSITION (R16). -/
def execPosition (s : State) : Answer :=
  .next (match s.working kindPosition with | none => s | some f => s.workPosition [] f)

end Sys2Proof.Machine
end

