-- ==== Sys2Proof/Machine/TokenDecoder.lean ====
section
/-!
DEFINITION. Sys2Proof/Machine/TokenDecoder.lean: the INSPECT request's range check and the Token Decoder
(03_presented_tokens.md R32 to R46).
-/
namespace Sys2Proof.Machine

/-! ### The request -/

/-- The code for an absent boarding or destination section (R32). -/
def absent : Nat := 255

/-- A boarding or destination field is in range: 0 to 95, or absent (R32). -/
def sectionInRange (v : Nat) : Bool := decide (v ≤ 95 ∨ v = absent)

/-- The request fields are in range (R32). -/
def InspectRequest.inRange (q : InspectRequest) : Bool :=
  decide (1 ≤ q.authenticity ∧ q.authenticity ≤ 3) && decide (1 ≤ q.presentation ∧ q.presentation ≤ 3)
    && decide (q.seated ≤ 2) && decide (q.adults ≤ 9) && decide (q.children ≤ 9) && sectionInRange q.boarding
    && sectionInRange q.destination && decide (q.identity ≤ 1) && decide (q.selfDeclared ≤ 1)
    && decide (8 ≤ q.length ∧ q.length ≤ 192)

/-! ### Elements -/

/-- The known elements met on the walk: where the body stands in the image and its length; the zones as read, of
which only membership is ever asked (R43). -/
structure Elements where
  identity : Option (Nat × Nat)
  product : Option (Nat × Nat)
  validity : Option (Nat × Nat)
  zones : Option (List Byte)
  travellers : Option (Nat × Nat)
  deriving DecidableEq, Repr

/-- No element met. -/
def Elements.empty : Elements :=
  { identity := none, product := none, validity := none, zones := none, travellers := none }

/-- An element of this known type has been met (R42); unknown types may repeat. -/
def Elements.met (e : Elements) (type : Nat) : Bool :=
  match type with
  | 1 => e.identity.isSome
  | 2 => e.product.isSome
  | 3 => e.validity.isSome
  | 4 => e.zones.isSome
  | 5 => e.travellers.isSome
  | _ => false

/-- The required elements are present (R44). -/
def Elements.complete (e : Elements) : Bool := e.identity.isSome && e.product.isSome && e.validity.isSome

/-- A body length fits the type (R41). `width` is the issuer's serial width, absent for an unknown issuer (R38). -/
def bodyFits (width : Option Nat) (type n : Nat) : Bool :=
  match type with
  | 1 => decide (4 ≤ n ∧ n ≤ 8) && (match width with | none => true | some w => decide (n = w))
  | 2 => decide (n = 2)
  | 3 => decide (n = 4 ∨ n = 8)
  | 4 => decide (1 ≤ n ∧ n ≤ 16)
  | 5 => decide (n = 2)
  | _ => true

/-- The zone ids of a ZONES body, checked as they are read: `none` inside is a malformation (R43). -/
def readZones (get : Nat → Option Byte) : Nat → Nat → Except Stop (Option (List Byte))
  | _, 0 => .ok (some [])
  | a, n + 1 =>
    match get a with
    | none => .error .slip
    | some z =>
      if z = 0#8 ∨ z = 255#8 then .ok none
      else
        match readZones get (a + 1) n with
        | .error e => .error e
        | .ok none => .ok none
        | .ok (some zs) => .ok (some (z :: zs))

/-- An element whose header has passed is recorded; the result is `none` where its body is malformed (R41 to R43). -/
def Elements.record (e : Elements) (get : Nat → Option Byte) (type body n : Nat) : Except Stop (Option Elements) :=
  match type with
  | 1 => .ok (some { e with identity := some (body, n) })
  | 2 => .ok (some { e with product := some (body, n) })
  | 3 => .ok (some { e with validity := some (body, n) })
  | 4 =>
    match readZones get body n with
    | .error stop => .error stop
    | .ok none => .ok none
    | .ok (some zs) => .ok (some { e with zones := some zs })
  | 5 => .ok (some { e with travellers := some (body, n) })
  | _ => .ok (some e)

/-- The walk of the element chain from offset `o` (R39 to R43): `fuel` is how many elements may still be walked, so
that a further link from the twelfth is malformed without its header being read (R40). `get` reads an image byte. -/
def walkElements (get : Nat → Option Byte) (length : Nat) (width : Option Nat) :
    Nat → Nat → Elements → Except Stop (Option Elements)
  | 0, _, _ => .ok none
  | fuel + 1, o, e =>
    if length < o + 3 then .ok none
    else
      match readBytes get o 3 with
      | some [type, n, next] =>
        if length < o + 3 + n.toNat then .ok none
        else if e.met type.toNat || !bodyFits width type.toNat n.toNat then .ok none
        else
          match e.record get type.toNat (o + 3) n.toNat with
          | .error stop => .error stop
          | .ok none => .ok none
          | .ok (some e') =>
            if next = 0#8 then .ok (some e')
            else if next.toNat < o + 3 + n.toNat then .ok none
            else walkElements get length width fuel next.toNat e'
      | _ => .error .slip

/-! ### The decoded token -/

/-- The content of a decoded token (R46). -/
structure Decoded where
  issuer : Byte
  serial : Nat
  product : Nat
  start : Nat
  finish : Option Nat
  zones : Option (List Byte)
  adults : Nat
  children : Nat
  deriving DecidableEq, Repr

/-- The three forms the decoder hands on (R46). -/
inductive Token where
  | decoded (d : Decoded)
  | unknownIssuer (issuer : Byte)
  | malformed (issuer : Byte)
  deriving DecidableEq, Repr

/-- A multi-byte token field under the issuer's byte order (R45). -/
def tokenField (get : Nat → Option Byte) (msbFirst : Bool) (a n : Nat) : Option Nat :=
  match readBytes get a n with
  | none => none
  | some bs => some (leNat (if msbFirst then bs.reverse else bs))

/-- Whether an issuer's byte order reads most-significant byte first (R45); a free value for an order that is neither
0 nor 1 (notes/assumptions/14.md). -/
def readsMsbFirst (fc order : Nat) : Bool := if order = 0 then false else if order = 1 then true else Config.msbFirst fc

/-- The fields of the elements are read (R45, R46), the two TRAVELLERS bytes with them (notes/assumptions/26.md):
travellers 1 and 0 when the element is absent (R44). -/
def readTokenFields (get : Nat → Option Byte) (msbFirst : Bool) (issuer : Byte) (e : Elements) : Option Decoded :=
  match e.identity, e.product, e.validity with
  | some (ia, iw), some (pa, _), some (va, vn) => do
    let serial ← tokenField get msbFirst ia iw
    let product ← tokenField get msbFirst pa 2
    let start ← tokenField get msbFirst va 4
    let finish ← if vn = 8 then (tokenField get msbFirst (va + 4) 4).map some else some none
    let adults ← match e.travellers with | none => some 1 | some (ta, _) => (get ta).map BitVec.toNat
    let children ← match e.travellers with | none => some 0 | some (ta, _) => (get (ta + 1)).map BitVec.toNat
    some { issuer := issuer, serial := serial, product := product, start := start, finish := finish,
           zones := e.zones, adults := adults, children := children }
  | _, _, _ => none

/-- The token header (R37): the issuer byte, with the first element offset where the header is well formed. Each byte is
read when the one before it has passed its check (notes/assumptions/26.md). -/
def readTokenHeader (get : Nat → Option Byte) (length : Nat) : Except Stop (Byte × Option Nat) := do
  let issuer ← fromSlip (get 0)
  if 15 < issuer.toNat then return (issuer, none)
  let version ← fromSlip (get 1)
  if version ≠ 1#8 then return (issuer, none)
  let first ← fromSlip (get 2)
  if first.toNat < 3 ∨ length < first.toNat + 3 then return (issuer, none)
  return (issuer, some first.toNat)

/-- The address of a network's profile by the snapshot (R38, R50). -/
def State.profileOf (s : State) (network : Byte) : Option Nat :=
  (slotOf s.snapshot network).map (fun o => s.tableBase + o.toNat)

/-- The token image of `length` bytes in the slip at link `l` is decoded (R36). -/
def State.decodeToken (s : State) (failing : List Access) (l : Link) (length : Nat) : Except Stop Token :=
  let get := fun i => s.slipByte failing l (imageAt + i)
  match readTokenHeader get length with
  | .error stop => .error stop
  | .ok (issuer, none) => .ok (.malformed issuer)
  | .ok (issuer, some first) =>
    match s.profileOf issuer with
    | none =>
      match walkElements get length none Config.elementLimit first .empty with
      | .error stop => .error stop
      | .ok none => .ok (.malformed issuer)
      | .ok (some e) => .ok (if e.complete then .unknownIssuer issuer else .malformed issuer)
    | some profile =>
      match readField (s.tableByte failing issuer) profile 1, readField (s.tableByte failing issuer) (profile + 1) 1 with
      | some order, some width =>
        match walkElements get length (some width) Config.elementLimit first .empty with
        | .error stop => .error stop
        | .ok none => .ok (.malformed issuer)
        | .ok (some e) =>
          if e.complete then
            match readTokenFields get (readsMsbFirst s.freeCount order) issuer e with
            | none => .error .slip
            | some d => .ok (.decoded d)
          else .ok (.malformed issuer)
      | _, _ => .error (.table issuer 15)

end Sys2Proof.Machine
end

