-- ==== Sys2Proof/Machine/FareEvaluator.lean ====
section
/-!
DEFINITION. Sys2Proof/Machine/FareEvaluator.lean: the completion and assessment of a token, coverage, the journey span,
persons and class, the fare arithmetic and the fare lines (03_presented_tokens.md R34, R47, R48;
05_coverage_and_fare_arithmetic.md).
-/
namespace Sys2Proof.Machine

/-! ### Assessment: lookups, completion, validity -/

/-- A token with everything that decoding, lookups and the validity test found for it (R96 steps 1 and 2). The
travellers and the class stand for the values of R73. -/
structure Assessed where
  issuer : Byte
  serial : Nat
  product : Option Product
  zones : Option (List Byte)
  adults : Nat
  children : Nat
  causes : List Cause
  notes : List Note
  deriving DecidableEq, Repr

/-- The cause of a FAILED authenticity (R34). -/
def authCauses (authenticity : Nat) : List Cause := if authenticity = 3 then [.authFailed] else []

/-- The note of an UNVERIFIED authenticity (R34). -/
def authNotes (authenticity : Nat) : List Note := if authenticity = 2 then [.unverified] else []

/-- A token without decoded fields: key serial 0 (R89), travellers 1 and 0 (R73), one cause beside AUTH_FAILED. -/
def Assessed.bare (issuer : Byte) (cause : Cause) (authenticity : Nat) : Assessed :=
  { issuer := issuer, serial := 0, product := none, zones := none, adults := 1, children := 0,
    causes := cause :: authCauses authenticity, notes := authNotes authenticity }

/-- The cause a deny lookup records: DENIED on a match in a BLOCK range (R62). -/
def denyCauses (d : Option DenyRange) : List Cause :=
  match d with
  | none => []
  | some r => if r.kind = 1 then [.denied] else []

/-- The note a deny lookup records: WATCH on any other match; a kind that is neither is taken as WATCH (R62). -/
def denyNotes (d : Option DenyRange) : List Note :=
  match d with
  | none => []
  | some r => if r.kind = 1 then [] else [.watch]

/-- R47: an EXPLICIT product refuses a VALIDITY without an end after its start. A rule code that is none of the three
refuses nothing (notes/assumptions/14.md). -/
def validityFits (p : Product) (start : Nat) (finish : Option Nat) : Bool :=
  if p.rule = ruleExplicit then (match finish with | none => false | some e => decide (start < e)) else true

/-- Travellers clamped to the product's maximum, adults before children (R48). A maximum outside 1–9, in a table
rewritten outside a hold, is used as read, so that the clamped counts may leave the range that R104 gives an own entry:
the model's choice (notes/assumptions/14.md). -/
def clampTravellers (adults children most : Nat) : Nat × Nat :=
  (min adults most, min children (most - min adults most))

/-- The issuer's calendar values are read and clamped (R25, R60 step 4). -/
def State.readCalendar (s : State) (failing : List Access) (slot : Byte) (profile : Nat) : Except Stop Calendar := do
  let get := s.tableByte failing slot
  let offset ← fromTable slot (readField get (profile + 2) 2)
  let dayStart ← fromTable slot (readField get (profile + 4) 2)
  let grace ← fromTable slot (readField get (profile + 6) 1)
  return calendarOf (signedOf 16 offset) dayStart grace

/-- A decoded token whose product is found: completion, clamp, validity test and ID_CHECK (R30, R47, R48, R91). -/
def completeToken (fc : Nat) (cal : Calendar) (delay t : Nat) (q : InspectRequest) (d : Decoded) (p : Product)
    (deny : Option DenyRange) : Assessed :=
  if validityFits p d.start d.finish then
    let clamped := clampTravellers d.adults d.children p.maxTravellers
    let time := validityTest d.start (endOfValidity fc cal p d.start d.finish) cal.grace delay t
    { issuer := d.issuer, serial := d.serial, product := some p, zones := d.zones, adults := clamped.1,
      children := clamped.2, causes := denyCauses deny ++ authCauses q.authenticity ++ time.causes,
      notes := time.notes ++ denyNotes deny ++ (if p.identity = 1 ∧ q.identity = 0 then [.idCheck] else [])
        ++ authNotes q.authenticity
        ++ (if clamped = (d.adults, d.children) then [] else [.travellersClamped]) }
  else .bare d.issuer .malformed q.authenticity

/-- A decoded token whose product is absent keeps its key; the deny lookup stands (R47, R61, R88). -/
def productlessToken (q : InspectRequest) (d : Decoded) (deny : Option DenyRange) : Assessed :=
  { issuer := d.issuer, serial := d.serial, product := none, zones := none, adults := 1, children := 0,
    causes := .unknownProduct :: (denyCauses deny ++ authCauses q.authenticity),
    notes := denyNotes deny ++ authNotes q.authenticity }

/-- Steps 1 and 2 of R96 for the slip at link `l` at evaluation time `t`: decoding, the lookups in the order of R60,
and the validity test. -/
def State.assess (s : State) (failing : List Access) (l : Link) (q : InspectRequest) (t : Nat) :
    Except Stop Assessed := do
  match ← s.decodeToken failing l q.length with
  | .malformed issuer => return .bare issuer .malformed q.authenticity
  | .unknownIssuer issuer => return .bare issuer .unknownIssuer q.authenticity
  | .decoded d =>
    match s.profileOf d.issuer with
    | none => return .bare d.issuer .unknownIssuer q.authenticity
    | some profile =>
      let product ← s.lookupProduct failing d.issuer profile d.product
      let deny ← s.lookupDeny failing d.issuer profile d.serial
      match product with
      | none => return productlessToken q d deny
      | some p =>
        let cal ← s.readCalendar failing d.issuer profile
        return completeToken s.freeCount cal s.trip.delay.toNat t q d p deny

/-! ### Coverage and pricing networks -/

/-- The zone in which a section is claimed by a network, if it is (R5). -/
def RouteSection.claimOf (sec : RouteSection) (network : Byte) : Option Byte :=
  (sec.claims.find? (fun c => decide (c.network = network))).map Claim.zone

/-- The coverage codes of a product: ZONES 1, WHOLE_NETWORK 2 (R53). -/
def coverageZones : Nat := 1
/-- WHOLE_NETWORK. -/
def coverageWhole : Nat := 2

/-- Whether a ticket covers a section (R67). -/
def Assessed.covers (a : Assessed) (sec : RouteSection) : Bool :=
  a.causes.isEmpty &&
    match a.product, sec.claimOf a.issuer with
    | some p, some z =>
      decide (p.coverage = coverageWhole)
        || (decide (p.coverage = coverageZones)
            && (match a.zones with | none => false | some zs => zs.contains z))
    | _, _ => false

/-- The coverage map over sections 0 to N - 1; empty of covered sections where there is an INVALID cause (R66). -/
def Assessed.coverage (a : Assessed) (plan : List RouteSection) : List Bool := plan.map a.covers

/-- The pricing network of a section: the first of the priority list in its claim list, else the fallback (R68). -/
def TripContext.pricingNetwork (t : TripContext) (sec : RouteSection) : Byte :=
  (t.priority.find? (fun n => (sec.claimOf n).isSome)).getD t.fallback

/-! ### The journey span -/

/-- Section `i` is the first of a run of the map (R70). -/
def startsRun (map : List Bool) (i : Nat) : Bool :=
  map.getD i false && (decide (i = 0) || !map.getD (i - 1) false)

/-- The default boarding section: the first section of the latest run that begins at or before `c`, else 0 (R70). -/
def defaultBoarding (map : List Bool) : Nat → Nat
  | 0 => 0
  | c + 1 => if startsRun map (c + 1) then c + 1 else defaultBoarding map c

/-- The journey span (R69 to R72). -/
structure Span where
  boarding : Nat
  destination : Nat
  clamped : Bool
  deriving DecidableEq, Repr

/-- The span over a route of `n` sections with current section `c` (R69 to R72). -/
def journeySpan (map : List Bool) (n c boarding destination : Nat) : Span :=
  { boarding := if boarding = absent then defaultBoarding map c else min boarding c,
    destination := if destination = absent then n - 1 else min (max destination c) (n - 1),
    clamped := (decide (boarding ≠ absent) && decide (c < boarding))
      || (decide (destination ≠ absent) && (decide (destination < c) || decide (n - 1 < destination))) }

/-! ### Persons and class -/

/-- The person counts of the lines (R74). -/
structure Persons where
  adults : Nat
  children : Nat
  extraAdults : Nat
  extraChildren : Nat
  coveredAdults : Nat
  coveredChildren : Nat
  deriving DecidableEq, Repr

/-- The counts from ticket travellers (ta, tc) and present persons (pa, pc) (R74). -/
def personCounts (ta tc pa pc : Nat) : Persons :=
  let ea := pa - ta
  let ec := pc - tc - (ta - pa)
  { adults := pa, children := pc, extraAdults := ea, extraChildren := ec, coveredAdults := pa - ea,
    coveredChildren := pc - ec }

/-- The persons of an inspection: both present counts 0 mean the ticket's travellers (R73). -/
def Assessed.persons (a : Assessed) (q : InspectRequest) : Persons :=
  if q.adults = 0 ∧ q.children = 0 then personCounts a.adults a.children a.adults a.children
  else personCounts a.adults a.children q.adults q.children

/-- The ticket class: the product's, or 2 where no product was found (R73). -/
def Assessed.ticketClass (a : Assessed) : Nat :=
  match a.product with
  | none => 2
  | some p => p.class_

/-- The seated class: 0 replaced by the ticket class (R73). -/
def Assessed.seatedClass (a : Assessed) (q : InspectRequest) : Nat :=
  if q.seated = 0 then a.ticketClass else q.seated

/-! ### The amount of one line -/

/-- A value of the 48-bit arithmetic (R80): itself, or a free value where it exceeds 48 bits, which no table that
passed the walk can bring about (notes/assumptions/14.md). -/
def fit48 (fc x : Nat) : Nat := if x < Config.limit48 then x else (Config.beyond48 fc x).toNat

/-- A pricing network's values as used (R52, R81). -/
structure Pricing where
  unit : Nat
  classPercent : Nat
  childPercent : Nat
  surcharge : Nat
  bandOffset : Nat
  bandCount : Nat
  deriving DecidableEq, Repr

/-- The clamps of R52. The surcharge has no clamp: one above 99,999, in a profile rewritten outside a hold, is used as
read, the model's choice (notes/assumptions/14.md). -/
def pricingOf (unit classPercent childPercent surcharge bandOffset bandCount : Nat) : Pricing :=
  { unit := max 1 (min unit 1000), classPercent := max 100 (min classPercent 250),
    childPercent := min childPercent 100, surcharge := surcharge, bandOffset := bandOffset, bandCount := bandCount }

/-- The class percent k of a class (R77); a free value for a class that is neither 1 nor 2
(notes/assumptions/14.md). -/
def classPercentOf (fc : Nat) (g : Pricing) (class_ : Nat) : Nat :=
  if class_ = 2 then 100 else if class_ = 1 then g.classPercent else (Config.classPercent fc).toNat

/-- Stage 1, the distance fare F1 in milli-units (R76). A base above 999,999, in a band rewritten outside a hold, is used
as read while the fare stays within 48 bits, the model's choice (notes/assumptions/14.md). -/
def distanceFare (fc : Nat) (b : Band) (d : Nat) : Nat :=
  fit48 fc (fit48 fc (b.base * 1000) + fit48 fc ((d - b.lower) * b.rate))

/-- Stage 2, the class (R77). -/
def classFare (fc f1 k : Nat) : Nat := fit48 fc (f1 * k) / 100

/-- Stage 3, the persons (R78). -/
def personsFare (fc f2 adults children q : Nat) : Nat :=
  fit48 fc (fit48 fc (f2 * adults) + fit48 fc (f2 * children * q) / 100)

/-- Stage 4, rounding to the unit, a half upward (R79). -/
def roundFare (fc f3 unit : Nat) : Nat := fit48 fc (f3 + 500 * unit) / (1000 * unit) * unit

/-- An amount in minor units, and whether it recorded ROUNDED. -/
structure Amount where
  value : Nat
  rounded : Bool
  deriving DecidableEq, Repr

/-- A zero-case amount (R75). -/
def Amount.zero : Amount := { value := 0, rounded := false }

/-- The amount R(D, k, a, ch) from its band, outside the zero case (R76 to R79). -/
def bandAmount (fc : Nat) (g : Pricing) (b : Band) (d k adults children : Nat) : Amount :=
  let f3 := personsFare fc (classFare fc (distanceFare fc b d) k) adults children g.childPercent
  { value := roundFare fc f3 g.unit, rounded := decide (roundFare fc f3 g.unit * 1000 ≠ f3) }

/-- The zero case: no distance or no person (R75). -/
def zeroCase (d adults children : Nat) : Bool := decide (d = 0 ∨ adults + children = 0)

/-! ### The lines of an inspection -/

/-- One section of the span as the lines see it. -/
structure Leg where
  network : Byte
  distance : Nat
  covered : Bool
  deriving DecidableEq, Repr

/-- The sections of the span in order, each with its pricing network, distance and coverage (R81). -/
def TripContext.legs (t : TripContext) (a : Assessed) (span : Span) : List Leg :=
  ((t.plan.map (fun sec =>
      { network := t.pricingNetwork sec, distance := sec.distance.toNat, covered := a.covers sec : Leg })).drop
    span.boarding).take (span.destination + 1 - span.boarding)

/-- Networks in the order in which each is first met (R81). -/
def firstMet : List Byte → List Byte
  | [] => []
  | n :: ns => n :: (firstMet ns).filter (fun m => decide (m ≠ n))

/-- The distance of network `g`'s covered or uncovered legs (R81). -/
def legDistance (legs : List Leg) (g : Byte) (covered : Bool) : Nat :=
  ((legs.filter (fun l => decide (l.network = g ∧ l.covered = covered))).map Leg.distance).sum

/-- The lines of one network, whether one of its amounts recorded ROUNDED, and its surcharge where it was read. -/
structure NetworkLines where
  network : Byte
  uncovered : Nat
  extra : Nat
  class_ : Nat
  rounded : Bool
  surcharge : Nat
  deriving DecidableEq, Repr

/-- A pricing network's profile is read once (R52, R81), its surcharge as it stands (`pricingOf`). -/
def State.readPricing (s : State) (failing : List Access) (slot : Byte) (profile : Nat) : Except Stop Pricing := do
  let get := s.tableByte failing slot
  let child ← fromTable slot (readField get (profile + 7) 1)
  let unit ← fromTable slot (readField get (profile + 8) 2)
  let cls ← fromTable slot (readField get (profile + 10) 2)
  let surcharge ← fromTable slot (readField get (profile + 12) 4)
  let count ← fromTable slot (readField get (profile + 22) 1)
  let offset ← fromTable slot (readField get (profile + 24) 4)
  return pricingOf unit cls child surcharge offset count

/-- The uncovered or the extra-persons line (R82): 0 in the zero case, else an amount with a band lookup of its own. -/
def State.lineAmount (s : State) (failing : List Access) (slot : Byte) (g : Pricing) (d k adults children : Nat) :
    Except Stop Amount :=
  if zeroCase d adults children then .ok .zero
  else
    match s.lookupBand failing slot g.bandOffset g.bandCount d with
    | .error stop => .error stop
    | .ok b => .ok (bandAmount s.freeCount g b d k adults children)

/-- The class line (R83): the difference of two amounts that share one band lookup. -/
def State.classLine (s : State) (failing : List Access) (slot : Byte) (g : Pricing) (d adults children : Nat)
    (due : Bool) : Except Stop Amount :=
  if !due || zeroCase d adults children then .ok .zero
  else
    match s.lookupBand failing slot g.bandOffset g.bandCount d with
    | .error stop => .error stop
    | .ok b =>
      let high := bandAmount s.freeCount g b d (classPercentOf s.freeCount g 1) adults children
      let low := bandAmount s.freeCount g b d (classPercentOf s.freeCount g 2) adults children
      .ok { value := high.value - low.value, rounded := high.rounded || low.rounded }

/-- The lines of network `slot` over its uncovered and covered distances (R81 to R83). A network all of whose amounts
are zero-case has no profile read. -/
def State.networkLines (s : State) (failing : List Access) (p : Persons) (seated ticket : Nat) (slot : Byte)
    (uncovered covered : Nat) : Except Stop NetworkLines :=
  let due := decide (seated = 1 ∧ ticket = 2)
  if zeroCase uncovered p.adults p.children && zeroCase covered p.extraAdults p.extraChildren
      && (!due || zeroCase covered p.coveredAdults p.coveredChildren) then
    .ok { network := slot, uncovered := 0, extra := 0, class_ := 0, rounded := false, surcharge := 0 }
  else
    match s.profileOf slot with
    | none => .error (.table slot 16)
    | some profile => do
      let g ← s.readPricing failing slot profile
      let k := classPercentOf s.freeCount g seated
      let unc ← s.lineAmount failing slot g uncovered k p.adults p.children
      let ext ← s.lineAmount failing slot g covered k p.extraAdults p.extraChildren
      let cls ← s.classLine failing slot g covered p.coveredAdults p.coveredChildren due
      return { network := slot, uncovered := unc.value, extra := ext.value, class_ := cls.value,
               rounded := unc.rounded || ext.rounded || cls.rounded, surcharge := g.surcharge }

/-- The lines of every network, in order (R81). -/
def State.allLines (s : State) (failing : List Access) (p : Persons) (seated ticket : Nat) (legs : List Leg) :
    List Byte → Except Stop (List NetworkLines)
  | [] => .ok []
  | g :: gs =>
    match s.networkLines failing p seated ticket g (legDistance legs g false) (legDistance legs g true) with
    | .error stop => .error stop
    | .ok lines =>
      match State.allLines s failing p seated ticket legs gs with
      | .error stop => .error stop
      | .ok rest => .ok (lines :: rest)

/-- The results of the arithmetic (R86). -/
structure Priced where
  span : Span
  covered : Nat
  firstUncovered : Option Byte
  persons : Persons
  uncoveredSum : Nat
  extraSum : Nat
  classSum : Nat
  surcharge : Nat
  total : Nat
  rounded : Bool
  surcharged : Bool
  capped : Bool
  deriving DecidableEq, Repr

/-- The surcharge of an inspection, if it is added (R84): from the first uncovered section's network, as read, above
99,999 too, so that the record may leave the range of R97: the model's choice (notes/assumptions/14.md). -/
def surchargeOf (selfDeclared : Nat) (first : Option Byte) (lines : List NetworkLines) : Option Nat :=
  if selfDeclared = 0 ∧ lines.any (fun n => decide (n.uncovered ≠ 0)) = true then
    match lines.find? (fun n => decide (some n.network = first)) with
    | none => some 0
    | some n => some n.surcharge
  else none

/-- The total from the lines: the sums, the surcharge and the cap (R84, R85). -/
def totalOf (cap : Nat) (span : Span) (legs : List Leg) (p : Persons) (selfDeclared : Nat) (lines : List NetworkLines) :
    Priced :=
  let first := (legs.find? (fun l => !l.covered)).map Leg.network
  let unc := (lines.map NetworkLines.uncovered).sum
  let ext := (lines.map NetworkLines.extra).sum
  let cls := (lines.map NetworkLines.class_).sum
  let sur := surchargeOf selfDeclared first lines
  let t := unc + ext + cls + sur.getD 0
  { span := span, covered := legs.countP (fun l => l.covered), firstUncovered := first, persons := p,
    uncoveredSum := unc, extraSum := ext, classSum := cls, surcharge := sur.getD 0, total := min t cap,
    rounded := lines.any NetworkLines.rounded, surcharged := sur.isSome, capped := decide (cap < t) }

/-- Step 3 of R96: map, span, persons, lines, surcharge and total. -/
def State.price (s : State) (failing : List Access) (q : InspectRequest) (a : Assessed) : Except Stop Priced :=
  let t := s.trip
  let span := journeySpan (a.coverage t.plan) t.plan.length t.current.toNat q.boarding q.destination
  let legs := t.legs a span
  let p := a.persons q
  match s.allLines failing p (a.seatedClass q) a.ticketClass legs (firstMet (legs.map Leg.network)) with
  | .error stop => .error stop
  | .ok lines => .ok (totalOf t.cap.toNat span legs p q.selfDeclared lines)

end Sys2Proof.Machine
end

