-- ==== Sys2Proof/Machine/Journal.lean ====
section
/-!
DEFINITION. Sys2Proof/Machine/Journal.lean: the Inspection Journal: insertion and eviction, the passback search, and
the meanings of AMEND, MERGE and RECALL (07_the_inspection_journal.md, 08_amendment_windows.md).
-/
namespace Sys2Proof.Machine

/-! ### Insertion -/

/-- The oldest entry is evicted (R108): the evicted-through time keeps the largest time, and the first eviction of
the trip sets the wrap flag and raises JOURNAL_WRAP. -/
def State.evictOldest (s : State) : State :=
  match s.journal.entries with
  | [] => s
  | e :: rest =>
    let s' := { s with journal := { s.journal with
      entries := rest, wrapped := true,
      evictedThrough := if s.journal.evictedThrough.toNat < e.time.toNat then e.time
        else s.journal.evictedThrough } }
    if s.journal.wrapped then s' else s'.raise .journalWrap

/-- An insertion into a full list first evicts the oldest entry (R108). -/
def State.makeRoom (s : State) : State :=
  if Config.journalCapacity ≤ s.journal.entries.length then s.evictOldest else s

/-- An entry joins the newest end of the list. -/
def State.appendEntry (e : Entry) (s : State) : State :=
  { s with journal := { s.journal with entries := s.journal.entries ++ [e] } }

/-- The own entry counter advances, from 65,535 to 1 (R107). -/
def nextOwnNumber (n : Half) : Half := if n = 65535#16 then 1#16 else n + 1#16

/-- The fields of an own entry that its inspection fixes (R104). -/
structure OwnSighting where
  issuer : Byte
  serial : Serial
  time : Word
  adults : Byte
  children : Byte
  verdict : Verdict
  deriving DecidableEq, Repr

/-- The own entry of a sighting with origin entry number `n`: outcome NONE, its window open at the trip's full reach
(R104, R120). -/
def OwnSighting.entry (o : OwnSighting) (t : TripContext) (n : Half) : Entry :=
  { originId := t.ownId, originNumber := n, issuer := o.issuer, serial := o.serial, section_ := t.current,
    time := o.time, adults := o.adults, children := o.children, verdict := o.verdict, outcome := .none,
    window := some { count := t.reachCount, minutes := t.reachMinutes } }

/-- The five steps of an own insertion, in order (R106). -/
def State.insertOwn (o : OwnSighting) (s : State) : State :=
  let s := s.makeRoom
  let n := nextOwnNumber s.journal.ownCounter
  let s := { s with journal := { s.journal with ownCounter := n } }
  let s := s.mapEntries Entry.countDown
  let s := s.appendEntry (o.entry s.trip n)
  { s with trip := { s.trip with ownCount := saturate s.trip.ownCount } }

/-! ### The passback search -/

/-- An entry the search looks at: under the key, and not VOIDED (R109). -/
def Entry.sighted (issuer : Byte) (serial : Serial) (e : Entry) : Bool :=
  decide (e.issuer = issuer ∧ e.serial = serial ∧ e.outcome ≠ .voided)

/-- The prior sighting: the latest such entry of the list (R109). -/
def Journal.priorSighting (j : Journal) (issuer : Byte) (serial : Serial) : Option Entry :=
  (j.entries.filter (Entry.sighted issuer serial)).getLast?

/-- The minutes since a sighting: t minus its time, or 0 when that is later (R98, R109). -/
def minutesSince (t : Word) (e : Entry) : Nat := t.toNat - e.time.toNat

/-- What the search hands the composition (R112). -/
structure SearchResult where
  suspicion : Bool
  notes : List Note
  priorId : Nat
  priorNumber : Nat
  minutes : Nat
  deriving DecidableEq, Repr

/-- A peer entry found raises a suspicion: within a horizon of at least 1, and not resolved by the identity sighted
for a product that requires it (R110). -/
def suspects (horizon minutes : Nat) (identityResolves : Bool) : Bool :=
  decide (1 ≤ horizon) && decide (minutes ≤ horizon) && !identityResolves

/-- PARTIAL_HISTORY: the wrap flag is set and the evicted-through time is at or above t - H, exactly (R111). -/
def Journal.partialHistory (j : Journal) (horizon t : Nat) : Bool :=
  j.wrapped && decide (t ≤ j.evictedThrough.toNat + horizon)

/-- The passback search under a key at time `t` (R109 to R112). -/
def State.passbackSearch (s : State) (issuer : Byte) (serial : Serial) (t : Word) (identityResolves : Bool) :
    SearchResult :=
  let history : List Note := if s.journal.partialHistory s.trip.horizon.toNat t.toNat then [.partialHistory] else []
  match s.journal.priorSighting issuer serial with
  | none => { suspicion := false, notes := history, priorId := 0, priorNumber := 0, minutes := 0 }
  | some e =>
    let m := minutesSince t e
    let found (suspicion : Bool) (notes : List Note) : SearchResult :=
      { suspicion := suspicion, notes := notes ++ history, priorId := e.originId.toNat,
        priorNumber := e.originNumber.toNat, minutes := m }
    if e.originId = s.trip.ownId then found false [.reseen]
    else if suspects s.trip.horizon.toNat m identityResolves then found true []
    else found false [.reseenPeer]

/-! ### AMEND -/

/-- The entry of an origin pair is this one. -/
def Entry.isPair (id : Byte) (n : Half) (e : Entry) : Bool := decide (e.originId = id ∧ e.originNumber = n)

/-- The entry of an origin pair, if it is held (R104). -/
def Journal.entryOf (j : Journal) (id : Byte) (n : Half) : Option Entry := j.entries.find? (Entry.isPair id n)

/-- Change the held entry of an origin pair. -/
def State.updateEntry (id : Byte) (n : Half) (f : Entry → Entry) (s : State) : State :=
  s.mapEntries (fun e => if e.isPair id n then f e else e)

/-- The outcomes an AMEND may record for a verdict (R126). -/
def outcomeAllowed : Verdict → Outcome → Bool
  | _, .voided => true
  | .invalid, .settled => true
  | .invalid, .waived => true
  | .challenge, .settled => true
  | .challenge, .waived => true
  | .challenge, .confirmed => true
  | .excess, .settled => true
  | .excess, .waived => true
  | _, _ => false

/-- What the examination of an AMEND finds (R125). -/
inductive AmendFinding where
  | refused (r : Reason) (result : List Byte)
  | accepted (number : Half) (outcome : Outcome) (result : List Byte)
  deriving DecidableEq, Repr

/-- The outcomes an AMEND may name: SETTLED, WAIVED, CONFIRMED, VOIDED (R125). -/
def amendOutcome (code : Nat) : Option Outcome := if code = 0 then none else outcomeOf code

/-- Checks 1 to 5 of an AMEND with entry number `n` and outcome code `o`, and its body results (R125 to R127). -/
def State.examineAmend (s : State) (n o : Nat) : AmendFinding :=
  if s.trip.state = .noTrip then .refused .noTrip (amendResult 0 0 0 0)
  else
    match (if n = 0 then none else amendOutcome o) with
    | none => .refused .badField (amendResult 0 0 0 0)
    | some outcome =>
      match s.journal.entryOf s.trip.ownId (BitVec.ofNat 16 n) with
      | none => .refused .notFound (amendResult 0 0 0 0)
      | some e =>
        match e.window with
        | none => .refused .late (amendResult e.verdict.code e.outcome.code 0 0)
        | some w =>
          if outcomeAllowed e.verdict outcome then
            .accepted (BitVec.ofNat 16 n) outcome
              (amendResult e.verdict.code outcome.code w.count.toNat w.minutes.toNat)
          else .refused .notAmendable (amendResult e.verdict.code 0 w.count.toNat w.minutes.toNat)

/-- An accepted AMEND sets the outcome and closes the window (R127). -/
def Entry.amend (o : Outcome) (e : Entry) : Entry := { e with outcome := o, window := none }

/-- The AMEND in flight is worked and answered (R125 to R130). In NO_TRIP its body is not read
(notes/assumptions/19.md). -/
def State.workAmend (failing : List Access) (f : InFlight) (s : State) : State :=
  let request := if s.trip.state = .noTrip then some (0, 0)
    else readAmendRequest (s.slipByte failing (s.chain f.chain).cursor)
  match request with
  | none => s.endOnFault f
  | some (n, o) =>
    match s.examineAmend n o with
    | .refused r result => s.answer failing f positionResultAt result (some r)
    | .accepted number outcome result =>
      (s.updateEntry s.trip.ownId number (Entry.amend outcome)).answer failing f positionResultAt result none

/-- AMEND (R125). -/
def execAmend (s : State) : Answer :=
  .next (match s.working kindAmend with | none => s | some f => s.workAmend [] f)

/-! ### MERGE -/

/-- The four counts of a MERGE (R117). -/
structure MergeCounts where
  accepted : Nat
  duplicate : Nat
  updated : Nat
  rejected : Nat
  deriving DecidableEq, Repr

/-- What a peer record is (R114 to R116). -/
inductive MergeClass where
  | rejected
  | duplicate
  | updated (outcome : Outcome)
  | accepted (verdict : Verdict) (outcome : Outcome)
  deriving DecidableEq, Repr

/-- Classify a peer record against the trip and the journal (R114, R115). -/
def State.classify (s : State) (p : PeerRecord) : MergeClass :=
  if p.originId = 0 ∨ 63 < p.originId ∨ p.originId = s.trip.ownId.toNat ∨ p.originNumber = 0
      ∨ s.trip.plan.length ≤ p.section_ ∨ 15 < p.issuer then .rejected
  else
    match verdictOf p.verdict, outcomeOf p.outcome with
    | some v, some o =>
      match s.journal.entryOf (byteOf p.originId) (BitVec.ofNat 16 p.originNumber) with
      | some e => if e.outcome = .none ∧ o ≠ .none then .updated o else .duplicate
      | none => .accepted v o
    | _, _ => .rejected

/-- The peer entry an accepted record becomes: persons 0 and 0, no window (R116). -/
def PeerRecord.entry (p : PeerRecord) (v : Verdict) (o : Outcome) : Entry :=
  { originId := byteOf p.originId, originNumber := BitVec.ofNat 16 p.originNumber, issuer := byteOf p.issuer,
    serial := BitVec.ofNat 64 p.serial, section_ := byteOf p.section_, time := BitVec.ofNat 32 p.time, adults := 0,
    children := 0, verdict := v, outcome := o, window := none }

/-- The journal acts on one record as it was classified (R114 to R116). -/
def State.mergeRecord (p : PeerRecord) (s : State) : State :=
  match s.classify p with
  | .rejected => s
  | .duplicate => s
  | .updated o =>
    s.updateEntry (byteOf p.originId) (BitVec.ofNat 16 p.originNumber) (fun e => { e with outcome := o })
  | .accepted v o => s.makeRoom.appendEntry (p.entry v o)

/-- A record is counted in the one count its class gives it (R117). -/
def MergeCounts.add (k : MergeCounts) : MergeClass → MergeCounts
  | .rejected => { k with rejected := k.rejected + 1 }
  | .duplicate => { k with duplicate := k.duplicate + 1 }
  | .updated _ => { k with updated := k.updated + 1 }
  | .accepted _ _ => { k with accepted := k.accepted + 1 }

/-- Take `n` records from record `i` on, each read, classified and acted on before the next is read (R114). The
counts are none when a read of the slip failed; what had been done stands (R117). -/
def State.mergeRecords (failing : List Access) (l : Link) : Nat → Nat → MergeCounts → State → State × Option MergeCounts
  | 0, _, k, s => (s, some k)
  | n + 1, i, k, s =>
    match readPeerRecord (s.slipByte failing l) (peerRecordAt i) with
    | none => (s, none)
    | some p => State.mergeRecords failing l n (i + 1) (k.add (s.classify p)) (s.mergeRecord p)

/-- The MERGE in flight is worked and answered (R113 to R117). In NO_TRIP its body is not read
(notes/assumptions/19.md). -/
def State.workMerge (failing : List Access) (f : InFlight) (s : State) : State :=
  let l := (s.chain f.chain).cursor
  if s.trip.state = .noTrip then s.answer failing f mergeResultAt (mergeResult 0 0 0 0) (some .noTrip)
  else
    match readField (s.slipByte failing l) 16 1 with
    | none => s.endOnFault f
    | some n =>
      if 1 ≤ n ∧ n ≤ 16 then
        match s.mergeRecords failing l n 0 { accepted := 0, duplicate := 0, updated := 0, rejected := 0 } with
        | (s', none) => s'.endOnFault f
        | (s', some k) =>
          s'.answer failing f mergeResultAt (mergeResult k.accepted k.duplicate k.updated k.rejected) none
      else s.answer failing f mergeResultAt (mergeResult 0 0 0 0) (some .badField)

/-- MERGE (R114). -/
def execMerge (s : State) : Answer :=
  .next (match s.working kindMerge with | none => s | some f => s.workMerge [] f)

/-! ### RECALL -/

/-- An entry under a key, VOIDED ones included (R118). -/
def Entry.underKey (issuer : Byte) (serial : Serial) (e : Entry) : Bool :=
  decide (e.issuer = issuer ∧ e.serial = serial)

/-- The result area of a RECALL: the match count and the newest eight matches, newest first (R118). -/
def Journal.recallBytes (j : Journal) (issuer : Byte) (serial : Serial) : List Byte :=
  let found := (j.entries.filter (Entry.underKey issuer serial)).reverse
  recallResult found.length (found.take recallPlaces)

/-- The RECALL in flight is worked and answered (R118). In NO_TRIP its body is not read (notes/assumptions/19.md). -/
def State.workRecall (failing : List Access) (f : InFlight) (s : State) : State :=
  if s.trip.state = .noTrip then s.answer failing f recallResultAt (recallResult 0 []) (some .noTrip)
  else
    match readRecallRequest (s.slipByte failing (s.chain f.chain).cursor) with
    | none => s.endOnFault f
    | some (issuer, serial) =>
      s.answer failing f recallResultAt (s.journal.recallBytes (byteOf issuer) (BitVec.ofNat 64 serial)) none

/-- RECALL (R118). -/
def execRecall (s : State) : Answer :=
  .next (match s.working kindRecall with | none => s | some f => s.workRecall [] f)

end Sys2Proof.Machine
end

