-- ==== Sys2Proof/Machine/Verdicts.lean ====
section
/-!
DEFINITION. Sys2Proof/Machine/Verdicts.lean: the checks of an INSPECT before its token is decoded (R33), the
composition of the verdict and its record (06_verdicts.md), and the meanings of INSPECT and PROBE.
-/
namespace Sys2Proof.Machine

/-- What steps 1 to 4 of R96 hand to the composition. -/
structure Findings where
  token : Assessed
  priced : Priced
  search : SearchResult
  deriving DecidableEq, Repr

/-- The note set at composition (R90). -/
def Findings.notes (g : Findings) : List Note :=
  g.token.notes ++ (if g.priced.span.clamped then [.spanClamped] else []) ++ g.search.notes

/-- The final verdict: the highest one whose condition holds (R87, R92, R93). -/
def verdictFor (causes : List Cause) (suspicion : Bool) (total : Nat) (notes : List Note) : Verdict :=
  if causes ≠ [] then .invalid
  else if suspicion then .challenge
  else if 0 < total then .excess
  else if notes ≠ [] then .noted
  else .valid

/-- The verdict of an inspection. -/
def Findings.verdict (g : Findings) : Verdict :=
  verdictFor g.token.causes g.search.suspicion g.priced.total g.notes

/-- The amount written: the total for INVALID, CHALLENGE and EXCESS, 0 for NOTED and VALID (R94). -/
def amountFor (v : Verdict) (total : Nat) : Nat :=
  match v with
  | .invalid => total
  | .challenge => total
  | .excess => total
  | .noted => 0
  | .valid => 0

/-- The key's serial as the journal holds it (R89, R104). -/
def Findings.key (g : Findings) : Serial := BitVec.ofNat 64 g.token.serial

/-- The verdict record of an inspection evaluated at `t` whose own entry has number `number`, 0 for a probe (R97). -/
def Findings.record (g : Findings) (number : Nat) (t : Word) : VerdictRecord :=
  { verdict := g.verdict.code, causes := g.token.causes, rounded := g.priced.rounded,
    surcharged := g.priced.surcharged, capped := g.priced.capped, notes := g.notes,
    boarding := g.priced.span.boarding, destination := g.priced.span.destination, covered := g.priced.covered,
    firstUncovered := (g.priced.firstUncovered.map BitVec.toNat).getD 255, entryNumber := number,
    priorId := g.search.priorId, priorNumber := g.search.priorNumber,
    amount := amountFor g.verdict g.priced.total, surcharge := g.priced.surcharge,
    uncoveredSum := g.priced.uncoveredSum, extraSum := g.priced.extraSum, classSum := g.priced.classSum,
    minutesSince := g.search.minutes, evalTime := t.toNat }

/-- The own sighting an interactive inspection records (R104, R96 step 6). -/
def Findings.sighting (g : Findings) (t : Word) : OwnSighting :=
  { issuer := g.token.issuer, serial := g.key, time := t, adults := byteOf g.priced.persons.adults,
    children := byteOf g.priced.persons.children, verdict := g.verdict }

/-- A peer sighting is resolved: the product requires identity and it was sighted (R92, R110). -/
def Assessed.identityResolves (a : Assessed) (q : InspectRequest) : Bool :=
  match a.product with
  | none => false
  | some p => decide (p.identity = 1 ∧ q.identity = 1)

/-- Steps 1 to 4 of R96 for the slip at link `l` with request `q` at evaluation time `t`. -/
def State.findings (s : State) (failing : List Access) (l : Link) (q : InspectRequest) (t : Word) :
    Except Stop Findings :=
  match s.assess failing l q t.toNat with
  | .error stop => .error stop
  | .ok a =>
    match s.price failing q a with
    | .error stop => .error stop
    | .ok p =>
      .ok { token := a, priced := p,
            search := s.passbackSearch a.issuer (BitVec.ofNat 64 a.serial) t (a.identityResolves q) }

/-- A refused INSPECT: its verdict record with every field 0 (R99). -/
def State.refuseInspect (failing : List Access) (f : InFlight) (r : Reason) (s : State) : State :=
  s.answer failing f verdictRecordAt (zeros 64) (some r)

/-- Steps 6 to 8 of R96: the own entry on the interactive chain, none for a probe (R101), the record and the
answer. -/
def State.concludeInspect (failing : List Access) (f : InFlight) (g : Findings) (s : State) : State :=
  match f.chain with
  | .interactive =>
    let s := s.insertOwn (g.sighting f.evalTime)
    s.answer failing f verdictRecordAt
      (verdictRecordBytes (g.record s.journal.ownCounter.toNat f.evalTime)) none
  | .background => s.answer failing f verdictRecordAt (verdictRecordBytes (g.record 0 f.evalTime)) none

/-- The evaluation of an INSPECT that has passed the checks of R33: its findings and their conclusion, or its end on an
access error on the slip (R36) or on a failed table read (R65). The counter of the free values advances. -/
def State.evaluateInspect (failing : List Access) (f : InFlight) (q : InspectRequest) (s : State) : State :=
  match s.findings failing (s.chain f.chain).cursor q f.evalTime with
  | .error .slip => { s with freeCount := s.freeCount + 1 }.endOnFault f
  | .error (.table slot check) =>
    ({ s with freeCount := s.freeCount + 1 }.tableFault slot check).refuseInspect failing f .tableRead
  | .ok g => { s with freeCount := s.freeCount + 1 }.concludeInspect failing f g

/-- The INSPECT in flight is checked in order (R33), worked and answered. In NO_TRIP its body is not read
(notes/assumptions/19.md). -/
def State.workInspect (failing : List Access) (f : InFlight) (s : State) : State :=
  if s.trip.state = .noTrip then s.refuseInspect failing f .noTrip
  else
    match readInspectRequest (s.slipByte failing (s.chain f.chain).cursor) with
    | none => s.endOnFault f
    | some q =>
      if !q.inRange then s.refuseInspect failing f .badField
      else if s.tables ≠ .usable then s.refuseInspect failing f .tablesUnusable
      else s.evaluateInspect failing f q

/-- INSPECT (R96): works the INSPECT in flight on the interactive chain. -/
def execInspect (s : State) : Answer :=
  .next (match s.working kindInspect with
    | none => s
    | some f => if f.chain = .interactive then s.workInspect [] f else s)

/-- PROBE (R101): works the INSPECT in flight on the background chain. -/
def execProbe (s : State) : Answer :=
  .next (match s.working kindInspect with
    | none => s
    | some f => if f.chain = .background then s.workInspect [] f else s)

end Sys2Proof.Machine
end

