-- ==== Sys2Proof/Machine/Accesses.lean ====
section
/-!
DEFINITION. Sys2Proof/Machine/Accesses.lean: the meanings of ACCESS_TIMEOUT and ACCESS_ERROR_RESPONSE (R156): an
activity of the part runs with the accesses the command names in error (notes/assumptions/6.md). What such an error
does is stated where the access is made (R36, R59, R65, R11, R141, R145, R158).
-/
namespace Sys2Proof.Machine

/-- The slip in flight is worked by the block of its kind (R138), with the accesses `failing` in error. -/
def State.workSlip (failing : List Access) (f : InFlight) (s : State) : State :=
  if f.kind = kindTrip then
    s.workTrip failing ((readField (s.slipByte failing (s.chain f.chain).cursor) 16 1).getD 0) f
  else if f.kind = kindPosition then s.workPosition failing f
  else if f.kind = kindInspect then s.workInspect failing f
  else if f.kind = kindAmend then s.workAmend failing f
  else if f.kind = kindMerge then s.workMerge failing f
  else if f.kind = kindRecall then s.workRecall failing f
  else s

/-- The working of the slip in flight, if one is being worked. -/
def State.workFailing (failing : List Access) (s : State) : State :=
  match s.inFlight with
  | none => s
  | some f => if f.progress = .working then s.workSlip failing f else s

/-- The chain number of a chain, as a NUDGE carries it. -/
def chainNumber (c : Chain) : BitVec 2 := BitVec.ofNat 2 (chainCode c)

/-- An activity of the part runs with the accesses `failing` in error; where it is not under way nothing happens. -/
def State.activity (a : Activity) (failing : List Access) (s : State) : State :=
  match a with
  | .anchorRead => s.anchorRead failing
  | .walk => s.walk failing
  | .examination => s.examine failing
  | .work => s.workFailing failing
  | .followUp restart => s.followUp failing restart
  | .tailReread c => s.tailReread failing c
  | .restartHead c => hostWrite (State.onNudge (chainNumber c) (State.restart failing)) s

/-- ACCESS_TIMEOUT (R156): an access with no response within 1 ms is an access error. -/
def execAccessTimeout (a : Activity) (failing : List Access) (s : State) : Answer := .next (s.activity a failing)

/-- ACCESS_ERROR_RESPONSE (R156): an error response is an access error. -/
def execAccessErrorResponse (a : Activity) (failing : List Access) (s : State) : Answer :=
  .next (s.activity a failing)

end Sys2Proof.Machine
end

