-- ==== Sys2Proof/Machine/Dispatch.lean ====
section
/-!
DEFINITION. Sys2Proof/Machine/Dispatch.lean: one arm per command.
-/
namespace Sys2Proof.Machine

def exec (i : Instr) (s : State) : Host.Outcome State Fault Refusal :=
  match i with
  | .start restReq wake holdReq => Sys2Proof.Machine.execStart restReq wake holdReq s
  | .controlReset others => Sys2Proof.Machine.execControlReset others s
  | .restReq holdReq => Sys2Proof.Machine.execRestReq holdReq s
  | .wake restReq holdReq => Sys2Proof.Machine.execWake restReq holdReq s
  | .holdReqSet => Sys2Proof.Machine.execHoldReqSet s
  | .holdReqClear => Sys2Proof.Machine.execHoldReqClear s
  | .anchorWrite value => Sys2Proof.Machine.execAnchorWrite value s
  | .nudge chain => Sys2Proof.Machine.execNudge chain s
  | .nudgeRestart chain => Sys2Proof.Machine.execNudgeRestart chain s
  | .eventsClear value => Sys2Proof.Machine.execEventsClear value s
  | .enableWrite value => Sys2Proof.Machine.execEnableWrite value s
  | .faultRead => Sys2Proof.Machine.execFaultRead s
  | .registerWriteIgnored reg value => Sys2Proof.Machine.execRegisterWriteIgnored reg value s
  | .resetPin => Sys2Proof.Machine.execResetPin s
  | .powerOn => Sys2Proof.Machine.execPowerOn s
  | .minuteTick => Sys2Proof.Machine.execMinuteTick s
  | .windowMinutesExpiry => Sys2Proof.Machine.execWindowMinutesExpiry s
  | .windowCountExpiry => Sys2Proof.Machine.execWindowCountExpiry s
  | .accessTimeout a failing => Sys2Proof.Machine.execAccessTimeout a failing s
  | .anchorCheck => Sys2Proof.Machine.execAnchorCheck s
  | .validationWalk => Sys2Proof.Machine.execValidationWalk s
  | .arbiterChoice => Sys2Proof.Machine.execArbiterChoice s
  | .examination => Sys2Proof.Machine.execExamination s
  | .tripBegin => Sys2Proof.Machine.execTripBegin s
  | .tripEnd => Sys2Proof.Machine.execTripEnd s
  | .position => Sys2Proof.Machine.execPosition s
  | .inspect => Sys2Proof.Machine.execInspect s
  | .probe => Sys2Proof.Machine.execProbe s
  | .amend => Sys2Proof.Machine.execAmend s
  | .merge => Sys2Proof.Machine.execMerge s
  | .recallEntries => Sys2Proof.Machine.execRecall s
  | .followUp restartAfterLink => Sys2Proof.Machine.execFollowUp restartAfterLink s
  | .holdGrant => Sys2Proof.Machine.execHoldGrant s
  | .restGiven => Sys2Proof.Machine.execRestGiven s
  | .tailLinkReread c => Sys2Proof.Machine.execTailLinkReread c s
  | .accessErrorResponse a failing => Sys2Proof.Machine.execAccessErrorResponse a failing s
  | .lateResponse => Sys2Proof.Machine.execLateResponse s
  | .resetPinRelease => Sys2Proof.Machine.execResetPinRelease s

end Sys2Proof.Machine
end

