-- ==== Sys2Proof/Machine/Step.lean ====
section
/-!
DEFINITION. Sys2Proof/Machine/Step.lean: the step takes the command at the front of the queue. On an empty queue the
part idles (notes/assumptions/17.md).
-/
namespace Sys2Proof.Machine

/-- One command is taken from the front of the queue and acts on the state with the queue's rest. -/
def step (s : State) : Host.Outcome State Fault Refusal :=
  match s.pending with
  | [] => .next s
  | c :: rest => exec c { s with pending := rest }

/-- The state with the command an `nbits`-bit word `w` spells at the front of its queue; unchanged where the word
spells none, which is every word (notes/assumptions/18.md). -/
def State.withFetchWord (s : State) (nbits w : Nat) : State :=
  match Sys2Proof.decodeTableWord nbits w with
  | none => s
  | some c => { s with pending := c :: s.pending }

end Sys2Proof.Machine
end

