-- ==== Sys2Proof/Safety.lean ====
section
/-!
DEFINITION. Sys2Proof/Safety.lean: what the model's statements speak of: the answer of a slip as a relation between two
states, and the invariants every step keeps.
-/
namespace Sys2Proof

/-- The access is a write. -/
def Access.isWrite : Access → Bool
  | .anchorRead _ => false
  | .slipRead _ => false
  | .slipWrite _ => true
  | .stageWrite _ => true
  | .tableRead _ _ => false

/-- The access is a read in the table window. -/
def Access.isTableRead : Access → Bool
  | .anchorRead _ => false
  | .slipRead _ => false
  | .slipWrite _ => false
  | .stageWrite _ => false
  | .tableRead _ _ => true

end Sys2Proof

namespace Sys2Proof.Machine

/-! ### The answer of a slip -/

/-- The address of the slip in flight. -/
def State.slipOf (s : State) (f : InFlight) : Nat := s.slipAddress (s.chain f.chain).cursor

/-- Address `a` is one of the bytes that an answer with `n` result bytes at offset `resultAt` writes into the slip at
`base`: the stage, the answer code, the reason, the stamp, the result area (R131, R169). -/
def answerWritesAt (base resultAt n a : Nat) : Prop :=
  a = base ∨ a = base + 2 ∨ a = base + 3 ∨ (base + 12 ≤ a ∧ a < base + 16)
    ∨ (base + resultAt ≤ a ∧ a < base + resultAt + n)

/-- `t` is `s` with the slip in flight `f` answered: result area, answer code, reason, stamp and stage are written,
every other byte of memory stands, the slip awaits its follow-up, the answer event is raised, and nothing else
changes (R132, R133). -/
structure Answered (s : State) (f : InFlight) (resultAt : Nat) (result : List Byte) (refusal : Option Reason)
    (t : State) : Prop where
  rest : t = { s with mem := t.mem, inFlight := some { f with progress := .answered },
                      events := s.events ||| (answerEvent f.chain).mask }
  resultBytes : ∀ i, i < result.length → some (Memory.read t.mem (s.slipOf f + resultAt + i)) = result[i]?
  code : Memory.read t.mem (s.slipOf f + 2) = answerCode refusal
  reason : Memory.read t.mem (s.slipOf f + 3) = reasonField refusal
  stamp : ∀ i, i < 4 → some (Memory.read t.mem (s.slipOf f + 12 + i)) = (leBytes 4 s.stamp.toNat)[i]?
  stage : Memory.read t.mem (s.slipOf f) = 3#8
  frame : ∀ a, ¬ answerWritesAt (s.slipOf f) resultAt result.length a → Memory.read t.mem a = Memory.read s.mem a

/-- A slip of kind `kind` is in flight and being worked, at a place that lies wholly inside the slip window (R134), in
a memory in canonical form. -/
structure Working (s : State) (kind : Byte) (f : InFlight) : Prop where
  working : s.working kind = some f
  placed : s.linkValid (s.chain f.chain).cursor = true
  canonical : Memory.wf s.mem = true

/-! ### Faults and heads -/

/-- `t` holds the FAULT record of `s` after fault `d` was offered: an empty record captures it with MORE clear, a full
one keeps its fault and sets MORE (R163). -/
def FaultOffered (s : State) (d : FaultDetail) (t : State) : Prop :=
  (s.faultRecord = none → t.faultRecord = some d ∧ t.faultMore = false)
    ∧ (∀ e, s.faultRecord = some e → t.faultRecord = some e ∧ t.faultMore = true)

/-- `t` is `s` with chain `c` made BROKEN for link `l`: its record holds no cursor, tail or flag, CHAIN_FAULT is raised,
the fault is offered, and nothing else changes (R145, R146). -/
structure ChainBroken (s : State) (c : Chain) (l : Link) (t : State) : Prop where
  broken : t.chain c = { state := .broken, cursor := 0, tail := 0, pendingNudge := false, restartRemembered := false,
                         rereading := false }
  other : t.chain (otherChain c) = s.chain (otherChain c)
  events : t.events = s.events ||| Event.chainFault.mask
  fault : FaultOffered s (.chain c l) t
  rest : t = { s with interactive := t.interactive, background := t.background, events := t.events,
                      faultRecord := t.faultRecord, faultMore := t.faultMore }

/-- `t` is `s` with the tables UNUSABLE: TABLE_FAULT is raised, the fault is offered with its slot and check, and
nothing else changes (R59, R65). -/
structure TablesFailed (s : State) (slot check : Byte) (t : State) : Prop where
  tables : t.tables = .unusable
  events : t.events = s.events ||| Event.tableFault.mask
  fault : FaultOffered s (.table slot check) t
  rest : t = { s with tables := t.tables, events := t.events, faultRecord := t.faultRecord, faultMore := t.faultMore }

/-- `t` is `s` HALTED by anchor check `check`: PART_FAULT is raised, the fault is offered, and nothing else changes
(R158). -/
structure AnchorFailed (s : State) (check : BitVec 4) (t : State) : Prop where
  part : t.part = .halted
  events : t.events = s.events ||| Event.partFault.mask
  fault : FaultOffered s (.part check) t
  rest : t = { s with part := t.part, events := t.events, faultRecord := t.faultRecord, faultMore := t.faultMore }

/-- `t` is `s` with chain `c` set up from head `h`: EMPTY for 0, AHEAD at a valid head, BROKEN at any other, with no
tail and no flag (R136, R141). -/
structure HeadTaken (s : State) (c : Chain) (h : Link) (t : State) : Prop where
  zero : h = 0#24 → t = s.setChain c { state := .empty, cursor := 0, tail := 0, pendingNudge := false,
                                       restartRemembered := false, rereading := false }
  valid : h ≠ 0#24 → s.linkValid h = true →
    t = s.setChain c { state := .ahead, cursor := h, tail := 0, pendingNudge := false, restartRemembered := false,
                       rereading := false }
  invalid : h ≠ 0#24 → s.linkValid h = false → ChainBroken s c h t

/-- The head of chain `c` in the anchor block, a 24-bit little-endian value (R168, R170). -/
def State.headOf (s : State) (c : Chain) : Link :=
  BitVec.ofNat 24 (leNat [Memory.read s.mem (s.anchor.toNat + headOffset c),
    Memory.read s.mem (s.anchor.toNat + headOffset c + 1), Memory.read s.mem (s.anchor.toNat + headOffset c + 2)])

/-- The link field of the slip at link `l`, a 24-bit little-endian value (R131, R168). -/
def State.linkOf (s : State) (l : Link) : Link :=
  BitVec.ofNat 24 (leNat [Memory.read s.mem (s.slipAddress l + 8), Memory.read s.mem (s.slipAddress l + 9),
    Memory.read s.mem (s.slipAddress l + 10)])

/-- The command that an access of activity `a` failed: by no response (`timeout`) or by an error response (R156). -/
def accessFailed (timeout : Bool) (a : Activity) (failing : List Access) : Instr :=
  if timeout then .accessTimeout a failing else .accessErrorResponse a failing

/-! ### Work cut off by an access error -/

/-- The writes of an answer with `n` result bytes at offset `resultAt`, each with the offset it goes to, in order: result
area, answer code, reason, part stamp, stage ANSWERED (R132, R169). -/
def answerOrder (resultAt n : Nat) : List (Access × Nat) :=
  (List.range n).map (fun i => (.slipWrite (resultAt + i), resultAt + i))
    ++ [(.slipWrite 2, 2), (.slipWrite 3, 3), (.slipWrite 12, 12), (.slipWrite 13, 13), (.slipWrite 14, 14),
      (.slipWrite 15, 15), (.stageWrite .answered, 0)]

/-- Where the result area of a kind begins and how many bytes it has (R172 to R175). -/
def resultArea (kind : Byte) : Nat × Nat :=
  if kind = kindTrip then (64, 16)
  else if kind = kindPosition then (32, 8)
  else if kind = kindInspect then (224, 64)
  else if kind = kindAmend then (32, 4)
  else if kind = kindMerge then (352, 8)
  else (32, 196)

/-- The command that works the slip in flight `f`: by its kind, a TRIP by its form, an INSPECT by its chain (R138). -/
def State.workCommand (s : State) (f : InFlight) : Instr :=
  if f.kind = kindTrip then (if Memory.read s.mem (s.slipOf f + 16) = 2#8 then .tripEnd else .tripBegin)
  else if f.kind = kindPosition then .position
  else if f.kind = kindInspect then (if f.chain = .interactive then .inspect else .probe)
  else if f.kind = kindAmend then .amend
  else if f.kind = kindMerge then .merge
  else .recallEntries

/-- `t` is what the work on slip `f` from `s` comes to when its answer is cut off after the writes `made`, where
uncut it comes to `whole`: what the block of its kind had done stands as in `whole`; of the answer the writes `made`
stand and no other byte has changed; nothing is in flight; the chain is BROKEN, CHAIN_FAULT is raised and its fault is
offered after any other; and no answer event is raised (R145, R169). -/
structure AnswerCutOff (s : State) (f : InFlight) (made : List (Access × Nat)) (whole t : State) : Prop where
  broken : t.chain f.chain = { state := .broken, cursor := 0, tail := 0, pendingNudge := false,
                               restartRemembered := false, rereading := false }
  other : t.chain (otherChain f.chain) = whole.chain (otherChain f.chain)
  flags : ∀ e, t.flag e = (decide (e = .chainFault)
    || (if e = answerEvent f.chain then s.flag e else whole.flag e))
  fault : FaultOffered whole (.chain f.chain (s.chain f.chain).cursor) t
  written : ∀ x ∈ made, Memory.read t.mem (s.slipOf f + x.2) = Memory.read whole.mem (s.slipOf f + x.2)
  frame : ∀ a, (∀ x ∈ made, a ≠ s.slipOf f + x.2) → Memory.read t.mem a = Memory.read s.mem a
  rest : t = { whole with interactive := t.interactive, background := t.background, inFlight := none, mem := t.mem,
                          events := t.events, faultRecord := t.faultRecord, faultMore := t.faultMore }

/-! ### Invariants -/

/-- Windows as an accepted anchor leaves them: on 4 KiB boundaries, base not above limit, no byte in both
(R158, R159). -/
structure Windows.Legal (w : Windows) : Prop where
  slipBase : w.slipBase.toNat % 4096 = 0
  slipLimit : w.slipLimit.toNat % 4096 = 4095
  tableBase : w.tableBase.toNat % 4096 = 0
  tableLimit : w.tableLimit.toNat % 4096 = 4095
  slipOrder : w.slipBase.toNat ≤ w.slipLimit.toNat
  tableOrder : w.tableBase.toNat ≤ w.tableLimit.toNat
  apart : w.slipLimit.toNat < w.tableBase.toNat ∨ w.tableLimit.toNat < w.slipBase.toNat

/-- The Link Port and the Table Access Unit (R148, R150, R151, R157, R159, R163, R165). -/
structure PortInv (s : State) : Prop where
  anchor : s.anchor.toNat % 4096 = 0
  windows : s.windows.isSome = s.awake
  legal : ∀ w, s.windows = some w → w.Legal
  phaseTable : s.phaseTable.length = if s.awake then 16 else 0
  restPending : s.restPending = true → s.part = .running
  tables : s.tables ≠ .unusable → s.awake = true
  held : s.tables = .held → s.holdReq = true
  snapshot : s.snapshot.length = 16
  fault : s.faultRecord = none → s.faultMore = false

/-- One chain's record (R134, R135, R140, R146). -/
structure ChainInv (s : State) (c : Chain) : Prop where
  empty : (s.chain c).state = .empty → s.chain c = .reset
  broken : (s.chain c).state = .broken → s.chain c = .broken
  cursor : (s.chain c).state ≠ .empty → (s.chain c).state ≠ .broken → s.linkValid (s.chain c).cursor = true
  tail : (s.chain c).state = .parkedOnLink → (s.chain c).tail = (s.chain c).cursor
  rereading : (s.chain c).rereading = true → (s.chain c).state = .parkedOnLink
  active : (s.chain c).state = .active → ∃ f, s.inFlight = some f ∧ f.chain = c
  restart : (s.chain c).restartRemembered = true → s.chainBusy c = true

/-- The Slip Scheduler: nothing is in flight or under examination but in RUNNING with the tables USABLE or UNUSABLE, and
one slip or one examination at a time (R135, R137, R144, R149). -/
structure SchedulerInv (s : State) : Prop where
  chains : ∀ c, ChainInv s c
  asleep : s.awake = false → ∀ c, s.chain c = .reset
  inFlight : ∀ f, s.inFlight = some f → (s.chain f.chain).state = .active ∧ s.examining = none ∧ s.part = .running
    ∧ (s.tables = .usable ∨ s.tables = .unusable)
  examining : ∀ c, s.examining = some c → (s.chain c).state = .ahead ∧ s.inFlight = none ∧ s.part = .running
    ∧ (s.tables = .usable ∨ s.tables = .unusable)

/-- A section record that R4 takes as valid. -/
def RouteSection.Legal (x : RouteSection) : Prop :=
  1 ≤ x.distance.toNat ∧ x.distance.toNat ≤ 4095 ∧ x.claims.length ≤ 4
    ∧ (∀ c ∈ x.claims, c.network.toNat ≤ 15 ∧ 1 ≤ c.zone.toNat ∧ c.zone.toNat ≤ 254)
    ∧ (x.claims.map Claim.network).Nodup

/-- The trip context is in the ranges of R2, R4, R6 and R8. -/
structure TripContext.Legal (t : TripContext) : Prop where
  ownId : 1 ≤ t.ownId.toNat ∧ t.ownId.toNat ≤ 63
  sections : 1 ≤ t.plan.length ∧ t.plan.length ≤ 96
  plan : ∀ x ∈ t.plan, x.Legal
  priorityCount : 1 ≤ t.priority.length ∧ t.priority.length ≤ 4
  priority : ∀ n ∈ t.priority, n.toNat ≤ 15
  distinct : t.priority.Nodup
  fallback : t.fallback.toNat ≤ 15
  current : t.current.toNat < t.plan.length
  horizon : t.horizon.toNat ≤ 240
  reachCount : 1 ≤ t.reachCount.toNat ∧ t.reachCount.toNat ≤ 8
  reachMinutes : 1 ≤ t.reachMinutes.toNat ∧ t.reachMinutes.toNat ≤ 60
  tolerances : t.lo.toNat ≤ 15 ∧ t.lo.toNat ≤ t.hi.toNat ∧ t.hi.toNat ≤ 120
  cap : 1 ≤ t.cap.toNat ∧ t.cap.toNat ≤ 9999999

/-- Trip state, clock and journal belong together (R1, R2, R19, R105). -/
structure TripInv (s : State) : Prop where
  clock : s.clockRunning = decide (s.trip.state = .inTrip)
  awake : s.trip.state = .inTrip → s.awake = true
  legal : s.trip.state = .inTrip → s.trip.Legal
  noTrip : s.trip.state = .noTrip → s.trip = .none ∧ s.clock = 0#32 ∧ s.journal = .empty

/-- An entry as R104 allows it in the journal of trip `t`. -/
structure Entry.Legal (t : TripContext) (e : Entry) : Prop where
  originId : 1 ≤ e.originId.toNat ∧ e.originId.toNat ≤ 63
  originNumber : 1 ≤ e.originNumber.toNat
  section_ : e.section_.toNat < t.plan.length
  peer : e.originId ≠ t.ownId → e.issuer.toNat ≤ 15 ∧ e.adults = 0#8 ∧ e.children = 0#8 ∧ e.window = none
  window : ∀ w, e.window = some w → e.outcome = .none ∧ 1 ≤ w.count.toNat ∧ w.count.toNat ≤ t.reachCount.toNat
    ∧ 1 ≤ w.minutes.toNat ∧ w.minutes.toNat ≤ t.reachMinutes.toNat

/-- The remaining count of an entry's window, if it is open (R120). -/
def Entry.openCount (e : Entry) : Option Nat := e.window.map (fun w => w.count.toNat)

/-- The remaining counts of the open windows, oldest entry first (R120). -/
def Journal.openCounts (j : Journal) : List Nat := j.entries.filterMap Entry.openCount

/-- The number before an own number in the order of R107. -/
def previousOwnNumber (n : Half) : Half := if n = 1#16 then 65535#16 else n - 1#16

/-- The last `m` own numbers given, newest first, when the counter stands at `n` (R107). -/
def lastOwnNumbers : Nat → Half → List Half
  | 0, _ => []
  | m + 1, n => n :: lastOwnNumbers m (previousOwnNumber n)

/-- The numbers of the own entries held, newest first. -/
def Journal.ownNumbers (j : Journal) (ownId : Byte) : List Half :=
  ((j.entries.filter (fun e => decide (e.originId = ownId))).map Entry.originNumber).reverse

/-- The origin pairs of the peer entries held. -/
def Journal.peerPairs (j : Journal) (ownId : Byte) : List (Byte × Half) :=
  (j.entries.filter (fun e => decide (e.originId ≠ ownId))).map (fun e => (e.originId, e.originNumber))

/-- The origin pairs of the entries held (R104). -/
def Journal.pairs (j : Journal) : List (Byte × Half) := j.entries.map (fun e => (e.originId, e.originNumber))

/-- The journal of trip `t` (R103, R104, R107, R108, R120): at most 256 entries, each as R104 allows it, the counts of
the open windows rising from older to newer, the own numbers those last given, newest last in the list, no peer pair
twice. -/
structure Journal.Legal (t : TripContext) (j : Journal) : Prop where
  length : j.entries.length ≤ 256
  entries : ∀ e ∈ j.entries, e.Legal t
  windows : j.openCounts.Pairwise (· < ·)
  numbers : j.ownNumbers t.ownId = lastOwnNumbers (j.ownNumbers t.ownId).length j.ownCounter
  counter : j.ownCounter = 0#16 → j.ownNumbers t.ownId = []
  peers : (j.peerPairs t.ownId).Nodup
  wrapped : j.wrapped = false → j.evictedThrough = 0#32

/-- The whole invariant. -/
structure Inv (s : State) : Prop where
  memory : Memory.wf s.mem = true
  port : PortInv s
  scheduler : SchedulerInv s
  trip : TripInv s
  journal : s.journal.Legal s.trip

end Sys2Proof.Machine
end

