-- ==== Sys2Proof/Certificates/Slice0/Obligations.lean ====
section
/-!
DEFINITION. Sys2Proof/Certificates/Slice0/Obligations.lean: the statements for the provers. A statement that speaks of
an answer, of a BROKEN chain, of failed tables or of a head uses the relations of Safety.lean, which say every field.
-/

section

open Sys2Proof Sys2Proof.Machine

/-! ### The queue and the invariant -/

/-- A step runs the command at the front of the queue on the queue's rest; on an empty queue nothing happens (the
model's choice, notes/assumptions/17.md). -/
def Obligations.StepRunsFrontCommand : Prop :=
  ∀ s : State, (∀ c rest, s.pending = c :: rest → step s = exec c { s with pending := rest })
    ∧ (s.pending = [] → step s = .next s)

/-- Every command answers a next state, and leaves the queue to the step.
The model's choice: a step of the part that is not enabled leaves the state as it was (notes/assumptions/2.md). -/
def Obligations.EveryCommandAnswersNext : Prop :=
  ∀ (c : Instr) (s : State), ∃ t, exec c s = .next t ∧ t.pending = s.pending

/-- The invariant holds after power-on. -/
def Obligations.ResetStateSatisfiesInvariant : Prop := Inv State.reset

/-- Every step keeps the invariant: memory canonical, windows, part state and tables in agreement, chain records as
R134 to R146 allow them, the trip context in its ranges, the journal legal. -/
def Obligations.EveryStepKeepsInvariant : Prop := ∀ s t : State, Inv s → step s = .next t → Inv t

/-- At most eight entries have an open window, each of them an own entry with outcome NONE, and no two entries held
share origin id and origin entry number (R104, R107, R120, R127). -/
def Obligations.JournalPairsAndWindows : Prop :=
  ∀ s : State, Inv s → (s.journal.entries.filter (fun e => e.window.isSome)).length ≤ 8
    ∧ (∀ e ∈ s.journal.entries, e.window.isSome = true → e.originId = s.trip.ownId ∧ e.outcome = .none)
    ∧ (s.journal.entries.map (fun e => (e.originId, e.originNumber))).Nodup

/-- While a trip stays in force its parameters stand, and the current section never decreases and stays below the
section count (R2, R6, R15). -/
def Obligations.CurrentSectionNeverDecreases : Prop :=
  ∀ (c : Instr) (s t : State), Inv s → exec c s = .next t → s.trip.state = .inTrip → t.trip.state = .inTrip →
    s.trip.current.toNat ≤ t.trip.current.toNat ∧ t.trip.current.toNat < t.trip.plan.length
      ∧ t.trip = { s.trip with current := t.trip.current, delay := t.trip.delay, ownCount := t.trip.ownCount }

/-! ### Resets and registers -/

/-- The values of the part after power-on (R2, R19, R50, R103, R135, R143, R148, R167). -/
def Obligations.PowerOnValuesAreTheManuals : Prop :=
  let s := State.reset
  s.part = .idle ∧ s.anchor = 0#32 ∧ s.windows = none ∧ s.holdReq = false ∧ s.restPending = false
    ∧ s.events = 0#11 ∧ s.enable = 0#11 ∧ attn s = false ∧ s.faultRecord = none ∧ s.faultMore = false
    ∧ (∀ c, s.chain c = { state := .empty, cursor := 0, tail := 0, pendingNudge := false, restartRemembered := false,
                          rereading := false })
    ∧ s.inFlight = none ∧ s.phaseTable = [] ∧ s.phase = 0 ∧ s.tables = .unusable ∧ s.granted = false
    ∧ s.snapshot = List.replicate 16 none
    ∧ s.trip = { state := .noTrip, ownId := 0, plan := [], priority := [], fallback := 0, current := 0, delay := 0,
                 horizon := 0, reachCount := 0, reachMinutes := 0, lo := 0, hi := 0, cap := 0, ownCount := 0 }
    ∧ s.clock = 0#32 ∧ s.clockRunning = false
    ∧ s.journal = { entries := [], ownCounter := 0, wrapped := false, evictedThrough := 0 }

/-- POWER_ON, RESET_PIN and CONTROL_RESET give every piece of state of the part its reset value; CONTROL_RESET keeps
ANCHOR; the shared memory and the model's own fields stand (notes/assumptions/12.md); releasing the pin changes the pin
alone (R167). -/
def Obligations.ResetsGiveResetValues : Prop :=
  ∀ s : State,
    exec .powerOn s = .next { State.reset with
      mem := s.mem, resetHeld := s.resetHeld, readData := s.readData, freeCount := s.freeCount, pending := s.pending }
    ∧ exec .resetPin s = .next { State.reset with
      mem := s.mem, resetHeld := true, readData := s.readData, freeCount := s.freeCount, pending := s.pending }
    ∧ exec .resetPinRelease s = .next { s with resetHeld := false }
    ∧ ∀ others, s.resetHeld = false → exec (.controlReset others) s = .next { State.reset with
      anchor := s.anchor, mem := s.mem, resetHeld := false, readData := s.readData, freeCount := s.freeCount,
      pending := s.pending }

/-- START in IDLE takes the level and moves the part to STARTING, whatever REST_REQ and WAKE say; in any other part
state the write acts as the same write without START (R157, R161).
The model's choice: HOLD_REQ is taken before START (notes/assumptions/8.md). -/
def Obligations.StartMovesIdleToStarting : Prop :=
  ∀ (s : State) (r w h : Bool), Inv s → s.resetHeld = false →
    (s.part = .idle → exec (.start r w h) s = .next { s with holdReq := h, part := .starting })
    ∧ (s.part ≠ .idle →
        exec (.start false false true) s = exec .holdReqSet s ∧ exec (.start false false false) s = exec .holdReqClear s
        ∧ exec (.start true false h) s = exec (.restReq h) s ∧ exec (.start r true h) s = exec (.wake r h) s)

/-- The level takes each CONTROL write's HOLD_REQ bit (R150). Setting it is granted at once when the part is awake, no
grant is given and nothing is in flight or under examination, else it waits; clearing it withdraws a grant, and the
walk begins, or cancels the request (R154). HOLD_GRANT gives a waiting grant exactly when the four conditions of R151
hold and no examination is under way (R152).
The model's choices: the order inside one write, and HOLD_GRANT for a grant that waited, without effect where
none is due (notes/assumptions/8.md, 7.md, 2.md). -/
def Obligations.HoldRequestActs : Prop :=
  (∀ s : State, s.resetHeld = false →
    (s.awake = true → s.tables ≠ .held → s.inFlight = none → s.examining = none →
      exec .holdReqSet s = .next { s with
        holdReq := true, tables := .held, events := s.events ||| Event.holdGrant.mask })
    ∧ (¬ (s.awake = true ∧ s.tables ≠ .held ∧ s.inFlight = none ∧ s.examining = none) →
      exec .holdReqSet s = .next { s with holdReq := true })
    ∧ (s.tables = .held → exec .holdReqClear s = .next { s with holdReq := false, tables := .checking })
    ∧ (s.tables ≠ .held → exec .holdReqClear s = .next { s with holdReq := false })
    ∧ ∀ r w h, (∃ t, exec (.restReq h) s = .next t ∧ t.holdReq = h)
      ∧ (∃ t, exec (.wake r h) s = .next t ∧ t.holdReq = h)
      ∧ (∃ t, exec (.start r w h) s = .next t ∧ t.holdReq = h))
  ∧ ∀ s : State,
    (s.holdReq = true → s.awake = true → s.tables ≠ .held → s.inFlight = none → s.examining = none →
      exec .holdGrant s = .next { s with tables := .held, events := s.events ||| Event.holdGrant.mask })
    ∧ (¬ (s.holdReq = true ∧ s.awake = true ∧ s.tables ≠ .held ∧ s.inFlight = none ∧ s.examining = none) →
      exec .holdGrant s = .next s)

/-- REST_REQ in RUNNING rests at once or leaves the request pending, and is ignored elsewhere; REST_GIVEN gives a
pending rest when no slip is in flight, no examination is under way and no walk runs (R165). The write's HOLD_REQ bit
is the level held and no grant waits.
The model's choice: REST_GIVEN gives a rest that waited, without effect where none is
due (notes/assumptions/7.md, 2.md). -/
def Obligations.RestFollowsItsRequest : Prop :=
  (∀ s : State, Inv s → s.resetHeld = false → s.mayGrant = false →
    (s.part = .running → s.inFlight = none → s.examining = none → s.tables ≠ .checking →
      exec (.restReq s.holdReq) s = .next { s with
        restPending := false, part := .resting, events := s.events ||| Event.restEntered.mask })
    ∧ (s.part = .running → ¬ (s.inFlight = none ∧ s.examining = none ∧ s.tables ≠ .checking) →
      exec (.restReq s.holdReq) s = .next { s with restPending := true })
    ∧ (s.part ≠ .running → exec (.restReq s.holdReq) s = .next s))
  ∧ ∀ s : State,
    (s.restPending = true → s.part = .running → s.inFlight = none → s.examining = none → s.tables ≠ .checking →
      exec .restGiven s = .next { s with
        restPending := false, part := .resting, events := s.events ||| Event.restEntered.mask })
    ∧ (¬ (s.restPending = true ∧ s.part = .running ∧ s.inFlight = none ∧ s.examining = none ∧ s.tables ≠ .checking) →
      exec .restGiven s = .next s)

/-- WAKE returns a resting part to RUNNING, cancels a pending rest in RUNNING and is ignored elsewhere; REST_REQ in
the same write is ignored (R161, R166). The write's HOLD_REQ bit is the level held and no grant waits. -/
def Obligations.WakeEndsOrCancelsRest : Prop :=
  ∀ (s : State) (r : Bool), Inv s → s.resetHeld = false → s.mayGrant = false →
    (s.part = .resting → exec (.wake r s.holdReq) s = .next { s with part := .running })
    ∧ (s.part = .running → exec (.wake r s.holdReq) s = .next { s with restPending := false })
    ∧ (s.part ≠ .resting → s.part ≠ .running → exec (.wake r s.holdReq) s = .next s)

/-- ANCHOR takes the value written, its low 12 bits as zero, in IDLE alone (R157). -/
def Obligations.AnchorWriteActsInIdleAlone : Prop :=
  ∀ (s : State) (v : Word), s.resetHeld = false →
    (s.part = .idle → exec (.anchorWrite v) s = .next { s with anchor := BitVec.ofNat 32 (v.toNat / 4096 * 4096) })
    ∧ (s.part ≠ .idle → exec (.anchorWrite v) s = .next s)

/-- A write to EVENTS clears each flag whose bit is 1 and leaves the others, a write to ENABLE replaces it, ATTN is
asserted while some flag is set together with its enable, and an event sets its own flag alone (R162). -/
def Obligations.EventFlagsFollowWrites : Prop :=
  ∀ (s : State) (v : Word), s.resetHeld = false →
    (∃ t, exec (.eventsClear v) s = .next t ∧ t = { s with events := t.events }
      ∧ ∀ e, t.flag e = (s.flag e && !v.getLsbD e.bit))
    ∧ (∃ t, exec (.enableWrite v) s = .next t ∧ t = { s with enable := t.enable }
      ∧ ∀ e : Event, t.enable.getLsbD e.bit = v.getLsbD e.bit)
    ∧ (attn s = true ↔ ∃ e : Event, s.flag e = true ∧ s.enable.getLsbD e.bit = true)
    ∧ ∀ e d : Event, (s.raise e).flag d = (s.flag d || decide (d = e))

/-- A read of FAULT returns the record with MORE and empties it; class, MORE and detail stand in the bits of R160 and
R163.
The model's choices: the value read stands in readData, and the read works while the
reset pin is held (notes/assumptions/11.md, 23.md). -/
def Obligations.FaultReadReturnsAndEmpties : Prop :=
  ∀ s : State,
    exec .faultRead s = .next { s with readData := faultWord s, faultRecord := none, faultMore := false }
    ∧ ((faultWord s).getLsbD 3 = s.faultMore)
    ∧ (s.faultRecord = none → (faultWord s).extractLsb' 0 2 = 0#2 ∧ (faultWord s).extractLsb' 4 28 = 0#28)
    ∧ (∀ c l, s.faultRecord = some (.chain c l) → (faultWord s).extractLsb' 0 2 = 1#2
        ∧ (faultWord s).getLsbD 4 = decide (c = .background) ∧ (faultWord s).extractLsb' 8 24 = l)
    ∧ (∀ slot check, s.faultRecord = some (.table slot check) → (faultWord s).extractLsb' 0 2 = 2#2
        ∧ (faultWord s).extractLsb' 8 8 = slot ∧ (faultWord s).extractLsb' 16 8 = check)
    ∧ (∀ check, s.faultRecord = some (.part check) → (faultWord s).extractLsb' 0 2 = 3#2
        ∧ (faultWord s).extractLsb' 8 4 = check)

/-- The register set of R160: STATE shows part state, chain states, trip state, table access state, grant and rest
pending in their bits; CONTROL reads back HOLD_REQ in bit 4 alone, ANCHOR, EVENTS and ENABLE read as held, NUDGE reads
0, FAULT reads its record. A write at an offset is the command its bits are (R161), a read of FAULT alone is one; where
no register stands there is none. Which row names a CONTROL write that sets several bits is the model's choice
(notes/assumptions/1.md). -/
def Obligations.StateRegisterShowsTheBlocks : Prop :=
  (∀ s : State,
    ((stateWord s).extractLsb' 0 3).toNat = s.part.code
    ∧ ((stateWord s).extractLsb' 4 3).toNat = s.interactive.state.code
    ∧ ((stateWord s).extractLsb' 8 3).toNat = s.background.state.code
    ∧ (stateWord s).getLsbD 12 = decide (s.trip.state = .inTrip)
    ∧ ((stateWord s).extractLsb' 16 2).toNat = s.tables.code
    ∧ (stateWord s).getLsbD 20 = decide (s.tables = .held) ∧ (stateWord s).getLsbD 21 = s.restPending)
  ∧ (∀ s : State, readRegister s .state = stateWord s ∧ readRegister s .fault = faultWord s
    ∧ readRegister s .anchor = s.anchor ∧ readRegister s .nudge = 0#32
    ∧ (∀ i, (readRegister s .control).getLsbD i = (decide (i = 4) && s.holdReq))
    ∧ (∀ i, (readRegister s .events).getLsbD i = s.events.getLsbD i)
    ∧ (∀ i, (readRegister s .enable).getLsbD i = s.enable.getLsbD i))
  ∧ (∀ w : Word,
    commandOfWrite 0x00 w = some (.anchorWrite w)
    ∧ (w.getLsbD 1 = true → ∃ others, commandOfWrite 0x04 w = some (.controlReset others))
    ∧ (w.getLsbD 1 = false → w.getLsbD 0 = true →
        commandOfWrite 0x04 w = some (.start (w.getLsbD 2) (w.getLsbD 3) (w.getLsbD 4)))
    ∧ (w.getLsbD 1 = false → w.getLsbD 0 = false → w.getLsbD 3 = true →
        commandOfWrite 0x04 w = some (.wake (w.getLsbD 2) (w.getLsbD 4)))
    ∧ (w.getLsbD 1 = false → w.getLsbD 0 = false → w.getLsbD 3 = false → w.getLsbD 2 = true →
        commandOfWrite 0x04 w = some (.restReq (w.getLsbD 4)))
    ∧ (w.getLsbD 1 = false → w.getLsbD 0 = false → w.getLsbD 3 = false → w.getLsbD 2 = false →
        commandOfWrite 0x04 w = some (if w.getLsbD 4 = true then .holdReqSet else .holdReqClear))
    ∧ commandOfWrite 0x08 w = some (.registerWriteIgnored .state w)
    ∧ (commandOfWrite 0x0C w = some (.eventsClear w) ∨ (∀ e : Event, w.getLsbD e.bit = false)
        ∧ commandOfWrite 0x0C w = some (.registerWriteIgnored .events w))
    ∧ commandOfWrite 0x10 w = some (.enableWrite w)
    ∧ commandOfWrite 0x14 w
        = some (if w.getLsbD 8 = true then .nudgeRestart (w.extractLsb' 0 2) else .nudge (w.extractLsb' 0 2))
    ∧ commandOfWrite 0x18 w = some (.registerWriteIgnored .fault w)
    ∧ ∀ o, o ∉ [0x00, 0x04, 0x08, 0x0C, 0x10, 0x14, 0x18] → commandOfWrite o w = none)
  ∧ ∀ o, commandOfRead o = if o = 0x18 then some .faultRead else none

/-- A write to STATE or FAULT, or to bits with no function, and a late response change nothing; nor does any register
write while the reset pin is held (R156, R160, R167). -/
def Obligations.IgnoredAccessesChangeNothing : Prop :=
  (∀ (s : State) (r : Register) (v : Word), exec (.registerWriteIgnored r v) s = .next s ∧ exec .lateResponse s = .next s)
  ∧ ∀ s : State, s.resetHeld = true →
    (∀ a b d, exec (.start a b d) s = .next s) ∧ (∀ o, exec (.controlReset o) s = .next s)
    ∧ (∀ a, exec (.restReq a) s = .next s) ∧ (∀ a b, exec (.wake a b) s = .next s)
    ∧ exec .holdReqSet s = .next s ∧ exec .holdReqClear s = .next s ∧ (∀ v, exec (.anchorWrite v) s = .next s)
    ∧ (∀ n, exec (.nudge n) s = .next s) ∧ (∀ n, exec (.nudgeRestart n) s = .next s)
    ∧ (∀ v, exec (.eventsClear v) s = .next s) ∧ (∀ v, exec (.enableWrite v) s = .next s)

/-! ### Time and windows -/

/-- A tick while the clock runs raises the clock by 1, or leaves it at its maximum, and takes a minute from every open
window, closing those at 1; while it is STOPPED no tick comes (R20, R122). The
expiry commands close the windows at 0 minutes or at count 0, of which under the invariant there are none, since the
closings belong to the tick and to the own insertion (R121, R122, notes/assumptions/10.md). -/
def Obligations.MinuteTickAndWindowExpiries : Prop :=
  (∀ s : State, s.clockRunning = true →
    ∃ t, exec .minuteTick s = .next t ∧ t = { s with clock := t.clock, journal := t.journal }
      ∧ t.clock.toNat = (if s.clock.toNat = 4294967295 then 4294967295 else s.clock.toNat + 1)
      ∧ t.journal = { s.journal with entries := s.journal.entries.map (fun e => { e with window :=
          match e.window with
          | none => none
          | some w => if w.minutes.toNat ≤ 1 then none else some { w with minutes := w.minutes - 1#8 } }) })
  ∧ (∀ s : State, s.clockRunning = false → exec .minuteTick s = .next s)
  ∧ ∀ s : State,
    exec .windowMinutesExpiry s = .next { s with journal := { s.journal with
      entries := s.journal.entries.map (fun e =>
        if e.window.any (fun w => decide (w.minutes = 0#8)) then { e with window := none } else e) } }
    ∧ exec .windowCountExpiry s = .next { s with journal := { s.journal with
      entries := s.journal.entries.map (fun e =>
        if e.window.any (fun w => decide (w.count = 0#8)) then { e with window := none } else e) } }
    ∧ (Inv s → exec .windowMinutesExpiry s = .next s ∧ exec .windowCountExpiry s = .next s)

/-- R23: a report is adopted, adopted as a step or not adopted by its exact distance from the clock; the clock, the
answer flags and the event follow, and nothing is offered to FAULT. -/
def Obligations.TimeReportIsJudged : Prop :=
  ∀ (s : State) (r : Word), s.trip.lo.toNat ≤ s.trip.hi.toNat →
    let k := s.clock.toNat
    let d := ((r.toNat : Int) - k).natAbs
    let j := judge s.trip.lo.toNat s.trip.hi.toNat k r.toNat
    let t := s.applyJudgement j r.toNat
    let flags := positionFlagBits (decide (j = .stepped)) (decide (j = .notAdopted))
    (d ≤ s.trip.lo.toNat → t = { s with clock := r } ∧ flags = 0)
    ∧ (s.trip.lo.toNat < d → d ≤ s.trip.hi.toNat →
        t = { s with clock := r, events := s.events ||| Event.clockStep.mask } ∧ flags = 1)
    ∧ (s.trip.hi.toNat < d → t = { s with events := s.events ||| Event.timeReject.mask } ∧ flags = 2)

/-- R27: the service day of a local time is the floor of (L - ds) / 1440, it begins at i × 1440 + ds and lasts 1,440
minutes, and the next day's beginning, converted back, is its reference time. -/
def Obligations.ServiceDayIsTheFloor : Prop :=
  ∀ (cal : Calendar) (l : Int),
    (serviceDay cal l * 1440 + cal.dayStart ≤ l ∧ l < serviceDay cal l * 1440 + cal.dayStart + 1440)
    ∧ (∀ i : Int, i * 1440 + cal.dayStart ≤ l → l < i * 1440 + cal.dayStart + 1440 → i = serviceDay cal l)
    ∧ ∀ m : Nat, nextServiceDay cal m
        = referenceTime cal ((serviceDay cal (localTime cal m) + 1) * 1440 + cal.dayStart)

/-- R30: the five findings of the validity test, their notes and their causes. -/
def Obligations.ValidityTestFindings : Prop :=
  ∀ start e g d t : Nat, start ≤ e →
    let x := e + max g d
    let f := validityTest start e g d t
    (start ≤ t → t < e → f.notes = [] ∧ f.causes = [])
    ∧ (e ≤ t → t < x → d ≤ g → f.notes = [.grace] ∧ f.causes = [])
    ∧ (e ≤ t → t < x → g < d → f.notes = [.delay] ∧ f.causes = [])
    ∧ (t < start → f.notes = [] ∧ f.causes = [.notYetValid])
    ∧ (x ≤ t → f.notes = [] ∧ f.causes = [.expired])

/-- The end of validity under the three rules, with the calendar clamped to its ranges on use: a SERVICE_DAY end lies
1 to 1,440 minutes after a start that no clamping to 0 touches (R25, R28). -/
def Obligations.EndOfValidityFollowsRule : Prop :=
  ∀ (fc : Nat) (offset : Int) (dayStart grace start : Nat) (p : Product) (carried : Option Nat),
    let cal := calendarOf offset dayStart grace
    (-720 ≤ cal.offset ∧ cal.offset ≤ 840 ∧ cal.dayStart ≤ 359 ∧ cal.grace ≤ 120)
    ∧ (-720 ≤ offset → offset ≤ 840 → cal.offset = offset) ∧ (dayStart ≤ 359 → cal.dayStart = dayStart)
    ∧ (grace ≤ 120 → cal.grace = grace)
    ∧ (offset < -720 → cal.offset = -720) ∧ (840 < offset → cal.offset = 840)
    ∧ (359 < dayStart → cal.dayStart = 359) ∧ (120 < grace → cal.grace = 120)
    ∧ (∀ e, p.rule = 1 → endOfValidity fc cal p start (some e) = e)
    ∧ (p.rule = 2 → endOfValidity fc cal p start carried = start + p.duration)
    ∧ (p.rule = 3 → 2000 ≤ start →
        start < endOfValidity fc cal p start carried ∧ endOfValidity fc cal p start carried ≤ start + 1440
        ∧ (((endOfValidity fc cal p start carried : Int) + cal.offset - cal.dayStart) % 1440 = 0))

/-! ### Anchor, walk and arbiter -/

/-- ANCHOR_CHECK in STARTING: an anchor block that passes its checks is accepted at one event, one that fails a check
is an anchor fault; in any other part state nothing is read (R136, R158, R159).
The model's choices: the interactive head is set up first, and a
check outside STARTING has no effect (notes/assumptions/16.md, 2.md); an EMPTY
or BROKEN record holds cursor and tail 0 (notes/assumptions/13.md). -/
def Obligations.AnchorCheckAcceptsOrHalts : Prop :=
  ∀ s : State, Inv s →
    (∀ a, s.part = .starting → readAnchorBlock (s.anchorByte []) = some a → a.failedCheck = none →
      ∃ u1 u2 t, exec .anchorCheck s = .next t
        ∧ HeadTaken { s with windows := some a.windows, phaseTable := a.phase.map phaseChain, phase := 0 } .interactive
            (BitVec.ofNat 24 a.interactiveHead) u1
        ∧ HeadTaken u1 .background (BitVec.ofNat 24 a.backgroundHead) u2
        ∧ t = { u2 with
            part := .running, tables := (if s.holdReq then .held else .checking),
            events := u2.events ||| Event.started.mask
              ||| (if s.holdReq then Event.holdGrant.mask else 0#11) })
    ∧ (∀ a k, s.part = .starting → readAnchorBlock (s.anchorByte []) = some a → a.failedCheck = some k →
      ∃ t, exec .anchorCheck s = .next t ∧ AnchorFailed s (BitVec.ofNat 4 k) t)
    ∧ (s.part ≠ .starting → exec .anchorCheck s = .next s)

/-- Checks 2 to 6 of R158 in order, on bases with their low 12 bits taken as zero and limits as all ones. -/
def Obligations.AnchorChecksInOrder : Prop :=
  ∀ a : AnchorBlock,
    let sb := a.slipBase / 4096 * 4096
    let sl := a.slipLimit / 4096 * 4096 + 4095
    let tb := a.tableBase / 4096 * 4096
    let tl := a.tableLimit / 4096 * 4096 + 4095
    let c2 := a.version = 1
    let c3 := sb ≤ sl
    let c4 := tb ≤ tl
    let c5 := ¬ ∃ x, sb ≤ x ∧ x ≤ sl ∧ tb ≤ x ∧ x ≤ tl
    let c6 := ∀ b ∈ a.phase, b.toNat ≤ 1
    (a.failedCheck = none ↔ c2 ∧ c3 ∧ c4 ∧ c5 ∧ c6)
    ∧ (a.failedCheck = some 2 ↔ ¬ c2) ∧ (a.failedCheck = some 3 ↔ c2 ∧ ¬ c3)
    ∧ (a.failedCheck = some 4 ↔ c2 ∧ c3 ∧ ¬ c4) ∧ (a.failedCheck = some 5 ↔ c2 ∧ c3 ∧ c4 ∧ ¬ c5)
    ∧ (a.failedCheck = some 6 ↔ c2 ∧ c3 ∧ c4 ∧ c5 ∧ ¬ c6)

/-- The end of a walk: USABLE with the slots read as the new snapshot, or UNUSABLE with the snapshot kept; in any
other state nothing (R58, R59, R155).
The model's choice: a walk outside CHECKING has no effect (notes/assumptions/2.md). -/
def Obligations.WalkEndsUsableOrUnusable : Prop :=
  ∀ s : State,
    (∀ slots, s.tables = .checking → s.walkResult [] = .ok slots →
      exec .validationWalk s = .next { s with snapshot := slots, tables := .usable })
    ∧ (∀ slot check, s.tables = .checking → s.walkResult [] = .error (slot, check) →
      ∃ t, exec .validationWalk s = .next t ∧ TablesFailed s slot (BitVec.ofNat 8 check) t)
    ∧ (s.tables ≠ .checking → exec .validationWalk s = .next s)

/-- A walk that succeeds has found every trip network's profile among the slots, and for every slot with an offset a
profile in range whose product table is in range, inside the window and strictly rising by code; the product lookup in
that profile then finds a code exactly when the table holds it (R57, R58, R61). -/
def Obligations.ValidatedProductLookupIsComplete : Prop :=
  ∀ (s : State) (slots : List (Option Word)), s.walkResult [] = .ok slots →
    (s.trip.state = .inTrip → ∀ n ∈ s.trip.priority ++ [s.trip.fallback], slotOf slots n ≠ none)
    ∧ ∀ (i : Nat) (o : Word), slots[i]? = some (some o) →
      ∃ p : Profile, readProfile (s.tableByte [] (byteOf i)) (s.tableBase + o.toNat) = some p
        ∧ p.byteOrder ≤ 1 ∧ 4 ≤ p.serialWidth ∧ p.serialWidth ≤ 8 ∧ 1 ≤ p.productCount ∧ p.productCount ≤ 1024
        ∧ ∃ entry : Nat → Product,
          (∀ j < p.productCount, readProduct (s.tableByte [] (byteOf i))
            (s.tableBase + p.productOffset + 12 * j) = some (entry j))
          ∧ (∀ j < p.productCount, ∀ k < j, (entry k).code < (entry j).code)
          ∧ ∀ code : Nat,
            ((∀ j < p.productCount, (entry j).code ≠ code) →
              s.lookupProduct [] (byteOf i) (s.tableBase + o.toNat) code = .ok none)
            ∧ (∀ j < p.productCount, (entry j).code = code →
              s.lookupProduct [] (byteOf i) (s.tableBase + o.toNat) code = .ok (some (entry j)))

/-- The arbiter chooses the chain phase entry p names when it is AHEAD, else the other when it is, else none, and only
when R144 lets it (R143).
The model's choice: a choice that is not due has no effect (notes/assumptions/2.md). -/
def Obligations.ArbiterFollowsPhaseTable : Prop :=
  ∀ s : State,
    (∀ c, s.inFlight = none → s.examining = none → s.part = .running → (s.tables = .usable ∨ s.tables = .unusable) →
      s.holdReq = false → s.restPending = false → s.phaseTable[s.phase.val]? = some c →
      ((s.chain c).state = .ahead → exec .arbiterChoice s = .next { s with examining := some c })
      ∧ ((s.chain c).state ≠ .ahead → (s.chain (otherChain c)).state = .ahead →
          exec .arbiterChoice s = .next { s with examining := some (otherChain c) })
      ∧ ((s.chain c).state ≠ .ahead → (s.chain (otherChain c)).state ≠ .ahead → exec .arbiterChoice s = .next s))
    ∧ (¬ (s.inFlight = none ∧ s.examining = none ∧ s.part = .running ∧ (s.tables = .usable ∨ s.tables = .unusable)
        ∧ s.holdReq = false ∧ s.restPending = false) → exec .arbiterChoice s = .next s)

/-- No command but ARBITER_CHOICE begins an examination, and none but an examination, the ordinary one or one in which
an access fails, puts a slip in flight; a slip is thus taken only in RUNNING with the tables USABLE or UNUSABLE and no
other slip in flight (R144, R149).
The model's choice: a failed-access command whose accesses the examination does not reach leaves its ordinary
completion, so that it takes the slip, though R145 has none taken where an access of the examination is met by an error
(notes/assumptions/6.md). -/
def Obligations.SlipsAreTakenByExaminationAlone : Prop :=
  ∀ (c : Instr) (s t : State), Inv s → exec c s = .next t →
    (∀ d, t.examining = some d → s.examining ≠ some d →
      c = .arbiterChoice ∧ s.part = .running ∧ s.inFlight = none ∧ s.holdReq = false ∧ s.restPending = false)
    ∧ (s.inFlight = none → t.inFlight ≠ none →
      (c = .examination ∨ ∃ timeout failing, c = accessFailed timeout .examination failing)
      ∧ s.examining ≠ none ∧ s.part = .running ∧ (s.tables = .usable ∨ s.tables = .unusable))

/-! ### Chains -/

/-- An examination that reads POSTED writes TAKEN, puts the slip in flight with the clock as its evaluation time, makes
the chain ACTIVE and advances p; a kind that is not accepted is refused at once with its body as the host left it
(R22, R137, R138). The kinds each chain accepts are those of R138. -/
def Obligations.ExaminationTakesPostedSlip : Prop :=
  (∀ kind : Byte,
    (1 ≤ kind.toNat → kind.toNat ≤ 4 → dispatchRefusal .interactive kind = none)
    ∧ (5 ≤ kind.toNat → kind.toNat ≤ 6 → dispatchRefusal .interactive kind = some .wrongChain)
    ∧ (kind.toNat = 1 ∨ kind.toNat = 4 → dispatchRefusal .background kind = some .wrongChain)
    ∧ (kind.toNat = 2 ∨ kind.toNat = 3 ∨ kind.toNat = 5 ∨ kind.toNat = 6 → dispatchRefusal .background kind = none)
    ∧ (kind.toNat = 0 ∨ 6 < kind.toNat → ∀ c, dispatchRefusal c kind = some .kindUnknown))
  ∧ ∀ (s : State) (c : Chain), Inv s → s.examining = some c →
    Memory.read s.mem (s.slipAddress (s.chain c).cursor) = 1#8 →
    ∃ (u : State) (f : InFlight),
      f = { chain := c, kind := Memory.read s.mem (s.slipAddress (s.chain c).cursor + 1), progress := .working,
            evalTime := s.clock }
      ∧ u = { s.setChain c { s.chain c with state := .active } with
              examining := none, mem := u.mem, inFlight := some f, phase := s.phase + 1 }
      ∧ Memory.read u.mem (s.slipAddress (s.chain c).cursor) = 2#8
      ∧ (∀ a, a ≠ s.slipAddress (s.chain c).cursor → Memory.read u.mem a = Memory.read s.mem a)
      ∧ (dispatchRefusal c f.kind = none → exec .examination s = .next u)
      ∧ (∀ r, dispatchRefusal c f.kind = some r → ∃ t, exec .examination s = .next t ∧ Answered u f 16 [] (some r) t)

/-- An examination that reads any other stage parks the chain on stage with the cursor unchanged, returns it to AHEAD
when a nudge is pending, or reads its head when a restart was remembered; p stays and no slip is taken (R137, R141).
An EMPTY or BROKEN record holds cursor and tail 0: the model's choice
(notes/assumptions/13.md). -/
def Obligations.ExaminationParksChain : Prop :=
  ∀ (s : State) (c : Chain), Inv s → s.examining = some c →
    Memory.read s.mem (s.slipAddress (s.chain c).cursor) ≠ 1#8 →
    ((s.chain c).restartRemembered = false → (s.chain c).pendingNudge = false → exec .examination s =
      .next ({ s with examining := none }.setChain c { s.chain c with state := .parkedOnStage }))
    ∧ ((s.chain c).restartRemembered = false → (s.chain c).pendingNudge = true → exec .examination s =
      .next ({ s with examining := none }.setChain c { s.chain c with state := .ahead, pendingNudge := false }))
    ∧ ((s.chain c).restartRemembered = true →
      ∃ t, exec .examination s = .next t ∧ HeadTaken { s with examining := none } c (s.headOf c) t)

/-- The follow-up of an answered slip. With a restart remembered before it, the head is read in place of the link and
the slip stays ANSWERED. With none remembered: a valid link gives RELEASED and AHEAD at the link, a
link that is not valid BROKEN, link 0 PARKED on link, a pending nudge then beginning a re-read; a restart that came
after the link was read reads the head at the end (R139, R141).
The model's choice: the operand says whether a restart came after the link was read (notes/assumptions/9.md).
That the tail is 0 after a release and that an EMPTY or BROKEN record
holds cursor and tail 0 are the model's choices (notes/assumptions/13.md). -/
def Obligations.FollowUpActsOnLink : Prop :=
  ∀ (s : State) (f : InFlight), Inv s → s.inFlight = some f → f.progress = .answered →
    let r := s.chain f.chain
    let u := { s with inFlight := none }
    let l := s.linkOf r.cursor
    (r.restartRemembered = true →
      ∀ b, ∃ t, exec (.followUp b) s = .next t ∧ HeadTaken u f.chain (s.headOf f.chain) t)
    ∧ (r.restartRemembered = false →
      (l ≠ 0#24 → s.linkValid l = true → ∃ t, exec (.followUp false) s = .next t
          ∧ t = { u.setChain f.chain { r with state := .ahead, cursor := l, tail := 0#24 } with mem := t.mem }
          ∧ Memory.read t.mem (s.slipAddress r.cursor) = 4#8
          ∧ (∀ a, a ≠ s.slipAddress r.cursor → Memory.read t.mem a = Memory.read s.mem a)
          ∧ ∃ w, exec (.followUp true) s = .next w ∧ HeadTaken t f.chain (t.headOf f.chain) w)
      ∧ (l ≠ 0#24 → s.linkValid l = false →
          ∀ b, ∃ t, exec (.followUp b) s = .next t ∧ ChainBroken u f.chain l t)
      ∧ (l = 0#24 → r.pendingNudge = false → exec (.followUp false) s
          = .next (u.setChain f.chain { r with state := .parkedOnLink, tail := r.cursor }))
      ∧ (l = 0#24 → r.pendingNudge = true → exec (.followUp false) s
          = .next (u.setChain f.chain { r with state := .parkedOnLink, tail := r.cursor, pendingNudge := false,
                                               rereading := true }))
      ∧ (l = 0#24 → ∃ t, exec (.followUp true) s = .next t ∧ HeadTaken u f.chain (s.headOf f.chain) t))

/-- The re-read of a parked chain's tail link: RELEASED on the tail and AHEAD at a valid link, BROKEN at one that is
not, PARKED on link at 0, with the link read once more when a nudge came meanwhile; a restart that came meanwhile reads
the head unless the chain broke (R140, R141).
That the tail is 0 after a release and that an EMPTY or BROKEN record
holds cursor and tail 0 are the model's choices (notes/assumptions/13.md), and so is that the re-read acts on its link
before a restart that came meanwhile reads the head (notes/assumptions/30.md). -/
def Obligations.TailRereadActsOnLink : Prop :=
  ∀ (s : State) (c : Chain), Inv s → (s.chain c).rereading = true →
    let r := s.chain c
    let l := s.linkOf r.tail
    (l ≠ 0#24 → s.linkValid l = true → ∃ u t, exec (.tailLinkReread c) s = .next t
        ∧ u = { s.setChain c { r with state := .ahead, cursor := l, tail := 0#24, rereading := false } with mem := u.mem }
        ∧ Memory.read u.mem (s.slipAddress r.tail) = 4#8
        ∧ (∀ a, a ≠ s.slipAddress r.tail → Memory.read u.mem a = Memory.read s.mem a)
        ∧ (r.restartRemembered = false → t = u)
        ∧ (r.restartRemembered = true → HeadTaken u c (u.headOf c) t))
    ∧ (l ≠ 0#24 → s.linkValid l = false → ∃ t, exec (.tailLinkReread c) s = .next t ∧ ChainBroken s c l t)
    ∧ (l = 0#24 → r.restartRemembered = false → r.pendingNudge = false →
        exec (.tailLinkReread c) s = .next (s.setChain c { r with rereading := false }))
    ∧ (l = 0#24 → r.restartRemembered = false → r.pendingNudge = true →
        exec (.tailLinkReread c) s = .next (s.setChain c { r with pendingNudge := false }))
    ∧ (l = 0#24 → r.restartRemembered = true →
        ∃ t, exec (.tailLinkReread c) s = .next t ∧ HeadTaken s c (s.headOf c) t)

/-- NUDGE acts on the named chain by its state, in RUNNING and RESTING, waking the part; chain numbers 2 and 3 and any
other part state are ignored; the other chain's record stands (R140, R142). -/
def Obligations.NudgeActsByChainState : Prop :=
  ∀ (s : State) (c : Chain), s.resetHeld = false →
    (s.awake = true →
      ∃ t, exec (.nudge (chainNumber c)) s = .next t
        ∧ t = { s with part := .running, interactive := t.interactive, background := t.background }
        ∧ t.chain (otherChain c) = s.chain (otherChain c)
        ∧ ((s.chain c).state = .parkedOnLink → (s.chain c).rereading = false →
            t.chain c = { s.chain c with rereading := true })
        ∧ ((s.chain c).state = .parkedOnLink → (s.chain c).rereading = true →
            t.chain c = { s.chain c with pendingNudge := true })
        ∧ ((s.chain c).state = .parkedOnStage → t.chain c = { s.chain c with state := .ahead })
        ∧ ((s.chain c).state = .ahead ∨ (s.chain c).state = .active →
            t.chain c = { s.chain c with pendingNudge := true })
        ∧ ((s.chain c).state = .empty ∨ (s.chain c).state = .broken → t.chain c = s.chain c))
    ∧ (s.awake = false → ∀ n, exec (.nudge n) s = .next s ∧ exec (.nudgeRestart n) s = .next s)
    ∧ (∀ n : BitVec 2, 2 ≤ n.toNat → exec (.nudge n) s = .next s ∧ exec (.nudgeRestart n) s = .next s)

/-- A restart NUDGE is remembered while the chain's slip is in flight, under examination or its tail link re-read, and
otherwise reads the head at once; no stage is written (R141).
An EMPTY or BROKEN record holds cursor and tail 0: the model's choice
(notes/assumptions/13.md). -/
def Obligations.RestartNudgeReadsOrRemembers : Prop :=
  ∀ (s : State) (c : Chain), s.resetHeld = false → s.awake = true →
    ((s.chain c).state = .active ∨ (s.chain c).rereading = true ∨ s.examining = some c →
      exec (.nudgeRestart (chainNumber c)) s
        = .next ({ s with part := .running }.setChain c { s.chain c with restartRemembered := true }))
    ∧ ((s.chain c).state ≠ .active → (s.chain c).rereading = false → s.examining ≠ some c →
      ∃ t, exec (.nudgeRestart (chainNumber c)) s = .next t
        ∧ HeadTaken { s with part := .running } c (s.headOf c) t)

/-- An access error on a chain's slip or head, by no response or by an error response, makes the chain BROKEN with the
slip's link, or 0 for a head, and nothing more is written, row by row of R145's table: the stage read and the TAKEN
write of an examination; the link read and the RELEASED write of a follow-up or a re-read; the first body byte of a
slip being worked, a record of a MERGE (the records before it stand, R117), and every write of an answer or of a refusal
at dispatch: result area, answer code, reason, stamp, ANSWERED, after which what the block had done stands (R100, R117,
R130, R145); and the head read of a restart (R141). The model's choices: the command names the failing
accesses, result bytes before a failing one stand where the manual says they may, the byte of the failing write stays
as it was, and a BROKEN record holds cursor 0 (notes/assumptions/6.md, 13.md). -/
def Obligations.AccessErrorBreaksChain : Prop :=
  ∀ (timeout : Bool) (failing : List Access) (s : State), Inv s →
    (∀ c o, s.examining = some c → o < 2 → Access.slipRead o ∈ failing →
      ∃ t, exec (accessFailed timeout .examination failing) s = .next t
        ∧ ChainBroken { s with examining := none } c (s.chain c).cursor t)
    ∧ (∀ f o b, s.inFlight = some f → f.progress = .answered → (s.chain f.chain).restartRemembered = false →
        8 ≤ o → o < 11 → Access.slipRead o ∈ failing →
      ∃ t, exec (accessFailed timeout (.followUp b) failing) s = .next t
        ∧ ChainBroken { s with inFlight := none } f.chain (s.chain f.chain).cursor t)
    ∧ (∀ c o, (s.chain c).rereading = true → 8 ≤ o → o < 11 → Access.slipRead o ∈ failing →
      ∃ t, exec (accessFailed timeout (.tailReread c) failing) s = .next t ∧ ChainBroken s c (s.chain c).tail t)
    ∧ (∀ c o, s.resetHeld = false → s.awake = true → (s.chain c).state ≠ .active → (s.chain c).rereading = false →
        s.examining ≠ some c → headOffset c ≤ o → o < headOffset c + 3 → Access.anchorRead o ∈ failing →
      ∃ t, exec (accessFailed timeout (.restartHead c) failing) s = .next t
        ∧ ChainBroken { s with part := .running } c 0#24 t)
    ∧ (∀ f, s.inFlight = some f → f.progress = .working → 1 ≤ f.kind.toNat → f.kind.toNat ≤ 6 →
        (f.kind = 1#8 ∨ s.trip.state = .inTrip) → Access.slipRead 16 ∈ failing →
      ∃ t, exec (accessFailed timeout .work failing) s = .next t
        ∧ ChainBroken { s with inFlight := none } f.chain (s.chain f.chain).cursor t)
    ∧ (∀ f n k, s.inFlight = some f → f.progress = .working → f.kind = 5#8 → s.trip.state = .inTrip →
        n = (Memory.read s.mem (s.slipOf f + 16)).toNat → n ≤ 16 → k < n → failing ≠ [] →
        (∀ x ∈ failing, ∃ o, x = .slipRead o ∧ 32 + 20 * k ≤ o ∧ o < 32 + 20 * k + 19) →
      ∃ (records : List PeerRecord) (u t : State), exec (accessFailed timeout .work failing) s = .next t
        ∧ records.length = k
        ∧ (∀ i, i < k → readPeerRecord (s.slipByte [] (s.chain f.chain).cursor) (32 + 20 * i) = records[i]?)
        ∧ u = records.foldl (fun x p => x.mergeRecord p) s
        ∧ ChainBroken { u with inFlight := none } f.chain (s.chain f.chain).cursor t)
    ∧ ((∀ x ∈ failing, x.isWrite = true) →
      (∀ c, s.examining = some c → Memory.read s.mem (s.slipAddress (s.chain c).cursor) = 1#8 →
          .stageWrite .taken ∈ failing →
        ∃ t, exec (accessFailed timeout .examination failing) s = .next t
          ∧ ChainBroken { s with examining := none } c (s.chain c).cursor t)
      ∧ (∀ f b, s.inFlight = some f → f.progress = .answered → (s.chain f.chain).restartRemembered = false →
          s.linkOf (s.chain f.chain).cursor ≠ 0#24 → s.linkValid (s.linkOf (s.chain f.chain).cursor) = true →
          .stageWrite .released ∈ failing →
        ∃ t, exec (accessFailed timeout (.followUp b) failing) s = .next t
          ∧ ChainBroken { s with inFlight := none } f.chain (s.chain f.chain).cursor t)
      ∧ (∀ c, (s.chain c).rereading = true → s.linkOf (s.chain c).tail ≠ 0#24 →
          s.linkValid (s.linkOf (s.chain c).tail) = true → .stageWrite .released ∈ failing →
        ∃ t, exec (accessFailed timeout (.tailReread c) failing) s = .next t ∧ ChainBroken s c (s.chain c).tail t)
      ∧ (∀ f made a o later, s.inFlight = some f → f.progress = .working → 1 ≤ f.kind.toNat → f.kind.toNat ≤ 6 →
          answerOrder (resultArea f.kind).1 (resultArea f.kind).2 = made ++ (a, o) :: later → a ∈ failing →
          (∀ x ∈ made, x.1 ∉ failing) →
        ∃ whole t, exec (s.workCommand f) s = .next whole
          ∧ whole.inFlight = some { f with progress := .answered }
          ∧ exec (accessFailed timeout .work failing) s = .next t ∧ AnswerCutOff s f made whole t)
      ∧ (∀ c r made a o later, s.examining = some c → Memory.read s.mem (s.slipAddress (s.chain c).cursor) = 1#8 →
          dispatchRefusal c (Memory.read s.mem (s.slipAddress (s.chain c).cursor + 1)) = some r →
          answerOrder 16 0 = made ++ (a, o) :: later → a ∈ failing → .stageWrite .taken ∉ failing →
          (∀ x ∈ made, x.1 ∉ failing) →
        ∃ (f : InFlight) (u whole t : State),
          f = { chain := c, kind := Memory.read s.mem (s.slipAddress (s.chain c).cursor + 1), progress := .working,
                evalTime := s.clock }
          ∧ u = { s.setChain c { s.chain c with state := .active } with
                  examining := none, mem := u.mem, inFlight := some f, phase := s.phase + 1 }
          ∧ Memory.read u.mem (s.slipAddress (s.chain c).cursor) = 2#8
          ∧ (∀ b, b ≠ s.slipAddress (s.chain c).cursor → Memory.read u.mem b = Memory.read s.mem b)
          ∧ exec .examination s = .next whole ∧ whole.inFlight = some { f with progress := .answered }
          ∧ exec (accessFailed timeout .examination failing) s = .next t ∧ AnswerCutOff u f made whole t))

/-- An access error while the anchor block is read is anchor check 1; one while the directory is read is check 13 with
slot 255 (R56, R59, R158).
The model's choices: the command names the failing accesses, and the reserved bytes of the block are read with it
(notes/assumptions/6.md, 28.md). -/
def Obligations.AccessErrorFailsAnchorAndWalk : Prop :=
  ∀ (timeout : Bool) (failing : List Access) (s : State) (o : Nat), o < 64 →
    (s.part = .starting → Access.anchorRead o ∈ failing →
      ∃ t, exec (accessFailed timeout .anchorRead failing) s = .next t ∧ AnchorFailed s 1#4 t)
    ∧ (s.tables = .checking → Access.tableRead 255#8 (s.tableBase + o) ∈ failing →
      ∃ t, exec (accessFailed timeout .walk failing) s = .next t ∧ TablesFailed s 255#8 13#8 t)

/-! ### Trip -/

/-- A TRIP BEGIN that passes its checks copies the plan, sets the context with the handling of R8, starts the clock,
empties the journal, sets IN_TRIP and is answered DONE with N, priority count, stored horizon and stored hi
(R8, R12, R19, R105).
That offsets 69 to 79 of the results are 0, with no clock value at 76, which the text of R19 has against R12,
R168 and R172, is the model's choice (notes/assumptions/25.md). -/
def Obligations.TripBeginStoresContext : Prop :=
  ∀ (s : State) (f : InFlight) (q : TripRequest) (plan : List RouteSection), Working s kindTrip f →
    Memory.read s.mem (s.slipOf f + 16) = 1#8 → s.trip.state = .noTrip →
    readTripRequest (s.slipByte [] (s.chain f.chain).cursor) = some q → q.inRange = true → s.tables = .usable →
    (∀ n ∈ q.priority ++ [byteOf q.fallback], slotOf s.snapshot n ≠ none) →
    s.routeWalk [] q.planOffset q.start = .plan plan →
    ∃ t, exec .tripBegin s = .next t
      ∧ Answered { s with
          trip := { state := .inTrip, ownId := byteOf q.ownId, plan := plan, priority := q.priority,
                    fallback := byteOf q.fallback, current := byteOf q.start, delay := 0,
                    horizon := byteOf (if 240 < q.horizon then 240 else q.horizon), reachCount := byteOf q.reachCount,
                    reachMinutes := byteOf q.reachMinutes, lo := byteOf q.lo,
                    hi := byteOf (if q.hi < q.lo then q.lo else q.hi), cap := BitVec.ofNat 32 q.cap, ownCount := 0 },
          clock := BitVec.ofNat 32 q.startTime, clockRunning := true,
          journal := { entries := [], ownCounter := 0, wrapped := false, evictedThrough := 0 } } f 64
        (leBytes 2 plan.length ++ [byteOf q.priorityCount, byteOf (if 240 < q.horizon then 240 else q.horizon),
          byteOf (if q.hi < q.lo then q.lo else q.hi)] ++ List.replicate 11 0#8) none t

/-- The refusals of a TRIP slip, in the order of R9, with a result area of zeros: nothing else changes (R1, R9, R10,
R11, R169). An access error on the route plan refuses a TRIP BEGIN with TABLE_READ, the tables UNUSABLE and check 14 of
slot 255 offered (R11); the bytes of the section count and of every section record, its reserved byte and the
pairs not in use apart, are among those read, and an access error elsewhere leaves the walk as it is.
The model's choices: with a form that is neither, both commands refuse the slip (notes/assumptions/22.md); accesses are
single bytes, a command names those that fail, and one that the walk does not reach leaves it as it is
(notes/assumptions/6.md). -/
def Obligations.TripSlipRefusals : Prop :=
  ∀ (s : State) (f : InFlight), Working s kindTrip f →
    (Memory.read s.mem (s.slipOf f + 16) ≠ 1#8 → Memory.read s.mem (s.slipOf f + 16) ≠ 2#8 →
      ∃ t, exec .tripBegin s = .next t ∧ exec .tripEnd s = .next t
        ∧ Answered s f 64 (List.replicate 16 0#8) (some .badField) t)
    ∧ (Memory.read s.mem (s.slipOf f + 16) = 2#8 → s.trip.state = .noTrip →
      ∃ t, exec .tripEnd s = .next t ∧ Answered s f 64 (List.replicate 16 0#8) (some .noTrip) t)
    ∧ (Memory.read s.mem (s.slipOf f + 16) = 1#8 → s.trip.state = .inTrip →
      ∃ t, exec .tripBegin s = .next t ∧ Answered s f 64 (List.replicate 16 0#8) (some .tripActive) t)
    ∧ ∀ q, Memory.read s.mem (s.slipOf f + 16) = 1#8 → s.trip.state = .noTrip →
      readTripRequest (s.slipByte [] (s.chain f.chain).cursor) = some q →
      (q.inRange = false →
        ∃ t, exec .tripBegin s = .next t ∧ Answered s f 64 (List.replicate 16 0#8) (some .badField) t)
      ∧ (q.inRange = true → s.tables ≠ .usable →
        ∃ t, exec .tripBegin s = .next t ∧ Answered s f 64 (List.replicate 16 0#8) (some .tablesUnusable) t)
      ∧ (q.inRange = true → s.tables = .usable →
        (∃ n ∈ q.priority ++ [byteOf q.fallback], slotOf s.snapshot n = none) →
        ∃ t, exec .tripBegin s = .next t ∧ Answered s f 64 (List.replicate 16 0#8) (some .badNetwork) t)
      ∧ (q.inRange = true → s.tables = .usable →
        (∀ n ∈ q.priority ++ [byteOf q.fallback], slotOf s.snapshot n ≠ none) →
        s.routeWalk [] q.planOffset q.start = .badRoute →
        ∃ t, exec .tripBegin s = .next t ∧ Answered s f 64 (List.replicate 16 0#8) (some .badRoute) t)
      ∧ (q.inRange = true → s.tables = .usable →
        (∀ n ∈ q.priority ++ [byteOf q.fallback], slotOf s.snapshot n ≠ none) →
        ∀ (timeout : Bool) (failing : List Access), (∀ x ∈ failing, x.isTableRead = true) →
          (s.routeWalk failing q.planOffset q.start = .accessError →
            ∃ u t, exec (accessFailed timeout .work failing) s = .next t ∧ TablesFailed s 255#8 14#8 u
              ∧ Answered u f 64 (List.replicate 16 0#8) (some .tableRead) t)
          ∧ (∀ o, s.tableHolds q.planOffset 4 = true → o < 2 →
              .tableRead 255#8 (s.tableBase + q.planOffset + o) ∈ failing →
              s.routeWalk failing q.planOffset q.start = .accessError)
          ∧ (∀ sections i x o, s.routeWalk [] q.planOffset q.start = .plan sections → sections[i]? = some x →
              o ≠ 3 → o < 4 + 2 * x.claims.length →
              .tableRead 255#8 (s.tableBase + q.planOffset + 4 + 12 * i + o) ∈ failing →
              s.routeWalk failing q.planOffset q.start = .accessError)
          ∧ (s.routeWalk failing q.planOffset q.start = .accessError
              ∨ s.routeWalk failing q.planOffset q.start = s.routeWalk [] q.planOffset q.start))

/-- A TRIP END in IN_TRIP notes entries, own inspections and clock, empties the journal, stops the clock, returns every
item of the context to its NO_TRIP value and is answered DONE with stamp 0 (R2, R13, R19, R22, R105). -/
def Obligations.TripEndClearsTheTrip : Prop :=
  ∀ (s : State) (f : InFlight), Working s kindTrip f → Memory.read s.mem (s.slipOf f + 16) = 2#8 →
    s.trip.state = .inTrip →
    ∃ u t, exec .tripEnd s = .next t ∧ u.stamp = 0#32
      ∧ u = { s with
          trip := { state := .noTrip, ownId := 0, plan := [], priority := [], fallback := 0, current := 0, delay := 0,
                    horizon := 0, reachCount := 0, reachMinutes := 0, lo := 0, hi := 0, cap := 0, ownCount := 0 },
          clock := 0#32, clockRunning := false,
          journal := { entries := [], ownCounter := 0, wrapped := false, evictedThrough := 0 } }
      ∧ Answered u f 64 (leBytes 2 s.journal.entries.length ++ List.replicate 6 0#8
          ++ leBytes 4 s.trip.ownCount.toNat ++ leBytes 4 s.clock.toNat) none t

/-- An accepted POSITION takes section and delay, hands a report to the judgement, and is answered DONE with section,
delay, answer flags and clock (R14, R15, R16, R17). -/
def Obligations.PositionMovesTheTrain : Prop :=
  ∀ (s : State) (f : InFlight) (q : PositionRequest), Working s kindPosition f → s.trip.state = .inTrip →
    readPositionRequest (s.slipByte [] (s.chain f.chain).cursor) = some q → q.flag ≤ 1 →
    q.section_ < s.trip.plan.length → s.trip.current.toNat ≤ q.section_ → s.trip.plan.length ≤ 96 →
    let u := { s with trip := { s.trip with current := byteOf q.section_, delay := byteOf q.delay } }
    (q.flag = 0 → ∃ t, exec .position s = .next t
      ∧ Answered u f 32 ([byteOf q.section_, byteOf q.delay, 0#8, 0#8] ++ leBytes 4 s.clock.toNat) none t)
    ∧ (q.flag = 1 → ∃ j t, j = judge s.trip.lo.toNat s.trip.hi.toNat s.clock.toNat q.report
      ∧ exec .position s = .next t
      ∧ Answered (u.applyJudgement j q.report) f 32
          ([byteOf q.section_, byteOf q.delay, byteOf (positionFlagBits (decide (j = .stepped))
            (decide (j = .notAdopted))), 0#8] ++ leBytes 4 (u.applyJudgement j q.report).clock.toNat) none t)

/-- The refusals of a POSITION, in order: results show section and delay as they stand, clear flags and the clock, 0 in
NO_TRIP; nothing else changes (R14). -/
def Obligations.PositionRefusals : Prop :=
  ∀ (s : State) (f : InFlight), Inv s → Working s kindPosition f →
    (s.trip.state = .noTrip → ∃ t, exec .position s = .next t
      ∧ Answered s f 32 [0#8, 0#8, 0#8, 0#8, 0#8, 0#8, 0#8, 0#8] (some .noTrip) t)
    ∧ ∀ q, s.trip.state = .inTrip → readPositionRequest (s.slipByte [] (s.chain f.chain).cursor) = some q →
      (1 < q.flag ∨ s.trip.plan.length ≤ q.section_ → ∃ t, exec .position s = .next t
        ∧ Answered s f 32 ([s.trip.current, s.trip.delay, 0#8, 0#8] ++ leBytes 4 s.clock.toNat) (some .badField) t)
      ∧ (q.flag ≤ 1 → q.section_ < s.trip.plan.length → q.section_ < s.trip.current.toNat →
        ∃ t, exec .position s = .next t ∧ Answered s f 32
          ([s.trip.current, s.trip.delay, 0#8, 0#8] ++ leBytes 4 s.clock.toNat) (some .positionBackward) t)

/-! ### Inspections -/

/-- An interactive INSPECT that passes R33 and whose reads succeed makes its own entry from its findings and is answered
DONE with its verdict record, which carries the new entry's number (R33, R96, R97, R101, R106).
The model's own freeCount advances (notes/assumptions/15.md). -/
def Obligations.InspectRecordsItsVerdict : Prop :=
  ∀ (s : State) (f : InFlight) (q : InspectRequest) (g : Findings), Working s kindInspect f →
    f.chain = .interactive → s.trip.state = .inTrip →
    readInspectRequest (s.slipByte [] (s.chain f.chain).cursor) = some q → q.inRange = true → s.tables = .usable →
    s.findings [] (s.chain f.chain).cursor q f.evalTime = .ok g →
    ∃ u t, exec .inspect s = .next t
      ∧ u = { s with freeCount := s.freeCount + 1 }.insertOwn
          { issuer := g.token.issuer, serial := BitVec.ofNat 64 g.token.serial, time := f.evalTime,
            adults := byteOf g.priced.persons.adults, children := byteOf g.priced.persons.children,
            verdict := verdictFor g.token.causes g.search.suspicion g.priced.total g.notes }
      ∧ Answered u f 224 (verdictRecordBytes (g.record u.journal.ownCounter.toNat f.evalTime)) none t

/-- A probe with the same findings is answered with the same record but entry number 0, and leaves the journal, the own
inspection count and every window as they were (R101, R112).
The model's own freeCount advances (notes/assumptions/15.md). -/
def Obligations.ProbeLeavesNoTrace : Prop :=
  ∀ (s : State) (f : InFlight) (q : InspectRequest) (g : Findings), Working s kindInspect f →
    f.chain = .background → s.trip.state = .inTrip →
    readInspectRequest (s.slipByte [] (s.chain f.chain).cursor) = some q → q.inRange = true → s.tables = .usable →
    s.findings [] (s.chain f.chain).cursor q f.evalTime = .ok g →
    ∃ t, exec .probe s = .next t ∧ t.journal = s.journal ∧ t.trip = s.trip ∧ t.clock = s.clock
      ∧ Answered { s with freeCount := s.freeCount + 1 } f 224 (verdictRecordBytes (g.record 0 f.evalTime)) none t

/-- The refusals of an INSPECT on either chain, in the order of R33, with every byte of the verdict record 0; nothing
else changes (R33, R99). -/
def Obligations.InspectRefusals : Prop :=
  ∀ (s : State) (f : InFlight), Working s kindInspect f →
    let run : Instr := if f.chain = .interactive then .inspect else .probe
    (s.trip.state = .noTrip → ∃ t, exec run s = .next t ∧ Answered s f 224 (List.replicate 64 0#8) (some .noTrip) t)
    ∧ ∀ q, s.trip.state = .inTrip → readInspectRequest (s.slipByte [] (s.chain f.chain).cursor) = some q →
      (q.inRange = false → ∃ t, exec run s = .next t ∧ Answered s f 224 (List.replicate 64 0#8) (some .badField) t)
      ∧ (q.inRange = true → s.tables ≠ .usable →
        ∃ t, exec run s = .next t ∧ Answered s f 224 (List.replicate 64 0#8) (some .tablesUnusable) t)

/-- An inspection whose table read fails makes the tables UNUSABLE, offers the fault with the slot and the check, and is
answered REFUSED with TABLE_READ and a record of zeros; journal and trip stand (R64, R65, R99). So it ends on a check of
R64 that fails, and on an access error on a table read: where only access errors on table reads keep it from its
findings, the check is 15 and the slot is that of a read that failed; byte order and serial width of the issuer's
profile are among the bytes read. The model's choices: its own freeCount advances (notes/assumptions/15.md); accesses
are single bytes, a command names those that fail, and the findings stay what they would be where none of those is
reached (notes/assumptions/6.md). -/
def Obligations.TableReadErrorRefusesInspect : Prop :=
  ∀ (s : State) (f : InFlight) (q : InspectRequest), Working s kindInspect f →
    s.trip.state = .inTrip → readInspectRequest (s.slipByte [] (s.chain f.chain).cursor) = some q →
    q.inRange = true → s.tables = .usable →
    (∀ slot check, s.findings [] (s.chain f.chain).cursor q f.evalTime = .error (.table slot check) →
      ∃ u t, exec (if f.chain = .interactive then .inspect else .probe) s = .next t
        ∧ TablesFailed { s with freeCount := s.freeCount + 1 } slot (BitVec.ofNat 8 check) u
        ∧ Answered u f 224 (List.replicate 64 0#8) (some .tableRead) t)
    ∧ ∀ (timeout : Bool) (failing : List Access), (∀ x ∈ failing, x.isTableRead = true) →
      (∀ slot check, s.findings failing (s.chain f.chain).cursor q f.evalTime = .error (.table slot check) →
        ∃ u t, exec (accessFailed timeout .work failing) s = .next t
          ∧ TablesFailed { s with freeCount := s.freeCount + 1 } slot (BitVec.ofNat 8 check) u
          ∧ Answered u f 224 (List.replicate 64 0#8) (some .tableRead) t)
      ∧ (s.findings failing (s.chain f.chain).cursor q f.evalTime
            = s.findings [] (s.chain f.chain).cursor q f.evalTime
          ∨ ∃ slot a, .tableRead slot a ∈ failing
            ∧ s.findings failing (s.chain f.chain).cursor q f.evalTime = .error (.table slot 15))
      ∧ (∀ issuer first profile o, o < 2 →
          readTokenHeader (fun i => s.slipByte [] (s.chain f.chain).cursor (imageAt + i)) q.length
            = .ok (issuer, some first) →
          s.profileOf issuer = some profile → .tableRead issuer (profile + o) ∈ failing →
          s.findings failing (s.chain f.chain).cursor q f.evalTime = .error (.table issuer 15))

/-- R87: the verdict is the highest whose condition holds, and has the code of R87. The amount written equals the total
(R94); the reason is the first of the cause set in reason order, 0 for an empty set (R88). -/
def Obligations.HighestVerdictDecides : Prop :=
  ∀ (causes : List Cause) (suspicion : Bool) (total : Nat) (notes : List Note),
    let v := verdictFor causes suspicion total notes
    (causes ≠ [] → v = .invalid) ∧ (causes = [] → suspicion = true → v = .challenge)
    ∧ (causes = [] → suspicion = false → 0 < total → v = .excess)
    ∧ (causes = [] → suspicion = false → total = 0 → notes ≠ [] → v = .noted)
    ∧ (causes = [] → suspicion = false → total = 0 → notes = [] → v = .valid)
    ∧ amountFor v total = total
    ∧ (Verdict.invalid.code = 5 ∧ Verdict.challenge.code = 4 ∧ Verdict.excess.code = 3 ∧ Verdict.noted.code = 2
      ∧ Verdict.valid.code = 1)
    ∧ (causes = [] → reasonCode causes = 0)
    ∧ ∀ c ∈ causes, (∀ d ∈ causes, c.code ≤ d.code) → reasonCode causes = c.code

/-- A token header is malformed unless the issuer is 0 to 15, the version 1, and the first element's header lies
inside the token, at 3 or beyond (R37). -/
def Obligations.TokenHeaderIsChecked : Prop :=
  ∀ (image : Nat → Byte) (length : Nat),
    readTokenHeader (fun i => some (image i)) length = .ok (image 0,
      if (image 0).toNat ≤ 15 ∧ image 1 = 1#8 ∧ 3 ≤ (image 2).toNat ∧ (image 2).toNat + 3 ≤ length then
        some (image 2).toNat
      else none)

/-- A section is covered when the token has no INVALID cause and its issuer claims the section in a zone the ticket
holds, or in any zone under WHOLE_NETWORK (R66, R67); its pricing network is the first of the priority list that claims it,
else the fallback (R68). -/
def Obligations.CoverageAndPricingFollowClaims : Prop :=
  (∀ (a : Assessed) (sec : RouteSection), sec.Legal →
    (a.covers sec = true ↔ a.causes = [] ∧ ∃ p z, a.product = some p ∧ { network := a.issuer, zone := z } ∈ sec.claims
      ∧ (p.coverage = 2 ∨ (p.coverage = 1 ∧ ∃ zs, a.zones = some zs ∧ z ∈ zs))))
  ∧ ∀ (t : TripContext) (sec : RouteSection),
    (∀ pre n post, t.priority = pre ++ n :: post → (∀ m ∈ pre, m ∉ sec.claims.map Claim.network) →
      n ∈ sec.claims.map Claim.network → t.pricingNetwork sec = n)
    ∧ ((∀ m ∈ t.priority, m ∉ sec.claims.map Claim.network) → t.pricingNetwork sec = t.fallback)

/-- The journey span satisfies 0 ≤ b ≤ c ≤ d ≤ N-1, its given ends are clamped as R69 and R71 state, the default
boarding section is the first of the latest run that begins at or before c, else 0, and SPAN_CLAMPED is found exactly
when a given end was adjusted (R69 to R72). -/
def Obligations.JourneySpanHoldsCurrentSection : Prop :=
  ∀ (map : List Bool) (n c b d : Nat), c < n → n ≤ 96 →
    let v := journeySpan map n c b d
    v.boarding ≤ c ∧ c ≤ v.destination ∧ v.destination ≤ n - 1
    ∧ (b ≠ 255 → v.boarding = min b c) ∧ (d = 255 → v.destination = n - 1)
    ∧ (d ≠ 255 → v.destination = min (max d c) (n - 1))
    ∧ (b = 255 → startsRun map v.boarding = true ∨ (v.boarding = 0 ∧ ∀ i ≤ c, startsRun map i = false))
    ∧ (b = 255 → ∀ i ≤ c, v.boarding < i → startsRun map i = false)
    ∧ (v.clamped = true ↔ (b ≠ 255 ∧ v.boarding ≠ b) ∨ (d ≠ 255 ∧ v.destination ≠ d))

/-- R74: the person counts. -/
def Obligations.PersonCountsSplit : Prop :=
  ∀ ta tc pa pc : Nat, ta ≤ 9 → tc ≤ 9 → pa ≤ 9 → pc ≤ 9 →
    let p := personCounts ta tc pa pc
    (p.extraAdults : Int) = max 0 ((pa : Int) - ta)
    ∧ (p.extraChildren : Int) = max 0 ((pc : Int) - tc - max 0 ((ta : Int) - pa))
    ∧ p.coveredAdults + p.extraAdults = pa ∧ p.coveredChildren + p.extraChildren = pc
    ∧ p.adults = pa ∧ p.children = pc
    ∧ p.extraAdults ≤ 9 ∧ p.extraChildren ≤ 9 ∧ p.coveredAdults ≤ 9 ∧ p.coveredChildren ≤ 9

/-- No stage of the fare arithmetic overflows 48 bits on values in range: the amount is the exact one of R76 to R79,
with F3 and R in the bounds of R78 and R80, whatever the free values are. -/
def Obligations.FareArithmeticIsExact : Prop :=
  ∀ (fc : Nat) (g : Pricing) (b : Band) (d k a ch : Nat), b.base ≤ 999999 → b.rate ≤ 65535 → b.lower ≤ d →
    d ≤ 393120 → k ≤ 250 → a ≤ 9 → ch ≤ 9 → g.childPercent ≤ 100 → 1 ≤ g.unit → g.unit ≤ 1000 →
    let f1 := b.base * 1000 + (d - b.lower) * b.rate
    let f2 := f1 * k / 100
    let f3 := f2 * a + f2 * ch * g.childPercent / 100
    let r := bandAmount fc g b d k a ch
    r.value = (f3 + 500 * g.unit) / (1000 * g.unit) * g.unit ∧ r.rounded = decide (r.value * 1000 ≠ f3)
    ∧ f1 ≤ 26763118200 ∧ f2 ≤ 66907795500 ∧ f3 ≤ 1204340319000 ∧ r.value ≤ 1204341000

/-- The class line is never negative: the amount at a higher percent is never below the amount at a lower (R80, R83). -/
def Obligations.ClassLineIsNeverNegative : Prop :=
  ∀ (fc : Nat) (g : Pricing) (b : Band) (d k1 k2 a ch : Nat), b.base ≤ 999999 → b.rate ≤ 65535 → b.lower ≤ d →
    d ≤ 393120 → k1 ≤ k2 → k2 ≤ 250 → a ≤ 9 → ch ≤ 9 → g.childPercent ≤ 100 → 1 ≤ g.unit → g.unit ≤ 1000 →
    (bandAmount fc g b d k1 a ch).value ≤ (bandAmount fc g b d k2 a ch).value

/-- The cap acts on the total alone; the surcharge is added once, from the first uncovered section's network, when the
passenger is not self-declared and some uncovered line is nonzero (R84, R85). -/
def Obligations.TotalIsCappedSum : Prop :=
  ∀ (cap : Nat) (span : Span) (legs : List Leg) (p : Persons) (selfDeclared : Nat) (lines : List NetworkLines),
    let r := totalOf cap span legs p selfDeclared lines
    let t := r.uncoveredSum + r.extraSum + r.classSum + r.surcharge
    r.total = (if cap < t then cap else t) ∧ (r.capped = true ↔ cap < t)
    ∧ r.uncoveredSum = (lines.map NetworkLines.uncovered).sum ∧ r.extraSum = (lines.map NetworkLines.extra).sum
    ∧ r.classSum = (lines.map NetworkLines.class_).sum
    ∧ (r.surcharged = true ↔ selfDeclared = 0 ∧ ∃ n ∈ lines, n.uncovered ≠ 0)
    ∧ (r.surcharged = false → r.surcharge = 0)
    ∧ (∀ n, r.surcharged = true → (legs.find? (fun l => !l.covered)).map Leg.network = some n →
        ∀ pre x post, lines = pre ++ x :: post → (∀ y ∈ pre, y.network ≠ n) → x.network = n →
        r.surcharge = x.surcharge)

/-! ### Journal -/

/-- An own insertion evicts the oldest entry of a full journal, advances the own entry counter from 65,535 to 1,
counts the open windows down, joins the new entry with its window at full reach and raises the own inspection count
(R104, R106, R107, R108, R120, R121). -/
def Obligations.OwnInsertionInOrder : Prop :=
  ∀ (s : State) (o : OwnSighting), Inv s →
    let t := s.insertOwn o
    let number := if s.journal.ownCounter = 65535#16 then 1#16 else s.journal.ownCounter + 1#16
    let kept := if s.journal.entries.length = 256 then s.journal.entries.tail else s.journal.entries
    t.journal.ownCounter = number
    ∧ t.journal.entries = kept.map (fun e => { e with window :=
        match e.window with
        | none => none
        | some w => if w.count.toNat ≤ 1 then none else some { w with count := w.count - 1#8 } })
      ++ [{ originId := s.trip.ownId, originNumber := number, issuer := o.issuer, serial := o.serial,
            section_ := s.trip.current, time := o.time, adults := o.adults, children := o.children,
            verdict := o.verdict, outcome := .none,
            window := some { count := s.trip.reachCount, minutes := s.trip.reachMinutes } }]
    ∧ (s.journal.entries.length < 256 → t.events = s.events ∧ t.journal.wrapped = s.journal.wrapped
        ∧ t.journal.evictedThrough = s.journal.evictedThrough)
    ∧ (∀ e rest, s.journal.entries = e :: rest → s.journal.entries.length = 256 →
        t.journal.wrapped = true
        ∧ t.journal.evictedThrough.toNat = max s.journal.evictedThrough.toNat e.time.toNat
        ∧ t.events = (if s.journal.wrapped then s.events else s.events ||| Event.journalWrap.mask))
    ∧ t.trip = { s.trip with ownCount := t.trip.ownCount }
    ∧ t.trip.ownCount.toNat
        = (if s.trip.ownCount.toNat = 4294967295 then 4294967295 else s.trip.ownCount.toNat + 1)
    ∧ t = { s with journal := t.journal, trip := t.trip, events := t.events }

/-- The prior sighting is the latest entry of the key that is not VOIDED, and it gives RESEEN, RESEEN_PEER or a
suspicion as R110 states; PARTIAL_HISTORY and the reported fields follow R111 and R98 (R109 to R112). -/
def Obligations.PassbackSearchFindings : Prop :=
  ∀ (s : State) (issuer : Byte) (serial : Serial) (t : Word) (resolves : Bool),
    let r := s.passbackSearch issuer serial t resolves
    let partialNote := s.journal.wrapped = true
      ∧ (t.toNat : Int) - s.trip.horizon.toNat ≤ s.journal.evictedThrough.toNat
    let sighted := fun e : Entry => e.issuer = issuer ∧ e.serial = serial ∧ e.outcome ≠ .voided
    (.partialHistory ∈ r.notes ↔ partialNote)
    ∧ ((∀ e ∈ s.journal.entries, ¬ sighted e) → r.suspicion = false ∧ .reseen ∉ r.notes ∧ .reseenPeer ∉ r.notes
        ∧ r.priorId = 0 ∧ r.priorNumber = 0 ∧ r.minutes = 0)
    ∧ ∀ pre e post, s.journal.entries = pre ++ e :: post → sighted e → (∀ x ∈ post, ¬ sighted x) →
      let m := t.toNat - e.time.toNat
      let peerSuspect := e.originId ≠ s.trip.ownId ∧ 1 ≤ s.trip.horizon.toNat ∧ m ≤ s.trip.horizon.toNat
        ∧ resolves = false
      (r.priorId = e.originId.toNat ∧ r.priorNumber = e.originNumber.toNat ∧ r.minutes = m)
      ∧ (.reseen ∈ r.notes ↔ e.originId = s.trip.ownId) ∧ (r.suspicion = true ↔ peerSuspect)
      ∧ (.reseenPeer ∈ r.notes ↔ e.originId ≠ s.trip.ownId ∧ ¬ peerSuspect)

/-- An accepted AMEND sets the outcome of the own entry it names and closes its window, changes nothing else in the
journal, and is answered DONE with the window as held (R125, R126, R127). -/
def Obligations.AmendSetsOutcome : Prop :=
  ∀ (s : State) (f : InFlight) (n : Nat) (code : Nat) (o : Outcome) (e : Entry) (w : Window), Working s kindAmend f →
    s.trip.state = .inTrip → readAmendRequest (s.slipByte [] (s.chain f.chain).cursor) = some (n, code) →
    1 ≤ n → o.code = code → o ≠ .none →
    s.journal.entryOf s.trip.ownId (BitVec.ofNat 16 n) = some e → e.window = some w →
    (o = .voided ∨ (o = .confirmed ∧ e.verdict = .challenge)
      ∨ ((o = .settled ∨ o = .waived) ∧ (e.verdict = .invalid ∨ e.verdict = .challenge ∨ e.verdict = .excess))) →
    ∃ t, exec .amend s = .next t
      ∧ Answered { s with journal := { s.journal with entries := s.journal.entries.map (fun x =>
            if x.originId = s.trip.ownId ∧ x.originNumber = BitVec.ofNat 16 n then
              { x with outcome := o, window := none } else x) } } f 32
          [byteOf e.verdict.code, byteOf code, w.count, w.minutes] none t

/-- The refusals of an AMEND, in the order of R125, with the results of R127; nothing else changes. -/
def Obligations.AmendRefusals : Prop :=
  ∀ (s : State) (f : InFlight), Working s kindAmend f →
    (s.trip.state = .noTrip → ∃ t, exec .amend s = .next t ∧ Answered s f 32 [0#8, 0#8, 0#8, 0#8] (some .noTrip) t)
    ∧ ∀ n code, s.trip.state = .inTrip →
      readAmendRequest (s.slipByte [] (s.chain f.chain).cursor) = some (n, code) →
      (n = 0 ∨ code = 0 ∨ 4 < code → ∃ t, exec .amend s = .next t
        ∧ Answered s f 32 [0#8, 0#8, 0#8, 0#8] (some .badField) t)
      ∧ (1 ≤ n → 1 ≤ code → code ≤ 4 → s.journal.entryOf s.trip.ownId (BitVec.ofNat 16 n) = none →
        ∃ t, exec .amend s = .next t ∧ Answered s f 32 [0#8, 0#8, 0#8, 0#8] (some .notFound) t)
      ∧ (∀ e, 1 ≤ n → 1 ≤ code → code ≤ 4 → s.journal.entryOf s.trip.ownId (BitVec.ofNat 16 n) = some e →
        (e.window = none → ∃ t, exec .amend s = .next t
          ∧ Answered s f 32 [byteOf e.verdict.code, byteOf e.outcome.code, 0#8, 0#8] (some .late) t)
        ∧ (∀ w, e.window = some w →
          (code = 3 ∧ e.verdict ≠ .challenge) ∨ (code ≤ 2 ∧ (e.verdict = .noted ∨ e.verdict = .valid)) →
          ∃ t, exec .amend s = .next t
            ∧ Answered s f 32 [byteOf e.verdict.code, 0#8, w.count, w.minutes] (some .notAmendable) t))

/-- One merged record: rejected by R114, a duplicate or an update of a held pair by R115, else inserted as a peer entry
with persons 0 and no window after any eviction, which raises the evicted-through time and sets the wrap flag, with
JOURNAL_WRAP at the first of the trip; nothing but journal and EVENTS changes (R108, R114, R115, R116). -/
def Obligations.MergeRecordClasses : Prop :=
  ∀ (s : State) (p : PeerRecord), Inv s → s.trip.state = .inTrip → p.originNumber < 65536 →
    let bad := p.originId = 0 ∨ 63 < p.originId ∨ p.originId = s.trip.ownId.toNat ∨ p.originNumber = 0
      ∨ s.trip.plan.length ≤ p.section_ ∨ 15 < p.issuer ∨ p.verdict = 0 ∨ 5 < p.verdict ∨ 4 < p.outcome
    let held := s.journal.entryOf (BitVec.ofNat 8 p.originId) (BitVec.ofNat 16 p.originNumber)
    (bad → s.classify p = .rejected ∧ s.mergeRecord p = s)
    ∧ (∀ e, ¬ bad → held = some e → (e.outcome ≠ .none ∨ p.outcome = 0) →
        s.classify p = .duplicate ∧ s.mergeRecord p = s)
    ∧ (∀ e o, ¬ bad → held = some e → e.outcome = .none → o.code = p.outcome → o ≠ .none →
        s.classify p = .updated o
        ∧ s.mergeRecord p = { s with journal := { s.journal with entries := s.journal.entries.map (fun x =>
            if x.originId.toNat = p.originId ∧ x.originNumber.toNat = p.originNumber then { x with outcome := o }
            else x) } })
    ∧ (∀ v o, ¬ bad → held = none → v.code = p.verdict → o.code = p.outcome →
        s.classify p = .accepted v o
        ∧ (s.mergeRecord p).journal.entries
          = (if s.journal.entries.length = 256 then s.journal.entries.tail else s.journal.entries)
            ++ [{ originId := BitVec.ofNat 8 p.originId, originNumber := BitVec.ofNat 16 p.originNumber,
                  issuer := BitVec.ofNat 8 p.issuer, serial := BitVec.ofNat 64 p.serial,
                  section_ := BitVec.ofNat 8 p.section_, time := BitVec.ofNat 32 p.time, adults := 0#8,
                  children := 0#8, verdict := v, outcome := o, window := none }]
        ∧ (s.mergeRecord p).journal.ownCounter = s.journal.ownCounter
        ∧ (s.journal.entries.length < 256 → (s.mergeRecord p).events = s.events
          ∧ (s.mergeRecord p).journal.wrapped = s.journal.wrapped
          ∧ (s.mergeRecord p).journal.evictedThrough = s.journal.evictedThrough)
        ∧ (∀ e rest, s.journal.entries = e :: rest → s.journal.entries.length = 256 →
          (s.mergeRecord p).journal.wrapped = true
          ∧ (s.mergeRecord p).journal.evictedThrough.toNat = max s.journal.evictedThrough.toNat e.time.toNat
          ∧ (s.mergeRecord p).events
            = (if s.journal.wrapped then s.events else s.events ||| Event.journalWrap.mask))
        ∧ s.mergeRecord p = { s with journal := (s.mergeRecord p).journal, events := (s.mergeRecord p).events })

/-- A MERGE in IN_TRIP with 1 to 16 records takes them in order, each counted in the one count its class
gives it against the journal as the records before it left it, and is answered DONE with the four counts, whose sum is
the record count; with another count it is refused with BAD_FIELD, in NO_TRIP with NO_TRIP, four counts of 0 and nothing
else changed (R113, R114, R117). -/
def Obligations.MergeAnswersItsCounts : Prop :=
  ∀ (s : State) (f : InFlight), Inv s → Working s kindMerge f →
    (s.trip.state = .noTrip → ∃ t, exec .merge s = .next t ∧ Answered s f 352 (List.replicate 8 0#8) (some .noTrip) t)
    ∧ ∀ n, s.trip.state = .inTrip → n = (Memory.read s.mem (s.slipOf f + 16)).toNat →
      (n = 0 ∨ 16 < n → ∃ t, exec .merge s = .next t ∧ Answered s f 352 (List.replicate 8 0#8) (some .badField) t)
      ∧ (1 ≤ n → n ≤ 16 → ∃ (records : List PeerRecord) (k : MergeCounts) (u t : State), exec .merge s = .next t
          ∧ records.length = n
          ∧ (∀ i, i < n →
              readPeerRecord (s.slipByte [] (s.chain f.chain).cursor) (32 + 20 * i) = records[i]?)
          ∧ (u, k) = records.foldl (fun x p => (x.1.mergeRecord p, x.2.add (x.1.classify p)))
              (s, { accepted := 0, duplicate := 0, updated := 0, rejected := 0 })
          ∧ k.accepted + k.duplicate + k.updated + k.rejected = n
          ∧ Answered u f 352 ([byteOf k.accepted, byteOf k.duplicate, byteOf k.updated, byteOf k.rejected]
              ++ List.replicate 4 0#8) none t)

/-- A RECALL in IN_TRIP is answered DONE with the match count and the newest eight matches, newest first, VOIDED ones
included, the unused places 0; in NO_TRIP it is refused; the journal stands (R118). -/
def Obligations.RecallReturnsNewestMatches : Prop :=
  ∀ (s : State) (f : InFlight), Working s kindRecall f →
    (s.trip.state = .noTrip → ∃ t, exec .recallEntries s = .next t
      ∧ Answered s f 32 (List.replicate 196 0#8) (some .noTrip) t)
    ∧ ∀ issuer serial, s.trip.state = .inTrip →
      readRecallRequest (s.slipByte [] (s.chain f.chain).cursor) = some (issuer, serial) →
      let found := (s.journal.entries.filter (fun e =>
        decide (e.issuer = byteOf issuer ∧ e.serial = BitVec.ofNat 64 serial))).reverse
      ∃ t, exec .recallEntries s = .next t
        ∧ Answered s f 32 (leBytes 2 found.length ++ [0#8, 0#8] ++ (found.take 8).flatMap placeBytes
            ++ List.replicate (192 - 24 * (found.take 8).length) 0#8) none t

end
end

