-- ==== Sys2Proof/Laws/State.lean ====
section
/-!
SUPPORT. Sys2Proof/Laws/State.lean: what each shared update of the state leaves unchanged, field by field, and what it
sets. Every frame lemma is a conjunction of field equations, so simp uses each of them.
-/
namespace Sys2Proof.Machine

/-- Raising an event changes EVENTS alone. -/
@[simp] theorem State.raise_frame (e : Event) (s : State) :
    (s.raise e).part = s.part ∧ (s.raise e).anchor = s.anchor ∧ (s.raise e).windows = s.windows ∧
    (s.raise e).holdReq = s.holdReq ∧ (s.raise e).restPending = s.restPending ∧ (s.raise e).enable = s.enable ∧
    (s.raise e).faultRecord = s.faultRecord ∧ (s.raise e).faultMore = s.faultMore ∧
    (s.raise e).readData = s.readData ∧ (s.raise e).resetHeld = s.resetHeld ∧
    (s.raise e).interactive = s.interactive ∧ (s.raise e).background = s.background ∧
    (s.raise e).inFlight = s.inFlight ∧ (s.raise e).examining = s.examining ∧
    (s.raise e).phaseTable = s.phaseTable ∧ (s.raise e).phase = s.phase ∧ (s.raise e).tables = s.tables ∧
    (s.raise e).snapshot = s.snapshot ∧ (s.raise e).trip = s.trip ∧ (s.raise e).clock = s.clock ∧
    (s.raise e).clockRunning = s.clockRunning ∧ (s.raise e).journal = s.journal ∧ (s.raise e).mem = s.mem ∧
    (s.raise e).freeCount = s.freeCount ∧ (s.raise e).pending = s.pending :=
  ⟨rfl, rfl, rfl, rfl, rfl, rfl, rfl, rfl, rfl, rfl, rfl, rfl, rfl, rfl, rfl, rfl, rfl, rfl, rfl, rfl, rfl, rfl,
    rfl, rfl, rfl⟩

@[simp] theorem State.raise_events (e : Event) (s : State) : (s.raise e).events = s.events ||| e.mask := rfl

/-- Offering a fault changes the FAULT record alone. -/
@[simp] theorem State.offerFault_frame (d : FaultDetail) (s : State) :
    (s.offerFault d).part = s.part ∧ (s.offerFault d).anchor = s.anchor ∧ (s.offerFault d).windows = s.windows ∧
    (s.offerFault d).holdReq = s.holdReq ∧ (s.offerFault d).restPending = s.restPending ∧
    (s.offerFault d).events = s.events ∧ (s.offerFault d).enable = s.enable ∧
    (s.offerFault d).readData = s.readData ∧ (s.offerFault d).resetHeld = s.resetHeld ∧
    (s.offerFault d).interactive = s.interactive ∧ (s.offerFault d).background = s.background ∧
    (s.offerFault d).inFlight = s.inFlight ∧ (s.offerFault d).examining = s.examining ∧
    (s.offerFault d).phaseTable = s.phaseTable ∧ (s.offerFault d).phase = s.phase ∧
    (s.offerFault d).tables = s.tables ∧ (s.offerFault d).snapshot = s.snapshot ∧ (s.offerFault d).trip = s.trip ∧
    (s.offerFault d).clock = s.clock ∧ (s.offerFault d).clockRunning = s.clockRunning ∧
    (s.offerFault d).journal = s.journal ∧ (s.offerFault d).mem = s.mem ∧
    (s.offerFault d).freeCount = s.freeCount ∧ (s.offerFault d).pending = s.pending := by
  unfold State.offerFault; cases s.faultRecord <;> simp

/-- An empty record captures the fault with MORE clear (R163). -/
theorem State.offerFault_empty (d : FaultDetail) (s : State) (h : s.faultRecord = none) :
    (s.offerFault d).faultRecord = some d ∧ (s.offerFault d).faultMore = false := by
  simp [State.offerFault, h]

/-- A held fault stays and MORE is set (R163). -/
theorem State.offerFault_full (d e : FaultDetail) (s : State) (h : s.faultRecord = some e) :
    (s.offerFault d).faultRecord = some e ∧ (s.offerFault d).faultMore = true := by
  simp [State.offerFault, h]

/-- After an offer the record holds a fault. -/
@[simp] theorem State.offerFault_ne_none (d : FaultDetail) (s : State) : (s.offerFault d).faultRecord ≠ none := by
  unfold State.offerFault; cases h : s.faultRecord <;> simp_all

/-- A table fault changes the table access state, EVENTS and the FAULT record. -/
@[simp] theorem State.tableFault_frame (slot : Byte) (check : Nat) (s : State) :
    (s.tableFault slot check).part = s.part ∧ (s.tableFault slot check).anchor = s.anchor ∧
    (s.tableFault slot check).windows = s.windows ∧ (s.tableFault slot check).holdReq = s.holdReq ∧
    (s.tableFault slot check).restPending = s.restPending ∧ (s.tableFault slot check).enable = s.enable ∧
    (s.tableFault slot check).readData = s.readData ∧ (s.tableFault slot check).resetHeld = s.resetHeld ∧
    (s.tableFault slot check).interactive = s.interactive ∧ (s.tableFault slot check).background = s.background ∧
    (s.tableFault slot check).inFlight = s.inFlight ∧ (s.tableFault slot check).examining = s.examining ∧
    (s.tableFault slot check).phaseTable = s.phaseTable ∧ (s.tableFault slot check).phase = s.phase ∧
    (s.tableFault slot check).snapshot = s.snapshot ∧ (s.tableFault slot check).trip = s.trip ∧
    (s.tableFault slot check).clock = s.clock ∧ (s.tableFault slot check).clockRunning = s.clockRunning ∧
    (s.tableFault slot check).journal = s.journal ∧ (s.tableFault slot check).mem = s.mem ∧
    (s.tableFault slot check).freeCount = s.freeCount ∧ (s.tableFault slot check).pending = s.pending := by
  simp [State.tableFault]

@[simp] theorem State.tableFault_tables (slot : Byte) (check : Nat) (s : State) :
    (s.tableFault slot check).tables = .unusable := by simp [State.tableFault]

@[simp] theorem State.tableFault_faultRecord (slot : Byte) (check : Nat) (s : State) :
    (s.tableFault slot check).faultRecord ≠ none := by simp [State.tableFault]

@[simp] theorem State.tableFault_events (slot : Byte) (check : Nat) (s : State) :
    (s.tableFault slot check).events = s.events ||| Event.tableFault.mask := by simp [State.tableFault]

/-- Replacing a chain record changes the two chain fields alone. -/
@[simp] theorem State.setChain_frame (c : Chain) (r : ChainRec) (s : State) :
    (s.setChain c r).part = s.part ∧ (s.setChain c r).anchor = s.anchor ∧ (s.setChain c r).windows = s.windows ∧
    (s.setChain c r).holdReq = s.holdReq ∧ (s.setChain c r).restPending = s.restPending ∧
    (s.setChain c r).events = s.events ∧ (s.setChain c r).enable = s.enable ∧
    (s.setChain c r).faultRecord = s.faultRecord ∧ (s.setChain c r).faultMore = s.faultMore ∧
    (s.setChain c r).readData = s.readData ∧ (s.setChain c r).resetHeld = s.resetHeld ∧
    (s.setChain c r).inFlight = s.inFlight ∧ (s.setChain c r).examining = s.examining ∧
    (s.setChain c r).phaseTable = s.phaseTable ∧ (s.setChain c r).phase = s.phase ∧
    (s.setChain c r).tables = s.tables ∧ (s.setChain c r).snapshot = s.snapshot ∧ (s.setChain c r).trip = s.trip ∧
    (s.setChain c r).clock = s.clock ∧ (s.setChain c r).clockRunning = s.clockRunning ∧
    (s.setChain c r).journal = s.journal ∧ (s.setChain c r).mem = s.mem ∧
    (s.setChain c r).freeCount = s.freeCount ∧ (s.setChain c r).pending = s.pending := by
  cases c <;> simp [State.setChain]

@[simp] theorem State.setChain_chain_same (c : Chain) (r : ChainRec) (s : State) : (s.setChain c r).chain c = r := by
  cases c <;> rfl

@[simp] theorem State.setChain_chain_other (c : Chain) (r : ChainRec) (s : State) :
    (s.setChain c r).chain (otherChain c) = s.chain (otherChain c) := by
  cases c <;> rfl

/-- The record of a chain after a replacement. -/
theorem State.setChain_chain (c d : Chain) (r : ChainRec) (s : State) :
    (s.setChain c r).chain d = if d = c then r else s.chain d := by
  cases c <;> cases d <;> simp [State.setChain, State.chain]

theorem State.setChain_interactive (c : Chain) (r : ChainRec) (s : State) :
    (s.setChain c r).interactive = if c = .interactive then r else s.interactive := by
  cases c <;> simp [State.setChain]

theorem State.setChain_background (c : Chain) (r : ChainRec) (s : State) :
    (s.setChain c r).background = if c = .background then r else s.background := by
  cases c <;> simp [State.setChain]

/-- A chain's record depends on the two chain fields alone. -/
theorem State.chain_congr {s t : State} (hi : t.interactive = s.interactive) (hb : t.background = s.background)
    (c : Chain) : t.chain c = s.chain c := by
  cases c <;> simp [State.chain, hi, hb]

/-- A chain fault changes the chain's record, EVENTS and the FAULT record. -/
@[simp] theorem State.breakChain_frame (c : Chain) (l : Link) (s : State) :
    (s.breakChain c l).part = s.part ∧ (s.breakChain c l).anchor = s.anchor ∧
    (s.breakChain c l).windows = s.windows ∧ (s.breakChain c l).holdReq = s.holdReq ∧
    (s.breakChain c l).restPending = s.restPending ∧ (s.breakChain c l).enable = s.enable ∧
    (s.breakChain c l).readData = s.readData ∧ (s.breakChain c l).resetHeld = s.resetHeld ∧
    (s.breakChain c l).inFlight = s.inFlight ∧ (s.breakChain c l).examining = s.examining ∧
    (s.breakChain c l).phaseTable = s.phaseTable ∧ (s.breakChain c l).phase = s.phase ∧
    (s.breakChain c l).tables = s.tables ∧ (s.breakChain c l).snapshot = s.snapshot ∧
    (s.breakChain c l).trip = s.trip ∧ (s.breakChain c l).clock = s.clock ∧
    (s.breakChain c l).clockRunning = s.clockRunning ∧ (s.breakChain c l).journal = s.journal ∧
    (s.breakChain c l).mem = s.mem ∧ (s.breakChain c l).freeCount = s.freeCount ∧
    (s.breakChain c l).pending = s.pending := by
  simp [State.breakChain]

theorem State.breakChain_chain (c d : Chain) (l : Link) (s : State) :
    (s.breakChain c l).chain d = if d = c then .broken else s.chain d := by
  cases c <;> cases d <;> simp [State.breakChain, State.chain, State.setChain, State.raise]

@[simp] theorem State.breakChain_events (c : Chain) (l : Link) (s : State) :
    (s.breakChain c l).events = s.events ||| Event.chainFault.mask := by simp [State.breakChain]

@[simp] theorem State.breakChain_faultRecord (c : Chain) (l : Link) (s : State) :
    (s.breakChain c l).faultRecord ≠ none := by simp [State.breakChain]

/-- The end of a slip on an access error changes the chain's record, the slip in flight, EVENTS and the FAULT record. -/
@[simp] theorem State.endOnFault_frame (f : InFlight) (s : State) :
    (s.endOnFault f).part = s.part ∧ (s.endOnFault f).anchor = s.anchor ∧ (s.endOnFault f).windows = s.windows ∧
    (s.endOnFault f).holdReq = s.holdReq ∧ (s.endOnFault f).restPending = s.restPending ∧
    (s.endOnFault f).enable = s.enable ∧ (s.endOnFault f).readData = s.readData ∧
    (s.endOnFault f).resetHeld = s.resetHeld ∧ (s.endOnFault f).examining = s.examining ∧
    (s.endOnFault f).phaseTable = s.phaseTable ∧ (s.endOnFault f).phase = s.phase ∧
    (s.endOnFault f).tables = s.tables ∧ (s.endOnFault f).snapshot = s.snapshot ∧ (s.endOnFault f).trip = s.trip ∧
    (s.endOnFault f).clock = s.clock ∧ (s.endOnFault f).clockRunning = s.clockRunning ∧
    (s.endOnFault f).journal = s.journal ∧ (s.endOnFault f).mem = s.mem ∧
    (s.endOnFault f).freeCount = s.freeCount ∧ (s.endOnFault f).pending = s.pending := by
  simp [State.endOnFault]

@[simp] theorem State.endOnFault_inFlight (f : InFlight) (s : State) : (s.endOnFault f).inFlight = none := by
  simp [State.endOnFault]

theorem State.endOnFault_chain (f : InFlight) (d : Chain) (s : State) :
    (s.endOnFault f).chain d = if d = f.chain then .broken else s.chain d := by
  simp only [State.endOnFault, State.breakChain_chain]
  rfl

@[simp] theorem State.endOnFault_faultRecord (f : InFlight) (s : State) : (s.endOnFault f).faultRecord ≠ none := by
  simp [State.endOnFault]

/-- Taking a head changes what a chain fault changes at most. -/
@[simp] theorem State.setHead_frame (c : Chain) (h : Link) (s : State) :
    (s.setHead c h).part = s.part ∧ (s.setHead c h).anchor = s.anchor ∧ (s.setHead c h).windows = s.windows ∧
    (s.setHead c h).holdReq = s.holdReq ∧ (s.setHead c h).restPending = s.restPending ∧
    (s.setHead c h).enable = s.enable ∧ (s.setHead c h).readData = s.readData ∧
    (s.setHead c h).resetHeld = s.resetHeld ∧ (s.setHead c h).inFlight = s.inFlight ∧
    (s.setHead c h).examining = s.examining ∧ (s.setHead c h).phaseTable = s.phaseTable ∧
    (s.setHead c h).phase = s.phase ∧ (s.setHead c h).tables = s.tables ∧ (s.setHead c h).snapshot = s.snapshot ∧
    (s.setHead c h).trip = s.trip ∧ (s.setHead c h).clock = s.clock ∧
    (s.setHead c h).clockRunning = s.clockRunning ∧ (s.setHead c h).journal = s.journal ∧
    (s.setHead c h).mem = s.mem ∧ (s.setHead c h).freeCount = s.freeCount ∧ (s.setHead c h).pending = s.pending := by
  unfold State.setHead; split_ifs <;> simp

/-- A restart's head read changes what a chain fault changes at most. -/
@[simp] theorem State.takeHead_frame (failing : List Access) (c : Chain) (s : State) :
    (s.takeHead failing c).part = s.part ∧ (s.takeHead failing c).anchor = s.anchor ∧
    (s.takeHead failing c).windows = s.windows ∧ (s.takeHead failing c).holdReq = s.holdReq ∧
    (s.takeHead failing c).restPending = s.restPending ∧ (s.takeHead failing c).enable = s.enable ∧
    (s.takeHead failing c).readData = s.readData ∧ (s.takeHead failing c).resetHeld = s.resetHeld ∧
    (s.takeHead failing c).inFlight = s.inFlight ∧ (s.takeHead failing c).examining = s.examining ∧
    (s.takeHead failing c).phaseTable = s.phaseTable ∧ (s.takeHead failing c).phase = s.phase ∧
    (s.takeHead failing c).tables = s.tables ∧ (s.takeHead failing c).snapshot = s.snapshot ∧
    (s.takeHead failing c).trip = s.trip ∧ (s.takeHead failing c).clock = s.clock ∧
    (s.takeHead failing c).clockRunning = s.clockRunning ∧ (s.takeHead failing c).journal = s.journal ∧
    (s.takeHead failing c).mem = s.mem ∧ (s.takeHead failing c).freeCount = s.freeCount ∧
    (s.takeHead failing c).pending = s.pending := by
  unfold State.takeHead; split <;> simp

/-- An answer changes memory, the slip in flight and EVENTS, or what the end of a slip on an access error changes. -/
@[simp] theorem State.answer_frame (failing : List Access) (f : InFlight) (n : Nat) (bs : List Byte) (r : Option Reason)
    (s : State) :
    (s.answer failing f n bs r).part = s.part ∧ (s.answer failing f n bs r).anchor = s.anchor ∧
    (s.answer failing f n bs r).windows = s.windows ∧ (s.answer failing f n bs r).holdReq = s.holdReq ∧
    (s.answer failing f n bs r).restPending = s.restPending ∧ (s.answer failing f n bs r).enable = s.enable ∧
    (s.answer failing f n bs r).readData = s.readData ∧ (s.answer failing f n bs r).resetHeld = s.resetHeld ∧
    (s.answer failing f n bs r).examining = s.examining ∧ (s.answer failing f n bs r).phaseTable = s.phaseTable ∧
    (s.answer failing f n bs r).phase = s.phase ∧ (s.answer failing f n bs r).tables = s.tables ∧
    (s.answer failing f n bs r).snapshot = s.snapshot ∧ (s.answer failing f n bs r).trip = s.trip ∧
    (s.answer failing f n bs r).clock = s.clock ∧ (s.answer failing f n bs r).clockRunning = s.clockRunning ∧
    (s.answer failing f n bs r).journal = s.journal ∧ (s.answer failing f n bs r).freeCount = s.freeCount ∧
    (s.answer failing f n bs r).pending = s.pending := by
  unfold State.answer; dsimp only; split <;> simp

/-- The grant changes the table access state and EVENTS. -/
@[simp] theorem State.grant_frame (s : State) :
    (s.grant).part = s.part ∧ (s.grant).anchor = s.anchor ∧ (s.grant).windows = s.windows ∧
    (s.grant).holdReq = s.holdReq ∧ (s.grant).restPending = s.restPending ∧ (s.grant).enable = s.enable ∧
    (s.grant).faultRecord = s.faultRecord ∧ (s.grant).faultMore = s.faultMore ∧ (s.grant).readData = s.readData ∧
    (s.grant).resetHeld = s.resetHeld ∧ (s.grant).interactive = s.interactive ∧
    (s.grant).background = s.background ∧ (s.grant).inFlight = s.inFlight ∧ (s.grant).examining = s.examining ∧
    (s.grant).phaseTable = s.phaseTable ∧ (s.grant).phase = s.phase ∧ (s.grant).snapshot = s.snapshot ∧
    (s.grant).trip = s.trip ∧ (s.grant).clock = s.clock ∧ (s.grant).clockRunning = s.clockRunning ∧
    (s.grant).journal = s.journal ∧ (s.grant).mem = s.mem ∧ (s.grant).freeCount = s.freeCount ∧
    (s.grant).pending = s.pending :=
  ⟨rfl, rfl, rfl, rfl, rfl, rfl, rfl, rfl, rfl, rfl, rfl, rfl, rfl, rfl, rfl, rfl, rfl, rfl, rfl, rfl, rfl, rfl,
    rfl, rfl⟩

@[simp] theorem State.grant_tables (s : State) : s.grant.tables = .held := rfl

/-- A grant, if it comes, changes the table access state and EVENTS. -/
@[simp] theorem State.grantIfFree_frame (s : State) :
    (s.grantIfFree).part = s.part ∧ (s.grantIfFree).anchor = s.anchor ∧ (s.grantIfFree).windows = s.windows ∧
    (s.grantIfFree).holdReq = s.holdReq ∧ (s.grantIfFree).restPending = s.restPending ∧
    (s.grantIfFree).enable = s.enable ∧ (s.grantIfFree).faultRecord = s.faultRecord ∧
    (s.grantIfFree).faultMore = s.faultMore ∧ (s.grantIfFree).readData = s.readData ∧
    (s.grantIfFree).resetHeld = s.resetHeld ∧ (s.grantIfFree).interactive = s.interactive ∧
    (s.grantIfFree).background = s.background ∧ (s.grantIfFree).inFlight = s.inFlight ∧
    (s.grantIfFree).examining = s.examining ∧ (s.grantIfFree).phaseTable = s.phaseTable ∧
    (s.grantIfFree).phase = s.phase ∧ (s.grantIfFree).snapshot = s.snapshot ∧ (s.grantIfFree).trip = s.trip ∧
    (s.grantIfFree).clock = s.clock ∧ (s.grantIfFree).clockRunning = s.clockRunning ∧
    (s.grantIfFree).journal = s.journal ∧ (s.grantIfFree).mem = s.mem ∧ (s.grantIfFree).freeCount = s.freeCount ∧
    (s.grantIfFree).pending = s.pending := by
  unfold State.grantIfFree; split <;> simp

/-- The rest changes the part state, the pending flag and EVENTS. -/
@[simp] theorem State.rest_frame (s : State) :
    (s.rest).anchor = s.anchor ∧ (s.rest).windows = s.windows ∧ (s.rest).holdReq = s.holdReq ∧
    (s.rest).enable = s.enable ∧ (s.rest).faultRecord = s.faultRecord ∧ (s.rest).faultMore = s.faultMore ∧
    (s.rest).readData = s.readData ∧ (s.rest).resetHeld = s.resetHeld ∧ (s.rest).interactive = s.interactive ∧
    (s.rest).background = s.background ∧ (s.rest).inFlight = s.inFlight ∧ (s.rest).examining = s.examining ∧
    (s.rest).phaseTable = s.phaseTable ∧ (s.rest).phase = s.phase ∧ (s.rest).tables = s.tables ∧
    (s.rest).snapshot = s.snapshot ∧ (s.rest).trip = s.trip ∧ (s.rest).clock = s.clock ∧
    (s.rest).clockRunning = s.clockRunning ∧ (s.rest).journal = s.journal ∧ (s.rest).mem = s.mem ∧
    (s.rest).freeCount = s.freeCount ∧ (s.rest).pending = s.pending :=
  ⟨rfl, rfl, rfl, rfl, rfl, rfl, rfl, rfl, rfl, rfl, rfl, rfl, rfl, rfl, rfl, rfl, rfl, rfl, rfl, rfl, rfl, rfl,
    rfl⟩

@[simp] theorem State.rest_part (s : State) : s.rest.part = .resting := rfl

@[simp] theorem State.rest_restPending (s : State) : s.rest.restPending = false := rfl

/-- Changing entries changes the journal alone. -/
@[simp] theorem State.mapEntries_frame (f : Entry → Entry) (s : State) :
    (s.mapEntries f).part = s.part ∧ (s.mapEntries f).anchor = s.anchor ∧ (s.mapEntries f).windows = s.windows ∧
    (s.mapEntries f).holdReq = s.holdReq ∧ (s.mapEntries f).restPending = s.restPending ∧
    (s.mapEntries f).events = s.events ∧ (s.mapEntries f).enable = s.enable ∧
    (s.mapEntries f).faultRecord = s.faultRecord ∧ (s.mapEntries f).faultMore = s.faultMore ∧
    (s.mapEntries f).readData = s.readData ∧ (s.mapEntries f).resetHeld = s.resetHeld ∧
    (s.mapEntries f).interactive = s.interactive ∧ (s.mapEntries f).background = s.background ∧
    (s.mapEntries f).inFlight = s.inFlight ∧ (s.mapEntries f).examining = s.examining ∧
    (s.mapEntries f).phaseTable = s.phaseTable ∧ (s.mapEntries f).phase = s.phase ∧
    (s.mapEntries f).tables = s.tables ∧ (s.mapEntries f).snapshot = s.snapshot ∧ (s.mapEntries f).trip = s.trip ∧
    (s.mapEntries f).clock = s.clock ∧ (s.mapEntries f).clockRunning = s.clockRunning ∧
    (s.mapEntries f).mem = s.mem ∧ (s.mapEntries f).freeCount = s.freeCount ∧ (s.mapEntries f).pending = s.pending :=
  ⟨rfl, rfl, rfl, rfl, rfl, rfl, rfl, rfl, rfl, rfl, rfl, rfl, rfl, rfl, rfl, rfl, rfl, rfl, rfl, rfl, rfl, rfl,
    rfl, rfl, rfl⟩

/-- Changing one entry changes the journal alone. -/
@[simp] theorem State.updateEntry_frame (id : Byte) (n : Half) (f : Entry → Entry) (s : State) :
    (s.updateEntry id n f).part = s.part ∧ (s.updateEntry id n f).anchor = s.anchor ∧
    (s.updateEntry id n f).windows = s.windows ∧ (s.updateEntry id n f).holdReq = s.holdReq ∧
    (s.updateEntry id n f).restPending = s.restPending ∧ (s.updateEntry id n f).events = s.events ∧
    (s.updateEntry id n f).enable = s.enable ∧ (s.updateEntry id n f).faultRecord = s.faultRecord ∧
    (s.updateEntry id n f).faultMore = s.faultMore ∧ (s.updateEntry id n f).readData = s.readData ∧
    (s.updateEntry id n f).resetHeld = s.resetHeld ∧ (s.updateEntry id n f).interactive = s.interactive ∧
    (s.updateEntry id n f).background = s.background ∧ (s.updateEntry id n f).inFlight = s.inFlight ∧
    (s.updateEntry id n f).examining = s.examining ∧ (s.updateEntry id n f).phaseTable = s.phaseTable ∧
    (s.updateEntry id n f).phase = s.phase ∧ (s.updateEntry id n f).tables = s.tables ∧
    (s.updateEntry id n f).snapshot = s.snapshot ∧ (s.updateEntry id n f).trip = s.trip ∧
    (s.updateEntry id n f).clock = s.clock ∧ (s.updateEntry id n f).clockRunning = s.clockRunning ∧
    (s.updateEntry id n f).mem = s.mem ∧ (s.updateEntry id n f).freeCount = s.freeCount ∧
    (s.updateEntry id n f).pending = s.pending :=
  ⟨rfl, rfl, rfl, rfl, rfl, rfl, rfl, rfl, rfl, rfl, rfl, rfl, rfl, rfl, rfl, rfl, rfl, rfl, rfl, rfl, rfl, rfl,
    rfl, rfl, rfl⟩

/-- An eviction changes the journal and EVENTS. -/
@[simp] theorem State.evictOldest_frame (s : State) :
    (s.evictOldest).part = s.part ∧ (s.evictOldest).anchor = s.anchor ∧ (s.evictOldest).windows = s.windows ∧
    (s.evictOldest).holdReq = s.holdReq ∧ (s.evictOldest).restPending = s.restPending ∧
    (s.evictOldest).enable = s.enable ∧ (s.evictOldest).faultRecord = s.faultRecord ∧
    (s.evictOldest).faultMore = s.faultMore ∧ (s.evictOldest).readData = s.readData ∧
    (s.evictOldest).resetHeld = s.resetHeld ∧ (s.evictOldest).interactive = s.interactive ∧
    (s.evictOldest).background = s.background ∧ (s.evictOldest).inFlight = s.inFlight ∧
    (s.evictOldest).examining = s.examining ∧ (s.evictOldest).phaseTable = s.phaseTable ∧
    (s.evictOldest).phase = s.phase ∧ (s.evictOldest).tables = s.tables ∧ (s.evictOldest).snapshot = s.snapshot ∧
    (s.evictOldest).trip = s.trip ∧ (s.evictOldest).clock = s.clock ∧
    (s.evictOldest).clockRunning = s.clockRunning ∧ (s.evictOldest).mem = s.mem ∧
    (s.evictOldest).freeCount = s.freeCount ∧ (s.evictOldest).pending = s.pending := by
  unfold State.evictOldest; split
  · simp
  · dsimp only; split <;> simp

/-- Making room changes the journal and EVENTS. -/
@[simp] theorem State.makeRoom_frame (s : State) :
    (s.makeRoom).part = s.part ∧ (s.makeRoom).anchor = s.anchor ∧ (s.makeRoom).windows = s.windows ∧
    (s.makeRoom).holdReq = s.holdReq ∧ (s.makeRoom).restPending = s.restPending ∧ (s.makeRoom).enable = s.enable ∧
    (s.makeRoom).faultRecord = s.faultRecord ∧ (s.makeRoom).faultMore = s.faultMore ∧
    (s.makeRoom).readData = s.readData ∧ (s.makeRoom).resetHeld = s.resetHeld ∧
    (s.makeRoom).interactive = s.interactive ∧ (s.makeRoom).background = s.background ∧
    (s.makeRoom).inFlight = s.inFlight ∧ (s.makeRoom).examining = s.examining ∧
    (s.makeRoom).phaseTable = s.phaseTable ∧ (s.makeRoom).phase = s.phase ∧ (s.makeRoom).tables = s.tables ∧
    (s.makeRoom).snapshot = s.snapshot ∧ (s.makeRoom).trip = s.trip ∧ (s.makeRoom).clock = s.clock ∧
    (s.makeRoom).clockRunning = s.clockRunning ∧ (s.makeRoom).mem = s.mem ∧ (s.makeRoom).freeCount = s.freeCount ∧
    (s.makeRoom).pending = s.pending := by
  unfold State.makeRoom; split <;> simp

/-- Joining an entry changes the journal alone. -/
@[simp] theorem State.appendEntry_frame (e : Entry) (s : State) :
    (s.appendEntry e).part = s.part ∧ (s.appendEntry e).anchor = s.anchor ∧
    (s.appendEntry e).windows = s.windows ∧ (s.appendEntry e).holdReq = s.holdReq ∧
    (s.appendEntry e).restPending = s.restPending ∧ (s.appendEntry e).events = s.events ∧
    (s.appendEntry e).enable = s.enable ∧ (s.appendEntry e).faultRecord = s.faultRecord ∧
    (s.appendEntry e).faultMore = s.faultMore ∧ (s.appendEntry e).readData = s.readData ∧
    (s.appendEntry e).resetHeld = s.resetHeld ∧ (s.appendEntry e).interactive = s.interactive ∧
    (s.appendEntry e).background = s.background ∧ (s.appendEntry e).inFlight = s.inFlight ∧
    (s.appendEntry e).examining = s.examining ∧ (s.appendEntry e).phaseTable = s.phaseTable ∧
    (s.appendEntry e).phase = s.phase ∧ (s.appendEntry e).tables = s.tables ∧
    (s.appendEntry e).snapshot = s.snapshot ∧ (s.appendEntry e).trip = s.trip ∧
    (s.appendEntry e).clock = s.clock ∧ (s.appendEntry e).clockRunning = s.clockRunning ∧
    (s.appendEntry e).mem = s.mem ∧ (s.appendEntry e).freeCount = s.freeCount ∧
    (s.appendEntry e).pending = s.pending :=
  ⟨rfl, rfl, rfl, rfl, rfl, rfl, rfl, rfl, rfl, rfl, rfl, rfl, rfl, rfl, rfl, rfl, rfl, rfl, rfl, rfl, rfl, rfl,
    rfl, rfl, rfl⟩

/-- An own insertion changes the journal, EVENTS and the own inspection count. -/
@[simp] theorem State.insertOwn_frame (o : OwnSighting) (s : State) :
    (s.insertOwn o).part = s.part ∧ (s.insertOwn o).anchor = s.anchor ∧ (s.insertOwn o).windows = s.windows ∧
    (s.insertOwn o).holdReq = s.holdReq ∧ (s.insertOwn o).restPending = s.restPending ∧
    (s.insertOwn o).enable = s.enable ∧ (s.insertOwn o).faultRecord = s.faultRecord ∧
    (s.insertOwn o).faultMore = s.faultMore ∧ (s.insertOwn o).readData = s.readData ∧
    (s.insertOwn o).resetHeld = s.resetHeld ∧ (s.insertOwn o).interactive = s.interactive ∧
    (s.insertOwn o).background = s.background ∧ (s.insertOwn o).inFlight = s.inFlight ∧
    (s.insertOwn o).examining = s.examining ∧ (s.insertOwn o).phaseTable = s.phaseTable ∧
    (s.insertOwn o).phase = s.phase ∧ (s.insertOwn o).tables = s.tables ∧ (s.insertOwn o).snapshot = s.snapshot ∧
    (s.insertOwn o).clock = s.clock ∧ (s.insertOwn o).clockRunning = s.clockRunning ∧
    (s.insertOwn o).mem = s.mem ∧ (s.insertOwn o).freeCount = s.freeCount ∧ (s.insertOwn o).pending = s.pending := by
  simp [State.insertOwn]

/-- A judgement changes the clock and EVENTS. -/
@[simp] theorem State.applyJudgement_frame (j : Judgement) (r : Nat) (s : State) :
    (s.applyJudgement j r).part = s.part ∧ (s.applyJudgement j r).anchor = s.anchor ∧
    (s.applyJudgement j r).windows = s.windows ∧ (s.applyJudgement j r).holdReq = s.holdReq ∧
    (s.applyJudgement j r).restPending = s.restPending ∧ (s.applyJudgement j r).enable = s.enable ∧
    (s.applyJudgement j r).faultRecord = s.faultRecord ∧ (s.applyJudgement j r).faultMore = s.faultMore ∧
    (s.applyJudgement j r).readData = s.readData ∧ (s.applyJudgement j r).resetHeld = s.resetHeld ∧
    (s.applyJudgement j r).interactive = s.interactive ∧ (s.applyJudgement j r).background = s.background ∧
    (s.applyJudgement j r).inFlight = s.inFlight ∧ (s.applyJudgement j r).examining = s.examining ∧
    (s.applyJudgement j r).phaseTable = s.phaseTable ∧ (s.applyJudgement j r).phase = s.phase ∧
    (s.applyJudgement j r).tables = s.tables ∧ (s.applyJudgement j r).snapshot = s.snapshot ∧
    (s.applyJudgement j r).trip = s.trip ∧ (s.applyJudgement j r).clockRunning = s.clockRunning ∧
    (s.applyJudgement j r).journal = s.journal ∧ (s.applyJudgement j r).mem = s.mem ∧
    (s.applyJudgement j r).freeCount = s.freeCount ∧ (s.applyJudgement j r).pending = s.pending := by
  cases j <;> simp [State.applyJudgement]

/-- Taking a slip changes the chain's record, the slip in flight and the phase pointer. -/
@[simp] theorem State.take_frame (c : Chain) (kind : Byte) (s : State) :
    (s.take c kind).part = s.part ∧ (s.take c kind).anchor = s.anchor ∧ (s.take c kind).windows = s.windows ∧
    (s.take c kind).holdReq = s.holdReq ∧ (s.take c kind).restPending = s.restPending ∧
    (s.take c kind).events = s.events ∧ (s.take c kind).enable = s.enable ∧
    (s.take c kind).faultRecord = s.faultRecord ∧ (s.take c kind).faultMore = s.faultMore ∧
    (s.take c kind).readData = s.readData ∧ (s.take c kind).resetHeld = s.resetHeld ∧
    (s.take c kind).examining = s.examining ∧ (s.take c kind).phaseTable = s.phaseTable ∧
    (s.take c kind).tables = s.tables ∧ (s.take c kind).snapshot = s.snapshot ∧ (s.take c kind).trip = s.trip ∧
    (s.take c kind).clock = s.clock ∧ (s.take c kind).clockRunning = s.clockRunning ∧
    (s.take c kind).journal = s.journal ∧ (s.take c kind).mem = s.mem ∧ (s.take c kind).freeCount = s.freeCount ∧
    (s.take c kind).pending = s.pending := by
  cases c <;> simp [State.take, State.setChain]

/-- One merged record changes the journal and EVENTS. -/
@[simp] theorem State.mergeRecord_frame (p : PeerRecord) (s : State) :
    (s.mergeRecord p).part = s.part ∧ (s.mergeRecord p).anchor = s.anchor ∧
    (s.mergeRecord p).windows = s.windows ∧ (s.mergeRecord p).holdReq = s.holdReq ∧
    (s.mergeRecord p).restPending = s.restPending ∧ (s.mergeRecord p).enable = s.enable ∧
    (s.mergeRecord p).faultRecord = s.faultRecord ∧ (s.mergeRecord p).faultMore = s.faultMore ∧
    (s.mergeRecord p).readData = s.readData ∧ (s.mergeRecord p).resetHeld = s.resetHeld ∧
    (s.mergeRecord p).interactive = s.interactive ∧ (s.mergeRecord p).background = s.background ∧
    (s.mergeRecord p).inFlight = s.inFlight ∧ (s.mergeRecord p).examining = s.examining ∧
    (s.mergeRecord p).phaseTable = s.phaseTable ∧ (s.mergeRecord p).phase = s.phase ∧
    (s.mergeRecord p).tables = s.tables ∧ (s.mergeRecord p).snapshot = s.snapshot ∧
    (s.mergeRecord p).trip = s.trip ∧ (s.mergeRecord p).clock = s.clock ∧
    (s.mergeRecord p).clockRunning = s.clockRunning ∧ (s.mergeRecord p).mem = s.mem ∧
    (s.mergeRecord p).freeCount = s.freeCount ∧ (s.mergeRecord p).pending = s.pending := by
  unfold State.mergeRecord; split <;> simp

/-- Acting on a link changes memory and what a chain fault changes at most. -/
@[simp] theorem State.followLink_frame (failing : List Access) (c : Chain) (l : Link) (s : State) :
    (s.followLink failing c l).part = s.part ∧ (s.followLink failing c l).anchor = s.anchor ∧
    (s.followLink failing c l).windows = s.windows ∧ (s.followLink failing c l).holdReq = s.holdReq ∧
    (s.followLink failing c l).restPending = s.restPending ∧ (s.followLink failing c l).enable = s.enable ∧
    (s.followLink failing c l).readData = s.readData ∧ (s.followLink failing c l).resetHeld = s.resetHeld ∧
    (s.followLink failing c l).inFlight = s.inFlight ∧ (s.followLink failing c l).examining = s.examining ∧
    (s.followLink failing c l).phaseTable = s.phaseTable ∧ (s.followLink failing c l).phase = s.phase ∧
    (s.followLink failing c l).tables = s.tables ∧ (s.followLink failing c l).snapshot = s.snapshot ∧
    (s.followLink failing c l).trip = s.trip ∧ (s.followLink failing c l).clock = s.clock ∧
    (s.followLink failing c l).clockRunning = s.clockRunning ∧ (s.followLink failing c l).journal = s.journal ∧
    (s.followLink failing c l).freeCount = s.freeCount ∧ (s.followLink failing c l).pending = s.pending := by
  unfold State.followLink
  split
  · simp
  · dsimp only
    split_ifs <;> simp

/-- The end of a follow-up changes what a chain fault changes at most. -/
@[simp] theorem State.afterLink_frame (failing : List Access) (c : Chain) (b : Bool) (s : State) :
    (s.afterLink failing c b).part = s.part ∧ (s.afterLink failing c b).anchor = s.anchor ∧
    (s.afterLink failing c b).windows = s.windows ∧ (s.afterLink failing c b).holdReq = s.holdReq ∧
    (s.afterLink failing c b).restPending = s.restPending ∧ (s.afterLink failing c b).enable = s.enable ∧
    (s.afterLink failing c b).readData = s.readData ∧ (s.afterLink failing c b).resetHeld = s.resetHeld ∧
    (s.afterLink failing c b).inFlight = s.inFlight ∧ (s.afterLink failing c b).examining = s.examining ∧
    (s.afterLink failing c b).phaseTable = s.phaseTable ∧ (s.afterLink failing c b).phase = s.phase ∧
    (s.afterLink failing c b).tables = s.tables ∧ (s.afterLink failing c b).snapshot = s.snapshot ∧
    (s.afterLink failing c b).trip = s.trip ∧ (s.afterLink failing c b).clock = s.clock ∧
    (s.afterLink failing c b).clockRunning = s.clockRunning ∧ (s.afterLink failing c b).journal = s.journal ∧
    (s.afterLink failing c b).mem = s.mem ∧ (s.afterLink failing c b).freeCount = s.freeCount ∧
    (s.afterLink failing c b).pending = s.pending := by
  unfold State.afterLink State.usePendingNudge
  dsimp only
  split_ifs <;> simp

end Sys2Proof.Machine
end

