-- ==== Sys2Proof/Laws/Memory.lean ====
section
/-!
SUPPORT. Sys2Proof/Laws/Memory.lean: the laws of the shared memory: a read after a write, the canonical form, and what
an answer writes.
-/
namespace Sys2Proof.Machine

/-! ### One byte -/

theorem Memory.read_nil (a : Nat) : Memory.read [] a = Memory.unlisted := rfl

/-- Below every listed address a read gives what an unlisted address reads as. -/
theorem Memory.read_below {m : List Host.Cell} {a : Nat} (h : ∀ c ∈ m, a < c.1) :
    Memory.read m a = Memory.unlisted := by
  induction m with
  | nil => rfl
  | cons c rest ih =>
    have h1 : a < c.1 := h c (by simp)
    have h2 := ih (fun d hd => h d (by simp [hd]))
    rw [show c = (c.1, c.2) from rfl, Memory.read, if_neg (by omega), h2]

/-- A byte that was not written reads as before. -/
theorem Memory.read_write_other (m : List Host.Cell) {a x : Nat} (b : Byte) (h : x ≠ a) :
    Memory.read (Memory.write m a b) x = Memory.read m x := by
  induction m with
  | nil => simp only [Memory.write]; split <;> simp [Memory.read, h]
  | cons c rest ih =>
    obtain ⟨k, v⟩ := c
    simp only [Memory.write]
    split_ifs with h1 h2 h3 h4
    · rfl
    · simp [Memory.read, h]
    · subst h3; simp [Memory.read, h]
    · subst h3; simp [Memory.read, h]
    · simp only [Memory.read, ih]

/-- The byte written reads back, in a memory in canonical form. -/
theorem Memory.read_write_same {m : List Host.Cell} (hm : Memory.wf m = true) (a : Nat) (b : Byte) :
    Memory.read (Memory.write m a b) a = b := by
  induction m with
  | nil => simp only [Memory.write]; split <;> simp_all [Memory.read]
  | cons c rest ih =>
    obtain ⟨k, v⟩ := c
    simp only [Memory.wf, Bool.and_eq_true, List.all_eq_true, decide_eq_true_eq] at hm
    obtain ⟨⟨⟨_, _⟩, hlt⟩, hrest⟩ := hm
    simp only [Memory.write]
    split_ifs with h1 h2 h3 h4
    · rw [h2]
      exact Memory.read_below (fun c hc => by
        rcases List.mem_cons.mp hc with h | h
        · subst h; exact h1
        · exact lt_trans h1 (hlt c h))
    · simp [Memory.read]
    · subst h3; rw [h4]; exact Memory.read_below hlt
    · simp [Memory.read]
    · simp only [Memory.read, if_neg h3]; exact ih hrest

/-- Every listed address after a write was listed before or is the one written. -/
theorem Memory.mem_write {m : List Host.Cell} {a : Nat} {b : Byte} {c : Host.Cell}
    (h : c ∈ Memory.write m a b) : c ∈ m ∨ c = (a, b) := by
  induction m with
  | nil => simp only [Memory.write] at h; split at h <;> simp_all
  | cons d rest ih =>
    obtain ⟨k, v⟩ := d
    simp only [Memory.write] at h
    split_ifs at h <;> simp only [List.mem_cons] at h ⊢
    · tauto
    · tauto
    · tauto
    · tauto
    · rcases h with h | h
      · tauto
      · rcases ih h with h | h <;> tauto

/-- A write inside the address space keeps the canonical form. -/
theorem Memory.write_wf {m : List Host.Cell} (hm : Memory.wf m = true) {a : Nat} (ha : a < Memory.size) (b : Byte) :
    Memory.wf (Memory.write m a b) = true := by
  induction m with
  | nil => simp only [Memory.write]; split <;> simp_all [Memory.wf]
  | cons c rest ih =>
    obtain ⟨k, v⟩ := c
    have hm' := hm
    simp only [Memory.wf, Bool.and_eq_true, List.all_eq_true, decide_eq_true_eq] at hm
    obtain ⟨⟨⟨hv, hk⟩, hlt⟩, hrest⟩ := hm
    simp only [Memory.write]
    split_ifs with h1 h2 h3 h4
    · exact hm'
    · simp only [Memory.wf, Bool.and_eq_true, List.all_eq_true, decide_eq_true_eq] at hm' ⊢
      refine ⟨⟨⟨h2, ha⟩, ?_⟩, hm'⟩
      intro c hc
      rcases List.mem_cons.mp hc with h | h
      · subst h; exact h1
      · exact lt_trans h1 (hlt c h)
    · exact hrest
    · simp only [Memory.wf, Bool.and_eq_true, List.all_eq_true, decide_eq_true_eq]
      exact ⟨⟨⟨h4, ha⟩, fun c hc => h3 ▸ hlt c hc⟩, hrest⟩
    · simp only [Memory.wf, Bool.and_eq_true, List.all_eq_true, decide_eq_true_eq]
      refine ⟨⟨⟨hv, hk⟩, ?_⟩, ih hrest⟩
      intro c hc
      rcases Memory.mem_write hc with h | h
      · exact hlt c h
      · subst h; simp only; omega

/-- A host store keeps the canonical form. -/
theorem State.hostStore_wf {s : State} (h : Memory.wf s.mem = true) (a : Word) (b : Byte) :
    Memory.wf (s.hostStore a b).mem = true := Memory.write_wf h a.isLt b

theorem Memory.wf_reset : Memory.wf State.reset.mem = true := rfl

/-! ### Writes of the part into a slip -/

/-- A captured window admits addresses of the 32-bit space alone. -/
theorem State.admits_lt {s : State} {a : Nat} (h : s.admits a = true) : a < Memory.size := by
  unfold State.admits at h
  cases hw : s.windows with
  | none => simp [hw] at h
  | some w =>
    simp only [hw, Windows.admits, Bool.or_eq_true, decide_eq_true_eq] at h
    have h1 := w.slipLimit.isLt
    have h2 := w.tableLimit.isLt
    unfold Memory.size
    omega

/-- Writes of the part keep the canonical form, whether or not one of them fails. -/
theorem storeAll_wf {admits : Nat → Bool} (hadm : ∀ a, admits a = true → a < Memory.size) (failing : List Access)
    (base : Nat) (items : List (Access × Nat × Byte)) {m : List Host.Cell} (hm : Memory.wf m = true) :
    Memory.wf (storeAll admits failing base items m).1 = true := by
  induction items generalizing m with
  | nil => exact hm
  | cons x rest ih =>
    obtain ⟨acc, o, b⟩ := x
    simp only [storeAll]
    split_ifs with h
    · exact hm
    · simp only [Bool.or_eq_true, Bool.not_eq_true', not_or, Bool.not_eq_true, Bool.not_eq_false] at h
      exact ih (Memory.write_wf hm (hadm _ h.2) b)

/-- Bytes outside the places written stand, whether or not a write fails. -/
theorem storeAll_read_other (admits : Nat → Bool) (failing : List Access) (base : Nat)
    (items : List (Access × Nat × Byte)) (m : List Host.Cell) {a : Nat} (h : ∀ x ∈ items, a ≠ base + x.2.1) :
    Memory.read (storeAll admits failing base items m).1 a = Memory.read m a := by
  induction items generalizing m with
  | nil => rfl
  | cons x rest ih =>
    obtain ⟨acc, o, b⟩ := x
    simp only [storeAll]
    split_ifs
    · rfl
    · rw [ih _ (fun y hy => h y (by simp [hy])), Memory.read_write_other _ _ (h (acc, o, b) (by simp))]

/-- Writes that are all admitted and none of which fails are all made. -/
theorem storeAll_ok (admits : Nat → Bool) (base : Nat) (items : List (Access × Nat × Byte)) (m : List Host.Cell)
    (h : ∀ x ∈ items, admits (base + x.2.1) = true) : (storeAll admits [] base items m).2 = true := by
  induction items generalizing m with
  | nil => rfl
  | cons x rest ih =>
    obtain ⟨acc, o, b⟩ := x
    simp only [storeAll]
    rw [if_neg]
    · exact ih _ (fun y hy => h y (by simp [hy]))
    · simp [h (acc, o, b) (by simp)]

/-- A byte written at an offset that no other write touches reads back. -/
theorem storeAll_read_mem (admits : Nat → Bool) (hadm : ∀ a, admits a = true → a < Memory.size) (base : Nat)
    (items : List (Access × Nat × Byte)) {m : List Host.Cell} (hm : Memory.wf m = true)
    (h : ∀ x ∈ items, admits (base + x.2.1) = true) (hd : (items.map (fun x => x.2.1)).Nodup)
    {x : Access × Nat × Byte} (hx : x ∈ items) :
    Memory.read (storeAll admits [] base items m).1 (base + x.2.1) = x.2.2 := by
  induction items generalizing m with
  | nil => simp at hx
  | cons y rest ih =>
    obtain ⟨acc, o, b⟩ := y
    have ha : admits (base + o) = true := h (acc, o, b) (by simp)
    simp only [storeAll]
    rw [if_neg (by simp [ha])]
    simp only [List.map_cons, List.nodup_cons] at hd
    rcases List.mem_cons.mp hx with e | e
    · subst e
      rw [storeAll_read_other]
      · exact Memory.read_write_same hm _ _
      · intro z hz heq
        exact hd.1 (List.mem_map.mpr ⟨z, hz, by simp only at heq; omega⟩)
    · exact ih (Memory.write_wf hm (hadm _ ha) b) (fun z hz => h z (by simp [hz])) hd.2 e

/-- Every write into a slip that lies in the slip window is admitted. -/
theorem State.admits_slip {s : State} {l : Link} (h : s.linkValid l = true) {o : Nat} (ho : o < 512) :
    s.admits (s.slipAddress l + o) = true := by
  unfold State.linkValid at h
  unfold State.admits State.slipAddress
  cases hw : s.windows with
  | none => simp [hw] at h
  | some w =>
    simp only [hw, Bool.and_eq_true, decide_eq_true_eq, Windows.admits, Bool.or_eq_true] at h ⊢
    left; omega

theorem mem_slipWrites {x : Access × Nat × Byte} {bs : List Byte} {o : Nat} :
    x ∈ slipWrites o bs ↔ ∃ i, ∃ h : i < bs.length, x = (.slipWrite (o + i), o + i, bs[i]) := by
  induction bs generalizing o with
  | nil => simp [slipWrites]
  | cons b rest ih =>
    simp only [slipWrites, List.mem_cons, ih]
    constructor
    · rintro (h | ⟨i, hi, h⟩)
      · exact ⟨0, by simp, by simpa using h⟩
      · exact ⟨i + 1, by simpa using hi, by rw [h]; simp [Nat.add_assoc, Nat.add_comm 1 i]⟩
    · rintro ⟨i, hi, h⟩
      cases i with
      | zero => left; simpa using h
      | succ i => right; exact ⟨i, by simpa using hi, by rw [h]; simp [Nat.add_assoc, Nat.add_comm 1 i]⟩

theorem slipWrites_offsets (o : Nat) (bs : List Byte) :
    (slipWrites o bs).map (fun x => x.2.1) = (List.range bs.length).map (fun i => o + i) := by
  induction bs generalizing o with
  | nil => rfl
  | cons b rest ih =>
    simp only [slipWrites, List.map_cons, ih, List.length_cons, List.range_succ_eq_map, List.map_map]
    simp [Function.comp_def, Nat.add_assoc, Nat.add_comm 1]

@[simp] theorem leBytes_length (n v : Nat) : (leBytes n v).length = n := by
  induction n generalizing v with
  | zero => rfl
  | succ n ih => simp [leBytes, ih]

/-- Reading back the bytes of a value gives the value, modulo the field's size (R168). -/
theorem leNat_leBytes (n v : Nat) : leNat (leBytes n v) = v % 256 ^ n := by
  induction n generalizing v with
  | zero => simp [leBytes, leNat, Nat.mod_one]
  | succ n ih =>
    rw [leBytes, leNat, ih, BitVec.toNat_ofNat, show 256 ^ (n + 1) = 256 * 256 ^ n from Nat.pow_succ', Nat.mod_mul]


/-- The offsets an answer writes are distinct when the result area lies in the slip body. -/
theorem answerWrites_nodup (resultAt : Nat) (result : List Byte) (r : Option Reason) (stamp : Word)
    (h : 16 ≤ resultAt) : ((answerWrites resultAt result r stamp).map (fun x => x.2.1)).Nodup := by
  simp only [answerWrites, List.map_append, slipWrites_offsets, List.map_cons, List.map_nil, leBytes_length]
  rw [List.nodup_append]
  refine ⟨?_, ?_, ?_⟩
  · exact List.Nodup.map (fun a b hab => by simpa using hab) List.nodup_range
  · decide
  · intro a ha b hb
    simp only [List.mem_map, List.mem_range] at ha
    simp only [List.range, List.range.loop, List.map_cons, List.map_nil, List.mem_cons, List.mem_append,
      List.not_mem_nil, or_false] at hb
    omega

/-- What an answer writes, at which offsets. -/
theorem answerWrites_offset {resultAt : Nat} {result : List Byte} {r : Option Reason} {stamp : Word}
    {x : Access × Nat × Byte} (hx : x ∈ answerWrites resultAt result r stamp) :
    x.2.1 = 0 ∨ x.2.1 = 2 ∨ x.2.1 = 3 ∨ (12 ≤ x.2.1 ∧ x.2.1 < 16)
      ∨ (resultAt ≤ x.2.1 ∧ x.2.1 < resultAt + result.length) := by
  simp only [answerWrites, List.mem_append, List.mem_cons, List.not_mem_nil, or_false, mem_slipWrites,
    leBytes_length] at hx
  rcases hx with ⟨i, hi, rfl⟩ | rfl | rfl | ⟨i, hi, rfl⟩ | rfl
  · right; right; right; right; simp only; omega
  · simp
  · simp
  · right; right; right; left; simp only; omega
  · simp

/-- The spec lemma of the answer: where the slip lies in the slip window and the result area in the slip, an answer
whose accesses all succeed is made whole. -/
theorem State.answer_answered {s : State} {f : InFlight} {resultAt : Nat} {result : List Byte}
    {r : Option Reason} (hv : s.linkValid (s.chain f.chain).cursor = true) (hm : Memory.wf s.mem = true)
    (h1 : 16 ≤ resultAt) (h2 : resultAt + result.length ≤ 512) :
    Answered s f resultAt result r (s.answer [] f resultAt result r) := by
  have hoff : ∀ x ∈ answerWrites resultAt result r s.stamp,
      s.admits (s.slipAddress (s.chain f.chain).cursor + x.2.1) = true := by
    intro x hx
    have := answerWrites_offset hx
    exact State.admits_slip hv (by omega)
  have hok : (s.storeSlip [] (s.chain f.chain).cursor (answerWrites resultAt result r s.stamp)).2 = true :=
    storeAll_ok _ _ _ _ hoff
  have hmem : (s.answer [] f resultAt result r).mem
      = (s.storeSlip [] (s.chain f.chain).cursor (answerWrites resultAt result r s.stamp)).1 := by
    simp [State.answer, hok]
  have hread : ∀ x ∈ answerWrites resultAt result r s.stamp,
      Memory.read (s.answer [] f resultAt result r).mem (s.slipOf f + x.2.1) = x.2.2 := by
    intro x hx
    have := storeAll_read_mem s.admits (fun a => State.admits_lt) _ _ hm hoff
      (answerWrites_nodup resultAt result r s.stamp h1) hx
    rw [hmem]
    exact this
  refine ⟨?_, ?_, ?_, ?_, ?_, ?_, ?_⟩
  · rw [hmem]; simp [State.answer, hok, State.raise]
  · intro i hi
    have := hread (.slipWrite (resultAt + i), resultAt + i, result[i]) (by
      simp only [answerWrites, List.mem_append, mem_slipWrites]
      exact Or.inl ⟨i, hi, rfl⟩)
    simp only at this
    rw [Nat.add_assoc, this, List.getElem?_eq_getElem hi]
  · exact hread (.slipWrite 2, 2, answerCode r) (by simp [answerWrites])
  · exact hread (.slipWrite 3, 3, reasonField r) (by simp [answerWrites])
  · intro i hi
    have hl : i < (leBytes 4 s.stamp.toNat).length := by simpa using hi
    have := hread (.slipWrite (12 + i), 12 + i, (leBytes 4 s.stamp.toNat)[i]) (by
      simp only [answerWrites, List.mem_append, List.mem_cons, mem_slipWrites]
      exact Or.inr (Or.inr (Or.inr (Or.inl ⟨i, hl, rfl⟩))))
    simp only at this
    rw [Nat.add_assoc, this, List.getElem?_eq_getElem hl]
  · exact hread (.stageWrite .answered, 0, 3#8) (by simp [answerWrites])
  · intro a ha
    rw [hmem]
    apply storeAll_read_other
    intro x hx he
    apply ha
    have := answerWrites_offset hx
    unfold answerWritesAt State.slipOf
    omega

/-- An answer keeps the canonical form, whatever fails. -/
theorem State.answer_wf {s : State} (hm : Memory.wf s.mem = true) (failing : List Access) (f : InFlight)
    (resultAt : Nat) (result : List Byte) (r : Option Reason) :
    Memory.wf (s.answer failing f resultAt result r).mem = true := by
  have := storeAll_wf (fun a => State.admits_lt (s := s)) failing (s.slipAddress (s.chain f.chain).cursor)
    (answerWrites resultAt result r s.stamp) hm
  unfold State.answer
  dsimp only
  split <;> simpa [State.storeSlip] using this

end Sys2Proof.Machine
end

