-- ==== Sys2Proof/Laws/Outcomes.lean ====
section
/-!
SUPPORT. Sys2Proof/Laws/Outcomes.lean: the spec lemmas of the faults, the heads and the readers of slips.
-/
namespace Sys2Proof.Machine

theorem State.offerFault_offered (d : FaultDetail) (s : State) : FaultOffered s d (s.offerFault d) :=
  ⟨fun h => State.offerFault_empty d s h, fun e h => State.offerFault_full d e s h⟩

/-- What is offered does not depend on changes outside the FAULT record. -/
theorem FaultOffered.congr {s u t : State} {d : FaultDetail} (h : FaultOffered u d t) (h1 : u.faultRecord = s.faultRecord) :
    FaultOffered s d t := by
  unfold FaultOffered at *; rwa [h1] at h

theorem State.breakChain_broken (s : State) (c : Chain) (l : Link) : ChainBroken s c l (s.breakChain c l) := by
  refine ⟨?_, ?_, by simp, ?_, ?_⟩
  · rw [State.breakChain_chain]; simp; rfl
  · rw [State.breakChain_chain]; cases c <;> simp [otherChain]
  · exact (State.offerFault_offered _ _).congr (by simp)
  · unfold State.breakChain State.offerFault State.setChain State.raise
    cases c <;> cases s.faultRecord <;> rfl

theorem State.endOnFault_broken (s : State) (f : InFlight) :
    ChainBroken { s with inFlight := none } f.chain (s.chain f.chain).cursor (s.endOnFault f) :=
  State.breakChain_broken _ _ _

theorem State.tableFault_failed (s : State) (slot : Byte) (check : Nat) :
    TablesFailed s slot (BitVec.ofNat 8 check) (s.tableFault slot check) := by
  refine ⟨by simp, by simp, ?_, ?_⟩
  · exact (State.offerFault_offered _ _).congr rfl
  · unfold State.tableFault State.offerFault State.raise
    cases h : s.faultRecord <;> rfl

theorem State.anchorFault_failed (s : State) (check : Nat) :
    AnchorFailed s (BitVec.ofNat 4 check) (s.anchorFault check) := by
  refine ⟨by simp [State.anchorFault], by simp [State.anchorFault], ?_, ?_⟩
  · exact (State.offerFault_offered _ _).congr rfl
  · unfold State.anchorFault State.offerFault State.raise
    cases h : s.faultRecord <;> rfl

theorem State.setHead_taken (s : State) (c : Chain) (h : Link) : HeadTaken s c h (s.setHead c h) := by
  refine ⟨?_, ?_, ?_⟩
  · intro e; simp only [State.setHead, if_pos e]; rfl
  · intro e e1; simp only [State.setHead, if_neg e, if_pos e1]; rfl
  · intro e e1
    simp only [State.setHead, if_neg e, e1, Bool.false_eq_true, if_false]
    exact State.breakChain_broken _ _ _

theorem State.anchorByte_ok (s : State) (o : Nat) : s.anchorByte [] o = some (Memory.read s.mem (s.anchor.toNat + o)) := by
  simp [State.anchorByte]

theorem State.slipByte_ok {s : State} {l : Link} (h : s.linkValid l = true) {o : Nat} (ho : o < 512) :
    s.slipByte [] l o = some (Memory.read s.mem (s.slipAddress l + o)) := by
  simp [State.slipByte, State.admits_slip h ho]

/-- A restart's head read, no access failing. -/
theorem State.takeHead_taken (s : State) (c : Chain) : HeadTaken s c (s.headOf c) (s.takeHead [] c) := by
  have h : readField (s.anchorByte []) (headOffset c) 3 = some (leNat
      [Memory.read s.mem (s.anchor.toNat + headOffset c), Memory.read s.mem (s.anchor.toNat + headOffset c + 1),
        Memory.read s.mem (s.anchor.toNat + headOffset c + 2)]) := by
    simp [readField, readBytes, State.anchorByte_ok, Nat.add_assoc]
  unfold State.takeHead
  rw [h]
  exact State.setHead_taken _ _ _

/-- The link field of a slip in the slip window, no access failing. -/
theorem State.readLink {s : State} {l : Link} (h : s.linkValid l = true) :
    readField (s.slipByte [] l) 8 3 = some (leNat [Memory.read s.mem (s.slipAddress l + 8),
      Memory.read s.mem (s.slipAddress l + 9), Memory.read s.mem (s.slipAddress l + 10)]) := by
  simp [readField, readBytes, State.slipByte_ok h]

/-- A read that meets a failing access fails. -/
theorem readBytes_none {get : Nat → Option Byte} {a n o : Nat} (h1 : a ≤ o) (h2 : o < a + n) (h : get o = none) :
    readBytes get a n = none := by
  induction n generalizing a with
  | zero => omega
  | succ n ih =>
    simp only [readBytes]
    split
    · rfl
    · rename_i hb
      have : a ≠ o := by intro e; rw [e, h] at hb; cases hb
      rw [ih (by omega) (by omega)]

theorem readField_none {get : Nat → Option Byte} {a n o : Nat} (h1 : a ≤ o) (h2 : o < a + n) (h : get o = none) :
    readField get a n = none := by
  simp [readField, readBytes_none h1 h2 h]

theorem State.slipByte_failing {s : State} {failing : List Access} {l : Link} {o : Nat} (h : .slipRead o ∈ failing) :
    s.slipByte failing l o = none := by
  simp [State.slipByte, h]

theorem State.anchorByte_failing {s : State} {failing : List Access} {o : Nat} (h : .anchorRead o ∈ failing) :
    s.anchorByte failing o = none := by
  simp [State.anchorByte, h]

theorem State.tableByte_failing {s : State} {failing : List Access} {slot : Byte} {a : Nat}
    (h : .tableRead slot a ∈ failing) : s.tableByte failing slot a = none := by
  simp [State.tableByte, h]

/-- The answer of a slip being worked at a place inside the slip window. -/
theorem Working.answer {s u : State} {kind : Byte} {f : InFlight} (h : Working s kind f) {resultAt : Nat}
    {result : List Byte} {r : Option Reason} (hw : u.windows = s.windows) (hi : u.interactive = s.interactive)
    (hb : u.background = s.background) (hm : u.mem = s.mem) (h1 : 16 ≤ resultAt)
    (h2 : resultAt + result.length ≤ 512) :
    Answered u f resultAt result r (u.answer [] f resultAt result r) := by
  have hc : u.chain f.chain = s.chain f.chain := State.chain_congr hi hb _
  refine State.answer_answered ?_ (by rw [hm]; exact h.canonical) h1 h2
  rw [hc]
  have := h.placed
  simpa [State.linkValid, hw] using this

end Sys2Proof.Machine
end

