-- ==== Sys2Proof/Laws/Journal.lean ====
section
/-!
SUPPORT. Sys2Proof/Laws/Journal.lean: what the journal's operations do to the entry list, and that they keep the journal
legal.
-/
namespace Sys2Proof.Machine

/-! ### Fields of the journal after each operation -/

@[simp] theorem State.raise_journal (e : Event) (s : State) : (s.raise e).journal = s.journal := rfl

@[simp] theorem State.mapEntries_journal (f : Entry → Entry) (s : State) :
    (s.mapEntries f).journal = { s.journal with entries := s.journal.entries.map f } := rfl

@[simp] theorem State.appendEntry_journal (e : Entry) (s : State) :
    (s.appendEntry e).journal = { s.journal with entries := s.journal.entries ++ [e] } := rfl

/-- The journal after an eviction of its oldest entry (R108). -/
def Journal.evict (j : Journal) : Journal :=
  match j.entries with
  | [] => j
  | e :: rest =>
    { j with entries := rest, wrapped := true,
             evictedThrough := if j.evictedThrough.toNat < e.time.toNat then e.time else j.evictedThrough }

theorem State.evictOldest_journal (s : State) : s.evictOldest.journal = s.journal.evict := by
  unfold State.evictOldest Journal.evict
  cases s.journal.entries with
  | nil => rfl
  | cons e rest => dsimp only; split <;> rfl

theorem State.makeRoom_journal (s : State) :
    s.makeRoom.journal = if 256 ≤ s.journal.entries.length then s.journal.evict else s.journal := by
  unfold State.makeRoom Config.journalCapacity
  split <;> simp [State.evictOldest_journal]

/-! ### Lists -/

theorem filterMap_sublist {α β : Type} {f g : α → Option β} {l : List α} (h : ∀ x ∈ l, f x = none ∨ f x = g x) :
    (l.filterMap f).Sublist (l.filterMap g) := by
  induction l with
  | nil => simp
  | cons x rest ih =>
    have hx := h x (by simp)
    have ih := ih (fun y hy => h y (by simp [hy]))
    rcases hx with e | e
    · rw [List.filterMap_cons_none e]
      cases hg : g x with
      | none => rw [List.filterMap_cons_none hg]; exact ih
      | some b => rw [List.filterMap_cons_some hg]; exact ih.cons _
    · cases hg : g x with
      | none => rw [List.filterMap_cons_none hg, List.filterMap_cons_none (e.trans hg)]; exact ih
      | some b => rw [List.filterMap_cons_some hg, List.filterMap_cons_some (e.trans hg)]; exact ih.cons_cons _

/-- A change of entries that keeps their origin pairs keeps the own numbers and the peer pairs. -/
theorem Journal.ownNumbers_map {j : Journal} {f : Entry → Entry} (ownId : Byte)
    (h : ∀ e ∈ j.entries, (f e).originId = e.originId ∧ (f e).originNumber = e.originNumber) :
    Journal.ownNumbers { j with entries := j.entries.map f } ownId = j.ownNumbers ownId := by
  unfold Journal.ownNumbers
  congr 1
  generalize j.entries = l at h
  dsimp only
  induction l with
  | nil => rfl
  | cons e rest ih =>
    have he := h e (by simp)
    have ih := ih (fun x hx => h x (by simp [hx]))
    simp only [List.map_cons, List.filter_cons, he.1]
    split <;> simp only [List.map_cons, ih, he.2]

theorem Journal.peerPairs_map {j : Journal} {f : Entry → Entry} (ownId : Byte)
    (h : ∀ e ∈ j.entries, (f e).originId = e.originId ∧ (f e).originNumber = e.originNumber) :
    Journal.peerPairs { j with entries := j.entries.map f } ownId = j.peerPairs ownId := by
  unfold Journal.peerPairs
  generalize j.entries = l at h
  dsimp only
  induction l with
  | nil => rfl
  | cons e rest ih =>
    have he := h e (by simp)
    have ih := ih (fun x hx => h x (by simp [hx]))
    simp only [List.map_cons, List.filter_cons, he.1]
    split <;> simp only [List.map_cons, ih, he.1, he.2]

theorem lastOwnNumbers_length (m : Nat) (n : Half) : (lastOwnNumbers m n).length = m := by
  induction m generalizing n with
  | zero => rfl
  | succ m ih => simp [lastOwnNumbers, ih]

theorem lastOwnNumbers_dropLast (m : Nat) (n : Half) : (lastOwnNumbers (m + 1) n).dropLast = lastOwnNumbers m n := by
  induction m generalizing n with
  | zero => rfl
  | succ m ih =>
    have := ih (previousOwnNumber n)
    rw [lastOwnNumbers, lastOwnNumbers] at *
    rw [List.dropLast_cons_of_ne_nil (by simp), lastOwnNumbers, ← this]

theorem previousOwnNumber_next {n : Half} (h : n ≠ 0#16) : previousOwnNumber (nextOwnNumber n) = n := by
  unfold previousOwnNumber nextOwnNumber
  have hn := n.isLt
  split_ifs with h1 h2 h2
  · rw [h1]
  · exact absurd rfl h2
  · exfalso; apply h
    apply BitVec.eq_of_toNat_eq
    have := congrArg BitVec.toNat h2
    simp only [BitVec.toNat_add, BitVec.toNat_ofNat] at this ⊢
    omega
  · apply BitVec.eq_of_toNat_eq
    simp only [BitVec.toNat_sub, BitVec.toNat_add, BitVec.toNat_ofNat]
    omega

theorem nextOwnNumber_ne (n : Half) : nextOwnNumber n ≠ 0#16 := by
  unfold nextOwnNumber
  have hn := n.isLt
  split_ifs with h1
  · decide
  · intro e
    have := congrArg BitVec.toNat e
    simp only [BitVec.toNat_add, BitVec.toNat_ofNat] at this
    apply h1
    apply BitVec.eq_of_toNat_eq
    simp only [BitVec.toNat_ofNat]
    omega

/-- The own numbers given last are distinct, as long as no more are taken than there are numbers (R107). -/
theorem lastOwnNumbers_mem {m : Nat} {n x : Half} (hn : n ≠ 0#16) (h : x ∈ lastOwnNumbers m n) :
    x ≠ 0#16 ∧ ∃ i, i < m ∧ x.toNat = (n.toNat + 65535 - i % 65535 - 1) % 65535 + 1 := by
  induction m generalizing n with
  | zero => simp [lastOwnNumbers] at h
  | succ m ih =>
    have hlt := n.isLt
    have hpos : 1 ≤ n.toNat := by
      by_contra hc
      exact hn (BitVec.eq_of_toNat_eq (by simp; omega))
    simp only [lastOwnNumbers, List.mem_cons] at h
    rcases h with e | e
    · subst e
      exact ⟨hn, 0, by omega, by omega⟩
    · have hp : (previousOwnNumber n).toNat = if n.toNat = 1 then 65535 else n.toNat - 1 := by
        unfold previousOwnNumber
        by_cases h1 : n = 1#16
        · simp [h1]
        · have : n.toNat ≠ 1 := fun e => h1 (BitVec.eq_of_toNat_eq (by simpa using e))
          rw [if_neg h1, if_neg this]
          simp only [BitVec.toNat_sub, BitVec.toNat_ofNat]
          omega
      have hpn : previousOwnNumber n ≠ 0#16 := by
        intro e
        rw [e] at hp
        simp only [BitVec.toNat_ofNat] at hp
        split_ifs at hp
        omega
      obtain ⟨hx, i, hi, he⟩ := ih hpn e
      refine ⟨hx, i + 1, by omega, ?_⟩
      rw [he, hp]
      split_ifs <;> omega

theorem lastOwnNumbers_nodup {m : Nat} {n : Half} (hn : n ≠ 0#16) (hm : m ≤ 65535) : (lastOwnNumbers m n).Nodup := by
  induction m generalizing n with
  | zero => simp [lastOwnNumbers]
  | succ m ih =>
    have hlt := n.isLt
    have hpos : 1 ≤ n.toNat := by
      by_contra hc
      exact hn (BitVec.eq_of_toNat_eq (by simp; omega))
    have hp : (previousOwnNumber n).toNat = if n.toNat = 1 then 65535 else n.toNat - 1 := by
      unfold previousOwnNumber
      by_cases h1 : n = 1#16
      · simp [h1]
      · have : n.toNat ≠ 1 := fun e => h1 (BitVec.eq_of_toNat_eq (by simpa using e))
        rw [if_neg h1, if_neg this]
        simp only [BitVec.toNat_sub, BitVec.toNat_ofNat]
        omega
    have hpn : previousOwnNumber n ≠ 0#16 := by
      intro e
      rw [e] at hp
      simp only [BitVec.toNat_ofNat] at hp
      split_ifs at hp
      omega
    rw [lastOwnNumbers, List.nodup_cons]
    refine ⟨?_, ih hpn (by omega)⟩
    intro hmem
    obtain ⟨-, i, hi, he⟩ := lastOwnNumbers_mem hpn hmem
    rw [hp] at he
    split_ifs at he <;> omega

/-! ### Legality -/

theorem Journal.Legal.empty (t : TripContext) : Journal.empty.Legal t :=
  ⟨by simp [Journal.empty], by simp [Journal.empty], by simp [Journal.empty, Journal.openCounts],
    by simp [Journal.empty, Journal.ownNumbers, lastOwnNumbers], by simp [Journal.empty, Journal.ownNumbers],
    by simp [Journal.empty, Journal.peerPairs], by simp [Journal.empty]⟩

/-- What the journal asks of the trip: own id, section count and reach. -/
theorem Journal.Legal.of_trip {t u : TripContext} {j : Journal} (h : j.Legal t) (h1 : u.ownId = t.ownId)
    (h2 : u.plan.length = t.plan.length) (h3 : u.reachCount = t.reachCount) (h4 : u.reachMinutes = t.reachMinutes) :
    j.Legal u := by
  refine ⟨h.length, ?_, h.windows, by rw [h1]; exact h.numbers, by rw [h1]; exact h.counter, by rw [h1]; exact h.peers,
    h.wrapped⟩
  intro e he
  have := h.entries e he
  exact ⟨this.originId, this.originNumber, by rw [h2]; exact this.section_, by rw [h1]; exact this.peer,
    by rw [h3, h4]; exact this.window⟩

/-- Entries may change where they keep their pair and stay legal, and the open windows' counts keep rising. -/
theorem Journal.Legal.map {t : TripContext} {j : Journal} (h : j.Legal t) (f : Entry → Entry)
    (hid : ∀ e ∈ j.entries, (f e).originId = e.originId ∧ (f e).originNumber = e.originNumber)
    (hl : ∀ e ∈ j.entries, (f e).Legal t)
    (hw : (Journal.openCounts { j with entries := j.entries.map f }).Pairwise (· < ·)) :
    Journal.Legal t { j with entries := j.entries.map f } := by
  refine ⟨by simpa using h.length, ?_, hw, ?_, ?_, ?_, h.wrapped⟩
  · intro e he
    obtain ⟨x, hx, rfl⟩ := List.mem_map.mp he
    exact hl x hx
  · rw [Journal.ownNumbers_map _ hid]; exact h.numbers
  · rw [Journal.ownNumbers_map _ hid]; exact h.counter
  · rw [Journal.peerPairs_map _ hid]; exact h.peers

/-- A change of entries that closes some windows and leaves the counts of the others. -/
theorem Journal.Legal.map_closing {t : TripContext} {j : Journal} (h : j.Legal t) (f : Entry → Entry)
    (hid : ∀ e ∈ j.entries, (f e).originId = e.originId ∧ (f e).originNumber = e.originNumber)
    (hl : ∀ e ∈ j.entries, (f e).Legal t)
    (hw : ∀ e ∈ j.entries, (f e).window = none ∨
      (f e).openCount = e.openCount) :
    Journal.Legal t { j with entries := j.entries.map f } := by
  refine h.map f hid hl ?_
  refine List.Pairwise.sublist ?_ h.windows
  unfold Journal.openCounts
  dsimp only
  rw [List.filterMap_map]
  apply filterMap_sublist
  intro e he
  rcases hw e he with e1 | e1
  · left; simp [Entry.openCount, e1]
  · right; exact e1

theorem toNat_pred (b : Byte) : (BitVec.ofNat 8 (b.toNat - 1)).toNat = b.toNat - 1 := by
  rw [BitVec.toNat_ofNat]; exact Nat.mod_eq_of_lt (by have := b.isLt; omega)

theorem Entry.Legal.tick {t : TripContext} {e : Entry} (h : e.Legal t) : e.tick.Legal t := by
  refine ⟨h.originId, h.originNumber, h.section_, ?_, ?_⟩
  · intro hp
    obtain ⟨h1, h2, h3, h4⟩ := h.peer hp
    exact ⟨h1, h2, h3, by simp [Entry.tick, Entry.closeAtMinutes, Entry.mapWindow, h4]⟩
  · intro w hw
    cases he : e.window with
    | none => simp [Entry.tick, Entry.closeAtMinutes, Entry.mapWindow, he] at hw
    | some v =>
      obtain ⟨h1, h2, h3, h4, h5⟩ := h.window v he
      simp only [Entry.tick, Entry.closeAtMinutes, Entry.mapWindow, he, Option.map_some, Option.filter_eq_some_iff,
        Option.some.injEq, decide_eq_true_eq, Window.loseMinute] at hw
      obtain ⟨hw1, hw2⟩ := hw
      subst hw1
      have hm := toNat_pred v.minutes
      have hne : (BitVec.ofNat 8 (v.minutes.toNat - 1)).toNat ≠ 0 := by
        intro e0; apply hw2; exact BitVec.eq_of_toNat_eq (by simpa using e0)
      refine ⟨h1, h2, h3, ?_, ?_⟩
      · dsimp only; omega
      · dsimp only; omega

theorem Entry.Legal.closeAtMinutes {t : TripContext} {e : Entry} (h : e.Legal t) : e.closeAtMinutes.Legal t := by
  refine ⟨h.originId, h.originNumber, h.section_, ?_, ?_⟩
  · intro hp
    obtain ⟨h1, h2, h3, h4⟩ := h.peer hp
    exact ⟨h1, h2, h3, by simp [Entry.closeAtMinutes, h4]⟩
  · intro w hw
    simp only [Entry.closeAtMinutes, Option.filter_eq_some_iff] at hw
    exact h.window w hw.1

theorem Entry.Legal.closeAtCount {t : TripContext} {e : Entry} (h : e.Legal t) : e.closeAtCount.Legal t := by
  refine ⟨h.originId, h.originNumber, h.section_, ?_, ?_⟩
  · intro hp
    obtain ⟨h1, h2, h3, h4⟩ := h.peer hp
    exact ⟨h1, h2, h3, by simp [Entry.closeAtCount, h4]⟩
  · intro w hw
    simp only [Entry.closeAtCount, Option.filter_eq_some_iff] at hw
    exact h.window w hw.1

theorem Entry.Legal.countDown {t : TripContext} {e : Entry} (h : e.Legal t) : e.countDown.Legal t := by
  refine ⟨h.originId, h.originNumber, h.section_, ?_, ?_⟩
  · intro hp
    obtain ⟨h1, h2, h3, h4⟩ := h.peer hp
    exact ⟨h1, h2, h3, by simp [Entry.countDown, Entry.closeAtCount, Entry.mapWindow, h4]⟩
  · intro w hw
    cases he : e.window with
    | none => simp [Entry.countDown, Entry.closeAtCount, Entry.mapWindow, he] at hw
    | some v =>
      obtain ⟨h1, h2, h3, h4, h5⟩ := h.window v he
      simp only [Entry.countDown, Entry.closeAtCount, Entry.mapWindow, he, Option.map_some, Option.filter_eq_some_iff,
        Option.some.injEq, decide_eq_true_eq, Window.loseCount] at hw
      obtain ⟨hw1, hw2⟩ := hw
      subst hw1
      have hm := toNat_pred v.count
      have hne : (BitVec.ofNat 8 (v.count.toNat - 1)).toNat ≠ 0 := by
        intro e0; apply hw2; exact BitVec.eq_of_toNat_eq (by simpa using e0)
      refine ⟨h1, ?_, ?_, h4, h5⟩
      · dsimp only; omega
      · dsimp only; omega

theorem Entry.tick_window (e : Entry) : e.tick.window = none ∨
    e.tick.openCount = e.openCount := by
  cases he : e.window with
  | none => left; simp [Entry.tick, Entry.closeAtMinutes, Entry.mapWindow, he]
  | some v =>
    by_cases h : v.loseMinute.minutes = 0#8
    · left; simp [Entry.tick, Entry.closeAtMinutes, Entry.mapWindow, he, Option.filter, h]
    · right; simp [Entry.openCount, Entry.tick, Entry.closeAtMinutes, Entry.mapWindow, he, Option.filter, h]; simp [Window.loseMinute]

theorem Entry.closeAtMinutes_window (e : Entry) : e.closeAtMinutes.window = none ∨
    e.closeAtMinutes.openCount = e.openCount := by
  cases he : e.window with
  | none => left; simp [Entry.closeAtMinutes, he]
  | some v =>
    by_cases h : v.minutes = 0#8
    · left; simp [Entry.closeAtMinutes, he, Option.filter, h]
    · right; simp [Entry.openCount, Entry.closeAtMinutes, he, Option.filter, h]

theorem Entry.closeAtCount_window (e : Entry) : e.closeAtCount.window = none ∨
    e.closeAtCount.openCount = e.openCount := by
  cases he : e.window with
  | none => left; simp [Entry.closeAtCount, he]
  | some v =>
    by_cases h : v.count = 0#8
    · left; simp [Entry.closeAtCount, he, Option.filter, h]
    · right; simp [Entry.openCount, Entry.closeAtCount, he, Option.filter, h]

theorem Journal.Legal.tick {t : TripContext} {j : Journal} (h : j.Legal t) :
    Journal.Legal t { j with entries := j.entries.map Entry.tick } :=
  h.map_closing _ (fun _ _ => ⟨rfl, rfl⟩) (fun e he => (h.entries e he).tick) (fun e _ => e.tick_window)

theorem Journal.Legal.closeAtMinutes {t : TripContext} {j : Journal} (h : j.Legal t) :
    Journal.Legal t { j with entries := j.entries.map Entry.closeAtMinutes } :=
  h.map_closing _ (fun _ _ => ⟨rfl, rfl⟩) (fun e he => (h.entries e he).closeAtMinutes)
    (fun e _ => e.closeAtMinutes_window)

theorem Journal.Legal.closeAtCount {t : TripContext} {j : Journal} (h : j.Legal t) :
    Journal.Legal t { j with entries := j.entries.map Entry.closeAtCount } :=
  h.map_closing _ (fun _ _ => ⟨rfl, rfl⟩) (fun e he => (h.entries e he).closeAtCount)
    (fun e _ => e.closeAtCount_window)

/-- The counts after a count-down: each one less, those at 0 gone (R121). -/
theorem openCounts_countDown (l : List Entry) :
    (l.map Entry.countDown).filterMap Entry.openCount
      = ((l.filterMap Entry.openCount).map (fun n => n - 1)).filter (fun n => n ≠ 0) := by
  induction l with
  | nil => rfl
  | cons e rest ih =>
    rw [List.map_cons]
    cases he : e.window with
    | none =>
      have h1 : (Entry.countDown e).openCount = none := by
        simp [Entry.openCount, Entry.countDown, Entry.closeAtCount, Entry.mapWindow, he]
      rw [List.filterMap_cons_none h1, List.filterMap_cons_none (by simp [Entry.openCount, he]), ih]
    | some v =>
      rw [List.filterMap_cons_some (b := v.count.toNat) (l := rest) (by simp [Entry.openCount, he]), List.map_cons]
      have hm := toNat_pred v.count
      by_cases h0 : v.count.toNat - 1 = 0
      · have h1 : (Entry.countDown e).openCount = none := by
          simp [Entry.openCount, Entry.countDown, Entry.closeAtCount, Entry.mapWindow, he, Option.filter,
            Window.loseCount, h0]
        rw [List.filterMap_cons_none h1, List.filter_cons_of_neg (by simp [h0]), ih]
      · have hne : BitVec.ofNat 8 (v.count.toNat - 1) ≠ 0#8 := by
          intro e0; rw [e0] at hm; simp at hm; omega
        have h1 : (Entry.countDown e).openCount = some (v.count.toNat - 1) := by
          simp [Entry.openCount, Entry.countDown, Entry.closeAtCount, Entry.mapWindow, he, Option.filter,
            Window.loseCount, hne, hm]
        rw [List.filterMap_cons_some h1, List.filter_cons_of_pos (by simpa using h0), ih]

/-- Every open count of a legal journal lies from 1 to the reach count (R120). -/
theorem Journal.Legal.openCounts_range {t : TripContext} {j : Journal} (h : j.Legal t) :
    ∀ n ∈ j.openCounts, 1 ≤ n ∧ n ≤ t.reachCount.toNat := by
  intro n hn
  obtain ⟨e, he, hw⟩ := List.mem_filterMap.mp hn
  unfold Entry.openCount at hw
  cases hv : e.window with
  | none => simp [hv] at hw
  | some v =>
    simp only [hv, Option.map_some, Option.some.injEq] at hw
    obtain ⟨-, h2, h3, -, -⟩ := (h.entries e he).window v hv
    omega

theorem pairwise_countDown {l : List Nat} (h : l.Pairwise (· < ·)) (hpos : ∀ n ∈ l, 1 ≤ n) :
    ((l.map (fun n => n - 1)).filter (fun n => n ≠ 0)).Pairwise (· < ·) := by
  refine List.Pairwise.filter _ ?_
  rw [List.pairwise_map]
  exact h.imp_of_mem (fun {a b} ha hb hab => by have := hpos a ha; omega)

theorem Journal.Legal.countDown {t : TripContext} {j : Journal} (h : j.Legal t) :
    Journal.Legal t { j with entries := j.entries.map Entry.countDown } := by
  refine h.map _ (fun _ _ => ⟨rfl, rfl⟩) (fun e he => (h.entries e he).countDown) ?_
  unfold Journal.openCounts
  dsimp only
  rw [openCounts_countDown]
  exact pairwise_countDown h.windows (fun n hn => (h.openCounts_range n hn).1)

/-- After a count-down every open count lies below the reach count. -/
theorem Journal.Legal.countDown_lt {t : TripContext} {j : Journal} (h : j.Legal t) :
    ∀ n ∈ Journal.openCounts { j with entries := j.entries.map Entry.countDown }, n < t.reachCount.toNat := by
  intro n hn
  unfold Journal.openCounts at hn
  dsimp only at hn
  rw [openCounts_countDown] at hn
  obtain ⟨hn1, hn2⟩ := List.mem_filter.mp hn
  obtain ⟨k, hk, rfl⟩ := List.mem_map.mp hn1
  have := h.openCounts_range k hk
  simp only [ne_eq, decide_not, Bool.not_eq_true', decide_eq_false_iff_not] at hn2
  omega

theorem Journal.Legal.evict {t : TripContext} {j : Journal} (h : j.Legal t) : j.evict.Legal t := by
  unfold Journal.evict
  cases he : j.entries with
  | nil => exact h
  | cons e rest =>
    have hn := h.numbers
    have hown : ∀ ownId, j.ownNumbers ownId =
        ((((e :: rest).filter (fun e => decide (e.originId = ownId))).map Entry.originNumber).reverse) := by
      intro ownId; unfold Journal.ownNumbers; rw [he]
    have hnew : ∀ (j' : Journal), j'.entries = rest → j'.ownCounter = j.ownCounter →
        j'.ownNumbers t.ownId = lastOwnNumbers (j'.ownNumbers t.ownId).length j.ownCounter
        ∧ (j.ownNumbers t.ownId = [] → j'.ownNumbers t.ownId = []) := by
      intro j' h1 _
      have e1 : j'.ownNumbers t.ownId =
          ((rest.filter (fun e => decide (e.originId = t.ownId))).map Entry.originNumber).reverse := by
        unfold Journal.ownNumbers; rw [h1]
      rw [hown] at hn ⊢
      rw [e1]
      by_cases hc : e.originId = t.ownId
      · rw [List.filter_cons_of_pos (by simpa using hc), List.map_cons, List.reverse_cons] at hn ⊢
        generalize ((rest.filter (fun e => decide (e.originId = t.ownId))).map Entry.originNumber).reverse = l at *
        constructor
        · have := congrArg List.dropLast hn
          rw [List.dropLast_concat, List.length_append, List.length_singleton, lastOwnNumbers_dropLast] at this
          exact this
        · intro h0; simp at h0
      · rw [List.filter_cons_of_neg (by simpa using hc)] at hn ⊢
        exact ⟨hn, id⟩
    refine ⟨?_, ?_, ?_, ?_, ?_, ?_, ?_⟩
    · have := h.length; rw [he] at this; simp at this ⊢; omega
    · intro x hx; exact h.entries x (by rw [he]; simp at hx ⊢; right; exact hx)
    · refine List.Pairwise.sublist ?_ h.windows
      unfold Journal.openCounts; rw [he]
      exact List.Sublist.filterMap _ (List.sublist_cons_self _ _)
    · exact (hnew { j with entries := rest } rfl rfl).1
    · intro h0; exact (hnew { j with entries := rest } rfl rfl).2 (h.counter h0)
    · refine List.Nodup.sublist ?_ h.peers
      unfold Journal.peerPairs; rw [he]
      exact ((List.sublist_cons_self _ _).filter _).map _
    · intro h0; cases h0

/-- Room has been made: the journal is legal and holds at most 255 entries (R108). -/
theorem Journal.Legal.makeRoom {s : State} (h : s.journal.Legal s.trip) :
    s.makeRoom.journal.Legal s.trip ∧ s.makeRoom.journal.entries.length ≤ 255 := by
  rw [State.makeRoom_journal]
  have hl := h.length
  split
  · refine ⟨h.evict, ?_⟩
    unfold Journal.evict
    cases he : s.journal.entries with
    | nil => rename_i hc; rw [he] at hc; simp at hc
    | cons e rest => rw [he] at hl; simp at hl ⊢; omega
  · exact ⟨h, by omega⟩

theorem State.makeRoom_entries_sublist (s : State) : s.makeRoom.journal.entries.Sublist s.journal.entries := by
  rw [State.makeRoom_journal]
  split
  · unfold Journal.evict
    cases he : s.journal.entries with
    | nil => simp [he]
    | cons e rest => simp
  · exact List.Sublist.refl _

/-- The journal after an own insertion. -/
theorem State.insertOwn_journal (o : OwnSighting) (s : State) :
    (s.insertOwn o).journal = { s.makeRoom.journal with
      ownCounter := nextOwnNumber s.makeRoom.journal.ownCounter,
      entries := s.makeRoom.journal.entries.map Entry.countDown
        ++ [o.entry s.trip (nextOwnNumber s.makeRoom.journal.ownCounter)] } := by
  simp [State.insertOwn, State.mapEntries, State.appendEntry]

theorem State.insertOwn_trip (o : OwnSighting) (s : State) :
    (s.insertOwn o).trip = { s.trip with ownCount := saturate s.trip.ownCount } := by
  simp [State.insertOwn]

theorem Journal.Legal.insertOwn {s : State} (h : s.journal.Legal s.trip) (ht : s.trip.Legal) (o : OwnSighting) :
    (s.insertOwn o).journal.Legal s.trip := by
  obtain ⟨hr, hlen⟩ := h.makeRoom
  rw [State.insertOwn_journal]
  generalize s.makeRoom.journal = j at hr hlen
  have hd := hr.countDown
  have hlt := hr.countDown_lt
  have hown : Journal.ownNumbers { j with
      ownCounter := nextOwnNumber j.ownCounter,
      entries := j.entries.map Entry.countDown ++ [o.entry s.trip (nextOwnNumber j.ownCounter)] } s.trip.ownId
      = nextOwnNumber j.ownCounter :: j.ownNumbers s.trip.ownId := by
    have := Journal.ownNumbers_map (j := j) (f := Entry.countDown) s.trip.ownId (fun _ _ => ⟨rfl, rfl⟩)
    unfold Journal.ownNumbers at this ⊢
    dsimp only at this ⊢
    rw [List.filter_append, List.map_append, List.reverse_append, this]
    simp [OwnSighting.entry]
  refine ⟨?_, ?_, ?_, ?_, ?_, ?_, hr.wrapped⟩
  · simp; omega
  · intro e he
    rcases List.mem_append.mp he with h1 | h1
    · exact hd.entries e h1
    · rw [List.mem_singleton] at h1
      subst h1
      refine ⟨ht.ownId, ?_, ht.current, ?_, ?_⟩
      · have := nextOwnNumber_ne j.ownCounter
        by_contra hc
        exact this (BitVec.eq_of_toNat_eq (by simp only [OwnSighting.entry] at hc; simp; omega))
      · intro hp; exact absurd rfl hp
      · intro w hw
        simp only [OwnSighting.entry, Option.some.injEq] at hw
        subst hw
        exact ⟨rfl, ht.reachCount.1, le_refl _, ht.reachMinutes.1, le_refl _⟩
  · have hw := hd.windows
    unfold Journal.openCounts at hw hlt ⊢
    dsimp only at hw hlt ⊢
    rw [List.filterMap_append, List.pairwise_append]
    refine ⟨hw, ?_, ?_⟩
    · simp [OwnSighting.entry, Entry.openCount]
    · intro a ha b hb
      have hb' : b = s.trip.reachCount.toNat := by simpa [OwnSighting.entry, Entry.openCount, eq_comm] using hb
      rw [hb']; exact hlt a ha
  · rw [hown]
    have hn := hr.numbers
    rw [List.length_cons, lastOwnNumbers]
    congr 1
    by_cases h0 : j.ownCounter = 0#16
    · rw [hr.counter h0]; rfl
    · rw [previousOwnNumber_next h0]; exact hn
  · intro h0; exact absurd h0 (nextOwnNumber_ne _)
  · have hp := hr.peers
    have := Journal.peerPairs_map (j := j) (f := Entry.countDown) s.trip.ownId (fun _ _ => ⟨rfl, rfl⟩)
    unfold Journal.peerPairs at this hp ⊢
    dsimp only at this ⊢
    rw [List.filter_append, List.map_append, this]
    simpa [OwnSighting.entry] using hp

/-! ### Merging -/

theorem byteOf_toNat {v : Nat} (h : v < 256) : (byteOf v).toNat = v := by
  unfold byteOf; rw [BitVec.toNat_ofNat]; exact Nat.mod_eq_of_lt h

/-- What a record that is not rejected holds (R114). -/
theorem State.classify_fields {s : State} {p : PeerRecord} (h : s.classify p ≠ .rejected) :
    1 ≤ p.originId ∧ p.originId ≤ 63 ∧ p.originId ≠ s.trip.ownId.toNat ∧ p.originNumber ≠ 0
      ∧ p.section_ < s.trip.plan.length ∧ p.issuer ≤ 15 := by
  unfold State.classify at h
  split_ifs at h with hc
  · exact absurd rfl h
  · omega

theorem Journal.Legal.mergeRecord {s : State} (h : s.journal.Legal s.trip) (ht : s.trip.Legal) (p : PeerRecord)
    (hn : p.originNumber < 65536) : (s.mergeRecord p).journal.Legal s.trip := by
  unfold State.mergeRecord
  have hsec := ht.sections.2
  cases hc : s.classify p with
  | rejected => exact h
  | duplicate => exact h
  | updated o =>
    obtain ⟨h1, h2, h3, h4, h5, h6⟩ := State.classify_fields (s := s) (p := p) (by rw [hc]; simp)
    have hne : byteOf p.originId ≠ s.trip.ownId := by
      intro e; apply h3; rw [← e, byteOf_toNat (by omega)]
    refine h.map_closing _ ?_ ?_ ?_
    · intro e _; dsimp only; split <;> exact ⟨rfl, rfl⟩
    · intro e he
      have hl := h.entries e he
      dsimp only
      split
      · rename_i hp
        simp only [Entry.isPair, decide_eq_true_eq] at hp
        have hpe := hl.peer (by rw [hp.1]; exact hne)
        exact ⟨hl.originId, hl.originNumber, hl.section_, fun _ => hpe, by
          intro w hw; simp only at hw; rw [hpe.2.2.2] at hw; cases hw⟩
      · exact hl
    · intro e _; right; dsimp only; split <;> rfl
  | accepted v o =>
    obtain ⟨h1, h2, h3, h4, h5, h6⟩ := State.classify_fields (s := s) (p := p) (by rw [hc]; simp)
    have hne : byteOf p.originId ≠ s.trip.ownId := by
      intro e; apply h3; rw [← e, byteOf_toNat (by omega)]
    have hnone : s.journal.entryOf (byteOf p.originId) (BitVec.ofNat 16 p.originNumber) = none := by
      unfold State.classify at hc
      split_ifs at hc
      split at hc
      · split at hc
        · split_ifs at hc
        · assumption
      · cases hc
    obtain ⟨hr, hlen⟩ := h.makeRoom
    have hsub := s.makeRoom_entries_sublist
    simp only [State.appendEntry_journal]
    generalize s.makeRoom.journal = j at hr hlen hsub
    have hown : Journal.ownNumbers { j with entries := j.entries ++ [p.entry v o] } s.trip.ownId
        = j.ownNumbers s.trip.ownId := by
      unfold Journal.ownNumbers
      simp [PeerRecord.entry, hne]
    refine ⟨?_, ?_, ?_, ?_, ?_, ?_, hr.wrapped⟩
    · simp; omega
    · intro e he
      rcases List.mem_append.mp he with h7 | h7
      · exact hr.entries e h7
      · rw [List.mem_singleton] at h7
        subst h7
        refine ⟨?_, ?_, ?_, ?_, ?_⟩
        · simp only [PeerRecord.entry]; rw [byteOf_toNat (by omega)]; exact ⟨h1, h2⟩
        · simp only [PeerRecord.entry, BitVec.toNat_ofNat]
          rw [Nat.mod_eq_of_lt (by omega)]; omega
        · simp only [PeerRecord.entry]; rw [byteOf_toNat (by omega)]; exact h5
        · intro _
          refine ⟨?_, rfl, rfl, rfl⟩
          simp only [PeerRecord.entry]; rw [byteOf_toNat (by omega)]; exact h6
        · intro w hw; simp [PeerRecord.entry] at hw
    · have := hr.windows
      unfold Journal.openCounts at this ⊢
      have h0 : (p.entry v o).openCount = none := rfl
      dsimp only
      rw [List.filterMap_append, List.filterMap_cons_none h0, List.filterMap_nil, List.append_nil]
      exact this
    · rw [hown]; exact hr.numbers
    · rw [hown]; exact hr.counter
    · have hp := hr.peers
      unfold Journal.peerPairs at hp ⊢
      dsimp only
      rw [List.filter_append, List.map_append, List.nodup_append]
      refine ⟨hp, ?_, ?_⟩
      · simp [PeerRecord.entry, hne]
      · intro a ha b hb
        have hb' : b = (byteOf p.originId, BitVec.ofNat 16 p.originNumber) := by
          simpa [PeerRecord.entry, hne, eq_comm] using hb
        subst hb'
        intro e
        subst e
        obtain ⟨x, hx, hxe⟩ := List.mem_map.mp ha
        have hx' := hsub.subset (List.mem_filter.mp hx).1
        have := List.find?_eq_none.mp hnone x hx'
        apply this
        simp only [Prod.mk.injEq] at hxe
        simp [Entry.isPair, hxe]

/-! ### Amending -/

theorem Journal.Legal.amend {s : State} (h : s.journal.Legal s.trip) (n : Half) (o : Outcome) :
    (s.updateEntry s.trip.ownId n (Entry.amend o)).journal.Legal s.trip := by
  refine h.map_closing _ ?_ ?_ ?_
  · intro e _; split <;> exact ⟨rfl, rfl⟩
  · intro e he
    have hl := h.entries e he
    split
    · refine ⟨hl.originId, hl.originNumber, hl.section_, ?_, ?_⟩
      · intro hp
        have := hl.peer hp
        exact ⟨this.1, this.2.1, this.2.2.1, rfl⟩
      · intro w hw; cases hw
    · exact hl
  · intro e _; split
    · left; rfl
    · right; rfl

/-! ### Consequences -/

/-- At most eight entries have an open window (R120). -/
theorem Journal.Legal.open_le_eight {t : TripContext} {j : Journal} (h : j.Legal t) (ht : t.reachCount.toNat ≤ 8) :
    (j.entries.filter (fun e => e.window.isSome)).length ≤ 8 := by
  have h1 : (j.entries.filter (fun e => e.window.isSome)).length = j.openCounts.length := by
    unfold Journal.openCounts
    generalize j.entries = l
    induction l with
    | nil => rfl
    | cons e rest ih =>
      cases he : e.window with
      | none => rw [List.filter_cons_of_neg (by simp [he]), List.filterMap_cons_none (by simp [Entry.openCount, he]), ih]
      | some w =>
        rw [List.filter_cons_of_pos (by simp [he]), List.filterMap_cons_some (b := w.count.toNat) (by simp [Entry.openCount, he])]
        simp [ih]
  rw [h1]
  have hsub : j.openCounts ⊆ List.range' 1 8 := by
    intro n hn
    have := h.openCounts_range n hn
    rw [List.mem_range'_1]; omega
  have hnd : j.openCounts.Nodup := h.windows.imp (fun hab => by omega)
  have := (hnd.subperm hsub).length_le
  simpa using this

/-- No two entries held share an origin pair (R104, R107). -/
theorem Journal.Legal.pairs_nodup {t : TripContext} {j : Journal} (h : j.Legal t) : j.pairs.Nodup := by
  have hlen : (j.ownNumbers t.ownId).length ≤ 256 := by
    have h1 := h.length
    unfold Journal.ownNumbers
    have h2 := List.length_filter_le (fun e : Entry => decide (e.originId = t.ownId)) j.entries
    simp; omega
  have hown : (j.ownNumbers t.ownId).Nodup := by
    by_cases h0 : j.ownCounter = 0#16
    · rw [h.counter h0]; exact List.nodup_nil
    · rw [h.numbers]; exact lastOwnNumbers_nodup h0 (by omega)
  unfold Journal.pairs
  rw [List.Nodup, List.pairwise_map]
  have hp := h.peers
  unfold Journal.ownNumbers at hown
  rw [List.nodup_reverse, List.Nodup, List.pairwise_map, List.pairwise_filter] at hown
  unfold Journal.peerPairs at hp
  rw [List.Nodup, List.pairwise_map, List.pairwise_filter] at hp
  refine (hown.and hp).imp ?_
  rintro a b ⟨h1, h2⟩ he
  simp only [Prod.mk.injEq] at he
  by_cases ha : a.originId = t.ownId
  · exact h1 (by simpa using ha) (by simpa using he.1 ▸ ha) he.2
  · refine h2 (by simpa using ha) (by simpa using fun e => ha (he.1.trans e)) ?_
    simp [he.1, he.2]

end Sys2Proof.Machine
end

