-- ==== Sys2Proof/Laws/Port.lean ====
section
/-!
SUPPORT. Sys2Proof/Laws/Port.lean: the shared operations keep the Link Port's part of the invariant.
-/
namespace Sys2Proof.Machine

/-- The FAULT record and MORE agree: an empty record has MORE clear (R163). -/
def State.FaultOk (s : State) : Prop := s.faultRecord = none → s.faultMore = false

theorem State.FaultOk.of_eq {s t : State} (h : s.FaultOk) (h1 : t.faultRecord = s.faultRecord)
    (h2 : t.faultMore = s.faultMore) : t.FaultOk := by
  intro h3; rw [h2]; exact h (h1 ▸ h3)

theorem State.FaultOk.of_ne {t : State} (h : t.faultRecord ≠ none) : t.FaultOk := fun h3 => absurd h3 h

theorem State.awake_congr {s t : State} (h : t.part = s.part) : t.awake = s.awake := by
  simp [State.awake, h]

/-- What keeps the Link Port's invariant: everything stands, but for the tables becoming UNUSABLE and a fault
offered. -/
theorem PortInv.of_same {s t : State} (h : PortInv s) (part : t.part = s.part) (anchor : t.anchor = s.anchor)
    (windows : t.windows = s.windows) (phaseTable : t.phaseTable = s.phaseTable)
    (restPending : t.restPending = s.restPending) (holdReq : t.holdReq = s.holdReq)
    (snapshot : t.snapshot = s.snapshot) (tables : t.tables = s.tables ∨ t.tables = .unusable)
    (fault : t.FaultOk) : PortInv t := by
  have hawake := State.awake_congr part
  refine ⟨?_, ?_, ?_, ?_, ?_, ?_, ?_, ?_, fault⟩
  · rw [anchor]; exact h.anchor
  · rw [windows, hawake]; exact h.windows
  · rw [windows]; exact h.legal
  · rw [phaseTable, hawake]; exact h.phaseTable
  · rw [restPending, part]; exact h.restPending
  · intro ht; rw [hawake]
    rcases tables with e | e
    · exact h.tables (e ▸ ht)
    · exact absurd e ht
  · intro ht; rw [holdReq]
    rcases tables with e | e
    · exact h.held (e ▸ ht)
    · rw [e] at ht; cases ht
  · rw [snapshot]; exact h.snapshot

theorem PortInv.faultOk {s : State} (h : PortInv s) : s.FaultOk := h.fault

theorem PortInv.tableFault {s : State} (h : PortInv s) (slot : Byte) (check : Nat) : PortInv (s.tableFault slot check) :=
  h.of_same (by simp) (by simp) (by simp) (by simp) (by simp) (by simp) (by simp) (by simp)
    (.of_ne (by simp))

theorem PortInv.breakChain {s : State} (h : PortInv s) (c : Chain) (l : Link) : PortInv (s.breakChain c l) :=
  h.of_same (by simp) (by simp) (by simp) (by simp) (by simp) (by simp) (by simp) (by simp) (.of_ne (by simp))

theorem PortInv.endOnFault {s : State} (h : PortInv s) (f : InFlight) : PortInv (s.endOnFault f) :=
  h.of_same (by simp) (by simp) (by simp) (by simp) (by simp) (by simp) (by simp) (by simp) (.of_ne (by simp))

theorem PortInv.setChain {s : State} (h : PortInv s) (c : Chain) (r : ChainRec) : PortInv (s.setChain c r) :=
  h.of_same (by simp) (by simp) (by simp) (by simp) (by simp) (by simp) (by simp) (by simp)
    (h.faultOk.of_eq (by simp) (by simp))

theorem PortInv.setHead {s : State} (h : PortInv s) (c : Chain) (l : Link) : PortInv (s.setHead c l) := by
  unfold State.setHead; split_ifs
  · exact h.setChain _ _
  · exact h.setChain _ _
  · exact h.breakChain _ _

theorem PortInv.takeHead {s : State} (h : PortInv s) (failing : List Access) (c : Chain) :
    PortInv (s.takeHead failing c) := by
  unfold State.takeHead; split
  · exact h.breakChain _ _
  · exact h.setHead _ _

theorem PortInv.answer {s : State} (h : PortInv s) (failing : List Access) (f : InFlight) (n : Nat) (bs : List Byte)
    (r : Option Reason) : PortInv (s.answer failing f n bs r) := by
  refine h.of_same (by simp) (by simp) (by simp) (by simp) (by simp) (by simp) (by simp) (by simp) ?_
  unfold State.answer; dsimp only; split
  · exact h.faultOk.of_eq (by simp) (by simp)
  · exact .of_ne (by simp)

/-- Changes of the trip, the clock, the journal, memory and EVENTS keep the Link Port's invariant. -/
theorem PortInv.of_rest {s t : State} (h : PortInv s) (part : t.part = s.part) (anchor : t.anchor = s.anchor)
    (windows : t.windows = s.windows) (phaseTable : t.phaseTable = s.phaseTable)
    (restPending : t.restPending = s.restPending) (holdReq : t.holdReq = s.holdReq)
    (snapshot : t.snapshot = s.snapshot) (tables : t.tables = s.tables) (fault : t.faultRecord = s.faultRecord)
    (more : t.faultMore = s.faultMore) : PortInv t :=
  h.of_same part anchor windows phaseTable restPending holdReq snapshot (.inl tables) (h.faultOk.of_eq fault more)

theorem PortInv.setMem {s : State} (h : PortInv s) (m : List Host.Cell) : PortInv { s with mem := m } :=
  h.of_rest rfl rfl rfl rfl rfl rfl rfl rfl rfl rfl

theorem PortInv.followLink {s : State} (h : PortInv s) (failing : List Access) (c : Chain) (l : Link) :
    PortInv (s.followLink failing c l) := by
  unfold State.followLink; split
  · exact h.breakChain _ _
  · dsimp only; split_ifs
    · exact h.setChain _ _
    · exact (h.setMem _).setChain _ _
    · exact h.breakChain _ _
    · exact h.breakChain _ _

theorem PortInv.afterLink {s : State} (h : PortInv s) (failing : List Access) (c : Chain) (b : Bool) :
    PortInv (s.afterLink failing c b) := by
  unfold State.afterLink State.usePendingNudge; dsimp only; split_ifs
  · exact h
  · exact h.takeHead _ _
  · exact h.setChain _ _
  · exact h

/-- The grant keeps the invariant where its conditions hold (R151). -/
theorem PortInv.grantIfFree {s : State} (h : PortInv s) : PortInv s.grantIfFree := by
  unfold State.grantIfFree State.mayGrant; split
  · rename_i hc
    simp only [Bool.and_eq_true] at hc
    refine ⟨h.anchor, h.windows, h.legal, h.phaseTable, h.restPending, ?_, ?_, h.snapshot, h.fault⟩
    · intro _; exact hc.1.1.2
    · intro _; exact hc.1.1.1
  · exact h

theorem PortInv.setHoldLevel {s : State} (h : PortInv s) (level : Bool) : PortInv (s.setHoldLevel level) := by
  unfold State.setHoldLevel; split
  · refine PortInv.grantIfFree ⟨h.anchor, h.windows, h.legal, h.phaseTable, h.restPending, h.tables, ?_, h.snapshot,
      h.fault⟩
    intro _; rfl
  · refine ⟨h.anchor, h.windows, h.legal, h.phaseTable, h.restPending, ?_, ?_, h.snapshot, h.fault⟩
    · intro ht
      refine h.tables (fun e => ht ?_)
      simp [e]
    · intro ht
      dsimp only at ht
      split_ifs at ht
      contradiction

theorem PortInv.rest {s : State} (h : PortInv s) (hr : s.part = .running) : PortInv s.rest := by
  have ha : s.rest.awake = s.awake := by simp [State.awake, hr]
  refine ⟨h.anchor, ?_, h.legal, ?_, ?_, ?_, h.held, h.snapshot, h.fault⟩
  · rw [ha]; exact h.windows
  · rw [ha]; exact h.phaseTable
  · intro e; simp at e
  · intro ht; rw [ha]; exact h.tables ht

theorem PortInv.requestRest {s : State} (h : PortInv s) : PortInv s.requestRest := by
  unfold State.requestRest; split_ifs with h1 h2
  · exact h.rest h1
  · exact ⟨h.anchor, h.windows, h.legal, h.phaseTable, fun _ => h1, h.tables, h.held, h.snapshot, h.fault⟩
  · exact h

/-- Waking from RESTING keeps the invariant. -/
theorem PortInv.wake {s : State} (h : PortInv s) (ha : s.awake = true) : PortInv { s with part := .running } := by
  have ha' : State.awake { s with part := .running } = s.awake := by rw [ha]; simp [State.awake]
  refine ⟨h.anchor, ?_, h.legal, ?_, fun _ => rfl, ?_, h.held, h.snapshot, h.fault⟩
  · rw [ha']; exact h.windows
  · rw [ha']; exact h.phaseTable
  · intro _; rw [ha']; exact ha

theorem PortInv.wakeUp {s : State} (h : PortInv s) : PortInv s.wakeUp := by
  unfold State.wakeUp; split_ifs with h1 h2
  · exact h.wake (by simp [State.awake, h1])
  · exact ⟨h.anchor, h.windows, h.legal, h.phaseTable, fun e => by simp at e, h.tables, h.held, h.snapshot, h.fault⟩
  · exact h

theorem PortInv.start {s : State} (h : PortInv s) (hi : s.part = .idle) : PortInv { s with part := .starting } := by
  have ha : s.awake = false := by simp [State.awake, hi]
  have ha' : State.awake { s with part := .starting } = s.awake := by rw [ha]; simp [State.awake]
  refine ⟨h.anchor, ?_, h.legal, ?_, ?_, ?_, h.held, h.snapshot, h.fault⟩
  · rw [ha']; exact h.windows
  · rw [ha']; exact h.phaseTable
  · intro e; have := h.restPending e; rw [hi] at this; cases this
  · intro ht; rw [ha']; exact h.tables ht

theorem State.setHoldLevel_part (s : State) (level : Bool) : (s.setHoldLevel level).part = s.part := by
  unfold State.setHoldLevel; split <;> simp

theorem PortInv.writeControl {s : State} (h : PortInv s) (a b c d : Bool) : PortInv (s.writeControl a b c d) := by
  have h1 := h.setHoldLevel d
  unfold State.writeControl
  dsimp only
  split_ifs with h2
  · exact h1.start h2
  · exact h1
  · exact h1.wakeUp
  · exact h1.requestRest
  · exact h1

theorem PortInv.reset : PortInv State.reset := by
  refine ⟨by decide, rfl, ?_, rfl, ?_, ?_, ?_, by decide, fun _ => rfl⟩
  · intro w hw; cases hw
  · intro e; cases e
  · intro e; exact absurd rfl e
  · intro e; cases e

theorem PortInv.resetTo {s : State} {a : Word} (ha : a.toNat % 4096 = 0) : PortInv (s.resetTo a) :=
  ⟨ha, PortInv.reset.windows, PortInv.reset.legal, PortInv.reset.phaseTable, PortInv.reset.restPending,
    PortInv.reset.tables, PortInv.reset.held, PortInv.reset.snapshot, PortInv.reset.fault⟩

theorem baseOf_aligned (v : Nat) : baseOf v % 4096 = 0 := by unfold baseOf; omega

theorem limitOf_aligned (v : Nat) : limitOf v % 4096 = 4095 := by unfold limitOf; omega

theorem readBytes_length {get : Nat → Option Byte} {a n : Nat} {bs : List Byte} (h : readBytes get a n = some bs) :
    bs.length = n := by
  induction n generalizing a bs with
  | zero => simp [readBytes] at h; simp [← h]
  | succ n ih =>
    simp only [readBytes] at h
    split at h
    · cases h
    · split at h
      · cases h
      · rename_i hb
        cases h; simp [ih hb]

theorem leNat_lt (bs : List Byte) : leNat bs < 256 ^ bs.length := by
  induction bs with
  | nil => simp [leNat]
  | cons b bs ih =>
    have := b.isLt
    rw [leNat, List.length_cons, Nat.pow_succ]
    omega

theorem readField_lt {get : Nat → Option Byte} {a n v : Nat} (h : readField get a n = some v) : v < 256 ^ n := by
  unfold readField at h
  split at h
  · cases h
  · rename_i bs hb
    cases h
    have := leNat_lt bs
    rwa [readBytes_length hb] at this

/-- The window fields of an anchor block are 32-bit values, and its phase table has 16 entries (R170). -/
theorem readAnchorBlock_bounds {get : Nat → Option Byte} {a : AnchorBlock} (h : readAnchorBlock get = some a) :
    a.slipBase < 2 ^ 32 ∧ a.slipLimit < 2 ^ 32 ∧ a.tableBase < 2 ^ 32 ∧ a.tableLimit < 2 ^ 32
      ∧ a.interactiveHead < 2 ^ 24 ∧ a.backgroundHead < 2 ^ 24 ∧ a.phase.length = 16 := by
  cases hb : readBytes get 0 64 with
  | none => rw [readAnchorBlock, hb] at h; cases h
  | some bs =>
    rw [readAnchorBlock, hb] at h
    have hl := readBytes_length hb
    have hf : ∀ o n, fieldOf bs o n < 256 ^ n := by
      intro o n
      have := leNat_lt ((bs.drop o).take n)
      unfold fieldOf
      refine lt_of_lt_of_le this ?_
      exact Nat.pow_le_pow_right (by norm_num) (by simp)
    cases h
    refine ⟨?_, ?_, ?_, ?_, ?_, ?_, ?_⟩
    · have := hf 4 4; norm_num at this ⊢; exact this
    · have := hf 8 4; norm_num at this ⊢; exact this
    · have := hf 12 4; norm_num at this ⊢; exact this
    · have := hf 16 4; norm_num at this ⊢; exact this
    · have := hf 20 3; norm_num at this ⊢; exact this
    · have := hf 24 3; norm_num at this ⊢; exact this
    · simp [anchorFields, hl]

/-- The content of the reserved bytes and of bits 31:24 of the heads has no effect: two blocks that agree on the other
bytes have the same fields (R168). -/
theorem anchorFields_eq {bs cs : List Byte}
    (h : ∀ i, i < 44 → i ≠ 1 → i ≠ 2 → i ≠ 3 → i ≠ 23 → i ≠ 27 → bs[i]? = cs[i]?) :
    anchorFields bs = anchorFields cs := by
  have hf : ∀ o n, o + n ≤ 44 → (∀ i, o ≤ i → i < o + n → i ≠ 1 ∧ i ≠ 2 ∧ i ≠ 3 ∧ i ≠ 23 ∧ i ≠ 27) →
      (bs.drop o).take n = (cs.drop o).take n := by
    intro o n hle hi
    apply List.ext_getElem?
    intro j
    rw [List.getElem?_take, List.getElem?_take, List.getElem?_drop, List.getElem?_drop]
    split
    · obtain ⟨h1, h2, h3, h4, h5⟩ := hi (o + j) (by omega) (by omega)
      exact h _ (by omega) h1 h2 h3 h4 h5
    · rfl
  unfold anchorFields fieldOf
  rw [hf 0 1 (by omega) (by omega), hf 4 4 (by omega) (by omega), hf 8 4 (by omega) (by omega),
    hf 12 4 (by omega) (by omega), hf 16 4 (by omega) (by omega), hf 20 3 (by omega) (by omega),
    hf 24 3 (by omega) (by omega), hf 28 16 (by omega) (by omega)]

theorem toNat_baseOf {v : Nat} (h : v < 2 ^ 32) : (BitVec.ofNat 32 (baseOf v)).toNat = baseOf v := by
  rw [BitVec.toNat_ofNat]; exact Nat.mod_eq_of_lt (by unfold baseOf; omega)

theorem anchorOf_aligned (v : Word) : (anchorOf v).toNat % 4096 = 0 := by
  unfold anchorOf
  rw [toNat_baseOf v.isLt]
  exact baseOf_aligned _

theorem toNat_limitOf {v : Nat} (h : v < 2 ^ 32) : (BitVec.ofNat 32 (limitOf v)).toNat = limitOf v := by
  rw [BitVec.toNat_ofNat]; exact Nat.mod_eq_of_lt (by unfold limitOf; omega)

/-- An anchor block that passes its checks gives legal windows (R158, R159). -/
theorem AnchorBlock.windows_legal {get : Nat → Option Byte} {a : AnchorBlock} (h : readAnchorBlock get = some a)
    (hc : a.failedCheck = none) : a.windows.Legal := by
  obtain ⟨h1, h2, h3, h4, -, -, -⟩ := readAnchorBlock_bounds h
  have e1 := toNat_baseOf h1
  have e2 := toNat_limitOf h2
  have e3 := toNat_baseOf h3
  have e4 := toNat_limitOf h4
  unfold AnchorBlock.failedCheck AnchorBlock.windowsOverlap at hc
  split_ifs at hc with c1 c2 c3 c4 c5
  simp only [decide_eq_true_eq] at c4
  refine ⟨?_, ?_, ?_, ?_, ?_, ?_, ?_⟩ <;> simp only [AnchorBlock.windows, e1, e2, e3, e4]
  · exact baseOf_aligned _
  · exact limitOf_aligned _
  · exact baseOf_aligned _
  · exact limitOf_aligned _
  · omega
  · omega
  · omega

theorem PortInv.anchorFault {s : State} (h : PortInv s) (hs : s.part = .starting) (check : Nat) :
    PortInv (s.anchorFault check) := by
  have ha : s.awake = false := by simp [State.awake, hs]
  have ha' : (s.anchorFault check).awake = false := by simp [State.awake, State.anchorFault]
  have hw := h.windows
  have hp := h.phaseTable
  rw [ha] at hw hp
  refine ⟨by simpa [State.anchorFault] using h.anchor, ?_, ?_, ?_, ?_, ?_, ?_, ?_, ?_⟩
  · rw [ha']; simpa [State.anchorFault] using hw
  · simpa [State.anchorFault] using h.legal
  · rw [ha']; simpa [State.anchorFault] using hp
  · intro e
    have := h.restPending (by simpa [State.anchorFault] using e)
    rw [hs] at this; cases this
  · intro e
    have := h.tables (by simpa [State.anchorFault] using e)
    rw [ha] at this; cases this
  · intro e; simpa [State.anchorFault] using h.held (by simpa [State.anchorFault] using e)
  · simpa [State.anchorFault] using h.snapshot
  · exact State.FaultOk.of_ne (by simp [State.anchorFault])

theorem PortInv.anchorRead {s : State} (h : PortInv s) (failing : List Access) : PortInv (s.anchorRead failing) := by
  unfold State.anchorRead
  split_ifs with hs
  · split
    · exact h.anchorFault hs 1
    · rename_i a ha
      split
      · exact h.anchorFault hs _
      · rename_i hc
        have hl := AnchorBlock.windows_legal ha hc
        have hph := (readAnchorBlock_bounds ha).2.2.2.2.2.2
        have hr : s.restPending = false := by
          cases hr : s.restPending with
          | false => rfl
          | true => have := h.restPending hr; rw [hs] at this; cases this
        have hfault : ((({ s with windows := some a.windows, phaseTable := a.phase.map phaseChain, phase := 0 }.setHead
            .interactive (BitVec.ofNat 24 a.interactiveHead)).setHead .background
              (BitVec.ofNat 24 a.backgroundHead))).FaultOk := by
          have base : State.FaultOk { s with windows := some a.windows, phaseTable := a.phase.map phaseChain, phase := 0 } :=
            h.faultOk
          have step : ∀ (u : State) (c : Chain) (l : Link), u.FaultOk → (u.setHead c l).FaultOk := by
            intro u c l hu
            unfold State.setHead; split_ifs
            · exact hu.of_eq (by simp) (by simp)
            · exact hu.of_eq (by simp) (by simp)
            · exact .of_ne (by simp)
          exact step _ _ _ (step _ _ _ base)
        unfold State.acceptAnchor
        dsimp only
        split_ifs with hq
        · refine ⟨by simpa using h.anchor, ?_, ?_, ?_, ?_, ?_, ?_, by simpa using h.snapshot, ?_⟩
          · simp [State.awake]
          · intro w hw; simp at hw; exact hw ▸ hl
          · simp [State.awake, hph]
          · intro _; simp
          · intro _; simp [State.awake]
          · intro _; simpa using hq
          · exact hfault
        · refine ⟨by simpa using h.anchor, ?_, ?_, ?_, ?_, ?_, ?_, by simpa using h.snapshot, ?_⟩
          · simp [State.awake]
          · intro w hw; simp at hw; exact hw ▸ hl
          · simp [State.awake, hph]
          · intro _; simp
          · intro _; simp [State.awake]
          · intro e; simp at e
          · exact hfault
  · exact h

theorem readDirectory_length {get : Nat → Option Byte} {n a : Nat} {l : List (Option Word)}
    (h : readDirectory get n a = some l) : l.length = n := by
  induction n generalizing a l with
  | zero => simp [readDirectory] at h; simp [← h]
  | succ n ih =>
    simp only [readDirectory] at h
    split at h
    · cases h
    · split at h
      · cases h
      · rename_i hb; cases h; simp [ih hb]

/-- The slots of a walk that succeeds are the sixteen of the directory (R49, R50). -/
theorem State.walkResult_length {s : State} {failing : List Access} {l : List (Option Word)}
    (h : s.walkResult failing = .ok l) : l.length = 16 := by
  unfold State.walkResult at h
  split at h
  · cases h
  · rename_i slots hd
    split at h
    · cases h
    · split at h
      · cases h
      · cases h; exact readDirectory_length hd

theorem PortInv.walk {s : State} (h : PortInv s) (failing : List Access) : PortInv (s.walk failing) := by
  unfold State.walk
  split_ifs with hc
  · split
    · rename_i slots hs
      refine ⟨h.anchor, h.windows, h.legal, h.phaseTable, h.restPending, ?_, ?_, State.walkResult_length hs, h.fault⟩
      · intro _; exact h.tables (by rw [hc]; simp)
      · intro e; cases e
    · exact h.tableFault _ _
  · exact h

end Sys2Proof.Machine
end

