-- ==== Sys2Proof/Laws/Scheduler.lean ====
section
/-!
SUPPORT. Sys2Proof/Laws/Scheduler.lean: the shared operations keep the Slip Scheduler's part of the invariant.
-/
namespace Sys2Proof.Machine

theorem State.linkValid_congr {s t : State} (h : t.windows = s.windows) (l : Link) : t.linkValid l = s.linkValid l := by
  simp [State.linkValid, h]

@[simp] theorem State.setChain_linkValid (s : State) (c : Chain) (r : ChainRec) (l : Link) :
    (s.setChain c r).linkValid l = s.linkValid l := State.linkValid_congr (State.setChain_frame c r s).2.2.1 l

@[simp] theorem State.endOnFault_linkValid (s : State) (f : InFlight) (l : Link) :
    (s.endOnFault f).linkValid l = s.linkValid l := State.linkValid_congr (State.endOnFault_frame f s).2.2.1 l

theorem State.chainBusy_congr {s t : State} {c : Chain} (h : t.chain c = s.chain c) (he : t.examining = s.examining) :
    t.chainBusy c = s.chainBusy c := by
  simp [State.chainBusy, h, he]

/-- A chain's part of the invariant depends on its record, the windows, the slip in flight and the examination. -/
theorem ChainInv.congr {s t : State} {c : Chain} (h : ChainInv s c) (hc : t.chain c = s.chain c)
    (hw : t.windows = s.windows) (hf : t.inFlight = s.inFlight) (he : t.examining = s.examining) : ChainInv t c := by
  refine ⟨?_, ?_, ?_, ?_, ?_, ?_, ?_⟩
  · rw [hc]; exact h.empty
  · rw [hc]; exact h.broken
  · rw [hc, State.linkValid_congr hw]; exact h.cursor
  · rw [hc]; exact h.tail
  · rw [hc]; exact h.rereading
  · rw [hc, hf]; exact h.active
  · rw [hc, State.chainBusy_congr hc he]; exact h.restart

/-- What keeps the Scheduler's invariant: nothing it speaks of changes, but for the tables becoming UNUSABLE. -/
theorem SchedulerInv.of_same {s t : State} (h : SchedulerInv s) (part : t.part = s.part)
    (windows : t.windows = s.windows) (interactive : t.interactive = s.interactive)
    (background : t.background = s.background) (inFlight : t.inFlight = s.inFlight)
    (examining : t.examining = s.examining) (tables : t.tables = s.tables ∨ t.tables = .unusable) :
    SchedulerInv t := by
  have hc := State.chain_congr interactive background
  have ht : (s.tables = .usable ∨ s.tables = .unusable) → (t.tables = .usable ∨ t.tables = .unusable) := by
    intro h1; rcases tables with e | e
    · rwa [e]
    · exact .inr e
  refine ⟨fun c => (h.chains c).congr (hc c) windows inFlight examining, ?_, ?_, ?_⟩
  · intro ha c; rw [hc]; exact h.asleep (State.awake_congr part ▸ ha) c
  · intro f hf
    rw [inFlight] at hf
    obtain ⟨h1, h2, h3, h4⟩ := h.inFlight f hf
    exact ⟨by rwa [hc], by rwa [examining], by rwa [part], ht h4⟩
  · intro c he
    rw [examining] at he
    obtain ⟨h1, h2, h3, h4⟩ := h.examining c he
    exact ⟨by rwa [hc], by rwa [inFlight], by rwa [part], ht h4⟩

theorem ChainInv.of_reset {s : State} {c : Chain} (h : s.chain c = .reset) : ChainInv s c := by
  refine ⟨?_, ?_, ?_, ?_, ?_, ?_, ?_⟩ <;> simp [h, ChainRec.reset]

theorem ChainInv.of_broken {s : State} {c : Chain} (h : s.chain c = .broken) : ChainInv s c := by
  refine ⟨?_, ?_, ?_, ?_, ?_, ?_, ?_⟩ <;> simp [h, ChainRec.broken, ChainRec.reset]

/-- A chain that is not ACTIVE takes a new record: the rest of the Scheduler stands. -/
theorem SchedulerInv.replace {s t : State} (h : SchedulerInv s) {c : Chain} (part : t.part = s.part)
    (windows : t.windows = s.windows) (other : t.chain (otherChain c) = s.chain (otherChain c))
    (inFlight : t.inFlight = s.inFlight) (examining : t.examining = s.examining)
    (tables : t.tables = s.tables ∨ t.tables = .unusable) (ha : s.awake = true)
    (hin : ∀ f, s.inFlight = some f → f.chain = c → (t.chain c).state = .active)
    (hex : s.examining = some c → (t.chain c).state = .ahead) (hr : ChainInv t c) : SchedulerInv t := by
  have ht : (s.tables = .usable ∨ s.tables = .unusable) → (t.tables = .usable ∨ t.tables = .unusable) := by
    intro h1; rcases tables with e | e
    · rwa [e]
    · exact .inr e
  have cases2 : ∀ d : Chain, d = c ∨ d = otherChain c := by
    intro d; cases c <;> cases d <;> simp [otherChain]
  refine ⟨?_, ?_, ?_, ?_⟩
  · intro d
    rcases cases2 d with e | e
    · rw [e]; exact hr
    · rw [e]; exact (h.chains _).congr other windows inFlight examining
  · intro hn; rw [State.awake_congr part, ha] at hn; cases hn
  · intro f hf
    rw [inFlight] at hf
    obtain ⟨h1, h2, h3, h4⟩ := h.inFlight f hf
    refine ⟨?_, by rwa [examining], by rwa [part], ht h4⟩
    rcases cases2 f.chain with e | e
    · rw [e]; exact hin f hf e
    · rw [e, other, ← e]; exact h1
  · intro d he
    rw [examining] at he
    obtain ⟨h1, h2, h3, h4⟩ := h.examining d he
    refine ⟨?_, by rwa [inFlight], by rwa [part], ht h4⟩
    rcases cases2 d with e | e
    · rw [e] at he ⊢; exact hex he
    · rw [e, other, ← e]; exact h1

theorem SchedulerInv.tableFault {s : State} (h : SchedulerInv s) (slot : Byte) (check : Nat) :
    SchedulerInv (s.tableFault slot check) :=
  h.of_same (by simp) (by simp) (by simp) (by simp) (by simp) (by simp) (by simp)

theorem SchedulerInv.setMem {s : State} (h : SchedulerInv s) (m : List Host.Cell) : SchedulerInv { s with mem := m } :=
  h.of_same rfl rfl rfl rfl rfl rfl (.inl rfl)

/-- The part with a slip in flight is awake. -/
theorem SchedulerInv.flight_awake {s : State} (h : SchedulerInv s) {f : InFlight} (hf : s.inFlight = some f) :
    s.awake = true := by
  have := (h.inFlight f hf).2.2.1
  simp [State.awake, this]

theorem SchedulerInv.examining_awake {s : State} (h : SchedulerInv s) {c : Chain} (hf : s.examining = some c) :
    s.awake = true := by
  have := (h.examining c hf).2.2.1
  simp [State.awake, this]

/-- Work that ends on an access error: nothing in flight, the chain BROKEN (R145). -/
theorem SchedulerInv.endOnFault {s : State} (h : SchedulerInv s) {f : InFlight} (hf : s.inFlight = some f) :
    SchedulerInv (s.endOnFault f) := by
  have ha := h.flight_awake hf
  obtain ⟨h1, h2, h3, h4⟩ := h.inFlight f hf
  have hcb : (s.endOnFault f).chain f.chain = .broken := by rw [State.endOnFault_chain]; simp
  have hco : (s.endOnFault f).chain (otherChain f.chain) = s.chain (otherChain f.chain) := by
    rw [State.endOnFault_chain]; cases f.chain <;> simp [otherChain]
  have cases2 : ∀ d : Chain, d = f.chain ∨ d = otherChain f.chain := by
    intro d; cases f.chain <;> cases d <;> simp [otherChain]
  have hother : (s.chain (otherChain f.chain)).state ≠ .active := by
    intro e
    obtain ⟨g, hg, hgc⟩ := (h.chains (otherChain f.chain)).active e
    rw [hf] at hg; cases hg
    cases hc : f.chain <;> rw [hc] at hgc <;> simp [otherChain] at hgc
  refine ⟨?_, ?_, ?_, ?_⟩
  · intro d
    rcases cases2 d with e | e
    · rw [e]; exact .of_broken hcb
    · rw [e]
      have hd := h.chains (otherChain f.chain)
      refine ⟨?_, ?_, ?_, ?_, ?_, ?_, ?_⟩
      · rw [hco]; exact hd.empty
      · rw [hco]; exact hd.broken
      · rw [hco, State.endOnFault_linkValid]; exact hd.cursor
      · rw [hco]; exact hd.tail
      · rw [hco]; exact hd.rereading
      · rw [hco]; intro e; exact absurd e hother
      · rw [hco, State.chainBusy_congr hco (by simp)]; exact hd.restart
  · intro hn; rw [State.awake_congr (by simp : (s.endOnFault f).part = s.part), ha] at hn; cases hn
  · intro g hg; simp at hg
  · intro c hc; simp [h2] at hc

/-- The slip in flight is answered: its chain stays ACTIVE (R139). -/
theorem SchedulerInv.answered {s t : State} (h : SchedulerInv s) {f : InFlight} (hf : s.inFlight = some f)
    (part : t.part = s.part) (windows : t.windows = s.windows) (interactive : t.interactive = s.interactive)
    (background : t.background = s.background) (examining : t.examining = s.examining)
    (tables : t.tables = s.tables) (inFlight : t.inFlight = some { f with progress := .answered }) :
    SchedulerInv t := by
  have hc := State.chain_congr interactive background
  obtain ⟨h1, h2, h3, h4⟩ := h.inFlight f hf
  refine ⟨?_, ?_, ?_, ?_⟩
  · intro c
    have hd := h.chains c
    refine ⟨?_, ?_, ?_, ?_, ?_, ?_, ?_⟩
    · rw [hc]; exact hd.empty
    · rw [hc]; exact hd.broken
    · rw [hc, State.linkValid_congr windows]; exact hd.cursor
    · rw [hc]; exact hd.tail
    · rw [hc]; exact hd.rereading
    · rw [hc]; intro e
      obtain ⟨g, hg, hgc⟩ := hd.active e
      rw [hf] at hg; cases hg
      exact ⟨_, inFlight, hgc⟩
    · rw [hc, State.chainBusy_congr (hc c) examining]; exact hd.restart
  · intro ha c; rw [hc]; exact h.asleep (State.awake_congr part ▸ ha) c
  · intro g hg
    rw [inFlight] at hg; cases hg
    exact ⟨by simpa [hc] using h1, by rwa [examining], by rwa [part], by rwa [tables]⟩
  · intro c he; rw [examining, h2] at he; cases he

theorem SchedulerInv.answer {s : State} (h : SchedulerInv s) (failing : List Access) {f : InFlight}
    (hf : s.inFlight = some f) (n : Nat) (bs : List Byte) (r : Option Reason) :
    SchedulerInv (s.answer failing f n bs r) := by
  unfold State.answer; dsimp only; split
  · exact h.answered hf (by simp) (by simp) (by simp) (by simp) (by simp) (by simp) (by simp)
  · exact (h.setMem _).endOnFault hf

/-! ### Heads and links -/

/-- The record a head gives belongs to a chain that nothing is under way on. -/
theorem ChainInv.of_aheadAt {s : State} {c : Chain} {l : Link} (h : s.chain c = .aheadAt l)
    (hv : s.linkValid l = true) : ChainInv s c := by
  refine ⟨?_, ?_, ?_, ?_, ?_, ?_, ?_⟩ <;> simp [h, ChainRec.aheadAt, ChainRec.reset, hv]

theorem State.setHead_other (s : State) (c : Chain) (l : Link) :
    (s.setHead c l).chain (otherChain c) = s.chain (otherChain c) := by
  unfold State.setHead
  split_ifs
  · simp
  · simp
  · rw [State.breakChain_chain]; cases c <;> simp [otherChain]

theorem State.setHead_inv (s : State) (c : Chain) (l : Link) : ChainInv (s.setHead c l) c := by
  unfold State.setHead
  split_ifs with h1 h2
  · exact .of_reset (by simp)
  · exact .of_aheadAt (l := l) (by simp) (by simpa using h2)
  · exact .of_broken (by rw [State.breakChain_chain]; simp)

theorem State.takeHead_other (s : State) (failing : List Access) (c : Chain) :
    (s.takeHead failing c).chain (otherChain c) = s.chain (otherChain c) := by
  unfold State.takeHead
  split
  · rw [State.breakChain_chain]; cases c <;> simp [otherChain]
  · exact State.setHead_other _ _ _

theorem State.takeHead_inv (s : State) (failing : List Access) (c : Chain) :
    ChainInv (s.takeHead failing c) c := by
  unfold State.takeHead
  split
  · exact .of_broken (by rw [State.breakChain_chain]; simp)
  · exact State.setHead_inv _ _ _

/-- A restart's head read keeps the invariant where neither the slip in flight nor an examination is the chain's
(R141). -/
theorem SchedulerInv.takeHead {s : State} (h : SchedulerInv s) (failing : List Access) {c : Chain}
    (ha : s.awake = true) (hin : ∀ f, s.inFlight = some f → f.chain ≠ c) (hex : s.examining ≠ some c) :
    SchedulerInv (s.takeHead failing c) :=
  h.replace (c := c) (by simp) (by simp) (State.takeHead_other _ _ _) (by simp) (by simp) (by simp) ha
    (fun f hf e => absurd e (hin f hf)) (fun e => absurd e hex) (State.takeHead_inv _ _ _)

/-- A chain taken at an invalid link or on an access error is BROKEN; the rest stands. -/
theorem SchedulerInv.breakChain {s : State} (h : SchedulerInv s) {c : Chain} (l : Link)
    (ha : s.awake = true) (hin : ∀ f, s.inFlight = some f → f.chain ≠ c) (hex : s.examining ≠ some c) :
    SchedulerInv (s.breakChain c l) :=
  h.replace (c := c) (by simp) (by simp) (by rw [State.breakChain_chain]; cases c <;> simp [otherChain]) (by simp)
    (by simp) (by simp) ha (fun f hf e => absurd e (hin f hf)) (fun e => absurd e hex)
    (.of_broken (by rw [State.breakChain_chain]; simp))

/-- The slip in flight ends: its record is dropped while its chain takes a new record that is not ACTIVE. -/
theorem SchedulerInv.land {s t : State} (h : SchedulerInv s) {f : InFlight} (hf : s.inFlight = some f)
    (part : t.part = s.part) (windows : t.windows = s.windows)
    (other : t.chain (otherChain f.chain) = s.chain (otherChain f.chain)) (inFlight : t.inFlight = none)
    (examining : t.examining = s.examining) (hr : ChainInv t f.chain) : SchedulerInv t := by
  have ha := h.flight_awake hf
  obtain ⟨h1, h2, h3, h4⟩ := h.inFlight f hf
  have cases2 : ∀ d : Chain, d = f.chain ∨ d = otherChain f.chain := by
    intro d; cases f.chain <;> cases d <;> simp [otherChain]
  have hother : (s.chain (otherChain f.chain)).state ≠ .active := by
    intro e
    obtain ⟨g, hg, hgc⟩ := (h.chains (otherChain f.chain)).active e
    rw [hf] at hg; cases hg
    cases hc : f.chain <;> rw [hc] at hgc <;> simp [otherChain] at hgc
  refine ⟨?_, ?_, ?_, ?_⟩
  · intro d
    rcases cases2 d with e | e
    · rw [e]; exact hr
    · rw [e]
      have hd := h.chains (otherChain f.chain)
      refine ⟨?_, ?_, ?_, ?_, ?_, ?_, ?_⟩
      · rw [other]; exact hd.empty
      · rw [other]; exact hd.broken
      · rw [other, State.linkValid_congr windows]; exact hd.cursor
      · rw [other]; exact hd.tail
      · rw [other]; exact hd.rereading
      · rw [other]; intro e; exact absurd e hother
      · rw [other, State.chainBusy_congr other examining]; exact hd.restart
  · intro hn; rw [State.awake_congr part, ha] at hn; cases hn
  · intro g hg; rw [inFlight] at hg; cases hg
  · intro c hc; rw [examining, h2] at hc; cases hc

theorem State.followLink_other (s : State) (failing : List Access) (c : Chain) (l : Link) :
    (s.followLink failing c l).chain (otherChain c) = s.chain (otherChain c) := by
  unfold State.followLink
  split
  · rw [State.breakChain_chain]; cases c <;> simp [otherChain]
  · dsimp only; split_ifs
    · simp
    · rw [State.setChain_chain_other]; cases c <;> rfl
    · rw [State.breakChain_chain]; cases c <;> simp [otherChain]
    · rw [State.breakChain_chain]; cases c <;> simp [otherChain]

theorem State.afterLink_other (s : State) (failing : List Access) (c : Chain) (b : Bool) :
    (s.afterLink failing c b).chain (otherChain c) = s.chain (otherChain c) := by
  unfold State.afterLink State.usePendingNudge; dsimp only; split_ifs
  · rfl
  · exact State.takeHead_other _ _ _
  · simp
  · rfl

/-- A chain after its link was read: BROKEN, PARKED on link, or AHEAD, with its flags as they were. -/
theorem State.followLink_result (s : State) (failing : List Access) (c : Chain) (l : Link) :
    (s.followLink failing c l).chain c = .broken ∨
    ((s.followLink failing c l).chain c
      = { s.chain c with state := .parkedOnLink, cursor := l, tail := l, rereading := false }) ∨
    (∃ k, s.linkValid k = true ∧ (s.followLink failing c l).chain c
      = { s.chain c with state := .ahead, cursor := k, tail := 0#24, rereading := false }) := by
  unfold State.followLink
  split
  · left; rw [State.breakChain_chain]; simp
  · rename_i v _
    dsimp only
    split_ifs with h1 h2 h3
    · right; left; simp
    · right; right; exact ⟨BitVec.ofNat 24 v, h2, by simp⟩
    · left; rw [State.breakChain_chain]; simp
    · left; rw [State.breakChain_chain]; simp

/-- The chain's part of the invariant after its link was read and any restart or pending nudge used, where the restart
given is the one remembered, if any is (R139 to R141). -/
theorem State.link_inv {s : State} (failing : List Access) (c : Chain) (l : Link) (b : Bool)
    (hl : s.linkValid l = true) (hb : (s.chain c).restartRemembered = true → b = true) : ChainInv ((s.followLink failing c l).afterLink failing c b) c := by
  have hr := s.followLink_result failing c l
  have hv : ∀ k, (s.followLink failing c l).linkValid k = s.linkValid k := State.linkValid_congr (by simp)
  have hxc : (s.followLink failing c l).examining = s.examining := by simp
  generalize s.followLink failing c l = u at hr hv hxc
  unfold State.afterLink
  split_ifs with h1 h2
  · rcases hr with e | e | ⟨k, hk, e⟩
    · exact .of_broken e
    · rw [e] at h1; cases h1
    · rw [e] at h1; cases h1
  · exact State.takeHead_inv _ _ _
  · have hnr : (s.chain c).restartRemembered = false := by
      cases h : (s.chain c).restartRemembered with
      | false => rfl
      | true => exact absurd (hb h) h2
    unfold State.usePendingNudge
    dsimp only
    rcases hr with e | e | ⟨k, hk, e⟩
    · rw [e] at h1; exact absurd rfl h1
    · split_ifs with h3
      · refine ⟨?_, ?_, ?_, ?_, ?_, ?_, ?_⟩ <;> simp [e, hl, hnr, hv]
      · refine ⟨?_, ?_, ?_, ?_, ?_, ?_, ?_⟩ <;> simp [e, hl, hnr, hv]
    · rw [if_neg (by simp [e])]
      refine ⟨?_, ?_, ?_, ?_, ?_, ?_, ?_⟩ <;> simp [e, hk, hnr, hv]

theorem SchedulerInv.followUp {s : State} (h : SchedulerInv s) (failing : List Access) (b : Bool) :
    SchedulerInv (s.followUp failing b) := by
  unfold State.followUp
  cases hf : s.inFlight with
  | none => exact h
  | some f =>
    dsimp only
    obtain ⟨h1, h2, h3, h4⟩ := h.inFlight f hf
    have hcur : s.linkValid (s.chain f.chain).cursor = true :=
      (h.chains f.chain).cursor (by rw [h1]; simp) (by rw [h1]; simp)
    split_ifs with hp hr
    · refine h.land hf (by simp) (by simp) ?_ (by simp) (by simp) (State.takeHead_inv _ _ _)
      rw [State.takeHead_other]; cases f.chain <;> rfl
    · refine h.land hf (by simp) (by simp) ?_ (by simp) (by simp) ?_
      · rw [State.afterLink_other, State.followLink_other]; cases f.chain <;> rfl
      · have e1 : State.chain { s with inFlight := none } f.chain = s.chain f.chain := by cases f.chain <;> rfl
        refine State.link_inv _ _ _ _ ?_ ?_
        · rw [e1]; exact hcur
        · intro e; exact absurd e hr
    · exact h

theorem SchedulerInv.tailReread {s : State} (h : SchedulerInv s) (failing : List Access) (c : Chain) :
    SchedulerInv (s.tailReread failing c) := by
  unfold State.tailReread
  dsimp only
  split_ifs with hr
  · have hp := (h.chains c).rereading hr
    have hex : s.examining ≠ some c := by
      intro e; have := (h.examining c e).1; rw [hp] at this; cases this
    have hin : ∀ f, s.inFlight = some f → f.chain ≠ c := by
      intro f hf e; have := (h.inFlight f hf).1; rw [e, hp] at this; cases this
    have ha : s.awake = true := by
      cases ha : s.awake with
      | true => rfl
      | false => have := h.asleep ha c; rw [this] at hp; cases hp
    refine h.replace (c := c) (by simp) (by simp) ?_ (by simp) (by simp) (by simp) ha
      (fun f hf e => absurd e (hin f hf)) (fun e => absurd e hex) ?_
    · rw [State.afterLink_other, State.followLink_other]
    · refine State.link_inv _ _ _ _ ?_ (fun e => e)
      rw [(h.chains c).tail hp]
      exact (h.chains c).cursor (by rw [hp]; simp) (by rw [hp]; simp)
  · exact h

/-! ### NUDGE -/

theorem SchedulerInv.nudged {s : State} (h : SchedulerInv s) (ha : s.awake = true) (c : Chain) :
    SchedulerInv (s.setChain c (s.chain c).nudged) := by
  have hc := h.chains c
  refine h.replace (c := c) (by simp) (by simp) (by simp) (by simp) (by simp) (by simp) ha ?_ ?_ ?_
  · intro f hf e
    have := (h.inFlight f hf).1
    rw [e] at this
    simp [ChainRec.nudged, this]
  · intro he
    have := (h.examining c he).1
    simp [ChainRec.nudged, this]
  · have hv : ∀ r k, (s.setChain c r).linkValid k = s.linkValid k := fun r k => State.linkValid_congr (by simp) k
    have hre : (s.chain c).state ≠ .parkedOnLink → (s.chain c).rereading = false := by
      intro e
      cases hx : (s.chain c).rereading with
      | false => rfl
      | true => exact absurd (hc.rereading hx) e
    have hbusy : (s.chain c).restartRemembered = true →
        (s.chain c).state = .active ∨ (s.chain c).rereading = true ∨ s.examining = some c := by
      intro e; have := hc.restart e
      simpa [State.chainBusy, or_assoc] using this
    cases hs : (s.chain c).state with
    | empty =>
      have he := hc.empty hs
      refine .of_reset ?_
      rw [State.setChain_chain_same, he]; rfl
    | broken =>
      have he := hc.broken hs
      refine .of_broken ?_
      rw [State.setChain_chain_same, he]; rfl
    | ahead =>
      have hcu := hc.cursor (by rw [hs]; simp) (by rw [hs]; simp)
      have hr := hre (by rw [hs]; simp)
      refine ⟨?_, ?_, ?_, ?_, ?_, ?_, ?_⟩ <;> simp [ChainRec.nudged, hs, hv, hcu, hr, State.chainBusy]
      intro e; rcases hbusy e with e | e | e
      · rw [hs] at e; cases e
      · rw [hr] at e; cases e
      · exact e
    | active =>
      have hcu := hc.cursor (by rw [hs]; simp) (by rw [hs]; simp)
      have hr := hre (by rw [hs]; simp)
      have hact := hc.active hs
      refine ⟨?_, ?_, ?_, ?_, ?_, ?_, ?_⟩ <;> simp [ChainRec.nudged, hs, hv, hcu, hr, State.chainBusy, hact]
    | parkedOnStage =>
      have hcu := hc.cursor (by rw [hs]; simp) (by rw [hs]; simp)
      have hr := hre (by rw [hs]; simp)
      refine ⟨?_, ?_, ?_, ?_, ?_, ?_, ?_⟩ <;> simp [ChainRec.nudged, hs, hv, hcu, hr, State.chainBusy]
      intro e; rcases hbusy e with e | e | e
      · rw [hs] at e; cases e
      · rw [hr] at e; cases e
      · exact e
    | parkedOnLink =>
      have hcu := hc.cursor (by rw [hs]; simp) (by rw [hs]; simp)
      have ht := hc.tail hs
      cases hr : (s.chain c).rereading with
      | true =>
        refine ⟨?_, ?_, ?_, ?_, ?_, ?_, ?_⟩ <;> simp [ChainRec.nudged, hs, hv, hcu, hr, ht, State.chainBusy]
      | false =>
        refine ⟨?_, ?_, ?_, ?_, ?_, ?_, ?_⟩ <;> simp [ChainRec.nudged, hs, hv, hcu, hr, ht, State.chainBusy]

theorem SchedulerInv.restart {s : State} (h : SchedulerInv s) (ha : s.awake = true) (failing : List Access) (c : Chain) :
    SchedulerInv (s.restart failing c) := by
  unfold State.restart
  split_ifs with hb
  · have hc := h.chains c
    refine h.replace (c := c) (by simp) (by simp) (by simp) (by simp) (by simp) (by simp) ha ?_ ?_ ?_
    · intro f hf e
      have := (h.inFlight f hf).1
      rw [e] at this
      simpa using this
    · intro he
      simpa using (h.examining c he).1
    · have hv : ∀ r k, (s.setChain c r).linkValid k = s.linkValid k := fun r k => State.linkValid_congr (by simp) k
      have hne : (s.chain c).state ≠ .empty ∧ (s.chain c).state ≠ .broken := by
        simp only [State.chainBusy, Bool.or_eq_true, decide_eq_true_eq] at hb
        rcases hb with (e | e) | e
        · rw [e]; simp
        · rw [hc.rereading e]; simp
        · rw [(h.examining c e).1]; simp
      refine ⟨?_, ?_, ?_, ?_, ?_, ?_, ?_⟩
      · intro e; exact absurd (by simpa using e) hne.1
      · intro e; exact absurd (by simpa using e) hne.2
      · intro _ _; simpa [hv] using hc.cursor hne.1 hne.2
      · simpa using hc.tail
      · simpa using hc.rereading
      · simpa using hc.active
      · intro _; simpa [State.chainBusy] using hb
  · simp only [State.chainBusy, Bool.or_eq_true, decide_eq_true_eq, not_or] at hb
    refine h.takeHead _ ha ?_ hb.2
    intro f hf e
    have := (h.inFlight f hf).1
    rw [e] at this
    exact hb.1.1 this

/-! ### Part states -/

/-- Nothing in flight or under examination: the part state and the tables may change while the part stays awake. -/
theorem SchedulerInv.of_free {s t : State} (h : SchedulerInv s) (hfree : s.free = true)
    (ha' : t.awake = true) (windows : t.windows = s.windows) (interactive : t.interactive = s.interactive)
    (background : t.background = s.background) (inFlight : t.inFlight = s.inFlight)
    (examining : t.examining = s.examining) : SchedulerInv t := by
  have hc := State.chain_congr interactive background
  simp only [State.free, Bool.and_eq_true, Option.isNone_iff_eq_none] at hfree
  refine ⟨fun c => (h.chains c).congr (hc c) windows inFlight examining, ?_, ?_, ?_⟩
  · intro hn; rw [ha'] at hn; cases hn
  · intro f hf; rw [inFlight, hfree.1] at hf; cases hf
  · intro c he; rw [examining, hfree.2] at he; cases he

theorem SchedulerInv.grantIfFree {s : State} (h : SchedulerInv s) : SchedulerInv s.grantIfFree := by
  unfold State.grantIfFree State.mayGrant; split
  · rename_i hc
    simp only [Bool.and_eq_true] at hc
    exact h.of_free hc.2 hc.1.1.2 rfl rfl rfl rfl rfl
  · exact h

theorem SchedulerInv.setHoldLevel {s : State} (h : SchedulerInv s) (level : Bool) : SchedulerInv (s.setHoldLevel level) := by
  unfold State.setHoldLevel; split
  · exact SchedulerInv.grantIfFree (h.of_same rfl rfl rfl rfl rfl rfl (.inl rfl))
  · have hc : ∀ c, State.chain
        { s with holdReq := false, tables := if s.tables = .held then .checking else s.tables } c = s.chain c := by
      intro c; cases c <;> rfl
    have ht : (s.tables = .usable ∨ s.tables = .unusable) →
        (if s.tables = .held then TableState.checking else s.tables) = s.tables := by
      intro e; rw [if_neg]; rcases e with e | e <;> rw [e] <;> simp
    refine ⟨fun c => (h.chains c).congr (hc c) rfl rfl rfl, ?_, ?_, ?_⟩
    · intro ha c; rw [hc]; exact h.asleep ha c
    · intro f hf
      obtain ⟨h1, h2, h3, h4⟩ := h.inFlight f hf
      exact ⟨by rwa [hc], h2, h3, by dsimp only; rwa [ht h4]⟩
    · intro c he
      obtain ⟨h1, h2, h3, h4⟩ := h.examining c he
      exact ⟨by rwa [hc], h2, h3, by dsimp only; rwa [ht h4]⟩

theorem SchedulerInv.rest {s : State} (h : SchedulerInv s) (hm : s.mayRest = true) :
    SchedulerInv s.rest := by
  simp only [State.mayRest, Bool.and_eq_true] at hm
  exact h.of_free hm.1 (by simp [State.awake]) rfl rfl rfl rfl rfl

theorem SchedulerInv.requestRest {s : State} (h : SchedulerInv s) : SchedulerInv s.requestRest := by
  unfold State.requestRest; split_ifs with h1 h2
  · exact h.rest h2
  · exact h.of_same rfl rfl rfl rfl rfl rfl (.inl rfl)
  · exact h

/-- In RESTING nothing is in flight or under examination (R164). -/
theorem SchedulerInv.resting_free {s : State} (h : SchedulerInv s) (hr : s.part = .resting) : s.free = true := by
  simp only [State.free, Bool.and_eq_true, Option.isNone_iff_eq_none]
  constructor
  · cases hf : s.inFlight with
    | none => rfl
    | some f => have := (h.inFlight f hf).2.2.1; rw [hr] at this; cases this
  · cases he : s.examining with
    | none => rfl
    | some c => have := (h.examining c he).2.2.1; rw [hr] at this; cases this

theorem SchedulerInv.wake {s : State} (h : SchedulerInv s) (ha : s.awake = true) :
    SchedulerInv { s with part := .running } := by
  have hp : s.part = .running ∨ s.part = .resting := by simpa [State.awake] using ha
  rcases hp with e | e
  · exact h.of_same e.symm rfl rfl rfl rfl rfl (.inl rfl)
  · exact h.of_free (h.resting_free e) (by simp [State.awake]) rfl rfl rfl rfl rfl

theorem SchedulerInv.wakeUp {s : State} (h : SchedulerInv s) : SchedulerInv s.wakeUp := by
  unfold State.wakeUp; split_ifs with h1 h2
  · exact h.wake (by simp [State.awake, h1])
  · exact h.of_same rfl rfl rfl rfl rfl rfl (.inl rfl)
  · exact h

/-- A part that is not awake holds reset records, and every state that holds them keeps the invariant. -/
theorem SchedulerInv.of_asleep {s t : State} (h : SchedulerInv s) (ha : s.awake = false)
    (interactive : t.interactive = s.interactive) (background : t.background = s.background)
    (inFlight : t.inFlight = s.inFlight) (examining : t.examining = s.examining) : SchedulerInv t := by
  have hc : ∀ c, t.chain c = .reset := fun c => by
    rw [State.chain_congr interactive background]; exact h.asleep ha c
  have hf : s.inFlight = none := by
    cases hf : s.inFlight with
    | none => rfl
    | some f => have := h.flight_awake hf; rw [ha] at this; cases this
  have he : s.examining = none := by
    cases he : s.examining with
    | none => rfl
    | some c => have := h.examining_awake he; rw [ha] at this; cases this
  refine ⟨fun c => .of_reset (hc c), fun _ => hc, ?_, ?_⟩
  · intro f e; rw [inFlight, hf] at e; cases e
  · intro c e; rw [examining, he] at e; cases e

theorem SchedulerInv.writeControl {s : State} (h : SchedulerInv s) (a b c d : Bool) :
    SchedulerInv (s.writeControl a b c d) := by
  have h1 := h.setHoldLevel d
  unfold State.writeControl
  dsimp only
  split_ifs with h2
  · exact h1.of_asleep (by simp [State.awake, h2]) rfl rfl rfl rfl
  · exact h1
  · exact h1.wakeUp
  · exact h1.requestRest
  · exact h1

theorem SchedulerInv.reset : SchedulerInv State.reset := by
  refine ⟨fun c => .of_reset (by cases c <;> rfl), fun _ c => by cases c <;> rfl, ?_, ?_⟩
  · intro f hf; cases hf
  · intro c hc; cases hc

theorem SchedulerInv.resetTo (s : State) (a : Word) : SchedulerInv (s.resetTo a) :=
  SchedulerInv.reset.of_asleep rfl rfl rfl rfl rfl

theorem SchedulerInv.walk {s : State} (h : SchedulerInv s) (failing : List Access) : SchedulerInv (s.walk failing) := by
  unfold State.walk
  split_ifs with hc
  · have hno : ∀ x : TableState, x = .checking → ¬ (x = .usable ∨ x = .unusable) := by
      intro x e; rw [e]; simp
    have hfree : s.free = true := by
      simp only [State.free, Bool.and_eq_true, Option.isNone_iff_eq_none]
      constructor
      · cases hf : s.inFlight with
        | none => rfl
        | some f => exact absurd (h.inFlight f hf).2.2.2 (hno _ hc)
      · cases he : s.examining with
        | none => rfl
        | some c => exact absurd (h.examining c he).2.2.2 (hno _ hc)
    split
    · cases ha : s.awake with
      | true => exact h.of_free hfree ha rfl rfl rfl rfl rfl
      | false => exact h.of_asleep ha rfl rfl rfl rfl
    · exact h.tableFault _ _
  · exact h

theorem SchedulerInv.anchorRead {s : State} (h : SchedulerInv s) (failing : List Access) :
    SchedulerInv (s.anchorRead failing) := by
  unfold State.anchorRead
  split_ifs with hs
  · have ha : s.awake = false := by simp [State.awake, hs]
    have hf : s.inFlight = none := by
      cases hf : s.inFlight with
      | none => rfl
      | some f => have := h.flight_awake hf; rw [ha] at this; cases this
    have he : s.examining = none := by
      cases he : s.examining with
      | none => rfl
      | some c => have := h.examining_awake he; rw [ha] at this; cases this
    have hfault : ∀ k, SchedulerInv (s.anchorFault k) := fun k =>
      h.of_asleep ha (by simp [State.anchorFault]) (by simp [State.anchorFault]) (by simp [State.anchorFault])
        (by simp [State.anchorFault])
    split
    · exact hfault 1
    · rename_i a _
      split
      · exact hfault _
      · unfold State.acceptAnchor
        have main : ∀ (w : State), (∀ c, ChainInv w c) → w.awake = true → w.inFlight = none → w.examining = none →
            SchedulerInv w := by
          intro w hw hwa hwf hwe
          refine ⟨hw, ?_, ?_, ?_⟩
          · intro e; rw [hwa] at e; cases e
          · intro f e; rw [hwf] at e; cases e
          · intro c e; rw [hwe] at e; cases e
        have hchains : ∀ (u w : State), w.interactive = ((u.setHead .interactive
              (BitVec.ofNat 24 a.interactiveHead)).setHead .background (BitVec.ofNat 24 a.backgroundHead)).interactive →
            w.background = ((u.setHead .interactive
              (BitVec.ofNat 24 a.interactiveHead)).setHead .background (BitVec.ofNat 24 a.backgroundHead)).background →
            w.windows = u.windows → w.inFlight = u.inFlight → w.examining = u.examining → ∀ c, ChainInv w c := by
          intro u w h1 h2 h3 h4 h5 c
          have hcc := State.chain_congr h1 h2
          cases c with
          | background =>
            exact (State.setHead_inv _ _ _).congr (hcc .background) (by simp [h3]) (by simp [h4]) (by simp [h5])
          | interactive =>
            refine (State.setHead_inv u .interactive (BitVec.ofNat 24 a.interactiveHead)).congr ?_ (by simp [h3])
              (by simp [h4]) (by simp [h5])
            rw [hcc]
            exact State.setHead_other _ .background _
        dsimp only
        split_ifs
        · refine main _ (hchains { s with windows := some a.windows, phaseTable := a.phase.map phaseChain, phase := 0 } _
            ?_ ?_ ?_ ?_ ?_) ?_ ?_ ?_ <;> simp [hf, he, State.awake]
        · refine main _ (hchains { s with windows := some a.windows, phaseTable := a.phase.map phaseChain, phase := 0 } _
            ?_ ?_ ?_ ?_ ?_) ?_ ?_ ?_ <;> simp [hf, he, State.awake]
  · exact h

/-! ### The arbiter and the examination -/

theorem SchedulerInv.choose {s : State} (h : SchedulerInv s) (hm : s.mayChoose = true) :
    SchedulerInv { s with examining := s.choice } := by
  simp only [State.mayChoose, Bool.and_eq_true, decide_eq_true_eq, State.free, Option.isNone_iff_eq_none] at hm
  obtain ⟨⟨⟨⟨⟨hf, he⟩, hp⟩, ht⟩, -⟩, -⟩ := hm
  have hc : ∀ c, State.chain { s with examining := s.choice } c = s.chain c := by intro c; cases c <;> rfl
  have hch : ∀ c, s.choice = some c → (s.chain c).state = .ahead := by
    intro c e
    unfold State.choice at e
    split at e
    · cases e
    · split_ifs at e with h1 h2
      · cases e; exact h1
      · cases e; exact h2
  refine ⟨?_, ?_, ?_, ?_⟩
  · intro c
    have hd := h.chains c
    refine ⟨?_, ?_, ?_, ?_, ?_, ?_, ?_⟩
    · rw [hc]; exact hd.empty
    · rw [hc]; exact hd.broken
    · rw [hc]; exact hd.cursor
    · rw [hc]; exact hd.tail
    · rw [hc]; exact hd.rereading
    · rw [hc]; exact hd.active
    · rw [hc]; intro e
      have := hd.restart e
      simp only [State.chainBusy, Bool.or_eq_true, decide_eq_true_eq] at this
      rcases this with e1 | e1
      · simp only [State.chainBusy, hc, Bool.or_eq_true, decide_eq_true_eq]; exact .inl e1
      · rw [he] at e1; cases e1
  · intro ha c; rw [hc]; exact h.asleep ha c
  · intro f e; simp only at e; rw [hf] at e; cases e
  · intro c e; exact ⟨by rw [hc]; exact hch c e, hf, hp, ht⟩

/-- An examination ends without a slip taken. -/
theorem SchedulerInv.examined {s t : State} (h : SchedulerInv s) {c : Chain} (he : s.examining = some c)
    (part : t.part = s.part) (windows : t.windows = s.windows)
    (other : t.chain (otherChain c) = s.chain (otherChain c)) (inFlight : t.inFlight = none)
    (examining : t.examining = none) (hr : ChainInv t c) : SchedulerInv t := by
  have ha := h.examining_awake he
  obtain ⟨h1, h2, h3, h4⟩ := h.examining c he
  have cases2 : ∀ d : Chain, d = c ∨ d = otherChain c := by
    intro d; cases c <;> cases d <;> simp [otherChain]
  have hne : s.examining ≠ some (otherChain c) := by
    rw [he]; cases c <;> simp [otherChain]
  refine ⟨?_, ?_, ?_, ?_⟩
  · intro d
    rcases cases2 d with e | e
    · rw [e]; exact hr
    · rw [e]
      have hd := h.chains (otherChain c)
      refine ⟨?_, ?_, ?_, ?_, ?_, ?_, ?_⟩
      · rw [other]; exact hd.empty
      · rw [other]; exact hd.broken
      · rw [other, State.linkValid_congr windows]; exact hd.cursor
      · rw [other]; exact hd.tail
      · rw [other]; exact hd.rereading
      · rw [other, inFlight, ← h2]; exact hd.active
      · rw [other]; intro e
        have := hd.restart e
        simp only [State.chainBusy, Bool.or_eq_true, decide_eq_true_eq] at this ⊢
        rw [other]
        rcases this with e1 | e1
        · exact .inl e1
        · exact absurd e1 hne
  · intro hn; rw [State.awake_congr part, ha] at hn; cases hn
  · intro g hg; rw [inFlight] at hg; cases hg
  · intro d hd; rw [examining] at hd; cases hd

/-- A slip is taken (R137). -/
theorem SchedulerInv.take {s t : State} (h : SchedulerInv s) {c : Chain} (he : s.examining = some c)
    (kind : Byte) (part : t.part = s.part) (windows : t.windows = s.windows)
    (interactive : t.interactive = s.interactive) (background : t.background = s.background)
    (tables : t.tables = s.tables) (examining : t.examining = none) : SchedulerInv (t.take c kind) := by
  have ha := h.examining_awake he
  obtain ⟨h1, h2, h3, h4⟩ := h.examining c he
  have hc := State.chain_congr interactive background
  have cases2 : ∀ d : Chain, d = c ∨ d = otherChain c := by
    intro d; cases c <;> cases d <;> simp [otherChain]
  have hsame : (t.take c kind).chain c = { s.chain c with state := .active } := by
    rw [← hc c]; cases c <;> rfl
  have hother : (t.take c kind).chain (otherChain c) = s.chain (otherChain c) := by
    rw [← hc (otherChain c)]; cases c <;> rfl
  have hfl : ∃ f, (t.take c kind).inFlight = some f ∧ f.chain = c := ⟨_, rfl, rfl⟩
  have hv : ∀ k, (t.take c kind).linkValid k = s.linkValid k :=
    State.linkValid_congr (by rw [(State.take_frame c kind t).2.2.1, windows])
  have hne : s.examining ≠ some (otherChain c) := by
    rw [he]; cases c <;> simp [otherChain]
  have hd := h.chains c
  have hre : (s.chain c).rereading = false := by
    cases hx : (s.chain c).rereading with
    | false => rfl
    | true => have := hd.rereading hx; rw [h1] at this; cases this
  refine ⟨?_, ?_, ?_, ?_⟩
  · intro d
    rcases cases2 d with e | e
    · rw [e]
      refine ⟨?_, ?_, ?_, ?_, ?_, ?_, ?_⟩
      · rw [hsame]; intro e; cases e
      · rw [hsame]; intro e; cases e
      · rw [hsame, hv]; intro _ _; exact hd.cursor (by rw [h1]; simp) (by rw [h1]; simp)
      · rw [hsame]; intro e; cases e
      · rw [hsame]; intro e; simp [hre] at e
      · intro _; exact hfl
      · intro _; simp [State.chainBusy, hsame]
    · rw [e]
      have hd := h.chains (otherChain c)
      refine ⟨?_, ?_, ?_, ?_, ?_, ?_, ?_⟩
      · rw [hother]; exact hd.empty
      · rw [hother]; exact hd.broken
      · rw [hother, hv]; exact hd.cursor
      · rw [hother]; exact hd.tail
      · rw [hother]; exact hd.rereading
      · rw [hother]; intro e
        obtain ⟨f, hf, -⟩ := hd.active e
        rw [h2] at hf; cases hf
      · rw [hother]; intro e
        have := hd.restart e
        simp only [State.chainBusy, Bool.or_eq_true, decide_eq_true_eq] at this ⊢
        rw [hother]
        rcases this with e1 | e1
        · exact .inl e1
        · exact absurd e1 hne
  · intro hn
    rw [State.awake_congr (by simp [part] : (t.take c kind).part = s.part), ha] at hn; cases hn
  · intro f hf
    obtain ⟨g, hg, hgc⟩ := hfl
    rw [hg] at hf; cases hf
    refine ⟨by rw [hgc, hsame], by simp [examining], by simp [part, h3], by simpa [tables] using h4⟩
  · intro d hd; simp [examining] at hd

theorem SchedulerInv.dispatch {s : State} (h : SchedulerInv s) (failing : List Access) (c : Chain) (kind : Byte) :
    SchedulerInv (s.dispatch failing c kind) := by
  unfold State.dispatch
  split
  · rename_i f reason hf _; exact h.answer failing hf _ _ _
  · exact h

theorem State.parkOnStage_frame (s : State) (failing : List Access) (c : Chain) :
    (s.parkOnStage failing c).part = s.part ∧ (s.parkOnStage failing c).windows = s.windows
      ∧ (s.parkOnStage failing c).chain (otherChain c) = s.chain (otherChain c)
      ∧ (s.parkOnStage failing c).inFlight = s.inFlight ∧ (s.parkOnStage failing c).examining = s.examining := by
  unfold State.parkOnStage; dsimp only; split_ifs
  · exact ⟨by simp, by simp, State.takeHead_other _ _ _, by simp, by simp⟩
  · simp
  · simp

theorem SchedulerInv.examine {s : State} (h : SchedulerInv s) (failing : List Access) :
    SchedulerInv (s.examine failing) := by
  unfold State.examine
  cases he : s.examining with
  | none => exact h
  | some c =>
    dsimp only
    obtain ⟨h1, h2, h3, h4⟩ := h.examining c he
    have hd := h.chains c
    have hcu := hd.cursor (by rw [h1]; simp) (by rw [h1]; simp)
    have hre : (s.chain c).rereading = false := by
      cases hx : (s.chain c).rereading with
      | false => rfl
      | true => have := hd.rereading hx; rw [h1] at this; cases this
    have hc0 : ∀ d, State.chain { s with examining := none } d = s.chain d := by intro d; cases d <;> rfl
    have hbreak : ∀ l, SchedulerInv (State.breakChain c l { s with examining := none }) := by
      intro l
      refine h.examined he (by simp) (by simp) ?_ (by simp [h2]) (by simp) (.of_broken ?_)
      · rw [State.breakChain_chain, ← hc0]; cases c <;> simp [otherChain]
      · rw [State.breakChain_chain]; simp
    split
    · split_ifs with hst hok
      · refine SchedulerInv.dispatch ?_ _ _ _
        exact h.take he _ rfl rfl rfl rfl rfl rfl
      · exact hbreak _
      · obtain ⟨p1, p2, p3, p4, p5⟩ := State.parkOnStage_frame { s with examining := none } failing c
        refine h.examined he p1 p2 (by rw [p3, hc0]) (by rw [p4]; exact h2) p5 ?_
        unfold State.parkOnStage
        dsimp only
        rw [hc0]
        split_ifs with hr hn
        · exact State.takeHead_inv _ _ _
        · refine ⟨?_, ?_, ?_, ?_, ?_, ?_, ?_⟩ <;> simp [hre, hr]
          exact hcu
        · refine ⟨?_, ?_, ?_, ?_, ?_, ?_, ?_⟩ <;> simp [hre, hr]
          exact hcu
    · exact hbreak _

end Sys2Proof.Machine
end

