-- ==== Sys2Proof/Laws/Slips.lean ====
section
/-!
SUPPORT. Sys2Proof/Laws/Slips.lean: the working of a slip of each kind keeps the whole invariant, whatever accesses
fail.
-/
namespace Sys2Proof.Machine

/-! ### The trip -/

theorem State.awake_of_part {s t : State} (h : t.part = s.part) : s.awake = true → t.awake = true := by
  rw [State.awake_congr h]; exact id

/-- Trip state, clock and journal as they were, in a part that is awake if it was. -/
theorem TripInv.of_same {s t : State} (h : TripInv s) (awake : s.awake = true → t.awake = true)
    (trip : t.trip = s.trip) (clock : t.clock = s.clock) (running : t.clockRunning = s.clockRunning)
    (journal : t.journal = s.journal) : TripInv t :=
  ⟨by rw [running, trip]; exact h.clock, by rw [trip]; exact fun e => awake (h.awake e), by rw [trip]; exact h.legal,
    by rw [trip, clock, journal]; exact h.noTrip⟩

/-- While a trip is in force the clock and the journal may change. -/
theorem TripInv.of_inTrip {s t : State} (h : TripInv s) (hin : s.trip.state = .inTrip)
    (part : t.part = s.part) (trip : t.trip = s.trip) (running : t.clockRunning = s.clockRunning) : TripInv t :=
  ⟨by rw [running, trip]; exact h.clock, by rw [trip, State.awake_congr part]; exact h.awake,
    by rw [trip]; exact h.legal, by rw [trip, hin]; intro e; cases e⟩

theorem TripInv.reset : TripInv State.reset :=
  ⟨rfl, (by intro e; cases e), (by intro e; cases e), fun _ => ⟨rfl, rfl, rfl⟩⟩

theorem TripState.ne_noTrip {x : TripState} (h : ¬ x = .noTrip) : x = .inTrip := by cases x <;> simp_all

theorem TripState.ne_inTrip {x : TripState} (h : ¬ x = .inTrip) : x = .noTrip := by cases x <;> simp_all

/-! ### The whole invariant -/

/-- The invariant of a state that differs in the trip, the clock, the journal, EVENTS and the model's own fields. -/
theorem Inv.of_work {s t : State} (h : Inv s) (frame : t = { s with
      trip := t.trip, clock := t.clock, clockRunning := t.clockRunning, journal := t.journal, events := t.events,
      freeCount := t.freeCount, pending := t.pending, readData := t.readData })
    (trip : TripInv t) (journal : t.journal.Legal t.trip) : Inv t := by
  have e : ∀ {α : Type} (g : State → α), g t = g { s with
      trip := t.trip, clock := t.clock, clockRunning := t.clockRunning, journal := t.journal, events := t.events,
      freeCount := t.freeCount, pending := t.pending, readData := t.readData } := fun g => congrArg g frame
  refine ⟨?_, ?_, ?_, trip, journal⟩
  · have := e State.mem; rw [this]; exact h.memory
  · exact h.port.of_rest (e State.part) (e State.anchor) (e State.windows) (e State.phaseTable) (e State.restPending)
      (e State.holdReq) (e State.snapshot) (e State.tables) (e State.faultRecord) (e State.faultMore)
  · exact h.scheduler.of_same (e State.part) (e State.windows) (e State.interactive) (e State.background)
      (e State.inFlight) (e State.examining) (.inl (e State.tables))

theorem Inv.answer {s : State} (h : Inv s) (failing : List Access) {f : InFlight} (hf : s.inFlight = some f) (n : Nat)
    (bs : List Byte) (r : Option Reason) : Inv (s.answer failing f n bs r) :=
  ⟨State.answer_wf h.memory _ _ _ _ _, h.port.answer _ _ _ _ _, h.scheduler.answer _ hf _ _ _,
    h.trip.of_same (State.awake_of_part (by simp)) (by simp) (by simp) (by simp) (by simp),
    by simpa using h.journal⟩

theorem Inv.endOnFault {s : State} (h : Inv s) {f : InFlight} (hf : s.inFlight = some f) : Inv (s.endOnFault f) :=
  ⟨by simpa using h.memory, h.port.endOnFault _, h.scheduler.endOnFault hf,
    h.trip.of_same (State.awake_of_part (by simp)) (by simp) (by simp) (by simp) (by simp),
    by simpa using h.journal⟩

theorem Inv.tableFault {s : State} (h : Inv s) (slot : Byte) (check : Nat) : Inv (s.tableFault slot check) :=
  ⟨by simpa using h.memory, h.port.tableFault _ _, h.scheduler.tableFault _ _,
    h.trip.of_same (State.awake_of_part (by simp)) (by simp) (by simp) (by simp) (by simp),
    by simpa using h.journal⟩

/-- The slip being worked is the slip in flight. -/
theorem State.working_inFlight {s : State} {kind : Byte} {f : InFlight} (h : s.working kind = some f) :
    s.inFlight = some f ∧ f.kind = kind ∧ f.progress = .working := by
  unfold State.working at h
  split at h
  · cases h
  · split_ifs at h with hc
    cases h
    exact ⟨by assumption, hc⟩

/-! ### TRIP -/

theorem readClaims_length {get : Nat → Option Byte} {a n : Nat} {l : List Claim} (h : readClaims get a n = some l) :
    l.length = n := by
  induction n generalizing a l with
  | zero => simp [readClaims] at h; simp [← h]
  | succ n ih =>
    simp only [readClaims, Option.bind_eq_bind] at h
    cases h1 : get a with
    | none => simp [h1] at h
    | some x =>
      cases h2 : get (a + 1) with
      | none => simp [h1, h2] at h
      | some y =>
        cases h3 : readClaims get (a + 2) n with
        | none => simp [h1, h2, h3] at h
        | some r =>
          simp [h1, h2, h3] at h
          simp [← h, ih h3]

/-- A section record taken as valid is legal (R4). -/
theorem readSection_legal {get : Nat → Option Byte} {a : Nat} {x : RouteSection} (h : readSection get a = .valid x) :
    x.Legal := by
  unfold readSection at h
  split at h
  · rename_i d n _ _
    split_ifs at h with hn
    split at h
    · cases h
    · rename_i claims hc
      split_ifs at h with hl
      cases h
      obtain ⟨h1, h2, h3, h4⟩ := hl
      have hd : (BitVec.ofNat 16 d).toNat = d := by
        rw [BitVec.toNat_ofNat]; exact Nat.mod_eq_of_lt (by omega)
      refine ⟨by dsimp only; omega, by dsimp only; omega, by have := readClaims_length hc; dsimp only; omega, ?_, h4⟩
      intro c hcm
      have := List.all_eq_true.mp h3 c hcm
      simpa using this
  · cases h

theorem readSections_legal {get : Nat → Option Byte} {n a : Nat} {l : List RouteSection}
    (h : readSections get n a = .plan l) : l.length = n ∧ ∀ x ∈ l, x.Legal := by
  induction n generalizing a l with
  | zero => simp [readSections] at h; subst h; simp
  | succ n ih =>
    simp only [readSections] at h
    split at h
    · cases h
    · cases h
    · rename_i x hx
      split at h
      · rename_i rest hr
        cases h
        obtain ⟨h1, h2⟩ := ih hr
        refine ⟨by simp [h1], ?_⟩
        intro y hy
        rcases List.mem_cons.mp hy with e | e
        · subst e; exact readSection_legal hx
        · exact h2 y e
      · cases h
      · cases h

/-- The plan of a route walk that succeeds has 1 to 96 legal sections and reaches beyond the start section (R11). -/
theorem State.routeWalk_plan {s : State} {failing : List Access} {offset start : Nat} {l : List RouteSection}
    (h : s.routeWalk failing offset start = .plan l) :
    1 ≤ l.length ∧ l.length ≤ 96 ∧ start < l.length ∧ ∀ x ∈ l, x.Legal := by
  unfold State.routeWalk at h
  dsimp only at h
  split_ifs at h with h1
  split at h
  · cases h
  · split_ifs at h with h2 h3
    split at h
    · rename_i sections hs
      split_ifs at h with h4
      cases h
      obtain ⟨e1, e2⟩ := readSections_legal hs
      exact ⟨by omega, by omega, h4, e2⟩
    · cases h
    · cases h

/-- The priority list read has the count's length where the count is in range (R9). -/
theorem readTripRequest_priority {get : Nat → Option Byte} {q : TripRequest} (h : readTripRequest get = some q) :
    q.priority.length = if q.priorityCount ≤ 4 then q.priorityCount else 0 := by
  unfold readTripRequest at h
  obtain ⟨_, _, h⟩ := Option.bind_eq_some_iff.mp h
  obtain ⟨_, _, h⟩ := Option.bind_eq_some_iff.mp h
  obtain ⟨_, _, h⟩ := Option.bind_eq_some_iff.mp h
  obtain ⟨_, h4, h⟩ := Option.bind_eq_some_iff.mp h
  obtain ⟨_, _, h⟩ := Option.bind_eq_some_iff.mp h
  obtain ⟨_, _, h⟩ := Option.bind_eq_some_iff.mp h
  obtain ⟨_, _, h⟩ := Option.bind_eq_some_iff.mp h
  obtain ⟨_, _, h⟩ := Option.bind_eq_some_iff.mp h
  obtain ⟨_, _, h⟩ := Option.bind_eq_some_iff.mp h
  obtain ⟨_, _, h⟩ := Option.bind_eq_some_iff.mp h
  obtain ⟨_, _, h⟩ := Option.bind_eq_some_iff.mp h
  obtain ⟨_, _, h⟩ := Option.bind_eq_some_iff.mp h
  obtain ⟨_, _, h⟩ := Option.bind_eq_some_iff.mp h
  cases h
  exact readBytes_length h4

/-- The trip context a TRIP BEGIN that passes its checks stores is legal (R2, R8). -/
theorem TripRequest.context_legal {q : TripRequest} (hr : q.inRange = true)
    (hp : q.priority.length = if q.priorityCount ≤ 4 then q.priorityCount else 0) {plan : List RouteSection}
    (hl : 1 ≤ plan.length ∧ plan.length ≤ 96 ∧ q.start < plan.length ∧ ∀ x ∈ plan, x.Legal) :
    (q.context plan).Legal := by
  simp only [TripRequest.inRange, Bool.and_eq_true, decide_eq_true_eq, List.all_eq_true] at hr
  obtain ⟨⟨⟨⟨⟨⟨⟨⟨⟨h1, h2⟩, h3⟩, h4⟩, h5⟩, h6⟩, h7⟩, h8⟩, h9⟩, h10⟩ := hr
  have hcap : (BitVec.ofNat 32 q.cap).toNat = q.cap := by
    rw [BitVec.toNat_ofNat]; exact Nat.mod_eq_of_lt (by omega)
  refine ⟨?_, ⟨hl.1, hl.2.1⟩, hl.2.2.2, ?_, h3, h4, ?_, ?_, ?_, ?_, ?_, ?_, ?_⟩ <;> simp only [TripRequest.context]
  · rw [byteOf_toNat (by omega)]; exact h1
  · rw [if_pos h2.2] at hp; omega
  · rw [byteOf_toNat (by omega)]; exact h5
  · rw [byteOf_toNat (by omega)]; exact hl.2.2.1
  · rw [byteOf_toNat (by omega)]; omega
  · rw [byteOf_toNat (by omega)]; exact h6
  · rw [byteOf_toNat (by omega)]; exact h7
  · rw [byteOf_toNat (by omega), byteOf_toNat (by omega)]; omega
  · rw [hcap]; exact h10

/-- What a TRIP BEGIN that passes checks 2 to 6 has found (R9 to R11). -/
theorem State.checkTripBegin_accepted {s : State} {failing : List Access} {q : TripRequest} {plan : List RouteSection}
    (h : s.checkTripBegin failing q = .accepted plan) :
    q.inRange = true ∧ s.tables = .usable ∧ missingNetwork s.snapshot (q.priority ++ [byteOf q.fallback]) = none
      ∧ s.routeWalk failing q.planOffset q.start = .plan plan := by
  unfold State.checkTripBegin at h
  split_ifs at h with h1 h2 h3
  split at h
  · cases h
  · cases h
  · rename_i sections hs
    cases h
    refine ⟨by simpa using h1, by simpa using h2, by simpa using h3, hs⟩

theorem Inv.workBegin {s : State} (h : Inv s) (failing : List Access) {f : InFlight} (hf : s.inFlight = some f) :
    Inv (s.workBegin failing f) := by
  unfold State.workBegin State.refuseTrip
  split_ifs with ht
  · exact h.answer _ hf _ _ _
  · split
    · exact h.endOnFault hf
    · rename_i q hq
      split
      · exact h.answer _ hf _ _ _
      · exact (h.tableFault _ _).answer _ (by simpa using hf) _ _ _
      · rename_i plan hplan
        obtain ⟨h1, -, -, h4⟩ := State.checkTripBegin_accepted hplan
        have hl := TripRequest.context_legal h1 (readTripRequest_priority hq) (State.routeWalk_plan h4)
        have ha := h.scheduler.flight_awake hf
        refine Inv.answer (s := s.beginTrip q plan) (h.of_work rfl ⟨rfl, ?_, fun _ => hl, ?_⟩ ?_) _ hf _ _ _
        · intro _; exact ha
        · intro e; cases e
        · exact Journal.Legal.empty _

theorem Inv.endTrip {s : State} (h : Inv s) : Inv s.endTrip :=
  h.of_work rfl ⟨rfl, (by intro e; cases e), (by intro e; cases e), fun _ => ⟨rfl, rfl, rfl⟩⟩ (Journal.Legal.empty _)

theorem Inv.workEnd {s : State} (h : Inv s) (failing : List Access) {f : InFlight} (hf : s.inFlight = some f) :
    Inv (s.workEnd failing f) := by
  unfold State.workEnd State.refuseTrip
  split_ifs
  · exact h.answer _ hf _ _ _
  · exact h.endTrip.answer _ hf _ _ _

theorem Inv.workTrip {s : State} (h : Inv s) (failing : List Access) (wanted : Nat) {f : InFlight}
    (hf : s.inFlight = some f) : Inv (s.workTrip failing wanted f) := by
  unfold State.workTrip State.refuseTrip
  split
  · exact h.endOnFault hf
  · split_ifs
    · exact h.workBegin _ hf
    · exact h
    · exact h.workEnd _ hf
    · exact h
    · exact h.answer _ hf _ _ _

/-! ### POSITION -/

/-- A POSITION that passes its checks names a section of the route not behind the current one (R14). -/
theorem State.checkPosition_none {s : State} {q : PositionRequest} (h : s.checkPosition q = none) :
    q.flag ≤ 1 ∧ q.section_ < s.trip.plan.length ∧ s.trip.current.toNat ≤ q.section_ := by
  unfold State.checkPosition at h
  split_ifs at h with h1 h2
  omega

theorem Inv.place {s : State} (h : Inv s) (hin : s.trip.state = .inTrip) {q : PositionRequest}
    (hq : s.checkPosition q = none) : Inv (s.place q) := by
  obtain ⟨-, h2, -⟩ := State.checkPosition_none hq
  have hl := h.trip.legal hin
  refine h.of_work rfl ⟨h.trip.clock, h.trip.awake, ?_, ?_⟩ (h.journal.of_trip rfl rfl rfl rfl)
  · intro _
    refine ⟨hl.ownId, hl.sections, hl.plan, hl.priorityCount, hl.priority, hl.distinct, hl.fallback, ?_, hl.horizon,
      hl.reachCount, hl.reachMinutes, hl.tolerances, hl.cap⟩
    have := hl.sections.2
    simp only [State.place]
    rw [byteOf_toNat (by omega)]; exact h2
  · intro e; simp only [State.place] at e; rw [hin] at e; cases e

theorem Inv.applyJudgement {s : State} (h : Inv s) (hin : s.trip.state = .inTrip) (j : Judgement) (r : Nat) :
    Inv (s.applyJudgement j r) := by
  refine h.of_work ?_ (h.trip.of_inTrip hin (by simp) (by simp) (by simp)) (by simpa using h.journal)
  cases j <;> rfl

theorem Inv.workPosition {s : State} (h : Inv s) (failing : List Access) {f : InFlight} (hf : s.inFlight = some f) :
    Inv (s.workPosition failing f) := by
  unfold State.workPosition State.refusePosition
  split_ifs with hn
  · exact h.answer _ hf _ _ _
  · split
    · exact h.endOnFault hf
    · rename_i q _
      split
      · exact h.answer _ hf _ _ _
      · rename_i hq
        have hin := TripState.ne_noTrip hn
        have hp := h.place hin hq
        dsimp only
        unfold State.applyPosition
        split
        · exact hp.answer _ hf _ _ _
        · exact (hp.applyJudgement hin _ _).answer _ (by simpa [State.place] using hf) _ _ _

/-! ### INSPECT -/

theorem Inv.insertOwn {s : State} (h : Inv s) (hin : s.trip.state = .inTrip) (o : OwnSighting) :
    Inv (s.insertOwn o) := by
  have hl := h.trip.legal hin
  have htrip := State.insertOwn_trip o s
  have hfr := State.insertOwn_frame o s
  have hj : (s.insertOwn o).journal.Legal (s.insertOwn o).trip := by
    rw [htrip]; exact (h.journal.insertOwn hl o).of_trip rfl rfl rfl rfl
  refine ⟨by simpa using h.memory,
    h.port.of_rest (by simp) (by simp) (by simp) (by simp) (by simp) (by simp) (by simp) (by simp) (by simp) (by simp),
    h.scheduler.of_same (by simp) (by simp) (by simp) (by simp) (by simp) (by simp) (.inl (by simp)), ?_, hj⟩
  refine ⟨?_, ?_, ?_, ?_⟩
  · rw [htrip]; simpa using h.trip.clock
  · intro _; exact State.awake_of_part (by simp) (h.trip.awake hin)
  · intro _; rw [htrip]
    exact ⟨hl.ownId, hl.sections, hl.plan, hl.priorityCount, hl.priority, hl.distinct, hl.fallback, hl.current,
      hl.horizon, hl.reachCount, hl.reachMinutes, hl.tolerances, hl.cap⟩
  · rw [htrip]; intro e; rw [hin] at e; cases e

theorem Inv.count {s : State} (h : Inv s) (n : Nat) : Inv { s with freeCount := n } :=
  h.of_work rfl (h.trip.of_same id rfl rfl rfl rfl) h.journal

theorem Inv.concludeInspect {s : State} (h : Inv s) (hin : s.trip.state = .inTrip) (failing : List Access)
    {f : InFlight} (hf : s.inFlight = some f) (g : Findings) : Inv (s.concludeInspect failing f g) := by
  unfold State.concludeInspect
  split
  · exact (h.insertOwn hin _).answer _ (by simpa using hf) _ _ _
  · exact h.answer _ hf _ _ _

theorem Inv.workInspect {s : State} (h : Inv s) (failing : List Access) {f : InFlight} (hf : s.inFlight = some f) :
    Inv (s.workInspect failing f) := by
  unfold State.workInspect State.refuseInspect
  split
  · exact h.answer _ hf _ _ _
  · rename_i hn
    split
    · exact h.endOnFault hf
    · split
      · exact h.answer _ hf _ _ _
      · split
        · exact h.answer _ hf _ _ _
        · unfold State.evaluateInspect State.refuseInspect
          have hc := h.count (s.freeCount + 1)
          split
          · exact hc.endOnFault hf
          · exact (hc.tableFault _ _).answer _ (by simpa using hf) _ _ _
          · exact hc.concludeInspect (TripState.ne_noTrip hn) _ hf _

/-! ### AMEND, MERGE, RECALL -/

theorem Inv.workAmend {s : State} (h : Inv s) (failing : List Access) {f : InFlight} (hf : s.inFlight = some f) :
    Inv (s.workAmend failing f) := by
  unfold State.workAmend
  dsimp only
  split
  · exact h.endOnFault hf
  · split
    · exact h.answer _ hf _ _ _
    · rename_i number outcome result ha
      have hin : s.trip.state = .inTrip := by
        refine TripState.ne_noTrip (fun e => ?_)
        simp [State.examineAmend, e] at ha
      refine Inv.answer (s := s.updateEntry s.trip.ownId number (Entry.amend outcome))
        (h.of_work rfl (h.trip.of_inTrip hin rfl rfl rfl) ?_) _ hf _ _ _
      exact h.journal.amend _ _

theorem readPeerRecord_number {get : Nat → Option Byte} {o : Nat} {p : PeerRecord} (h : readPeerRecord get o = some p) :
    p.originNumber < 65536 := by
  unfold readPeerRecord at h
  simp only [Option.bind_eq_bind, Option.bind_eq_some_iff, Option.some.injEq] at h
  obtain ⟨_, _, _, _, _, h3, _, _, _, _, _, _, _, _, _, _, rfl⟩ := h
  have := readField_lt h3
  norm_num at this
  exact this

theorem Inv.mergeRecord {s : State} (h : Inv s) (hin : s.trip.state = .inTrip) {p : PeerRecord}
    (hp : p.originNumber < 65536) : Inv (s.mergeRecord p) := by
  refine ⟨by simpa using h.memory,
    h.port.of_rest (by simp) (by simp) (by simp) (by simp) (by simp) (by simp) (by simp) (by simp) (by simp) (by simp),
    h.scheduler.of_same (by simp) (by simp) (by simp) (by simp) (by simp) (by simp) (.inl (by simp)),
    h.trip.of_inTrip hin (by simp) (by simp) (by simp), ?_⟩
  simpa using h.journal.mergeRecord (h.trip.legal hin) p hp

/-- Taking the records of a MERGE keeps the invariant and leaves trip state and slip in flight. -/
theorem Inv.mergeRecords {s : State} (h : Inv s) (hin : s.trip.state = .inTrip) (failing : List Access) (l : Link)
    (n i : Nat) (k : MergeCounts) : Inv (s.mergeRecords failing l n i k).1
      ∧ (s.mergeRecords failing l n i k).1.inFlight = s.inFlight := by
  induction n generalizing s i k with
  | zero => exact ⟨h, rfl⟩
  | succ n ih =>
    simp only [State.mergeRecords]
    split
    · exact ⟨h, rfl⟩
    · rename_i p hp
      have h' := h.mergeRecord hin (readPeerRecord_number hp)
      have := ih h' (by simpa using hin) (i + 1) (k.add (s.classify p))
      exact ⟨this.1, by rw [this.2]; simp⟩

theorem Inv.workMerge {s : State} (h : Inv s) (failing : List Access) {f : InFlight} (hf : s.inFlight = some f) :
    Inv (s.workMerge failing f) := by
  unfold State.workMerge
  dsimp only
  split_ifs with hn
  · exact h.answer _ hf _ _ _
  · split
    · exact h.endOnFault hf
    · split_ifs
      · rename_i n _ _
        have := h.mergeRecords (TripState.ne_noTrip hn) failing (s.chain f.chain).cursor n 0
          { accepted := 0, duplicate := 0, updated := 0, rejected := 0 }
        split
        · rename_i s' e
          rw [e] at this
          exact this.1.endOnFault (this.2.trans hf)
        · rename_i s' k e
          rw [e] at this
          exact this.1.answer _ (this.2.trans hf) _ _ _
      · exact h.answer _ hf _ _ _

theorem Inv.workRecall {s : State} (h : Inv s) (failing : List Access) {f : InFlight} (hf : s.inFlight = some f) :
    Inv (s.workRecall failing f) := by
  unfold State.workRecall
  split_ifs
  · exact h.answer _ hf _ _ _
  · split
    · exact h.endOnFault hf
    · exact h.answer _ hf _ _ _

theorem Inv.workFailing {s : State} (h : Inv s) (failing : List Access) : Inv (s.workFailing failing) := by
  unfold State.workFailing
  split
  · exact h
  · rename_i f hf
    split_ifs
    · unfold State.workSlip
      split_ifs
      · exact h.workTrip _ _ hf
      · exact h.workPosition _ hf
      · exact h.workInspect _ hf
      · exact h.workAmend _ hf
      · exact h.workMerge _ hf
      · exact h.workRecall _ hf
      · exact h
    · exact h

/-! ### Link Port, arbiter, examination, follow-up -/

/-- The invariant of a state whose trip, clock and journal stand. -/
theorem Inv.of_parts {s t : State} (h : Inv s) (memory : Memory.wf t.mem = true) (port : PortInv t)
    (scheduler : SchedulerInv t) (awake : s.awake = true → t.awake = true) (trip : t.trip = s.trip)
    (clock : t.clock = s.clock) (running : t.clockRunning = s.clockRunning) (journal : t.journal = s.journal) : Inv t :=
  ⟨memory, port, scheduler, h.trip.of_same awake trip clock running journal, by rw [journal, trip]; exact h.journal⟩

theorem Inv.resetTo {s : State} (h : Inv s) {a : Word} (ha : a.toNat % 4096 = 0) : Inv (s.resetTo a) :=
  ⟨h.memory, PortInv.resetTo ha, SchedulerInv.resetTo _ _, TripInv.reset.of_same (fun e => by cases e) rfl rfl rfl rfl,
    Journal.Legal.empty _⟩

theorem State.afterLink_mem (s : State) (failing : List Access) (c : Chain) (b : Bool) :
    (s.afterLink failing c b).mem = s.mem := by simp

theorem followLink_wf {s : State} (h : Memory.wf s.mem = true) (failing : List Access) (c : Chain) (l : Link) :
    Memory.wf (s.followLink failing c l).mem = true := by
  unfold State.followLink
  split
  · simpa using h
  · dsimp only
    split_ifs
    · simpa using h
    · simpa [State.storeSlip] using storeAll_wf (fun a => State.admits_lt (s := s)) failing _ _ h
    · simpa using h
    · simpa using h

theorem Inv.followUp {s : State} (h : Inv s) (failing : List Access) (b : Bool) : Inv (s.followUp failing b) := by
  have hs := h.scheduler.followUp failing b
  have hw : s.awake = true → (s.followUp failing b).awake = true := by
    rw [State.awake_congr]; exact id
    unfold State.followUp; split
    · rfl
    · dsimp only; split_ifs <;> simp
  have h0 : PortInv { s with inFlight := none } := h.port.of_rest rfl rfl rfl rfl rfl rfl rfl rfl rfl rfl
  refine h.of_parts ?_ ?_ hs hw ?_ ?_ ?_ ?_
  · unfold State.followUp; split
    · exact h.memory
    · dsimp only; split_ifs
      · simpa using h.memory
      · rw [State.afterLink_mem]
        exact followLink_wf (by exact h.memory) _ _ _
      · exact h.memory
  · unfold State.followUp; split
    · exact h.port
    · dsimp only; split_ifs
      · exact h0.takeHead _ _
      · exact (h0.followLink _ _ _).afterLink _ _ _
      · exact h.port
  all_goals
    unfold State.followUp; split
    · rfl
    · dsimp only; split_ifs <;> simp

theorem Inv.tailReread {s : State} (h : Inv s) (failing : List Access) (c : Chain) : Inv (s.tailReread failing c) := by
  have hs := h.scheduler.tailReread failing c
  have hw : s.awake = true → (s.tailReread failing c).awake = true := by
    rw [State.awake_congr]; exact id
    unfold State.tailReread; dsimp only; split_ifs <;> simp
  refine h.of_parts ?_ ?_ hs hw ?_ ?_ ?_ ?_
  · unfold State.tailReread; dsimp only; split_ifs
    · rw [State.afterLink_mem]
      exact followLink_wf h.memory _ _ _
    · exact h.memory
  · unfold State.tailReread; dsimp only; split_ifs
    · exact (h.port.followLink _ _ _).afterLink _ _ _
    · exact h.port
  all_goals
    unfold State.tailReread; dsimp only; split_ifs <;> simp

theorem Inv.restart {s : State} (h : Inv s) (ha : s.awake = true) (failing : List Access) (c : Chain) :
    Inv (s.restart failing c) := by
  have hs := h.scheduler.restart ha failing c
  refine h.of_parts ?_ ?_ hs ?_ ?_ ?_ ?_ ?_
  · unfold State.restart; split_ifs <;> simpa using h.memory
  · unfold State.restart; split_ifs
    · exact h.port.setChain _ _
    · exact h.port.takeHead _ _
  · rw [State.awake_congr]; exact id
    unfold State.restart; split_ifs <;> simp
  all_goals
    unfold State.restart; split_ifs <;> simp

theorem Inv.nudged {s : State} (h : Inv s) (ha : s.awake = true) (c : Chain) :
    Inv (s.setChain c (s.chain c).nudged) :=
  h.of_parts (by simpa using h.memory) (h.port.setChain _ _) (h.scheduler.nudged ha c)
    (State.awake_of_part (by simp)) (by simp) (by simp) (by simp) (by simp)

theorem Inv.wake {s : State} (h : Inv s) (ha : s.awake = true) : Inv { s with part := .running } :=
  h.of_parts h.memory (h.port.wake ha) (h.scheduler.wake ha) (fun _ => by simp [State.awake]) rfl rfl rfl rfl

/-- A NUDGE that acts keeps the invariant when what it does to the chain does (R142). -/
theorem Inv.onNudge {s : State} (h : Inv s) (n : BitVec 2) {act : Chain → State → State}
    (hact : ∀ (t : State) (c : Chain), Inv t → t.awake = true → Inv (act c t)) : Inv (s.onNudge n act) := by
  unfold State.onNudge
  split_ifs with ha
  · split
    · exact h
    · exact hact _ _ (h.wake ha) (by simp [State.awake])
  · exact h

theorem State.writeControl_frame (a b c d : Bool) (s : State) :
    (s.writeControl a b c d).mem = s.mem ∧ (s.writeControl a b c d).trip = s.trip
      ∧ (s.writeControl a b c d).clock = s.clock ∧ (s.writeControl a b c d).clockRunning = s.clockRunning
      ∧ (s.writeControl a b c d).journal = s.journal ∧ (s.awake = true → (s.writeControl a b c d).awake = true) := by
  have h1 : (s.setHoldLevel d).mem = s.mem ∧ (s.setHoldLevel d).trip = s.trip ∧ (s.setHoldLevel d).clock = s.clock
      ∧ (s.setHoldLevel d).clockRunning = s.clockRunning ∧ (s.setHoldLevel d).journal = s.journal := by
    unfold State.setHoldLevel; split <;> simp
  have h2 : (s.setHoldLevel d).awake = s.awake := State.awake_congr (s.setHoldLevel_part d)
  unfold State.writeControl State.wakeUp State.requestRest
  dsimp only
  generalize s.setHoldLevel d = u at h1 h2
  rw [← h1.1, ← h1.2.1, ← h1.2.2.1, ← h1.2.2.2.1, ← h1.2.2.2.2, ← h2]
  split_ifs <;> simp_all [State.awake]

theorem Inv.writeControl {s : State} (h : Inv s) (a b c d : Bool) : Inv (s.writeControl a b c d) := by
  obtain ⟨h1, h2, h3, h4, h5, h6⟩ := State.writeControl_frame a b c d s
  exact h.of_parts (by rw [h1]; exact h.memory) (h.port.writeControl _ _ _ _) (h.scheduler.writeControl _ _ _ _) h6 h2 h3
    h4 h5

theorem Inv.walk {s : State} (h : Inv s) (failing : List Access) : Inv (s.walk failing) := by
  refine h.of_parts ?_ (h.port.walk _) (h.scheduler.walk _) ?_ ?_ ?_ ?_ ?_
  · unfold State.walk; split_ifs
    · split
      · exact h.memory
      · simpa using h.memory
    · exact h.memory
  · rw [State.awake_congr]; exact id
    unfold State.walk; split_ifs
    · split <;> simp
    · rfl
  all_goals
    unfold State.walk; split_ifs
    · split <;> simp
    · rfl

theorem Inv.anchorRead {s : State} (h : Inv s) (failing : List Access) : Inv (s.anchorRead failing) := by
  have hp := h.port.anchorRead failing
  have hs := h.scheduler.anchorRead failing
  by_cases hst : s.part = .starting
  · refine h.of_parts ?_ hp hs ?_ ?_ ?_ ?_ ?_
    · unfold State.anchorRead State.acceptAnchor State.anchorFault; split_ifs
      split
      · simpa using h.memory
      · dsimp only; split
        · simpa using h.memory
        · split_ifs <;> simpa using h.memory
    · intro e; simp [State.awake, hst] at e
    all_goals
      unfold State.anchorRead State.acceptAnchor State.anchorFault; split_ifs
      split
      · simp
      · dsimp only; split
        · simp
        · split_ifs <;> simp
  · have : s.anchorRead failing = s := by unfold State.anchorRead; rw [if_neg hst]
    rw [this]; exact h

theorem Inv.examine {s : State} (h : Inv s) (failing : List Access) : Inv (s.examine failing) := by
  have hs := h.scheduler.examine failing
  have h0 : PortInv { s with examining := none } := h.port.of_rest rfl rfl rfl rfl rfl rfl rfl rfl rfl rfl
  have hpark : ∀ (u : State) (c : Chain), PortInv u → PortInv (u.parkOnStage failing c) := by
    intro u c hu
    unfold State.parkOnStage; dsimp only; split_ifs
    · exact hu.takeHead _ _
    · exact hu.setChain _ _
    · exact hu.setChain _ _
  have hparkF : ∀ (u : State) (c : Chain), (u.parkOnStage failing c).mem = u.mem
      ∧ (u.parkOnStage failing c).part = u.part
      ∧ (u.parkOnStage failing c).trip = u.trip ∧ (u.parkOnStage failing c).clock = u.clock
      ∧ (u.parkOnStage failing c).clockRunning = u.clockRunning
      ∧ (u.parkOnStage failing c).journal = u.journal := by
    intro u c
    unfold State.parkOnStage; dsimp only; split_ifs <;> simp
  have hdis : ∀ (u : State) (c : Chain) (k : Byte), (u.dispatch failing c k).part = u.part
      ∧ (u.dispatch failing c k).trip = u.trip ∧ (u.dispatch failing c k).clock = u.clock
      ∧ (u.dispatch failing c k).clockRunning = u.clockRunning
      ∧ (u.dispatch failing c k).journal = u.journal := by
    intro u c k
    unfold State.dispatch; split <;> simp
  have hdisP : ∀ (u : State) (c : Chain) (k : Byte), PortInv u → PortInv (u.dispatch failing c k) := by
    intro u c k hu
    unfold State.dispatch; split
    · exact hu.answer _ _ _ _ _
    · exact hu
  have hdisM : ∀ (u : State) (c : Chain) (k : Byte), Memory.wf u.mem = true →
      Memory.wf (u.dispatch failing c k).mem = true := by
    intro u c k hu
    unfold State.dispatch; split
    · exact State.answer_wf hu _ _ _ _ _
    · exact hu
  have htake : ∀ (u : State) (c : Chain) (k : Byte), PortInv u → PortInv (u.take c k) := by
    intro u c k hu
    exact hu.of_rest (by simp) (by simp) (by simp) (by simp) (by simp) (by simp) (by simp) (by simp) (by simp) (by simp)
  refine h.of_parts ?_ ?_ hs ?_ ?_ ?_ ?_ ?_
  · unfold State.examine; split
    · exact h.memory
    · dsimp only; split
      · split_ifs
        · refine hdisM _ _ _ ?_
          simpa [State.storeSlip] using storeAll_wf (fun a => State.admits_lt (s := { s with examining := none }))
            failing _ _ h.memory
        · simpa using h.memory
        · rw [(hparkF _ _).1]; exact h.memory
      · simpa using h.memory
  · unfold State.examine; split
    · exact h.port
    · dsimp only; split
      · split_ifs
        · exact hdisP _ _ _ (htake _ _ _ (h0.setMem _))
        · exact h0.breakChain _ _
        · exact hpark _ _ h0
      · exact h0.breakChain _ _
  · rw [State.awake_congr]; exact id
    unfold State.examine; split
    · rfl
    · dsimp only; split
      · split_ifs
        · rw [(hdis _ _ _).1]; simp
        · simp
        · rw [(hparkF _ _).2.1]
      · simp
  · unfold State.examine; split
    · rfl
    · dsimp only; split
      · split_ifs
        · rw [(hdis _ _ _).2.1]; simp
        · simp
        · rw [(hparkF _ _).2.2.1]
      · simp
  · unfold State.examine; split
    · rfl
    · dsimp only; split
      · split_ifs
        · rw [(hdis _ _ _).2.2.1]; simp
        · simp
        · rw [(hparkF _ _).2.2.2.1]
      · simp
  · unfold State.examine; split
    · rfl
    · dsimp only; split
      · split_ifs
        · rw [(hdis _ _ _).2.2.2.1]; simp
        · simp
        · rw [(hparkF _ _).2.2.2.2.1]
      · simp
  · unfold State.examine; split
    · rfl
    · dsimp only; split
      · split_ifs
        · rw [(hdis _ _ _).2.2.2.2]; simp
        · simp
        · rw [(hparkF _ _).2.2.2.2.2]
      · simp

end Sys2Proof.Machine
end

