-- ==== Sys2Proof/Laws/Chains.lean ====
section
/-!
SUPPORT. Sys2Proof/Laws/Chains.lean: the spec lemmas of an examination and of a link that is followed, where no access
fails, and of the host's register writes.
-/
namespace Sys2Proof.Machine

/-- A register write acts while the reset pin is released (R167). -/
theorem hostWrite_acts {act : State → State} {s : State} (h : s.resetHeld = false) : hostWrite act s = act s := by
  simp [hostWrite, h]

/-- A register write is ignored while the reset pin is held (R167). -/
theorem hostWrite_held {act : State → State} {s : State} (h : s.resetHeld = true) : hostWrite act s = s := by
  simp [hostWrite, h]

/-- A write that carries the level held changes nothing where no grant waits. -/
theorem State.setHoldLevel_same {s : State} (hI : Inv s) (hg : s.mayGrant = false) : s.setHoldLevel s.holdReq = s := by
  cases hh : s.holdReq
  · have : s.tables ≠ .held := by intro e; have := hI.port.held e; simp [hh] at this
    simp [State.setHoldLevel, this, ← hh]
  · have e : ({ s with holdReq := true } : State) = s := by rw [← hh]
    simp [State.setHoldLevel, e, State.grantIfFree, hg]

/-- A stage write into a slip in the slip window, no access failing. -/
theorem State.storeSlip_stage {s : State} {l : Link} (h : s.linkValid l = true) (a : Access) (b : Byte) :
    s.storeSlip [] l [(a, 0, b)] = (Memory.write s.mem (s.slipAddress l) b, true) := by
  have := State.admits_slip h (o := 0) (by omega)
  simp only [Nat.add_zero] at this
  simp [State.storeSlip, storeAll, this]

/-- The stage and kind of a slip in the slip window, no access failing. -/
theorem State.readHeader {s : State} {l : Link} (h : s.linkValid l = true) :
    readBytes (s.slipByte [] l) 0 2
      = some [Memory.read s.mem (s.slipAddress l), Memory.read s.mem (s.slipAddress l + 1)] := by
  simp [readBytes, State.slipByte_ok h]

/-- The examination of a POSTED slip in the slip window, no access failing. -/
theorem State.examine_posted {s : State} {c : Chain} (he : s.examining = some c)
    (hv : s.linkValid (s.chain c).cursor = true)
    (hm : Memory.read s.mem (s.slipAddress (s.chain c).cursor) = 1#8) :
    s.examine [] = (State.take c
          (Memory.read s.mem (s.slipAddress (s.chain c).cursor + 1))
          { s with examining := none,
                   mem := Memory.write s.mem (s.slipAddress (s.chain c).cursor) 2#8 }).dispatch [] c
          (Memory.read s.mem (s.slipAddress (s.chain c).cursor + 1)) := by
  unfold State.examine
  simp only [he]
  have hc : ({ s with examining := none } : State).chain c = s.chain c := by cases c <;> rfl
  rw [hc, State.readHeader (s := { s with examining := none }) hv]
  refine (if_pos hm).trans ?_
  rw [State.storeSlip_stage (s := { s with examining := none }) hv]
  exact if_pos rfl

/-- The examination of a slip in the slip window that is not POSTED, no access failing. -/
theorem State.examine_parks {s : State} {c : Chain} (he : s.examining = some c)
    (hv : s.linkValid (s.chain c).cursor = true)
    (hm : Memory.read s.mem (s.slipAddress (s.chain c).cursor) ≠ 1#8) :
    s.examine [] = State.parkOnStage [] c { s with examining := none } := by
  unfold State.examine
  simp only [he]
  have hc : ({ s with examining := none } : State).chain c = s.chain c := by cases c <;> rfl
  rw [hc, State.readHeader (s := { s with examining := none }) hv]
  exact if_neg hm

/-- A link followed in the slip window, no access failing (R139). -/
theorem State.followLink_zero {s : State} {c : Chain} {l : Link} (h : s.linkValid l = true) (hl : s.linkOf l = 0#24) :
    s.followLink [] c l
      = s.setChain c { s.chain c with state := .parkedOnLink, cursor := l, tail := l, rereading := false } := by
  unfold State.followLink
  rw [State.readLink h]
  exact if_pos hl

theorem State.followLink_valid {s : State} {c : Chain} {l : Link} (h : s.linkValid l = true)
    (hl : s.linkOf l ≠ 0#24) (hk : s.linkValid (s.linkOf l) = true) :
    s.followLink [] c l = ({ s with mem := Memory.write s.mem (s.slipAddress l) 4#8 } : State).setChain c
      { s.chain c with state := .ahead, cursor := s.linkOf l, tail := 0#24, rereading := false } := by
  unfold State.followLink
  rw [State.readLink h]
  refine (if_neg hl).trans ((if_pos hk).trans ?_)
  rw [State.storeSlip_stage h]
  refine (if_pos rfl).trans ?_
  have hc : ∀ m, ({ s with mem := m } : State).chain c = s.chain c := fun m => by cases c <;> rfl
  rw [hc]
  rfl

theorem State.followLink_invalid {s : State} {c : Chain} {l : Link} (h : s.linkValid l = true)
    (hl : s.linkOf l ≠ 0#24) (hk : s.linkValid (s.linkOf l) = false) :
    s.followLink [] c l = s.breakChain c (s.linkOf l) := by
  unfold State.followLink
  rw [State.readLink h]
  exact (if_neg hl).trans (if_neg (Bool.eq_false_iff.mp hk))

/-- A link that cannot be read breaks the chain (R145). -/
theorem State.followLink_failing {s : State} {failing : List Access} {c : Chain} {l : Link} {o : Nat} (h1 : 8 ≤ o)
    (h2 : o < 11)
    (h : .slipRead o ∈ failing) : s.followLink failing c l = s.breakChain c l := by
  unfold State.followLink
  rw [readField_none h1 h2 (State.slipByte_failing h)]

theorem State.setChain_withMem (s : State) (c : Chain) (r : ChainRec) (m : List Host.Cell) :
    State.setChain c r { s with mem := m } = { State.setChain c r s with mem := m } := by cases c <;> rfl

/-- The end of a follow-up or a re-read, by the state it finds (R139, R140, R141). -/
theorem State.afterLink_ahead {s : State} {c : Chain} (failing : List Access) (b : Bool) (h : (s.chain
    c).state = .ahead) :
    s.afterLink failing c b = if b then s.takeHead failing c else s := by
  unfold State.afterLink State.usePendingNudge
  simp [h]

theorem State.afterLink_broken {s : State} {c : Chain} (failing : List Access) (b : Bool) (h : (s.chain
    c).state = .broken) :
    s.afterLink failing c b = s := by
  unfold State.afterLink
  simp [h]

theorem State.afterLink_parked {s : State} {c : Chain} (failing : List Access) (b : Bool) (h : (s.chain
    c).state = .parkedOnLink) :
    s.afterLink failing c b = if b then s.takeHead failing c else
      if (s.chain c).pendingNudge then s.setChain c { s.chain c with pendingNudge := false, rereading := true } else s := by
  unfold State.afterLink State.usePendingNudge
  simp [h]

/-- A head taken in a state whose own chain record has changed since. -/
theorem HeadTaken.of_setChain {s t : State} {c : Chain} {h : Link} {r : ChainRec} (ht : HeadTaken (s.setChain c r) c
    h t) :
    HeadTaken s c h t := by
  obtain ⟨a1, a2, a3⟩ := ht
  refine ⟨?_, ?_, ?_⟩
  · intro hz; rw [a1 hz]; cases c <;> rfl
  · intro hz hk; rw [a2 hz (by simpa using hk)]; cases c <;> rfl
  · intro hz hk
    obtain ⟨b1, b2, b3, b4, b5⟩ := a3 hz (by simpa using hk)
    refine ⟨b1, ?_, ?_, ?_, ?_⟩
    · rw [b2]; simp
    · rw [b3]; simp
    · exact b4.congr (by simp)
    · rw [b5]; cases c <;> rfl


end Sys2Proof.Machine
end

