-- ==== Sys2Proof/Laws/Records.lean ====
section
/-!
SUPPORT. Sys2Proof/Laws/Records.lean: the spec lemmas of the record readers and the coded fields, of an INSPECT's
  steps,
of the journal's counts and windows, and of the tables a walk has passed.
-/
namespace Sys2Proof.Machine

/-- A one-byte field is the byte. -/
theorem readField_one (get : Nat → Option Byte) (a : Nat) : readField get a 1 = (get a).map BitVec.toNat := by
  unfold readField; simp only [readBytes]; cases get a <;> simp [leNat]

/-- The first body byte of a slip being worked. -/
theorem Working.bodyByte {s : State} {k : Byte} {f : InFlight} (h : Working s k f) :
    readField (s.slipByte [] (s.chain f.chain).cursor) 16 1 = some (Memory.read s.mem (s.slipOf f + 16)).toNat := by
  rw [readField_one, State.slipByte_ok h.placed (by omega)]; rfl

/-- No trip network is missing. -/
theorem missingNetwork_none {slots : List (Option Word)} {l : List Byte} (h : ∀ n ∈ l, slotOf slots n ≠ none) :
    missingNetwork slots l = none := by
  unfold missingNetwork
  rw [List.find?_eq_none]
  intro n hn; have := h n hn; simpa using this

/-- Some trip network is missing. -/
theorem missingNetwork_some {slots : List (Option Word)} {l : List Byte} (h : ∃ n ∈ l, slotOf slots n = none) :
    (missingNetwork slots l).isSome = true := by
  unfold missingNetwork
  rw [List.find?_isSome]
  obtain ⟨n, hn, h⟩ := h
  exact ⟨n, hn, by simp [h]⟩

/-- A verdict record has 64 bytes (R174). -/
theorem verdictRecordBytes_length (r : VerdictRecord) : (verdictRecordBytes r).length = 64 := by
  simp [verdictRecordBytes, leBytes, zeros]

/-- An INSPECT that passes the checks of R33 is evaluated. -/
theorem State.workInspect_evaluates {s : State} {failing : List Access} {f : InFlight} {q : InspectRequest}
    (h1 : s.trip.state = .inTrip) (h2 : readInspectRequest (s.slipByte failing (s.chain f.chain).cursor) = some q)
    (h3 : q.inRange = true) (h4 : s.tables = .usable) : s.workInspect failing f = s.evaluateInspect failing f q := by
  unfold State.workInspect
  rw [if_neg (by rw [h1]; decide), h2]
  simp only
  rw [h3, if_neg (by decide), if_neg (by simp [h4])]

/-- An evaluation whose findings succeed is concluded. -/
theorem State.evaluateInspect_ok {s : State} {failing : List Access} {f : InFlight} {q : InspectRequest} {g : Findings}
    (h : s.findings failing (s.chain f.chain).cursor q f.evalTime = .ok g) :
    s.evaluateInspect failing f q = State.concludeInspect failing f g { s with freeCount := s.freeCount + 1 } := by
  unfold State.evaluateInspect
  rw [h]

/-- An interactive INSPECT makes its entry, then is answered (R96). -/
theorem State.concludeInspect_interactive {s : State} {failing : List Access} {f : InFlight} {g : Findings}
    (h : f.chain = .interactive) :
    s.concludeInspect failing f g = (s.insertOwn (g.sighting f.evalTime)).answer failing f verdictRecordAt
      (verdictRecordBytes (g.record (s.insertOwn (g.sighting f.evalTime)).journal.ownCounter.toNat f.evalTime))
        none := by
  unfold State.concludeInspect
  rw [h]

/-- A probe is answered without an entry (R101). -/
theorem State.concludeInspect_background {s : State} {failing : List Access} {f : InFlight} {g : Findings}
    (h : f.chain = .background) :
    s.concludeInspect failing f g
      = s.answer failing f verdictRecordAt (verdictRecordBytes (g.record 0 f.evalTime)) none := by
  unfold State.concludeInspect
  rw [h]

/-- An own insertion changes journal, trip and EVENTS alone. -/
theorem State.insertOwn_rest (o : OwnSighting) (s : State) : s.insertOwn o = { s with journal := (s.insertOwn o).journal, trip := (s.insertOwn o).trip, events := (s.insertOwn o).events } := by
  unfold State.insertOwn State.makeRoom State.evictOldest State.mapEntries State.appendEntry
  split
  · split
    · rfl
    · dsimp only; split <;> rfl
  · rfl

/-- One record of a MERGE changes journal and EVENTS alone. -/
theorem State.mergeRecord_rest (s : State) (p : PeerRecord) : s.mergeRecord p = { s with journal := (s.mergeRecord p).journal, events := (s.mergeRecord p).events } := by
  unfold State.mergeRecord
  split
  · rfl
  · rfl
  · rfl
  · unfold State.appendEntry State.makeRoom State.evictOldest
    split
    · split
      · rfl
      · dsimp only; split <;> rfl
    · rfl

/-! ### Counts and windows -/

/-- The predecessor of a byte above 1. -/
theorem ofNat_pred_byte (b : Byte) (h : ¬ b.toNat ≤ 1) : BitVec.ofNat 8 (b.toNat - 1) = b - 1#8 := by
  apply BitVec.eq_of_toNat_eq; rw [BitVec.toNat_sub]; have := b.isLt; simp; omega

/-- What an own insertion does to a window (R121). -/
theorem Entry.countDown_eq (e : Entry) : e.countDown = { e with window :=
          match e.window with
          | none => none
          | some w => if w.count.toNat ≤ 1 then none else some { w with count := w.count - 1#8 } } := by
  rcases e with ⟨a, b, c, d, f, g, h, i, j, k, w⟩
  cases w with
  | none => rfl
  | some w =>
    simp only [Entry.countDown, Entry.closeAtCount, Entry.mapWindow, Option.map_some, Option.filter_some,
      Window.loseCount]
    by_cases hw : w.count.toNat ≤ 1
    · have : w.count.toNat - 1 = 0 := by omega
      simp [this, hw]
    · have h0 : BitVec.ofNat 8 (w.count.toNat - 1) ≠ 0#8 := by
        intro e; have := congrArg BitVec.toNat e; have := w.count.isLt; simp at *; omega
      rw [if_pos (by simpa using h0), if_neg hw, ofNat_pred_byte _ hw]

/-- What a minute tick does to a window (R122). -/
theorem Entry.tick_eq (e : Entry) : e.tick = { e with window :=
          match e.window with
          | none => none
          | some w => if w.minutes.toNat ≤ 1 then none else some { w with minutes := w.minutes - 1#8 } } := by
  rcases e with ⟨a, b, c, d, f, g, h, i, j, k, w⟩
  cases w with
  | none => rfl
  | some w =>
    simp only [Entry.tick, Entry.closeAtMinutes, Entry.mapWindow, Option.map_some, Option.filter_some,
      Window.loseMinute]
    by_cases h : w.minutes.toNat ≤ 1
    · have : w.minutes.toNat - 1 = 0 := by omega
      simp [this, h]
    · rw [ofNat_pred_byte _ h]
      have : ¬ (w.minutes - 1#8 = 0#8) := by
        intro e; have e2 := congrArg BitVec.toNat e; rw [← ofNat_pred_byte _ h, BitVec.toNat_ofNat] at e2; have := w.minutes.isLt; simp at e2; omega
      simp [this, h]

/-- A saturating count. -/
theorem toNat_saturate (w : Word) : (saturate w).toNat = (if w.toNat = 4294967295 then 4294967295 else w.toNat + 1) := by
  unfold saturate Config.maxWord
  split
  · assumption
  · rw [BitVec.toNat_add]; have := w.isLt; simp; omega

/-- Making room in a journal of at most 256 entries (R108). -/
theorem State.makeRoom_spec (s : State) (h : s.journal.entries.length ≤ 256) : s.makeRoom.journal.entries = (if
    s.journal.entries.length = 256 then s.journal.entries.tail else s.journal.entries)
    ∧ s.makeRoom.journal.ownCounter = s.journal.ownCounter ∧ s.makeRoom.trip = s.trip
      ∧ (s.journal.entries.length < 256 → s.makeRoom = s)
    ∧ (∀ e rest, s.journal.entries = e :: rest → s.journal.entries.length = 256 →
        s.makeRoom.journal.wrapped = true ∧ s.makeRoom.journal.evictedThrough.toNat = max
          s.journal.evictedThrough.toNat e.time.toNat
        ∧ s.makeRoom.events = (if s.journal.wrapped then s.events else s.events ||| Event.journalWrap.mask)) := by
  unfold State.makeRoom Config.journalCapacity
  by_cases hl : s.journal.entries.length = 256
  · rw [if_pos (by omega), if_pos hl]
    unfold State.evictOldest
    cases he : s.journal.entries with
    | nil => rw [he] at hl; simp at hl
    | cons e rest =>
      simp only
      refine ⟨?_, ?_, ?_, ?_, ?_⟩
      · split <;> rfl
      · split <;> rfl
      · split <;> rfl
      · intro h; rw [he] at hl; omega
      · intro e' r' hh _
        cases hh
        refine ⟨?_, ?_, ?_⟩
        · split <;> rfl
        · have : (if s.journal.evictedThrough.toNat < e.time.toNat then e.time else
          s.journal.evictedThrough).toNat = max s.journal.evictedThrough.toNat e.time.toNat := by
            split <;> omega
          split <;> exact this
        · split <;> rfl
  · rw [if_neg (by omega), if_neg hl]
    exact ⟨rfl, rfl, rfl, fun _ => rfl, fun e rest _ h => absurd h hl⟩

/-! ### Codes -/

/-- A verdict code is read back. -/
theorem verdictOf_code (v : Verdict) : verdictOf v.code = some v := by cases v <;> rfl

/-- An outcome code is read back. -/
theorem outcomeOf_code (v : Outcome) : outcomeOf v.code = some v := by cases v <;> rfl

/-- Codes 1 to 5 are verdicts. -/
theorem verdictOf_some {n : Nat} (h1 : n ≠ 0) (h2 : ¬ 5 < n) : ∃ v, verdictOf n = some v := by
  interval_cases n <;> first | exact absurd rfl h1 | exact ⟨_, rfl⟩

/-- Codes 0 to 4 are outcomes. -/
theorem outcomeOf_some {n : Nat} (h2 : ¬ 4 < n) : ∃ v, outcomeOf n = some v ∧ v.code = n := by
  interval_cases n <;> exact ⟨_, rfl, rfl⟩

/-- Other codes are no verdicts. -/
theorem verdictOf_none {n : Nat} (h : n = 0 ∨ 5 < n) : verdictOf n = none := by
  rcases h with rfl | h
  · rfl
  · obtain ⟨k, rfl⟩ : ∃ k, n = k + 6 := ⟨n - 6, by omega⟩; rfl

/-- Other codes are no outcomes. -/
theorem outcomeOf_none {n : Nat} (h : 4 < n) : outcomeOf n = none := by
  obtain ⟨k, rfl⟩ : ∃ k, n = k + 5 := ⟨n - 5, by omega⟩; rfl

/-- The outcomes an AMEND may name. -/
theorem amendOutcome_code {o : Outcome} (h : o ≠ .none) : amendOutcome o.code = some o := by
  cases o <;> first | rfl | exact absurd rfl h

/-- The outcome allowed for a verdict (R126). -/
theorem outcomeAllowed_iff (v : Verdict) (o : Outcome) (hn : o ≠ .none) : outcomeAllowed v o = true ↔ (o = .voided
    ∨ (o = .confirmed ∧ v = .challenge)
      ∨ ((o = .settled ∨ o = .waived) ∧ (v = .invalid ∨ v = .challenge ∨ v = .excess))) := by
  cases v <;> cases o <;> simp [outcomeAllowed] at hn ⊢

/-- A returned place has 24 bytes (R175). -/
theorem placeBytes_length (e : Entry) : (placeBytes e).length = 24 := by
  unfold placeBytes; cases e.window <;> simp [leBytes]

/-- The first element that satisfies a test. -/
theorem find_first {α : Type} {p : α → Bool} {l pre post : List α} {x : α} (h : l = pre ++ x :: post) (h1 : ∀ y ∈
    pre, p y = false) (h2 : p x = true) : l.find? p = some x := by
  subst h
  rw [List.find?_append, List.find?_eq_none.mpr (by intro y hy; simp [h1 y hy])]
  simp [h2]

/-- A network claims a section. -/
theorem RouteSection.claimOf_isSome {sec : RouteSection} {n : Byte} : (sec.claimOf n).isSome = true ↔ n ∈
    sec.claims.map Claim.network := by
  unfold RouteSection.claimOf
  rw [Option.isSome_map, List.find?_isSome]
  simp

/-- The zone in which a network claims a section (R4). -/
theorem RouteSection.claimOf_some {sec : RouteSection} (h : sec.Legal) {n z : Byte} : sec.claimOf n = some z ↔ {
    network := n, zone := z } ∈ sec.claims := by
  obtain ⟨_, _, _, _, hnd⟩ := h
  unfold RouteSection.claimOf
  generalize sec.claims = l at hnd
  induction l with
  | nil => simp
  | cons c cs ih =>
    simp only [List.map_cons, List.nodup_cons] at hnd
    simp only [List.find?_cons]
    by_cases hcn : c.network = n
    · simp only [hcn, decide_true, Option.map_some, Option.some.injEq, List.mem_cons]
      constructor
      · intro e; left; rw [← hcn, ← e]
      · rintro (e | e)
        · rw [← e]
        · exfalso; apply hnd.1; rw [hcn]; exact List.mem_map.mpr ⟨_, e, rfl⟩
    · simp only [hcn, decide_false]
      rw [ih hnd.2]
      simp only [List.mem_cons]
      constructor
      · intro e; right; exact e
      · rintro (e | e)
        · exfalso; apply hcn; rw [← e]
        · exact e

/-! ### Fare arithmetic and tables -/

/-- A value of 48 bits stands (R80). -/
theorem fit48_eq (fc : Nat) {x : Nat} (h : x < 281474976710656) : fit48 fc x = x := by
  unfold fit48 Config.limit48; rw [if_pos h]

/-- Entries that pass checks 4 and 5 rise by code (R57). -/
theorem checkProducts_ok {get : Nat → Option Byte} : ∀ {n a : Nat} {prev : Option Nat}, checkProducts get n a
    prev = .ok () →
    ∃ entry : Nat → Product, (∀ j < n, readProduct get (a + 12 * j) = some (entry j))
      ∧ (∀ j < n, ∀ k < j, (entry k).code < (entry j).code)
      ∧ (∀ j < n, ∀ q, prev = some q → q < (entry j).code) := by
  intro n
  induction n with
  | zero =>
    intro a prev _
    refine ⟨fun _ => ⟨0, 0, 0, 0, 0, 0, 0⟩, ?_, ?_, ?_⟩ <;> intro j h <;> omega
  | succ n ih =>
    intro a prev h
    simp only [checkProducts] at h
    split at h
    · cases h
    rename_i p hp
    split at h
    · split at h
      · rename_i hprev
        obtain ⟨entry, h1, h2, h3⟩ := ih h
        refine ⟨fun j => match j with | 0 => p | j + 1 => entry j, ?_, ?_, ?_⟩
        · intro j hj
          cases j with
          | zero => simpa using hp
          | succ j => have := h1 j (by omega); rw [show a + 12 * (j + 1) = a + 12 + 12 * j by omega]; exact this
        · intro j hj k hk
          cases j with
          | zero => omega
          | succ j =>
            cases k with
            | zero => exact h3 j (by omega) p.code rfl
            | succ k => exact h2 j (by omega) k (by omega)
        · intro j hj q hq
          have hqp : q < p.code := by rw [hq] at hprev; simpa using hprev
          cases j with
          | zero => exact hqp
          | succ j => exact lt_trans hqp (h3 j (by omega) p.code rfl)
      · cases h
    · cases h

/-- Every nonempty slot has passed when the walk of the slots has (R56). -/
theorem State.walkSlots_ok {s : State} : ∀ {i : Nat} {l : List (Option Word)}, s.walkSlots [] i l = .ok ()
    → ∀ j (o : Word), l[j]? = some (some o) →
    s.walkSlot [] (byteOf (i + j)) o.toNat = .ok () := by
  intro i l
  induction l generalizing i with
  | nil => intro _ j o h; simp at h
  | cons x l ih =>
    intro h j o hj
    cases x with
    | none =>
      simp only [State.walkSlots] at h
      cases j with
      | zero => simp at hj
      | succ j => have := ih h j o (by simpa using hj); rw [show i + (j + 1) = i + 1 + j by omega]; exact this
    | some v =>
      simp only [State.walkSlots] at h
      split at h
      · cases h
      · rename_i u hu
        cases j with
        | zero => simp at hj; subst hj; exact hu
        | succ j => have := ih h j o (by simpa using hj); rw [show i + (j + 1) = i + 1 + j by omega]; exact this

/-- Two fields of a profile that has been read. -/
theorem readProfile_fields {get : Nat → Option Byte} {a : Nat} {p : Profile} (h : readProfile get a = some p) :
    readField get (a + 16) 4 = some p.productOffset ∧ readField get (a + 20) 2 = some p.productCount := by
  simp only [readProfile, Option.bind_eq_bind, Option.bind_eq_some_iff] at h
  obtain ⟨_, _, _, _, _, _, _, _, x, hx, y, hy, _, _, _, _, _, _, _, _, e⟩ := h
  cases e
  exact ⟨hx, hy⟩

end Sys2Proof.Machine
end

