-- ==== Sys2Proof/Laws/Accesses.lean ====
section
/-!
SUPPORT. Sys2Proof/Laws/Accesses.lean: the spec lemmas of the accesses that fail: which readers an error on a write or
on a table read leaves as they are, what an answer cut off by an access error leaves (R145), how an access error on a
table read changes the findings of an inspection and the route walk (R65, R11), what a MERGE does record by record, and
what the work on a slip does whichever of its writes fail.
-/
namespace Sys2Proof.Machine

/-! ### Reads that do not fail -/

theorem State.slipByte_of_not {s : State} {failing : List Access} {l : Link} (h : ∀ o, Access.slipRead o ∉ failing) :
    s.slipByte failing l = s.slipByte [] l := by
  funext o
  simp [State.slipByte, h o]

theorem State.tableByte_of_not {s : State} {failing : List Access} {slot : Byte}
    (h : ∀ a, Access.tableRead slot a ∉ failing) : s.tableByte failing slot = s.tableByte [] slot := by
  funext a
  simp [State.tableByte, h a]

theorem not_slipRead_of_write {failing : List Access} (h : ∀ x ∈ failing, x.isWrite = true) (o : Nat) :
    Access.slipRead o ∉ failing := fun hm => by cases h _ hm

theorem not_tableRead_of_write {failing : List Access} (h : ∀ x ∈ failing, x.isWrite = true) (slot : Byte) (a : Nat) :
    Access.tableRead slot a ∉ failing := fun hm => by cases h _ hm

theorem not_slipRead_of_table {failing : List Access} (h : ∀ x ∈ failing, x.isTableRead = true) (o : Nat) :
    Access.slipRead o ∉ failing := fun hm => by cases h _ hm

theorem not_answerWrite_of_table {failing : List Access} (h : ∀ x ∈ failing, x.isTableRead = true)
    {resultAt : Nat} {result : List Byte} {r : Option Reason} {stamp : Word} {x : Access × Nat × Byte}
    (hx : x ∈ answerWrites resultAt result r stamp) : x.1 ∉ failing := by
  intro hm
  have := h _ hm
  simp only [answerWrites, List.mem_append, List.mem_cons, List.not_mem_nil, or_false, mem_slipWrites,
    leBytes_length] at hx
  rcases hx with ⟨i, hi, rfl⟩ | rfl | rfl | ⟨i, hi, rfl⟩ | rfl <;> cases this

/-! ### Answers cut off -/

/-- Writes none of which fails are made as they are without an access error. -/
theorem storeAll_of_not {admits : Nat → Bool} {failing : List Access} {base : Nat} {items : List (Access × Nat × Byte)}
    (h : ∀ x ∈ items, x.1 ∉ failing) (m : List Host.Cell) :
    storeAll admits failing base items m = storeAll admits [] base items m := by
  induction items generalizing m with
  | nil => rfl
  | cons x rest ih =>
    obtain ⟨a, o, b⟩ := x
    have ha : a ∉ failing := h (a, o, b) (by simp)
    simp only [storeAll, ih (fun y hy => h y (by simp [hy]))]
    simp [ha]

/-- An access error on a table read leaves an answer as it is. -/
theorem State.answer_of_table {failing : List Access} (h : ∀ x ∈ failing, x.isTableRead = true) (s : State)
    (f : InFlight) (resultAt : Nat) (result : List Byte) (r : Option Reason) :
    s.answer failing f resultAt result r = s.answer [] f resultAt result r := by
  unfold State.answer State.storeSlip
  rw [storeAll_of_not fun x hx => not_answerWrite_of_table h hx]

/-- Writes up to the first that fails are made, and no later one. -/
theorem storeAll_cutOff {admits : Nat → Bool} {failing : List Access} {base : Nat}
    {made : List (Access × Nat × Byte)} {x : Access × Nat × Byte} {later : List (Access × Nat × Byte)}
    (h1 : ∀ y ∈ made, y.1 ∉ failing) (h2 : ∀ y ∈ made, admits (base + y.2.1) = true) (h3 : x.1 ∈ failing)
    (m : List Host.Cell) :
    storeAll admits failing base (made ++ x :: later) m = ((storeAll admits [] base made m).1, false) := by
  induction made generalizing m with
  | nil => obtain ⟨a, o, b⟩ := x; simp only at h3; simp [storeAll, h3]
  | cons y rest ih =>
    obtain ⟨a, o, b⟩ := y
    have ha : a ∉ failing := h1 (a, o, b) (by simp)
    have hadm : admits (base + o) = true := h2 (a, o, b) (by simp)
    simp only [List.cons_append, storeAll]
    rw [if_neg (by simp [ha, hadm]), if_neg (by simp [hadm])]
    exact ih (fun z hz => h1 z (by simp [hz])) (fun z hz => h2 z (by simp [hz])) _

/-- The writes of an answer, without their bytes. -/
theorem answerWrites_order (resultAt : Nat) (result : List Byte) (r : Option Reason) (stamp : Word) :
    (answerWrites resultAt result r stamp).map (fun x => (x.1, x.2.1)) = answerOrder resultAt result.length := by
  have h : ∀ (o : Nat) (bs : List Byte), (slipWrites o bs).map (fun x => (x.1, x.2.1))
      = (List.range bs.length).map (fun i => (Access.slipWrite (o + i), o + i)) := by
    intro o bs
    induction bs generalizing o with
    | nil => rfl
    | cons b rest ih =>
      simp only [slipWrites, List.map_cons, ih, List.length_cons, List.range_succ_eq_map, List.map_map]
      simp [Function.comp_def, Nat.add_assoc, Nat.add_comm 1]
  simp only [answerWrites, answerOrder, List.map_append, List.map_cons, List.map_nil, h, leBytes_length]
  rfl

/-- The spec lemma of an answer cut off: `u` is `s` with what the block of the slip's kind has done. -/
theorem State.answer_cutOff {s u : State} {f : InFlight} {resultAt : Nat} {result : List Byte} {r : Option Reason}
    {failing : List Access} {made : List (Access × Nat)} {a : Access} {o : Nat} {later : List (Access × Nat)}
    (hw : u.windows = s.windows) (hi : u.interactive = s.interactive) (hb : u.background = s.background)
    (hm : u.mem = s.mem) (he : u.flag (answerEvent f.chain) = s.flag (answerEvent f.chain))
    (hv : s.linkValid (s.chain f.chain).cursor = true) (hwf : Memory.wf s.mem = true) (h1 : 16 ≤ resultAt)
    (h2 : resultAt + result.length ≤ 512) (hs : answerOrder resultAt result.length = made ++ (a, o) :: later)
    (ha : a ∈ failing) (hmade : ∀ x ∈ made, x.1 ∉ failing) :
    AnswerCutOff s f made (u.answer [] f resultAt result r) (u.answer failing f resultAt result r)
      ∧ (u.answer [] f resultAt result r).inFlight = some { f with progress := .answered } := by
  have hc : u.chain f.chain = s.chain f.chain := State.chain_congr hi hb _
  have ho : u.chain (otherChain f.chain) = s.chain (otherChain f.chain) := State.chain_congr hi hb _
  have hadd : u.slipAddress (s.chain f.chain).cursor = s.slipOf f := by
    simp [State.slipOf, State.slipAddress, hw]
  have hv' : u.linkValid (u.chain f.chain).cursor = true := by
    rw [hc]; simpa [State.linkValid, hw] using hv
  have hoff : ∀ x ∈ answerWrites resultAt result r u.stamp,
      u.admits (u.slipAddress (u.chain f.chain).cursor + x.2.1) = true := fun x hx =>
    State.admits_slip hv' (by have := answerWrites_offset hx; omega)
  obtain ⟨ws, xs, hws, hws1, hxs⟩ :=
    List.map_eq_append_iff.mp ((answerWrites_order resultAt result r u.stamp).trans hs)
  obtain ⟨x, rest, rfl, hx, hrest⟩ := List.map_eq_cons_iff.mp hxs
  have hxa : x.1 = a := congrArg Prod.fst hx
  have hfail : u.storeSlip failing (u.chain f.chain).cursor (answerWrites resultAt result r u.stamp)
      = ((storeAll u.admits [] (s.slipOf f) ws u.mem).1, false) := by
    unfold State.storeSlip
    rw [hws, storeAll_cutOff ?_ ?_ (by rw [hxa]; exact ha), hc, hadd]
    · intro y hy
      refine hmade (y.1, y.2.1) ?_
      rw [← hws1]
      exact List.mem_map_of_mem hy
    · intro y hy
      exact hoff y (by rw [hws]; simp [hy])
  have hok : (u.storeSlip [] (u.chain f.chain).cursor (answerWrites resultAt result r u.stamp)).2 = true :=
    storeAll_ok _ _ _ _ hoff
  have hwhole : u.answer [] f resultAt result r = { u with
      mem := (u.storeSlip [] (u.chain f.chain).cursor (answerWrites resultAt result r u.stamp)).1,
      inFlight := some { f with progress := .answered } }.raise (answerEvent f.chain) := by
    simp [State.answer, hok]
  have hcut : u.answer failing f resultAt result r = { u with
      mem := (storeAll u.admits [] (s.slipOf f) ws u.mem).1 }.endOnFault f := by
    simp [State.answer, hfail]
  have hcb := State.endOnFault_broken { u with mem := (storeAll u.admits [] (s.slipOf f) ws u.mem).1 } f
  have hnd := answerWrites_nodup resultAt result r u.stamp h1
  have hcutmem : (u.answer failing f resultAt result r).mem = (storeAll u.admits [] (s.slipOf f) ws u.mem).1 := by
    rw [hcut, hcb.rest]
  have hwholemem : (u.answer [] f resultAt result r).mem
      = (storeAll u.admits [] (s.slipOf f) (answerWrites resultAt result r u.stamp) u.mem).1 := by
    rw [hwhole, ← hadd, ← hc]; rfl
  have hoff' : ∀ x ∈ answerWrites resultAt result r u.stamp, u.admits (s.slipOf f + x.2.1) = true := by
    rw [← hadd, ← hc]; exact hoff
  have hwf' : Memory.wf u.mem = true := by rw [hm]; exact hwf
  refine ⟨⟨?_, ?_, ?_, ?_, ?_, ?_, ?_⟩, by rw [hwhole]; rfl⟩
  · rw [hcut]; exact hcb.broken
  · rw [hcut, hcb.other, hwhole]; cases f.chain <;> rfl
  · intro e
    have h1 : (u.answer failing f resultAt result r).events = u.events ||| Event.chainFault.mask := by
      rw [hcut, hcb.events]
    have h2 : (u.answer [] f resultAt result r).events = u.events ||| (answerEvent f.chain).mask := by
      rw [hwhole]; rfl
    revert he
    unfold State.flag
    rw [h1, h2]
    generalize u.events = ue
    generalize s.events = se
    cases f.chain <;> cases e <;> simp [answerEvent, Event.mask, Event.bit]
  · have hfo := hcb.fault
    rw [hcut]
    have hcur : (u.chain f.chain).cursor = (s.chain f.chain).cursor := by rw [hc]
    rw [← hcur]
    exact FaultOffered.congr hfo (by rw [hwhole]; rfl)
  · intro y hy
    rw [← hws1] at hy
    obtain ⟨z, hz, rfl⟩ := List.mem_map.mp hy
    have hz' : z ∈ answerWrites resultAt result r u.stamp := by rw [hws]; simp [hz]
    rw [hcutmem, hwholemem,
      storeAll_read_mem u.admits (fun a => State.admits_lt) _ _ hwf' hoff' hnd hz',
      storeAll_read_mem u.admits (fun a => State.admits_lt) _ _ hwf' (fun z hz => hoff' z (by rw [hws]; simp [hz]))
        ?_ hz]
    rw [hws, List.map_append] at hnd
    exact (List.nodup_append.mp hnd).1
  · intro b hb
    rw [hcutmem, ← hm]
    apply storeAll_read_other
    intro z hz
    refine hb (z.1, z.2.1) ?_
    rw [← hws1]
    exact List.mem_map_of_mem hz
  · rw [hcut, hwhole, hcb.rest]
    rfl

/-! ### Table reads that fail -/

/-- `x` is read where, no access failing, `y` is: the same, or nothing, where a read on behalf of `slot` fails. -/
def ReadsAs {α : Type} (failing : List Access) (slot : Byte) (x y : Option α) : Prop :=
  x = y ∨ (x = none ∧ ∃ a, Access.tableRead slot a ∈ failing)

theorem ReadsAs.refl {α : Type} {failing : List Access} {slot : Byte} (x : Option α) : ReadsAs failing slot x x :=
  Or.inl rfl

theorem ReadsAs.bind {α β : Type} {failing : List Access} {slot : Byte} {x y : Option α} {f g : α → Option β}
    (h : ReadsAs failing slot x y) (hf : ∀ v, ReadsAs failing slot (f v) (g v)) :
    ReadsAs failing slot (x >>= f) (y >>= g) := by
  rcases h with rfl | ⟨rfl, ha⟩
  · cases x with
    | none => exact .refl _
    | some v => exact hf v
  · exact Or.inr ⟨rfl, ha⟩

theorem State.tableByte_readsAs (s : State) (failing : List Access) (slot : Byte) (a : Nat) :
    ReadsAs failing slot (s.tableByte failing slot a) (s.tableByte [] slot a) := by
  by_cases h : Access.tableRead slot a ∈ failing
  · exact Or.inr ⟨State.tableByte_failing h, a, h⟩
  · left; simp [State.tableByte, h]

theorem readBytes_readsAs {failing : List Access} {slot : Byte} {get got : Nat → Option Byte}
    (h : ∀ i, ReadsAs failing slot (get i) (got i)) (a n : Nat) :
    ReadsAs failing slot (readBytes get a n) (readBytes got a n) := by
  induction n generalizing a with
  | zero => exact .refl _
  | succ n ih =>
    have e : ∀ g : Nat → Option Byte, readBytes g a (n + 1)
        = g a >>= fun b => readBytes g (a + 1) n >>= fun bs => some (b :: bs) := by
      intro g
      simp only [readBytes]
      cases g a with
      | none => rfl
      | some b => simp only [Option.bind_eq_bind, Option.bind_some]; cases readBytes g (a + 1) n <;> rfl
    rw [e, e]
    exact (h a).bind fun b => (ih (a + 1)).bind fun bs => .refl _

theorem readField_readsAs {failing : List Access} {slot : Byte} {get got : Nat → Option Byte}
    (h : ∀ i, ReadsAs failing slot (get i) (got i)) (a n : Nat) :
    ReadsAs failing slot (readField get a n) (readField got a n) := by
  unfold readField
  rcases readBytes_readsAs h a n with e | ⟨e, ha⟩
  · rw [e]; exact .refl _
  · rw [e]; exact Or.inr ⟨rfl, ha⟩

theorem readProduct_readsAs {failing : List Access} {slot : Byte} {get got : Nat → Option Byte}
    (h : ∀ i, ReadsAs failing slot (get i) (got i)) (a : Nat) :
    ReadsAs failing slot (readProduct get a) (readProduct got a) := by
  unfold readProduct
  repeat' first | exact .refl _ | refine (readField_readsAs h _ _).bind fun _ => ?_

theorem readBand_readsAs {failing : List Access} {slot : Byte} {get got : Nat → Option Byte}
    (h : ∀ i, ReadsAs failing slot (get i) (got i)) (a : Nat) :
    ReadsAs failing slot (readBand get a) (readBand got a) := by
  unfold readBand
  repeat' first | exact .refl _ | refine (readField_readsAs h _ _).bind fun _ => ?_

theorem readDenyRange_readsAs {failing : List Access} {slot : Byte} {get got : Nat → Option Byte}
    (h : ∀ i, ReadsAs failing slot (get i) (got i)) (a : Nat) :
    ReadsAs failing slot (readDenyRange get a) (readDenyRange got a) := by
  unfold readDenyRange
  repeat' first | exact .refl _ | refine (readField_readsAs h _ _).bind fun _ => ?_

theorem readClaims_readsAs {failing : List Access} {slot : Byte} {get got : Nat → Option Byte}
    (h : ∀ i, ReadsAs failing slot (get i) (got i)) (a n : Nat) :
    ReadsAs failing slot (readClaims get a n) (readClaims got a n) := by
  induction n generalizing a with
  | zero => exact .refl _
  | succ n ih =>
    unfold readClaims
    exact (h _).bind fun _ => (h _).bind fun _ => (ih _).bind fun _ => .refl _

/-- `x` is found where, no access failing, `y` is: the same, or check 15 of the network whose table read failed
(R65). -/
def FindsAs {α : Type} (failing : List Access) (x y : Except Stop α) : Prop :=
  x = y ∨ ∃ slot a, Access.tableRead slot a ∈ failing ∧ x = .error (.table slot 15)

theorem FindsAs.refl {α : Type} {failing : List Access} (x : Except Stop α) : FindsAs failing x x := Or.inl rfl

theorem FindsAs.bind {α β : Type} {failing : List Access} {x y : Except Stop α} {f g : α → Except Stop β}
    (h : FindsAs failing x y) (hf : ∀ v, FindsAs failing (f v) (g v)) : FindsAs failing (x >>= f) (y >>= g) := by
  rcases h with rfl | ⟨slot, a, ha, rfl⟩
  · cases x with
    | error e => exact .refl _
    | ok v => exact hf v
  · exact Or.inr ⟨slot, a, ha, rfl⟩

theorem ReadsAs.fromTable {α : Type} {failing : List Access} {slot : Byte} {x y : Option α}
    (h : ReadsAs failing slot x y) : FindsAs failing (fromTable slot x) (fromTable slot y) := by
  rcases h with rfl | ⟨rfl, a, ha⟩
  · exact .refl _
  · exact Or.inr ⟨slot, a, ha, rfl⟩

theorem halving_findsAs {α : Type} {failing : List Access} {probe probed : Nat → Except Stop (Probe α)}
    (h : ∀ i, FindsAs failing (probe i) (probed i)) (fuel lower bound : Nat) :
    FindsAs failing (halving probe fuel lower bound) (halving probed fuel lower bound) := by
  induction fuel generalizing lower bound with
  | zero => exact .refl _
  | succ fuel ih =>
    simp only [halving]
    split
    · rcases h ((lower + (bound - 1)) / 2) with e | ⟨slot, a, ha, e⟩
      · rw [e]
        split
        · exact .refl _
        · exact .refl _
        · exact ih _ _
        · exact ih _ _
      · rw [e]; exact Or.inr ⟨slot, a, ha, rfl⟩
    · exact .refl _

theorem bandSearch_findsAs {failing : List Access} {band banded : Nat → Except Stop Band}
    (h : ∀ i, FindsAs failing (band i) (banded i)) (d fuel lower bound : Nat) (candidate : Option Band) :
    FindsAs failing (bandSearch band d fuel lower bound candidate)
      (bandSearch banded d fuel lower bound candidate) := by
  induction fuel generalizing lower bound candidate with
  | zero => exact .refl _
  | succ fuel ih =>
    simp only [bandSearch]
    split
    · rcases h ((lower + (bound - 1)) / 2) with e | ⟨slot, a, ha, e⟩
      · rw [e]
        split
        · exact .refl _
        · split
          · exact ih _ _ _
          · exact ih _ _ _
      · rw [e]; exact Or.inr ⟨slot, a, ha, rfl⟩
    · exact .refl _

section Lookups
variable (s : State) (failing : List Access)

theorem State.lookupProduct_findsAs (slot : Byte) (profile code : Nat) :
    FindsAs failing (s.lookupProduct failing slot profile code) (s.lookupProduct [] slot profile code) := by
  have hg := s.tableByte_readsAs failing slot
  unfold State.lookupProduct
  refine (readField_readsAs hg _ _).fromTable.bind fun offset => ?_
  refine (readField_readsAs hg _ _).fromTable.bind fun count => ?_
  refine FindsAs.bind (.refl _) fun _ => ?_
  refine halving_findsAs (fun i => ?_) _ _ _
  unfold State.probeProduct
  rcases readProduct_readsAs hg (s.tableBase + offset + 12 * i) with e | ⟨e, a, ha⟩
  · rw [e]; exact .refl _
  · rw [e]; exact Or.inr ⟨slot, a, ha, rfl⟩

theorem State.lookupDeny_findsAs (slot : Byte) (profile serial : Nat) :
    FindsAs failing (s.lookupDeny failing slot profile serial) (s.lookupDeny [] slot profile serial) := by
  have hg := s.tableByte_readsAs failing slot
  unfold State.lookupDeny
  refine (readField_readsAs hg _ _).fromTable.bind fun count => ?_
  split
  · exact .refl _
  refine (readField_readsAs hg _ _).fromTable.bind fun offset => ?_
  refine FindsAs.bind (.refl _) fun _ => ?_
  refine halving_findsAs (fun i => ?_) _ _ _
  unfold State.probeDeny
  rcases readDenyRange_readsAs hg (s.tableBase + offset + 20 * i) with e | ⟨e, a, ha⟩
  · rw [e]; exact .refl _
  · rw [e]; exact Or.inr ⟨slot, a, ha, rfl⟩

theorem State.readCalendar_findsAs (slot : Byte) (profile : Nat) :
    FindsAs failing (s.readCalendar failing slot profile) (s.readCalendar [] slot profile) := by
  have hg := s.tableByte_readsAs failing slot
  unfold State.readCalendar
  repeat' first | exact .refl _ | refine (readField_readsAs hg _ _).fromTable.bind fun _ => ?_

theorem State.readPricing_findsAs (slot : Byte) (profile : Nat) :
    FindsAs failing (s.readPricing failing slot profile) (s.readPricing [] slot profile) := by
  have hg := s.tableByte_readsAs failing slot
  unfold State.readPricing
  repeat' first | exact .refl _ | refine (readField_readsAs hg _ _).fromTable.bind fun _ => ?_

theorem State.lookupBand_findsAs (slot : Byte) (offset count d : Nat) :
    FindsAs failing (s.lookupBand failing slot offset count d) (s.lookupBand [] slot offset count d) := by
  have hg := s.tableByte_readsAs failing slot
  unfold State.lookupBand
  refine FindsAs.bind (.refl _) fun _ => ?_
  refine FindsAs.bind (bandSearch_findsAs (fun i => ?_) _ _ _ _ _) fun _ => .refl _
  exact (readBand_readsAs hg _).fromTable

theorem State.lineAmount_findsAs (slot : Byte) (g : Pricing) (d k adults children : Nat) :
    FindsAs failing (s.lineAmount failing slot g d k adults children) (s.lineAmount [] slot g d k adults children) := by
  unfold State.lineAmount
  split
  · exact .refl _
  · rcases s.lookupBand_findsAs failing slot g.bandOffset g.bandCount d with e | ⟨slot, a, ha, e⟩
    · rw [e]; exact .refl _
    · rw [e]; exact Or.inr ⟨slot, a, ha, rfl⟩

theorem State.classLine_findsAs (slot : Byte) (g : Pricing) (d adults children : Nat) (due : Bool) :
    FindsAs failing (s.classLine failing slot g d adults children due)
      (s.classLine [] slot g d adults children due) := by
  unfold State.classLine
  split
  · exact .refl _
  · rcases s.lookupBand_findsAs failing slot g.bandOffset g.bandCount d with e | ⟨slot, a, ha, e⟩
    · rw [e]; exact .refl _
    · rw [e]; exact Or.inr ⟨slot, a, ha, rfl⟩

theorem State.networkLines_findsAs (p : Persons) (seated ticket : Nat) (slot : Byte) (uncovered covered : Nat) :
    FindsAs failing (s.networkLines failing p seated ticket slot uncovered covered)
      (s.networkLines [] p seated ticket slot uncovered covered) := by
  unfold State.networkLines
  dsimp only
  split
  · exact .refl _
  split
  · exact .refl _
  refine (s.readPricing_findsAs failing slot _).bind fun g => ?_
  refine (s.lineAmount_findsAs failing slot g _ _ _ _).bind fun _ => ?_
  refine (s.lineAmount_findsAs failing slot g _ _ _ _).bind fun _ => ?_
  exact (s.classLine_findsAs failing slot g _ _ _ _).bind fun _ => .refl _

theorem State.allLines_findsAs (p : Persons) (seated ticket : Nat) (legs : List Leg) (networks : List Byte) :
    FindsAs failing (s.allLines failing p seated ticket legs networks)
      (s.allLines [] p seated ticket legs networks) := by
  induction networks with
  | nil => exact .refl _
  | cons g gs ih =>
    simp only [State.allLines]
    rcases s.networkLines_findsAs failing p seated ticket g (legDistance legs g false) (legDistance legs g true)
      with e | ⟨slot, a, ha, e⟩
    · rw [e]
      split
      · exact .refl _
      · rcases ih with e | ⟨slot, a, ha, e⟩
        · rw [e]; exact .refl _
        · rw [e]; exact Or.inr ⟨slot, a, ha, rfl⟩
    · rw [e]; exact Or.inr ⟨slot, a, ha, rfl⟩

theorem State.price_findsAs (q : InspectRequest) (a : Assessed) :
    FindsAs failing (s.price failing q a) (s.price [] q a) := by
  unfold State.price
  dsimp only
  rcases s.allLines_findsAs failing (a.persons q) (a.seatedClass q) a.ticketClass _ _ with e | ⟨slot, b, ha, e⟩
  · rw [e]; exact .refl _
  · rw [e]; exact Or.inr ⟨slot, b, ha, rfl⟩

variable {failing} (hslip : ∀ o, Access.slipRead o ∉ failing)
include hslip

theorem State.decodeToken_findsAs (l : Link) (length : Nat) :
    FindsAs failing (s.decodeToken failing l length) (s.decodeToken [] l length) := by
  unfold State.decodeToken
  dsimp only
  rw [State.slipByte_of_not hslip]
  split
  · exact .refl _
  · exact .refl _
  · rename_i issuer first _
    split
    · exact .refl _
    · rename_i profile _
      have hg := s.tableByte_readsAs failing issuer
      rcases readField_readsAs hg profile 1 with e | ⟨e, a, ha⟩
      · rcases readField_readsAs hg (profile + 1) 1 with e' | ⟨e', a, ha⟩
        · rw [e, e']; exact .refl _
        · rw [e']
          right
          refine ⟨issuer, a, ha, ?_⟩
          cases readField (s.tableByte failing issuer) profile 1 <;> rfl
      · rw [e]; exact Or.inr ⟨issuer, a, ha, rfl⟩

theorem State.assess_findsAs (l : Link) (q : InspectRequest) (t : Nat) :
    FindsAs failing (s.assess failing l q t) (s.assess [] l q t) := by
  unfold State.assess
  refine (s.decodeToken_findsAs hslip l q.length).bind fun k => ?_
  cases k with
  | malformed issuer => exact .refl _
  | unknownIssuer issuer => exact .refl _
  | decoded d =>
    dsimp only
    split
    · exact .refl _
    · refine (s.lookupProduct_findsAs failing d.issuer _ _).bind fun p => ?_
      refine (s.lookupDeny_findsAs failing d.issuer _ _).bind fun r => ?_
      cases p with
      | none => exact .refl _
      | some p => exact (s.readCalendar_findsAs failing d.issuer _).bind fun _ => .refl _

/-- The findings of an inspection whose slip reads succeed: as they are without an access error, or check 15 (R65). -/
theorem State.findings_findsAs (l : Link) (q : InspectRequest) (t : Word) :
    FindsAs failing (s.findings failing l q t) (s.findings [] l q t) := by
  unfold State.findings
  rcases s.assess_findsAs hslip l q t.toNat with e | ⟨slot, a, ha, e⟩
  · rw [e]
    split
    · exact .refl _
    · rename_i w _
      rcases s.price_findsAs failing q w with e | ⟨slot, a, ha, e⟩
      · rw [e]; exact .refl _
      · rw [e]; exact Or.inr ⟨slot, a, ha, rfl⟩
  · rw [e]; exact Or.inr ⟨slot, a, ha, rfl⟩

end Lookups

/-! ### The route walk -/

/-- A section record is read as it is without an access error, or its read fails. -/
theorem readSection_as {failing : List Access} {slot : Byte} {get got : Nat → Option Byte}
    (h : ∀ i, ReadsAs failing slot (get i) (got i)) (a : Nat) :
    readSection get a = readSection got a
      ∨ (readSection get a = .accessError ∧ ∃ b, Access.tableRead slot b ∈ failing) := by
  unfold readSection
  rcases readField_readsAs h a 2 with e | ⟨e, hb⟩
  · rcases readField_readsAs h (a + 2) 1 with e' | ⟨e', hb⟩
    · rw [e, e']
      split
      · rename_i count _ _
        rcases readClaims_readsAs h (a + 4) count with e | ⟨e, hb⟩
        · rw [e]; exact Or.inl rfl
        · rw [e]
          split
          · exact Or.inl rfl
          · exact Or.inr ⟨rfl, hb⟩
      · exact Or.inl rfl
    · rw [e']
      right
      exact ⟨by cases readField get a 2 <;> rfl, hb⟩
  · rw [e]; exact Or.inr ⟨rfl, hb⟩

/-- Section records are read as they are without an access error, or a read of one fails. -/
theorem readSections_as {failing : List Access} {slot : Byte} {get got : Nat → Option Byte}
    (h : ∀ i, ReadsAs failing slot (get i) (got i)) (n a : Nat) :
    readSections get n a = readSections got n a
      ∨ (readSections get n a = .accessError ∧ ∃ b, Access.tableRead slot b ∈ failing) := by
  induction n generalizing a with
  | zero => exact Or.inl rfl
  | succ n ih =>
    simp only [readSections]
    rcases readSection_as h a with e | ⟨e, hb⟩
    · rw [e]
      split
      · exact Or.inl rfl
      · exact Or.inl rfl
      · rcases ih (a + 12) with e | ⟨e, hb⟩
        · rw [e]; exact Or.inl rfl
        · rw [e]; exact Or.inr ⟨rfl, hb⟩
    · rw [e]; exact Or.inr ⟨rfl, hb⟩

theorem readClaims_none {get : Nat → Option Byte} {a n o : Nat} (h1 : a ≤ o) (h2 : o < a + 2 * n) (h : get o = none) :
    readClaims get a n = none := by
  induction n generalizing a with
  | zero => omega
  | succ n ih =>
    unfold readClaims
    rcases Nat.lt_trichotomy o (a + 1) with h3 | h3 | h3
    · rw [show a = o by omega, h]; rfl
    · rw [← h3, h]; cases get a <;> rfl
    · rw [ih (by omega) (by omega)]; cases get a <;> cases get (a + 1) <;> rfl

/-- A section record that is valid where no read fails, read with a failing byte. -/
theorem readSection_fails {failing : List Access} {slot : Byte} {get got : Nat → Option Byte}
    (h : ∀ i, ReadsAs failing slot (get i) (got i)) {a o : Nat} {x : RouteSection} (hx : readSection got a = .valid x)
    (h3 : o ≠ 3) (ho : o < 4 + 2 * x.claims.length) (hb : get (a + o) = none) : readSection get a = .accessError := by
  unfold readSection at hx ⊢
  rcases readField_readsAs h a 2 with e1 | ⟨e1, -⟩
  · rcases readField_readsAs h (a + 2) 1 with e2 | ⟨e2, -⟩
    · split at hx
      · rename_i distance count hd hc
        split_ifs at hx with hcount
        split at hx
        · cases hx
        · rename_i claims hcl
          split_ifs at hx
          cases hx
          have hlen := readClaims_length hcl
          simp only at ho
          have h1 : ¬ o < 2 := fun ho2 => by
            rw [readField_none (o := a + o) (by omega) (by omega) hb, hd] at e1; cases e1
          have h2 : o ≠ 2 := fun ho2 => by
            rw [readField_none (o := a + o) (by omega) (by omega) hb, hc] at e2; cases e2
          rw [e1, e2, hd, hc]
          simp only
          rw [if_neg hcount, readClaims_none (o := a + o) (by omega) (by omega) hb]
      · cases hx
    · rw [e2]; cases readField get a 2 <;> rfl
  · rw [e1]

/-- Section records all valid where no read fails, read with a failing byte in one of them. -/
theorem readSections_fails {failing : List Access} {slot : Byte} {get got : Nat → Option Byte}
    (h : ∀ i, ReadsAs failing slot (get i) (got i)) {n a i o : Nat} {sections : List RouteSection} {x : RouteSection}
    (hs : readSections got n a = .plan sections) (hx : sections[i]? = some x) (h3 : o ≠ 3)
    (ho : o < 4 + 2 * x.claims.length) (hb : get (a + 12 * i + o) = none) : readSections get n a = .accessError := by
  induction n generalizing a i sections with
  | zero => cases hs; simp at hx
  | succ n ih =>
    rw [readSections] at hs ⊢
    split at hs
    · cases hs
    · cases hs
    · rename_i y hy
      split at hs
      · rename_i rest hrest
        cases hs
        cases i with
        | zero =>
          simp only [List.getElem?_cons_zero, Option.some.injEq] at hx
          subst hx
          rw [readSection_fails h hy h3 ho (by simpa using hb)]
        | succ i =>
          have := ih hrest (by simpa using hx) (by rw [show a + 12 + 12 * i = a + 12 * (i + 1) by omega]; exact hb)
          rw [this]
          rcases hsec : readSection get a with _ | _ | z
          · rfl
          · exfalso
            have := readSection_as h a
            rw [hsec, hy] at this
            rcases this with e | ⟨e, -⟩ <;> cases e
          · rfl
      · cases hs
      · cases hs

/-- The route walk ends as it does without an access error, or on a read that fails (R11). -/
theorem State.routeWalk_as (s : State) (failing : List Access) (offset start : Nat) :
    s.routeWalk failing offset start = s.routeWalk [] offset start
      ∨ (s.routeWalk failing offset start = .accessError ∧ ∃ b, Access.tableRead noSlot b ∈ failing) := by
  have hg := s.tableByte_readsAs failing noSlot
  unfold State.routeWalk
  dsimp only
  split
  · rcases readField_readsAs hg (s.tableBase + offset) 2 with e | ⟨e, hb⟩
    · rw [e]
      split
      · exact Or.inl rfl
      · split
        · split
          · rename_i n _ _ _
            rcases readSections_as hg n (s.tableBase + offset + 4) with e | ⟨e, hb⟩
            · rw [e]; exact Or.inl rfl
            · rw [e]; exact Or.inr ⟨rfl, hb⟩
          · exact Or.inl rfl
        · exact Or.inl rfl
    · rw [e]; exact Or.inr ⟨rfl, hb⟩
  · exact Or.inl rfl

/-- A route plan found where no read fails, walked with a failing byte of its section count. -/
theorem State.routeWalk_count_fails {s : State} {failing : List Access} {offset start o : Nat}
    (hh : s.tableHolds offset 4 = true) (ho : o < 2)
    (hf : .tableRead noSlot (s.tableBase + offset + o) ∈ failing) : s.routeWalk failing offset start = .accessError := by
  unfold State.routeWalk
  rw [if_pos hh, readField_none (o := s.tableBase + offset + o) (by omega) (by omega) (State.tableByte_failing hf)]

/-- A route plan found where no read fails, walked with a failing byte of a section record. -/
theorem State.routeWalk_section_fails {s : State} {failing : List Access} {offset start i o : Nat}
    {sections : List RouteSection} {x : RouteSection} (hp : s.routeWalk [] offset start = .plan sections)
    (hx : sections[i]? = some x) (h3 : o ≠ 3) (ho : o < 4 + 2 * x.claims.length)
    (hf : .tableRead noSlot (s.tableBase + offset + 4 + 12 * i + o) ∈ failing) :
    s.routeWalk failing offset start = .accessError := by
  have hg := s.tableByte_readsAs failing noSlot
  unfold State.routeWalk at hp ⊢
  dsimp only at hp ⊢
  split at hp
  · rename_i hh
    rw [if_pos hh]
    rcases readField_readsAs hg (s.tableBase + offset) 2 with e | ⟨e, -⟩
    · rw [e]
      split at hp
      · cases hp
      · rename_i n hn
        split at hp
        · rename_i h1
          split at hp
          · rename_i h2
            split at hp
            · rename_i found hfound
              split at hp
              · cases hp
                simp only [if_pos h1, if_pos h2]
                rw [readSections_fails hg hfound hx h3 ho (State.tableByte_failing hf)]
              · cases hp
            · cases hp
            · cases hp
          · cases hp
        · cases hp
    · rw [e]
  · cases hp

/-! ### Slip reads that succeed -/

/-- Bytes that can all be read are read. -/
theorem readBytes_some {get : Nat → Option Byte} {a n : Nat} (h : ∀ i, a ≤ i → i < a + n → (get i).isSome = true) :
    ∃ bs, readBytes get a n = some bs ∧ bs.length = n := by
  induction n generalizing a with
  | zero => exact ⟨[], rfl, rfl⟩
  | succ n ih =>
    obtain ⟨b, hb⟩ := Option.isSome_iff_exists.mp (h a (by omega) (by omega))
    obtain ⟨bs, hbs, hl⟩ := ih (a := a + 1) (fun i h1 h2 => h i (by omega) (by omega))
    exact ⟨b :: bs, by simp [readBytes, hb, hbs], by simp [hl]⟩

/-- The elements met lie inside an image of `length` bytes, each with the bytes its fields take (R41). -/
structure Elements.Within (e : Elements) (length : Nat) : Prop where
  identity : ∀ x, e.identity = some x → x.1 + x.2 ≤ length
  product : ∀ x, e.product = some x → x.1 + 2 ≤ length
  validity : ∀ x, e.validity = some x → x.1 + x.2 ≤ length ∧ 4 ≤ x.2
  travellers : ∀ x, e.travellers = some x → x.1 + 2 ≤ length

theorem Elements.Within.empty (length : Nat) : Elements.empty.Within length :=
  by constructor <;> intro x h <;> cases h

theorem readZones_ok {get : Nat → Option Byte} {a n : Nat} (h : ∀ i, a ≤ i → i < a + n → (get i).isSome = true) :
    ∃ x, readZones get a n = .ok x := by
  induction n generalizing a with
  | zero => exact ⟨_, rfl⟩
  | succ n ih =>
    obtain ⟨b, hb⟩ := Option.isSome_iff_exists.mp (h a (by omega) (by omega))
    obtain ⟨x, hx⟩ := ih (a := a + 1) (fun i h1 h2 => h i (by omega) (by omega))
    simp only [readZones, hb, hx]
    split
    · exact ⟨_, rfl⟩
    · cases x <;> exact ⟨_, rfl⟩

/-- An element whose body lies inside the image is recorded, and lies inside it. -/
theorem Elements.record_ok {e : Elements} {get : Nat → Option Byte} {length : Nat} {width : Option Nat}
    {type body n : Nat} (hget : ∀ i, i < length → (get i).isSome = true) (he : e.Within length)
    (hb : body + n ≤ length) (hf : bodyFits width type n = true) :
    ∃ x, e.record get type body n = .ok x ∧ ∀ e', x = some e' → e'.Within length := by
  unfold Elements.record
  unfold bodyFits at hf
  split
  · exact ⟨_, rfl, by rintro e' ⟨⟩; exact ⟨by rintro x ⟨⟩; exact hb, he.product, he.validity, he.travellers⟩⟩
  · simp at hf
    exact ⟨_, rfl, by rintro e' ⟨⟩; exact ⟨he.identity, by rintro x ⟨⟩; simp only; omega, he.validity, he.travellers⟩⟩
  · simp at hf
    exact ⟨_, rfl, by
      rintro e' ⟨⟩; exact ⟨he.identity, he.product, by rintro x ⟨⟩; simp only; omega, he.travellers⟩⟩
  · obtain ⟨x, hx⟩ := readZones_ok (get := get) (a := body) (n := n) (fun i h1 h2 => hget i (by omega))
    rw [hx]
    cases x with
    | none => exact ⟨_, rfl, by rintro e' ⟨⟩⟩
    | some zs => exact ⟨_, rfl, by rintro e' ⟨⟩; exact ⟨he.identity, he.product, he.validity, he.travellers⟩⟩
  · simp at hf
    exact ⟨_, rfl, by
      rintro e' ⟨⟩; exact ⟨he.identity, he.product, he.validity, by rintro x ⟨⟩; simp only; omega⟩⟩
  · exact ⟨_, rfl, by rintro e' ⟨⟩; exact he⟩

/-- The walk of an image that can be read ends in the image, well formed or malformed. -/
theorem walkElements_ok {get : Nat → Option Byte} {length : Nat} {width : Option Nat}
    (hget : ∀ i, i < length → (get i).isSome = true) (fuel o : Nat) {e : Elements} (he : e.Within length) :
    ∃ x, walkElements get length width fuel o e = .ok x ∧ ∀ e', x = some e' → e'.Within length := by
  induction fuel generalizing o e with
  | zero => exact ⟨_, rfl, by rintro e' ⟨⟩⟩
  | succ fuel ih =>
    unfold walkElements
    split
    · exact ⟨_, rfl, by rintro e' ⟨⟩⟩
    · obtain ⟨bs, hbs, hl⟩ := readBytes_some (get := get) (a := o) (n := 3) (fun i h1 h2 => hget i (by omega))
      match bs, hl with
      | [type, n, next], _ =>
        rw [hbs]
        simp only
        split
        · exact ⟨_, rfl, by rintro e' ⟨⟩⟩
        · rename_i hin
          split
          · exact ⟨_, rfl, by rintro e' ⟨⟩⟩
          · rename_i hfit
            simp only [Bool.or_eq_true, Bool.not_eq_true', not_or, Bool.not_eq_false] at hfit
            obtain ⟨x, hx, hx'⟩ := Elements.record_ok hget he (by omega : o + 3 + n.toNat ≤ length) hfit.2
            rw [hx]
            cases x with
            | none => exact ⟨_, rfl, by rintro e' ⟨⟩⟩
            | some e1 =>
              simp only
              split
              · exact ⟨_, rfl, by rintro e' ⟨⟩; exact hx' _ rfl⟩
              · split
                · exact ⟨_, rfl, by rintro e' ⟨⟩⟩
                · exact ih _ (hx' _ rfl)

theorem tokenField_some {get : Nat → Option Byte} {b : Bool} {a n : Nat}
    (h : ∀ i, a ≤ i → i < a + n → (get i).isSome = true) : ∃ v, tokenField get b a n = some v := by
  obtain ⟨bs, hbs, -⟩ := readBytes_some h
  exact ⟨_, by unfold tokenField; rw [hbs]⟩

/-- The fields of a complete token in an image that can be read are read. -/
theorem readTokenFields_some {get : Nat → Option Byte} {length : Nat} {b : Bool} {issuer : Byte} {e : Elements}
    (hget : ∀ i, i < length → (get i).isSome = true) (he : e.Within length) (hc : e.complete = true) :
    ∃ d, readTokenFields get b issuer e = some d := by
  unfold Elements.complete at hc
  simp only [Bool.and_eq_true] at hc
  obtain ⟨⟨h1, h2⟩, h3⟩ := hc
  obtain ⟨⟨ia, iw⟩, hi⟩ := Option.isSome_iff_exists.mp h1
  obtain ⟨⟨pa, pn⟩, hp⟩ := Option.isSome_iff_exists.mp h2
  obtain ⟨⟨va, vn⟩, hv⟩ := Option.isSome_iff_exists.mp h3
  have wi := he.identity _ hi
  have wp := he.product _ hp
  have wv := he.validity _ hv
  simp only at wi wp wv
  obtain ⟨x1, e1⟩ := tokenField_some (get := get) (b := b) (a := ia) (n := iw) (fun i h1 h2 => hget i (by omega))
  obtain ⟨x2, e2⟩ := tokenField_some (get := get) (b := b) (a := pa) (n := 2) (fun i h1 h2 => hget i (by omega))
  obtain ⟨x3, e3⟩ := tokenField_some (get := get) (b := b) (a := va) (n := 4) (fun i h1 h2 => hget i (by omega))
  have h4 : vn = 8 → ∃ x, tokenField get b (va + 4) 4 = some x := fun hvn =>
    tokenField_some fun i h1 h2 => hget i (by omega)
  have ht : ∀ x, e.travellers = some x → ∃ b1 b2, get x.1 = some b1 ∧ get (x.1 + 1) = some b2 := by
    intro x hx
    have wt := he.travellers _ hx
    obtain ⟨b1, hb1⟩ := Option.isSome_iff_exists.mp (hget x.1 (by omega))
    obtain ⟨b2, hb2⟩ := Option.isSome_iff_exists.mp (hget (x.1 + 1) (by omega))
    exact ⟨b1, b2, hb1, hb2⟩
  unfold readTokenFields
  rw [hi, hp, hv]
  simp only [e1, e2, e3, Option.bind_eq_bind, Option.bind_some]
  cases htr : e.travellers with
  | none =>
    by_cases hvn : vn = 8
    · obtain ⟨x, hx⟩ := h4 hvn
      simp only [hvn, if_true, hx, Option.map_some, Option.bind_some]
      exact ⟨_, rfl⟩
    · simp only [hvn, if_false]
      exact ⟨_, rfl⟩
  | some y =>
    obtain ⟨b1, b2, hb1, hb2⟩ := ht _ htr
    by_cases hvn : vn = 8
    · obtain ⟨x, hx⟩ := h4 hvn
      simp only [hvn, if_true, hx, hb1, hb2, Option.map_some, Option.bind_some]
      exact ⟨_, rfl⟩
    · simp only [hvn, if_false, hb1, hb2, Option.map_some, Option.bind_some]
      exact ⟨_, rfl⟩

theorem readTokenHeader_ok {get : Nat → Option Byte} {length : Nat} (hl : 8 ≤ length)
    (hget : ∀ i, i < length → (get i).isSome = true) : ∃ x, readTokenHeader get length = .ok x := by
  obtain ⟨b0, h0⟩ := Option.isSome_iff_exists.mp (hget 0 (by omega))
  obtain ⟨b1, h1⟩ := Option.isSome_iff_exists.mp (hget 1 (by omega))
  obtain ⟨b2, h2⟩ := Option.isSome_iff_exists.mp (hget 2 (by omega))
  unfold readTokenHeader
  rw [h0, h1, h2]
  dsimp only [fromSlip, bind, Except.bind, pure, Except.pure]
  split_ifs <;> exact ⟨_, rfl⟩

/-- What ends an inspection is a table read, not the slip. -/
def NotSlip {α : Type} (x : Except Stop α) : Prop := x ≠ .error .slip

theorem NotSlip.bind {α β : Type} {x : Except Stop α} {f : α → Except Stop β} (h : NotSlip x) (hf : ∀ v, NotSlip (f v)) :
    NotSlip (x >>= f) := by
  cases x with
  | error e => intro he; cases he; exact h rfl
  | ok v => exact hf v

theorem NotSlip.ok {α : Type} (a : α) : NotSlip (.ok a : Except Stop α) := by intro h; cases h

theorem NotSlip.table {α : Type} (slot : Byte) (n : Nat) : NotSlip (.error (.table slot n) : Except Stop α) := by
  intro h; cases h

theorem NotSlip.fromTable {α : Type} (slot : Byte) (x : Option α) : NotSlip (fromTable slot x) := by
  cases x with
  | none => exact .table _ _
  | some a => exact .ok _

theorem NotSlip.require16 (slot : Byte) (b : Bool) : NotSlip (require16 slot b) := by
  unfold Machine.require16; split
  · exact .ok _
  · exact .table _ _

theorem NotSlip.halving {α : Type} {probe : Nat → Except Stop (Probe α)} (h : ∀ i, NotSlip (probe i))
    (fuel lower bound : Nat) : NotSlip (halving probe fuel lower bound) := by
  induction fuel generalizing lower bound with
  | zero => exact .ok _
  | succ fuel ih =>
    simp only [Machine.halving]
    split
    · have := h ((lower + (bound - 1)) / 2)
      split
      · rename_i e he; rw [he] at this; intro h'; cases h'; exact this rfl
      · exact .ok _
      · exact ih _ _
      · exact ih _ _
    · exact .ok _

theorem NotSlip.bandSearch {band : Nat → Except Stop Band} (h : ∀ i, NotSlip (band i)) (d fuel lower bound : Nat)
    (candidate : Option Band) : NotSlip (bandSearch band d fuel lower bound candidate) := by
  induction fuel generalizing lower bound candidate with
  | zero => exact .ok _
  | succ fuel ih =>
    simp only [Machine.bandSearch]
    split
    · have := h ((lower + (bound - 1)) / 2)
      split
      · rename_i e he; rw [he] at this; intro h'; cases h'; exact this rfl
      · split
        · exact ih _ _ _
        · exact ih _ _ _
    · exact .ok _

section Lookups
variable (s : State) (failing : List Access)

theorem State.lookupProduct_notSlip (slot : Byte) (profile code : Nat) :
    NotSlip (s.lookupProduct failing slot profile code) := by
  unfold State.lookupProduct
  refine (NotSlip.fromTable _ _).bind fun offset => (NotSlip.fromTable _ _).bind fun count =>
    (NotSlip.require16 _ _).bind fun _ => NotSlip.halving (fun i => ?_) _ _ _
  unfold State.probeProduct
  split
  · exact .table _ _
  · exact .ok _

theorem State.lookupDeny_notSlip (slot : Byte) (profile serial : Nat) :
    NotSlip (s.lookupDeny failing slot profile serial) := by
  unfold State.lookupDeny
  refine (NotSlip.fromTable _ _).bind fun count => ?_
  split
  · exact .ok _
  refine (NotSlip.fromTable _ _).bind fun offset => (NotSlip.require16 _ _).bind fun _ =>
    NotSlip.halving (fun i => ?_) _ _ _
  unfold State.probeDeny
  split
  · exact .table _ _
  · exact .ok _

theorem State.readCalendar_notSlip (slot : Byte) (profile : Nat) : NotSlip (s.readCalendar failing slot profile) := by
  unfold State.readCalendar
  exact (NotSlip.fromTable _ _).bind fun _ => (NotSlip.fromTable _ _).bind fun _ =>
    (NotSlip.fromTable _ _).bind fun _ => .ok _

theorem State.readPricing_notSlip (slot : Byte) (profile : Nat) : NotSlip (s.readPricing failing slot profile) := by
  unfold State.readPricing
  exact (NotSlip.fromTable _ _).bind fun _ => (NotSlip.fromTable _ _).bind fun _ =>
    (NotSlip.fromTable _ _).bind fun _ => (NotSlip.fromTable _ _).bind fun _ =>
    (NotSlip.fromTable _ _).bind fun _ => (NotSlip.fromTable _ _).bind fun _ => .ok _

theorem State.lookupBand_notSlip (slot : Byte) (offset count d : Nat) :
    NotSlip (s.lookupBand failing slot offset count d) := by
  unfold State.lookupBand
  refine (NotSlip.require16 _ _).bind fun _ => (NotSlip.bandSearch (fun i => NotSlip.fromTable _ _) _ _ _ _ _).bind
    fun b => ?_
  cases b with
  | none => exact .table _ _
  | some b => exact .ok _

theorem State.lineAmount_notSlip (slot : Byte) (g : Pricing) (d k adults children : Nat) :
    NotSlip (s.lineAmount failing slot g d k adults children) := by
  have := s.lookupBand_notSlip failing slot g.bandOffset g.bandCount d
  unfold State.lineAmount
  split
  · exact .ok _
  · split
    · rename_i e he; rw [he] at this; intro h; cases h; exact this rfl
    · exact .ok _

theorem State.classLine_notSlip (slot : Byte) (g : Pricing) (d adults children : Nat) (due : Bool) :
    NotSlip (s.classLine failing slot g d adults children due) := by
  have := s.lookupBand_notSlip failing slot g.bandOffset g.bandCount d
  unfold State.classLine
  split
  · exact .ok _
  · split
    · rename_i e he; rw [he] at this; intro h; cases h; exact this rfl
    · exact .ok _

theorem State.networkLines_notSlip (p : Persons) (seated ticket : Nat) (slot : Byte) (uncovered covered : Nat) :
    NotSlip (s.networkLines failing p seated ticket slot uncovered covered) := by
  unfold State.networkLines
  dsimp only
  split
  · exact .ok _
  split
  · exact .table _ _
  exact (s.readPricing_notSlip failing slot _).bind fun g => (s.lineAmount_notSlip failing slot g _ _ _ _).bind fun _ =>
    (s.lineAmount_notSlip failing slot g _ _ _ _).bind fun _ =>
    (s.classLine_notSlip failing slot g _ _ _ _).bind fun _ => .ok _

theorem State.allLines_notSlip (p : Persons) (seated ticket : Nat) (legs : List Leg) (networks : List Byte) :
    NotSlip (s.allLines failing p seated ticket legs networks) := by
  induction networks with
  | nil => exact .ok _
  | cons g gs ih =>
    simp only [State.allLines]
    have := s.networkLines_notSlip failing p seated ticket g (legDistance legs g false) (legDistance legs g true)
    split
    · rename_i e he; rw [he] at this; intro h; cases h; exact this rfl
    · split
      · rename_i e he; rw [he] at ih; intro h; cases h; exact ih rfl
      · exact .ok _

theorem State.price_notSlip (q : InspectRequest) (a : Assessed) : NotSlip (s.price failing q a) := by
  unfold State.price
  dsimp only
  split
  · rename_i e he
    intro h; cases h
    exact s.allLines_notSlip failing _ _ _ _ _ he
  · exact .ok _

variable {s} {l : Link} (hl : s.linkValid l = true)
include hl

theorem State.decodeToken_notSlip {length : Nat} (h1 : 8 ≤ length) (h2 : length ≤ 192) :
    NotSlip (s.decodeToken [] l length) := by
  have hget : ∀ i, i < length → (s.slipByte [] l (imageAt + i)).isSome = true := by
    intro i hi
    rw [State.slipByte_ok hl (by unfold imageAt; omega)]; rfl
  unfold State.decodeToken
  dsimp only
  obtain ⟨⟨issuer, first⟩, hh⟩ := readTokenHeader_ok (get := fun i => s.slipByte [] l (imageAt + i)) h1 hget
  rw [hh]
  cases first with
  | none => exact .ok _
  | some first =>
    simp only
    split
    · obtain ⟨x, hx, -⟩ := walkElements_ok (get := fun i => s.slipByte [] l (imageAt + i)) (width := none) hget
        Config.elementLimit first (Elements.Within.empty length)
      rw [hx]
      cases x <;> exact .ok _
    · split
      · rename_i order width _ _
        obtain ⟨x, hx, hx'⟩ := walkElements_ok (get := fun i => s.slipByte [] l (imageAt + i)) (width := some width)
          hget Config.elementLimit first (Elements.Within.empty length)
        rw [hx]
        cases x with
        | none => exact .ok _
        | some e =>
          simp only
          split
          · rename_i hc
            obtain ⟨d, hd⟩ := readTokenFields_some (b := readsMsbFirst s.freeCount order) (issuer := issuer) hget
              (hx' _ rfl) hc
            rw [hd]
            exact .ok _
          · exact .ok _
      · exact .table _ _

/-- No access failing, an inspection of a slip in the slip window never ends on the slip. -/
theorem State.findings_notSlip {q : InspectRequest} (hq : q.inRange = true) (t : Word) :
    NotSlip (s.findings [] l q t) := by
  have hlen : 8 ≤ q.length ∧ q.length ≤ 192 := by
    simp only [InspectRequest.inRange, Bool.and_eq_true, decide_eq_true_eq] at hq
    exact hq.2
  have ha : NotSlip (s.assess [] l q t.toNat) := by
    unfold State.assess
    refine (State.decodeToken_notSlip hl hlen.1 hlen.2).bind fun k => ?_
    cases k with
    | malformed issuer => exact .ok _
    | unknownIssuer issuer => exact .ok _
    | decoded d =>
      dsimp only
      split
      · exact .ok _
      · refine (s.lookupProduct_notSlip [] d.issuer _ _).bind fun p => ?_
        refine (s.lookupDeny_notSlip [] d.issuer _ _).bind fun r => ?_
        cases p with
        | none => exact .ok _
        | some p => exact (s.readCalendar_notSlip [] d.issuer _).bind fun _ => .ok _
  unfold State.findings
  split
  · rename_i e he; rw [he] at ha; intro h; cases h; exact ha rfl
  · rename_i a _
    have hp := s.price_notSlip [] q a
    split
    · rename_i e he; rw [he] at hp; intro h; cases h; exact hp rfl
    · exact .ok _

end Lookups
theorem readField_some {get : Nat → Option Byte} {a n : Nat} (h : ∀ i, a ≤ i → i < a + n → (get i).isSome = true) :
    ∃ v, readField get a n = some v := by
  obtain ⟨bs, hbs, -⟩ := readBytes_some h
  exact ⟨_, by unfold readField; rw [hbs]⟩

section Requests
variable {get : Nat → Option Byte} (hget : ∀ i, i < 512 → (get i).isSome = true)
include hget

/-- A field inside a slip that can be read. -/
theorem slipField_some (a n : Nat) (h : a + n ≤ 512) : ∃ v, readField get a n = some v :=
  readField_some fun i _ h2 => hget i (by omega)

theorem readTripRequest_some : ∃ q, readTripRequest get = some q := by
  obtain ⟨a1, e1⟩ := slipField_some hget 17 1 (by omega)
  obtain ⟨a2, e2⟩ := slipField_some hget 18 1 (by omega)
  obtain ⟨a3, e3⟩ := slipField_some hget 19 1 (by omega)
  obtain ⟨a4, e4, -⟩ := readBytes_some (get := get) (a := 20) (n := if a2 ≤ 4 then a2 else 0)
    (fun i h1 h2 => hget i (by split at h2 <;> omega))
  obtain ⟨a5, e5⟩ := slipField_some hget 24 4 (by omega)
  obtain ⟨a6, e6⟩ := slipField_some hget 28 1 (by omega)
  obtain ⟨a7, e7⟩ := slipField_some hget 29 1 (by omega)
  obtain ⟨a8, e8⟩ := slipField_some hget 30 1 (by omega)
  obtain ⟨a9, e9⟩ := slipField_some hget 31 1 (by omega)
  obtain ⟨b1, f1⟩ := slipField_some hget 32 1 (by omega)
  obtain ⟨b2, f2⟩ := slipField_some hget 33 1 (by omega)
  obtain ⟨b3, f3⟩ := slipField_some hget 36 4 (by omega)
  obtain ⟨b4, f4⟩ := slipField_some hget 40 4 (by omega)
  unfold readTripRequest
  simp only [e1, e2, e3, e4, e5, e6, e7, e8, e9, f1, f2, f3, f4, Option.bind_eq_bind, Option.bind_some]
  exact ⟨_, rfl⟩

theorem readPositionRequest_some : ∃ q, readPositionRequest get = some q := by
  obtain ⟨a1, e1⟩ := slipField_some hget 16 1 (by omega)
  obtain ⟨a2, e2⟩ := slipField_some hget 17 1 (by omega)
  obtain ⟨a3, e3⟩ := slipField_some hget 18 1 (by omega)
  obtain ⟨a4, e4⟩ := slipField_some hget 20 4 (by omega)
  unfold readPositionRequest
  simp only [e1, e2, e3, e4, Option.bind_eq_bind, Option.bind_some]
  split <;> exact ⟨_, rfl⟩

theorem readInspectRequest_some : ∃ q, readInspectRequest get = some q := by
  obtain ⟨a1, e1⟩ := slipField_some hget 16 1 (by omega)
  obtain ⟨a2, e2⟩ := slipField_some hget 17 1 (by omega)
  obtain ⟨a3, e3⟩ := slipField_some hget 18 1 (by omega)
  obtain ⟨a4, e4⟩ := slipField_some hget 19 1 (by omega)
  obtain ⟨a5, e5⟩ := slipField_some hget 20 1 (by omega)
  obtain ⟨a6, e6⟩ := slipField_some hget 21 1 (by omega)
  obtain ⟨a7, e7⟩ := slipField_some hget 22 1 (by omega)
  obtain ⟨a8, e8⟩ := slipField_some hget 23 1 (by omega)
  obtain ⟨a9, e9⟩ := slipField_some hget 24 1 (by omega)
  obtain ⟨b1, f1⟩ := slipField_some hget 25 1 (by omega)
  unfold readInspectRequest
  simp only [e1, e2, e3, e4, e5, e6, e7, e8, e9, f1, Option.bind_eq_bind, Option.bind_some]
  exact ⟨_, rfl⟩

theorem readAmendRequest_some : ∃ q, readAmendRequest get = some q := by
  obtain ⟨a1, e1⟩ := slipField_some hget 16 2 (by omega)
  obtain ⟨a2, e2⟩ := slipField_some hget 18 1 (by omega)
  unfold readAmendRequest
  simp only [e1, e2, Option.bind_eq_bind, Option.bind_some]
  exact ⟨_, rfl⟩

theorem readRecallRequest_some : ∃ q, readRecallRequest get = some q := by
  obtain ⟨a1, e1⟩ := slipField_some hget 16 1 (by omega)
  obtain ⟨a2, e2⟩ := slipField_some hget 24 8 (by omega)
  unfold readRecallRequest
  simp only [e1, e2, Option.bind_eq_bind, Option.bind_some]
  exact ⟨_, rfl⟩

theorem readPeerRecord_some (o : Nat) (ho : o + 19 ≤ 512) : ∃ p, readPeerRecord get o = some p := by
  obtain ⟨a1, e1⟩ := slipField_some hget o 1 (by omega)
  obtain ⟨a2, e2⟩ := slipField_some hget (o + 1) 1 (by omega)
  obtain ⟨a3, e3⟩ := slipField_some hget (o + 2) 2 (by omega)
  obtain ⟨a4, e4⟩ := slipField_some hget (o + 4) 8 (by omega)
  obtain ⟨a5, e5⟩ := slipField_some hget (o + 12) 4 (by omega)
  obtain ⟨a6, e6⟩ := slipField_some hget (o + 16) 1 (by omega)
  obtain ⟨a7, e7⟩ := slipField_some hget (o + 17) 1 (by omega)
  obtain ⟨a8, e8⟩ := slipField_some hget (o + 18) 1 (by omega)
  unfold readPeerRecord
  simp only [e1, e2, e3, e4, e5, e6, e7, e8, Option.bind_eq_bind, Option.bind_some]
  exact ⟨_, rfl⟩

end Requests

/-- A peer record with a failing byte is not read. -/
theorem readPeerRecord_none {get : Nat → Option Byte} {a o : Nat} (h1 : a ≤ o) (h2 : o < a + 19) (h : get o = none) :
    readPeerRecord get a = none := by
  have key : ∀ (b n : Nat), b ≤ o → o < b + n → readField get b n = none := fun b n h3 h4 => readField_none h3 h4 h
  unfold readPeerRecord
  rcases (by omega : o < a + 1 ∨ (a + 1 ≤ o ∧ o < a + 2) ∨ (a + 2 ≤ o ∧ o < a + 4) ∨ (a + 4 ≤ o ∧ o < a + 12)
    ∨ (a + 12 ≤ o ∧ o < a + 16) ∨ (a + 16 ≤ o ∧ o < a + 17) ∨ (a + 17 ≤ o ∧ o < a + 18) ∨ a + 18 ≤ o)
    with h | h | h | h | h | h | h | h
  · rw [key a 1 (by omega) (by omega)]; rfl
  · rw [key (a + 1) 1 (by omega) (by omega)]; cases readField get a 1 <;> rfl
  · rw [key (a + 2) 2 (by omega) (by omega)]; simp
  · rw [key (a + 4) 8 (by omega) (by omega)]; simp
  · rw [key (a + 12) 4 (by omega) (by omega)]; simp
  · rw [key (a + 16) 1 (by omega) (by omega)]; simp
  · rw [key (a + 17) 1 (by omega) (by omega)]; simp
  · rw [key (a + 18) 1 (by omega) (by omega)]; simp

/-! ### Merging records -/

/-- The sum of the four counts. -/
def MergeCounts.total (k : MergeCounts) : Nat := k.accepted + k.duplicate + k.updated + k.rejected

theorem MergeCounts.total_add (k : MergeCounts) (c : MergeClass) : (k.add c).total = k.total + 1 := by
  cases c <;> simp [MergeCounts.add, MergeCounts.total] <;> omega

/-- Records merged one after the other change the journal and EVENTS alone. -/
theorem foldl_mergeRecord_frame (records : List PeerRecord) (s : State) :
    records.foldl (fun x p => x.mergeRecord p) s
      = { s with journal := (records.foldl (fun x p => x.mergeRecord p) s).journal,
                 events := (records.foldl (fun x p => x.mergeRecord p) s).events } := by
  induction records generalizing s with
  | nil => rfl
  | cons p rest ih =>
    have h1 := ih (s.mergeRecord p)
    have h2 := State.mergeRecord_rest s p
    simp only [List.foldl_cons] at h1 ⊢
    rw [h1]
    generalize (List.foldl (fun x p => x.mergeRecord p) (s.mergeRecord p) rest) = w
    rw [h2]

/-- The spec lemma of a MERGE's records: the first `m` of them, where their reads succeed, are merged and counted one
after the other, and the rest follows. -/
theorem State.mergeRecords_split {s0 : State} {l : Link} {failing : List Access} (m rest i : Nat) (k : MergeCounts)
    (s : State) (hw : s.windows = s0.windows) (hm : s.mem = s0.mem)
    (hread : ∀ j, i ≤ j → j < i + m → ∃ p, readPeerRecord (s0.slipByte failing l) (32 + 20 * j) = some p) :
    ∃ (records : List PeerRecord) (k' : MergeCounts), records.length = m ∧ k'.total = k.total + m
      ∧ (records.foldl (fun x p => x.mergeRecord p) s, k')
        = records.foldl (fun x p => (x.1.mergeRecord p, x.2.add (x.1.classify p))) (s, k)
      ∧ (∀ j, j < m → readPeerRecord (s0.slipByte failing l) (32 + 20 * (i + j)) = records[j]?)
      ∧ s.mergeRecords failing l (m + rest) i k
        = (records.foldl (fun x p => x.mergeRecord p) s).mergeRecords failing l rest (i + m) k' := by
  induction m generalizing i k s with
  | zero => exact ⟨[], k, rfl, rfl, rfl, by intro j hj; omega, by rw [Nat.zero_add]; rfl⟩
  | succ m ih =>
    obtain ⟨p, hp⟩ := hread i (by omega) (by omega)
    have hsb : s.slipByte failing l = s0.slipByte failing l := by
      funext o; unfold State.slipByte State.admits State.slipAddress; rw [hw, hm]
    obtain ⟨rs, k', h1, h2, h3, h4, h5⟩ := ih (i + 1) (k.add (s.classify p)) (s.mergeRecord p) (by simp [hw])
      (by simp [hm]) (fun j h1 h2 => hread j (by omega) (by omega))
    refine ⟨p :: rs, k', by simp [h1], by rw [h2, MergeCounts.total_add]; omega, by simpa using h3, ?_, ?_⟩
    · intro j hj
      cases j with
      | zero => simpa using hp
      | succ j =>
        have := h4 j (by omega)
        rw [show i + (j + 1) = i + 1 + j by omega]
        simpa using this
    · rw [show m + 1 + rest = (m + rest) + 1 by omega]
      simp only [State.mergeRecords, peerRecordAt]
      rw [hsb, hp]
      simp only
      rw [h5, show i + (m + 1) = i + 1 + m by omega]
      rfl

/-! ### The work on a slip, up to its answer -/

/-- `u` is `s` with what the block of a slip's kind does before the answer: windows, chains, memory and the answer flag
of the slip's chain stand. -/
structure WorkedOn (s : State) (f : InFlight) (u : State) : Prop where
  windows : u.windows = s.windows
  interactive : u.interactive = s.interactive
  background : u.background = s.background
  mem : u.mem = s.mem
  flag : u.flag (answerEvent f.chain) = s.flag (answerEvent f.chain)

theorem WorkedOn.of_events {s u : State} {f : InFlight} (h1 : u.windows = s.windows)
    (h2 : u.interactive = s.interactive) (h3 : u.background = s.background) (h4 : u.mem = s.mem)
    (h5 : u.events = s.events) : WorkedOn s f u := ⟨h1, h2, h3, h4, by simp [State.flag, h5]⟩

theorem WorkedOn.refl (s : State) (f : InFlight) : WorkedOn s f s := .of_events rfl rfl rfl rfl rfl

theorem WorkedOn.trans {s u v : State} {f : InFlight} (h : WorkedOn s f u) (h' : WorkedOn u f v) : WorkedOn s f v :=
  ⟨h'.windows.trans h.windows, h'.interactive.trans h.interactive, h'.background.trans h.background,
    h'.mem.trans h.mem, h'.flag.trans h.flag⟩

/-- Another block's event leaves the answer flags. -/
theorem State.flag_raise {s : State} {e : Event} (c : Chain) (h1 : e ≠ .intAnswer) (h2 : e ≠ .bgAnswer) :
    (s.raise e).flag (answerEvent c) = s.flag (answerEvent c) := by
  unfold State.flag
  show (s.events ||| e.mask).getLsbD _ = _
  cases c <;> cases e <;> simp_all [answerEvent, Event.mask, Event.bit]

theorem WorkedOn.raise {s u : State} {f : InFlight} {e : Event} (h1 : e ≠ .intAnswer) (h2 : e ≠ .bgAnswer)
    (h : WorkedOn s f u) : WorkedOn s f (u.raise e) :=
  h.trans ⟨rfl, rfl, rfl, rfl, State.flag_raise _ h1 h2⟩

theorem WorkedOn.tableFault (s : State) (f : InFlight) (slot : Byte) (check : Nat) :
    WorkedOn s f (s.tableFault slot check) := by
  refine ⟨by simp, by simp, by simp, by simp, ?_⟩
  have h : (s.tableFault slot check).events = ({ s with tables := .unusable }.raise .tableFault).events :=
    (State.tableFault_failed s slot check).events
  unfold State.flag
  rw [h]
  exact State.flag_raise (s := { s with tables := .unusable }) f.chain (by decide) (by decide)

theorem WorkedOn.makeRoom (s : State) (f : InFlight) : WorkedOn s f s.makeRoom := by
  unfold State.makeRoom State.evictOldest
  split
  · split
    · exact .refl _ _
    · dsimp only
      split
      · exact .of_events rfl rfl rfl rfl rfl
      · exact .raise (by decide) (by decide) (.of_events rfl rfl rfl rfl rfl)
  · exact .refl _ _

theorem WorkedOn.mergeRecord (s : State) (f : InFlight) (p : PeerRecord) : WorkedOn s f (s.mergeRecord p) := by
  unfold State.mergeRecord
  split
  · exact .refl _ _
  · exact .refl _ _
  · exact .of_events (by simp) (by simp) (by simp) (by simp) (by simp)
  · exact (WorkedOn.makeRoom s f).trans (.of_events rfl rfl rfl rfl rfl)

theorem WorkedOn.foldl_mergeRecord (s : State) (f : InFlight) (records : List PeerRecord) :
    WorkedOn s f (records.foldl (fun x p => x.mergeRecord p) s) := by
  induction records generalizing s with
  | nil => exact .refl _ _
  | cons p rest ih => exact (WorkedOn.mergeRecord s f p).trans (ih _)

theorem WorkedOn.insertOwn (s : State) (f : InFlight) (o : OwnSighting) : WorkedOn s f (s.insertOwn o) := by
  unfold State.insertOwn
  exact (WorkedOn.makeRoom s f).trans (.of_events rfl rfl rfl rfl rfl)

theorem WorkedOn.applyJudgement (s : State) (f : InFlight) (j : Judgement) (r : Nat) :
    WorkedOn s f (s.applyJudgement j r) := by
  cases j with
  | adopted => exact .of_events rfl rfl rfl rfl rfl
  | stepped =>
    exact .raise (by decide) (by decide) (.of_events rfl rfl rfl rfl rfl)
  | notAdopted => exact .raise (by decide) (by decide) (.refl s f)

/-- Work `w` on the slip in flight `f`, an area of `n` result bytes at `resultAt`: whichever writes fail, the block does
the same and only its answer may be cut off. -/
def Answers (s : State) (f : InFlight) (resultAt n : Nat) (w : List Access → State) : Prop :=
  ∃ (u : State) (result : List Byte) (r : Option Reason), WorkedOn s f u ∧ result.length = n
    ∧ ∀ failing : List Access, (∀ x ∈ failing, x.isWrite = true) → w failing = u.answer failing f resultAt result r

theorem Answers.at {s u : State} {f : InFlight} {resultAt n : Nat} {w : List Access → State} (result : List Byte)
    (r : Option Reason) (h : WorkedOn s f u) (hn : result.length = n)
    (hw : ∀ failing : List Access, (∀ x ∈ failing, x.isWrite = true) → w failing = u.answer failing f resultAt result r) :
    Answers s f resultAt n w := ⟨u, result, r, h, hn, hw⟩

/-- A RECALL's result area has 196 bytes when at most eight places are returned (R175). -/
theorem recallResult_length (n : Nat) {places : List Entry} (h : places.length ≤ 8) :
    (recallResult n places).length = 196 := by
  have hf : (places.flatMap placeBytes).length = 24 * places.length := by
    induction places with
    | nil => rfl
    | cons e rest ih =>
      rw [List.flatMap_cons, List.length_append, placeBytes_length, ih (by simp at h; omega), List.length_cons]
      omega
  simp [recallResult, zeros, hf, recallPlaces]
  omega

section Work
variable {s : State} {f : InFlight} (hv : s.linkValid (s.chain f.chain).cursor = true)
include hv

theorem slipBytes_some (i : Nat) (hi : i < 512) : (s.slipByte [] (s.chain f.chain).cursor i).isSome = true := by
  rw [State.slipByte_ok hv hi]; rfl

theorem State.workTrip_answers :
    Answers s f 64 16 (fun failing => s.workTrip failing
      ((readField (s.slipByte failing (s.chain f.chain).cursor) 16 1).getD 0) f) := by
  obtain ⟨form, hform⟩ := slipField_some (slipBytes_some hv) 16 1 (by omega)
  have hz : ∀ r, Answers s f 64 16 (fun failing => s.refuseTrip failing f r) := fun r =>
    .at (zeros 16) (some r) (.refl _ _) (by decide) fun _ _ => rfl
  have hs : ∀ {failing : List Access} (_ : ∀ x ∈ failing, x.isWrite = true),
      s.slipByte failing (s.chain f.chain).cursor = s.slipByte [] (s.chain f.chain).cursor := fun h =>
    State.slipByte_of_not (not_slipRead_of_write h)
  have hcongr : ∀ {w w' : List Access → State}, Answers s f 64 16 w' →
      (∀ failing : List Access, (∀ x ∈ failing, x.isWrite = true) → w failing = w' failing) → Answers s f 64 16 w := by
    rintro w w' ⟨u, result, r, h1, h2, h3⟩ h
    exact ⟨u, result, r, h1, h2, fun fl hf => (h fl hf).trans (h3 fl hf)⟩
  by_cases h1 : form = formBegin
  · by_cases h2 : s.trip.state = .inTrip
    · refine hcongr (hz .tripActive) fun fl hf => ?_
      simp only [State.workTrip, hs hf, hform, Option.getD_some, h1, if_true, State.workBegin, h2]
    · obtain ⟨q, hq⟩ := readTripRequest_some (slipBytes_some hv)
      have hb : ∀ fl : List Access, (∀ x ∈ fl, x.isWrite = true) → s.checkTripBegin fl q = s.checkTripBegin [] q := by
        intro fl hf
        unfold State.checkTripBegin
        rcases s.routeWalk_as fl q.planOffset q.start with e | ⟨-, b, hb⟩
        · rw [e]
        · exact absurd hb (not_tableRead_of_write hf _ _)
      cases hc : s.checkTripBegin [] q with
      | refused r =>
        refine hcongr (hz r) fun fl hf => ?_
        simp only [State.workTrip, hs hf, hform, Option.getD_some, h1, if_true, State.workBegin, h2, if_false, hq,
          hb fl hf, hc]
      | tableRead =>
        refine .at (zeros 16) (some .tableRead) (.tableFault s f noSlot 14) (by decide) fun fl hf => ?_
        simp only [State.workTrip, hs hf, hform, Option.getD_some, h1, if_true, State.workBegin, h2, if_false, hq,
          hb fl hf, hc]
        rfl
      | accepted plan =>
        refine .at (tripBeginResult plan.length q.priorityCount (min q.horizon 240) (max q.hi q.lo)) none
          (.of_events rfl rfl rfl rfl rfl : WorkedOn s f (s.beginTrip q plan)) (by simp [tripBeginResult, zeros])
          fun fl hf => ?_
        simp only [State.workTrip, hs hf, hform, Option.getD_some, h1, if_true, State.workBegin, h2, if_false, hq,
          hb fl hf, hc]
        rfl
  · by_cases h2 : form = formEnd
    · have hne : (formEnd = formBegin) = False := by decide
      by_cases h3 : s.trip.state = .noTrip
      · refine hcongr (hz .noTrip) fun fl hf => ?_
        simp only [State.workTrip, hs hf, hform, Option.getD_some, h2, hne, if_false, if_true, State.workEnd, h3]
      · refine .at (tripEndResult s.journal.entries.length s.trip.ownCount.toNat s.clock.toNat) none
          (.of_events rfl rfl rfl rfl rfl : WorkedOn s f s.endTrip) (by simp [tripEndResult, zeros]) fun fl hf => ?_
        simp only [State.workTrip, hs hf, hform, Option.getD_some, h2, hne, if_false, if_true, State.workEnd, h3]
        rfl
    · refine hcongr (hz .badField) fun fl hf => ?_
      simp only [State.workTrip, hs hf, hform, Option.getD_some, h1, h2, if_false]

theorem State.workPosition_answers : Answers s f 32 8 (fun failing => s.workPosition failing f) := by
  obtain ⟨q, hq⟩ := readPositionRequest_some (slipBytes_some hv)
  have hs : ∀ {failing : List Access} (_ : ∀ x ∈ failing, x.isWrite = true),
      s.slipByte failing (s.chain f.chain).cursor = s.slipByte [] (s.chain f.chain).cursor := fun h =>
    State.slipByte_of_not (not_slipRead_of_write h)
  by_cases h1 : s.trip.state = .noTrip
  · refine .at (positionResult s.trip.current.toNat s.trip.delay.toNat 0 s.stamp.toNat) (some .noTrip) (.refl s f) (by simp [positionResult]) fun fl hf => ?_
    simp only [State.workPosition, h1, if_true, State.refusePosition]
    rfl
  · cases hc : s.checkPosition q with
    | some r =>
      refine .at (positionResult s.trip.current.toNat s.trip.delay.toNat 0 s.stamp.toNat) (some r) (.refl s f) (by simp [positionResult]) fun fl hf => ?_
      simp only [State.workPosition, h1, if_false, hs hf, hq, hc, State.refusePosition]
      rfl
    | none =>
      have hw : WorkedOn s f (s.applyPosition q) := by
        unfold State.applyPosition
        split
        · exact .of_events rfl rfl rfl rfl rfl
        · exact WorkedOn.trans (u := s.place q) (.of_events rfl rfl rfl rfl rfl) (.applyJudgement _ _ _ _)
      refine .at (positionResult (s.applyPosition q).trip.current.toNat (s.applyPosition q).trip.delay.toNat
        (positionFlagBits (decide (s.positionJudgement q = some .stepped))
          (decide (s.positionJudgement q = some .notAdopted))) (s.applyPosition q).clock.toNat) none hw
        (by simp [positionResult]) fun fl hf => ?_
      simp only [State.workPosition, h1, if_false, hs hf, hq, hc]
      rfl

theorem State.workInspect_answers : Answers s f 224 64 (fun failing => s.workInspect failing f) := by
  obtain ⟨q, hq⟩ := readInspectRequest_some (slipBytes_some hv)
  have hz : ∀ r, (∀ fl : List Access, (∀ x ∈ fl, x.isWrite = true) → s.workInspect fl f = s.refuseInspect fl f r) →
      Answers s f 224 64 (fun failing => s.workInspect failing f) := fun r h =>
    .at (zeros 64) (some r) (.refl s f) (by decide) h
  have hs : ∀ {failing : List Access} (_ : ∀ x ∈ failing, x.isWrite = true),
      s.slipByte failing (s.chain f.chain).cursor = s.slipByte [] (s.chain f.chain).cursor := fun h =>
    State.slipByte_of_not (not_slipRead_of_write h)
  by_cases h1 : s.trip.state = .noTrip
  · exact hz .noTrip fun fl hf => by simp only [State.workInspect, h1, if_true]
  by_cases h2 : q.inRange = true
  swap
  · exact hz .badField fun fl hf => by simp [State.workInspect, h1, hs hf, hq, h2]
  by_cases h3 : s.tables = .usable
  swap
  · exact hz .tablesUnusable fun fl hf => by simp [State.workInspect, h1, hs hf, hq, h2, h3]
  have hf' : ∀ fl : List Access, (∀ x ∈ fl, x.isWrite = true) →
      s.findings fl (s.chain f.chain).cursor q f.evalTime = s.findings [] (s.chain f.chain).cursor q f.evalTime := by
    intro fl hf
    rcases s.findings_findsAs (not_slipRead_of_write hf) (s.chain f.chain).cursor q f.evalTime with e | ⟨slot, a, ha, -⟩
    · exact e
    · exact absurd ha (not_tableRead_of_write hf _ _)
  have hev : ∀ fl : List Access, (∀ x ∈ fl, x.isWrite = true) → s.workInspect fl f = s.evaluateInspect fl f q :=
    fun fl hf => State.workInspect_evaluates (TripState.ne_noTrip h1) (by rw [hs hf]; exact hq) h2 h3
  have hcount : WorkedOn s f { s with freeCount := s.freeCount + 1 } := .of_events rfl rfl rfl rfl rfl
  cases hg : s.findings [] (s.chain f.chain).cursor q f.evalTime with
  | error stop =>
    cases stop with
    | slip => exact absurd hg (State.findings_notSlip hv h2 _)
    | table slot check =>
      refine .at (zeros 64) (some .tableRead) (hcount.trans (.tableFault _ f slot check)) (by decide) fun fl hf => ?_
      rw [hev fl hf]
      unfold State.evaluateInspect
      rw [hf' fl hf, hg]
      rfl
  | ok g =>
    have hok : ∀ fl : List Access, (∀ x ∈ fl, x.isWrite = true) → s.workInspect fl f
        = State.concludeInspect fl f g { s with freeCount := s.freeCount + 1 } := fun fl hf => by
      rw [hev fl hf, State.evaluateInspect_ok ((hf' fl hf).trans hg)]
    cases hc : f.chain with
    | interactive =>
      refine .at (verdictRecordBytes (g.record (State.insertOwn (g.sighting f.evalTime)
        { s with freeCount := s.freeCount + 1 }).journal.ownCounter.toNat f.evalTime)) none
        (hcount.trans (.insertOwn _ f (g.sighting f.evalTime))) (verdictRecordBytes_length _) fun fl hf => ?_
      rw [hok fl hf, State.concludeInspect_interactive hc]
      rfl
    | background =>
      refine .at (verdictRecordBytes (g.record 0 f.evalTime)) none hcount (verdictRecordBytes_length _) fun fl hf => ?_
      rw [hok fl hf, State.concludeInspect_background hc]
      rfl

theorem State.workAmend_answers : Answers s f 32 4 (fun failing => s.workAmend failing f) := by
  obtain ⟨q, hq⟩ := readAmendRequest_some (slipBytes_some hv)
  have hs : ∀ {failing : List Access} (_ : ∀ x ∈ failing, x.isWrite = true),
      s.slipByte failing (s.chain f.chain).cursor = s.slipByte [] (s.chain f.chain).cursor := fun h =>
    State.slipByte_of_not (not_slipRead_of_write h)
  obtain ⟨⟨n, o⟩, hr⟩ : ∃ p : Nat × Nat, ∀ fl : List Access, (∀ x ∈ fl, x.isWrite = true) →
      (if s.trip.state = .noTrip then some (0, 0)
        else readAmendRequest (s.slipByte fl (s.chain f.chain).cursor)) = some p := by
    by_cases h1 : s.trip.state = .noTrip
    · exact ⟨(0, 0), fun fl hf => if_pos h1⟩
    · exact ⟨q, fun fl hf => by rw [if_neg h1, hs hf]; exact hq⟩
  have hlen : ∀ r result, s.examineAmend n o = .refused r result → result.length = 4 := by
    intro r result h
    unfold State.examineAmend at h
    repeat' split at h
    all_goals first | (cases h; done) | (cases h; rfl)
  have hlen' : ∀ m out result, s.examineAmend n o = .accepted m out result → result.length = 4 := by
    intro m out result h
    unfold State.examineAmend at h
    repeat' split at h
    all_goals first | (cases h; done) | (cases h; rfl)
  cases he : s.examineAmend n o with
  | refused r result =>
    refine .at result (some r) (.refl s f) (hlen _ _ he) fun fl hf => ?_
    simp only [State.workAmend, hr fl hf, he]
    rfl
  | accepted m out result =>
    refine .at result none (.of_events (by simp) (by simp) (by simp) (by simp) (by simp) :
      WorkedOn s f (s.updateEntry s.trip.ownId m (Entry.amend out))) (hlen' _ _ _ he) fun fl hf => ?_
    simp only [State.workAmend, hr fl hf, he]
    rfl

theorem State.workMerge_answers : Answers s f 352 8 (fun failing => s.workMerge failing f) := by
  have hs : ∀ {failing : List Access} (_ : ∀ x ∈ failing, x.isWrite = true),
      s.slipByte failing (s.chain f.chain).cursor = s.slipByte [] (s.chain f.chain).cursor := fun h =>
    State.slipByte_of_not (not_slipRead_of_write h)
  obtain ⟨n, hn⟩ := slipField_some (slipBytes_some hv) 16 1 (by omega)
  by_cases h1 : s.trip.state = .noTrip
  · refine .at (mergeResult 0 0 0 0) (some .noTrip) (.refl s f) (by simp [mergeResult, zeros]) fun fl hf => ?_
    simp only [State.workMerge, h1, if_true]
    rfl
  by_cases h2 : 1 ≤ n ∧ n ≤ 16
  · obtain ⟨rs, k, -, -, -, -, h3⟩ := State.mergeRecords_split (s0 := s) (failing := []) n 0 0
      { accepted := 0, duplicate := 0, updated := 0, rejected := 0 } s rfl rfl
      (fun j _ hj => readPeerRecord_some (slipBytes_some hv) _ (by omega))
    have hm : ∀ fl : List Access, (∀ x ∈ fl, x.isWrite = true) → ∀ (m i : Nat) (k : MergeCounts) (x : State),
        x.mergeRecords fl (s.chain f.chain).cursor m i k = x.mergeRecords [] (s.chain f.chain).cursor m i k := by
      intro fl hf m
      induction m with
      | zero => intro i k x; rfl
      | succ m ih =>
        intro i k x
        simp only [State.mergeRecords, State.slipByte_of_not (not_slipRead_of_write hf), ih]
    refine .at (mergeResult k.accepted k.duplicate k.updated k.rejected) none (.foldl_mergeRecord s f rs)
      (by simp [mergeResult, zeros]) fun fl hf => ?_
    simp only [State.workMerge, h1, if_false, hs hf, hn, if_pos h2, hm fl hf]
    rw [Nat.add_zero] at h3
    rw [h3]
    rfl
  · refine .at (mergeResult 0 0 0 0) (some .badField) (.refl s f) (by simp [mergeResult, zeros]) fun fl hf => ?_
    simp only [State.workMerge, h1, if_false, hs hf, hn, if_neg h2]
    rfl

theorem State.workRecall_answers : Answers s f 32 196 (fun failing => s.workRecall failing f) := by
  obtain ⟨⟨issuer, serial⟩, hq⟩ := readRecallRequest_some (slipBytes_some hv)
  by_cases h1 : s.trip.state = .noTrip
  · refine .at (recallResult 0 []) (some .noTrip) (.refl s f) (recallResult_length 0 (by simp)) fun fl hf => ?_
    simp only [State.workRecall, h1, if_true]
    rfl
  · refine .at (s.journal.recallBytes (byteOf issuer) (BitVec.ofNat 64 serial)) none (.refl s f) ?_ fun fl hf => ?_
    · exact recallResult_length _ (by rw [List.length_take]; exact Nat.min_le_left _ _)
    · simp only [State.workRecall, h1, if_false, State.slipByte_of_not (not_slipRead_of_write hf), hq]
      rfl

/-- The spec lemma of the work on a slip: the block of its kind does the same whichever writes fail, and its answer has
the result area of its kind. -/
theorem State.workSlip_answers (h1 : 1 ≤ f.kind.toNat) (h6 : f.kind.toNat ≤ 6) :
    Answers s f (resultArea f.kind).1 (resultArea f.kind).2 (fun failing => s.workSlip failing f) := by
  have hk : ∀ n : Nat, n < 256 → f.kind.toNat = n → f.kind = BitVec.ofNat 8 n := by
    intro n hn h
    apply BitVec.eq_of_toNat_eq
    rw [h, BitVec.toNat_ofNat]
    omega
  rcases (by omega : f.kind.toNat = 1 ∨ f.kind.toNat = 2 ∨ f.kind.toNat = 3 ∨ f.kind.toNat = 4 ∨ f.kind.toNat = 5
    ∨ f.kind.toNat = 6) with h | h | h | h | h | h <;> have hkind := hk _ (by omega) h
  · simpa [hkind, resultArea, kindTrip, State.workSlip] using State.workTrip_answers hv
  · simpa [hkind, resultArea, kindTrip, kindPosition, State.workSlip] using State.workPosition_answers hv
  · simpa [hkind, resultArea, kindTrip, kindPosition, kindInspect, State.workSlip] using State.workInspect_answers hv
  · simpa [hkind, resultArea, kindTrip, kindPosition, kindInspect, kindAmend, State.workSlip]
      using State.workAmend_answers hv
  · simpa [hkind, resultArea, kindTrip, kindPosition, kindInspect, kindAmend, kindMerge, State.workSlip]
      using State.workMerge_answers hv
  · simpa [hkind, resultArea, kindTrip, kindPosition, kindInspect, kindAmend, kindMerge, kindRecall, State.workSlip]
      using State.workRecall_answers hv

end Work

/-! ### Commands -/

/-- A failed access runs its activity with the accesses in error (R156). -/
theorem exec_accessFailed (timeout : Bool) (a : Activity) (failing : List Access) (s : State) :
    exec (accessFailed timeout a failing) s = .next (s.activity a failing) := by
  cases timeout <;> rfl

/-- Every kind's result area lies in the slip body (R172 to R175). -/
theorem resultArea_bounds (k : Byte) : 16 ≤ (resultArea k).1 ∧ (resultArea k).1 + (resultArea k).2 ≤ 512 := by
  unfold resultArea; repeat' split
  all_goals decide

/-- The command that works the slip in flight does its work. -/
theorem State.exec_workCommand {s : State} {f : InFlight} (hf : s.inFlight = some f) (hp : f.progress = .working)
    (h1 : 1 ≤ f.kind.toNat) (h6 : f.kind.toNat ≤ 6) (hv : s.linkValid (s.chain f.chain).cursor = true) :
    exec (s.workCommand f) s = .next (s.workSlip [] f) := by
  have hw : ∀ k, f.kind = k → s.working k = some f := by
    intro k hk; unfold State.working; rw [hf]; simp [hk, hp]
  have hk : ∀ n : Nat, n < 256 → f.kind.toNat = n → f.kind = BitVec.ofNat 8 n := by
    intro n hn h
    apply BitVec.eq_of_toNat_eq
    rw [h, BitVec.toNat_ofNat]
    omega
  rcases (by omega : f.kind.toNat = 1 ∨ f.kind.toNat = 2 ∨ f.kind.toNat = 3 ∨ f.kind.toNat = 4 ∨ f.kind.toNat = 5
    ∨ f.kind.toNat = 6) with h | h | h | h | h | h <;> have hkind := hk _ (by omega) h
  · have hw' := hw kindTrip hkind
    have hform : readField (s.slipByte [] (s.chain f.chain).cursor) 16 1
        = some (Memory.read s.mem (s.slipOf f + 16)).toNat := by
      rw [readField_one, State.slipByte_ok hv (by omega)]; rfl
    unfold State.workCommand State.workSlip
    rw [if_pos (show f.kind = kindTrip from hkind), if_pos (show f.kind = kindTrip from hkind), hform]
    split
    · rename_i h2
      show Host.Outcome.next _ = _
      rw [hw', h2]; rfl
    · rename_i h2
      show Host.Outcome.next _ = _
      rw [hw']
      simp only
      by_cases h3 : (Memory.read s.mem (s.slipOf f + 16)).toNat = formBegin
      · rw [h3]; rfl
      · have h4 : ¬ (Memory.read s.mem (s.slipOf f + 16)).toNat = formEnd := by
          intro h; apply h2; apply BitVec.eq_of_toNat_eq; rw [h]; rfl
        simp only [State.workTrip, hform, h3, h4, if_false]
  · have hw' := hw kindPosition hkind
    unfold State.workCommand State.workSlip
    simp only [hkind, kindTrip, kindPosition, kindInspect, kindAmend, kindMerge, kindRecall]
    show Host.Outcome.next _ = _
    rw [hw']; rfl
  · have hw' := hw kindInspect hkind
    unfold State.workCommand State.workSlip
    simp only [hkind, kindTrip, kindPosition, kindInspect, kindAmend, kindMerge, kindRecall]
    cases hc : f.chain with
    | interactive => show Host.Outcome.next _ = _; rw [hw']; simp only [hc]; rfl
    | background => show Host.Outcome.next _ = _; rw [hw']; simp only [hc]; rfl
  · have hw' := hw kindAmend hkind
    unfold State.workCommand State.workSlip
    simp only [hkind, kindTrip, kindPosition, kindInspect, kindAmend, kindMerge, kindRecall]
    show Host.Outcome.next _ = _
    rw [hw']; rfl
  · have hw' := hw kindMerge hkind
    unfold State.workCommand State.workSlip
    simp only [hkind, kindTrip, kindPosition, kindInspect, kindAmend, kindMerge, kindRecall]
    show Host.Outcome.next _ = _
    rw [hw']; rfl
  · have hw' := hw kindRecall hkind
    unfold State.workCommand State.workSlip
    simp only [hkind, kindTrip, kindPosition, kindInspect, kindAmend, kindMerge, kindRecall]
    show Host.Outcome.next _ = _
    rw [hw']; rfl

/-- One write that fails is not made. -/
theorem storeAll_one_fails {admits : Nat → Bool} {failing : List Access} {base : Nat} {a : Access} {o : Nat} {b : Byte}
    {m : List Host.Cell} (h : a ∈ failing) : storeAll admits failing base [(a, o, b)] m = (m, false) := by
  simp [storeAll, h]

/-- One write that succeeds is made. -/
theorem storeAll_one {admits : Nat → Bool} {failing : List Access} {base : Nat} {a : Access} {o : Nat} {b : Byte}
    {m : List Host.Cell} (h : a ∉ failing) (hadm : admits (base + o) = true) :
    storeAll admits failing base [(a, o, b)] m = (Memory.write m (base + o) b, true) := by
  simp [storeAll, h, hadm]

end Sys2Proof.Machine
end

