-- ==== Sys2Proof/Laws/Commands.lean ====
section
/-!
SUPPORT. Sys2Proof/Laws/Commands.lean: what every activity of the part leaves unchanged: the queue, the trip, the slip
in flight and the examination; and which command an access to a register is (R160).
-/
namespace Sys2Proof.Machine

/-- The hold level touches neither queue, trip, slip in flight nor examination. -/
theorem State.setHoldLevel_keeps (b : Bool) (s : State) : (s.setHoldLevel b).pending = s.pending
    ∧ (s.setHoldLevel b).trip = s.trip ∧ (s.setHoldLevel b).inFlight = s.inFlight
    ∧ (s.setHoldLevel b).examining = s.examining := by
  unfold State.setHoldLevel; split <;> simp

/-- Nor does a CONTROL write without RESET. -/
theorem State.writeControl_keeps (a b c d : Bool) (s : State) : (s.writeControl a b c d).pending = s.pending
    ∧ (s.writeControl a b c d).trip = s.trip ∧ (s.writeControl a b c d).inFlight = s.inFlight
    ∧ (s.writeControl a b c d).examining = s.examining := by
  have h := State.setHoldLevel_keeps d s
  unfold State.writeControl State.wakeUp State.requestRest
  dsimp only
  repeat' split
  all_goals simpa using h

/-- Nor an anchor fault. -/
theorem State.anchorFault_keeps (n : Nat) (s : State) : (s.anchorFault n).pending = s.pending
    ∧ (s.anchorFault n).trip = s.trip ∧ (s.anchorFault n).inFlight = s.inFlight
    ∧ (s.anchorFault n).examining = s.examining := by
  simp [State.anchorFault]

/-- Nor the anchor read and its check. -/
theorem State.anchorRead_keeps (fl : List Access) (s : State) : (s.anchorRead fl).pending = s.pending
    ∧ (s.anchorRead fl).trip = s.trip ∧ (s.anchorRead fl).inFlight = s.inFlight
    ∧ (s.anchorRead fl).examining = s.examining := by
  unfold State.anchorRead State.acceptAnchor
  dsimp only
  repeat' split
  all_goals simp [State.anchorFault]

/-- Nor the end of a walk. -/
theorem State.walk_keeps (fl : List Access) (s : State) : (s.walk fl).pending = s.pending
    ∧ (s.walk fl).trip = s.trip ∧ (s.walk fl).inFlight = s.inFlight ∧ (s.walk fl).examining = s.examining := by
  unfold State.walk
  repeat' split
  all_goals simp

/-- Nor the parking of a chain on stage. -/
theorem State.parkOnStage_keeps (fl : List Access) (c : Chain) (s : State) : (s.parkOnStage fl c).pending =
    s.pending ∧ (s.parkOnStage fl c).trip = s.trip ∧ (s.parkOnStage fl c).inFlight = s.inFlight
    ∧ (s.parkOnStage fl c).examining = s.examining := by
  unfold State.parkOnStage
  dsimp only
  repeat' split
  all_goals simp

/-- After an answer the slip awaits its follow-up, or an access error has ended it. -/
theorem State.answer_inFlight (fl : List Access) (f : InFlight) (n : Nat) (bs : List Byte) (r : Option Reason) (s :
    State) :
    (s.answer fl f n bs r).inFlight = some { f with progress := .answered }
      ∨ (s.answer fl f n bs r).inFlight = none := by
  unfold State.answer; dsimp only; split <;> simp

/-- An answer leaves queue, trip and examination. -/
theorem State.answer_keeps (fl : List Access) (f : InFlight) (n : Nat) (bs : List Byte) (r : Option Reason) (s :
    State) :
    (s.answer fl f n bs r).pending = s.pending ∧ (s.answer fl f n bs r).trip = s.trip
      ∧ (s.answer fl f n bs r).examining = s.examining := by
  simp

/-- An examination leaves queue and trip. -/
theorem State.examine_keeps (fl : List Access) (s : State) : (s.examine fl).pending = s.pending
    ∧ (s.examine fl).trip = s.trip := by
  unfold State.examine State.dispatch
  dsimp only
  have hp := fun c u => State.parkOnStage_keeps fl c u
  repeat' split
  all_goals first | simp | skip
  all_goals first | simpa using (hp _ _).1 | simp [(hp _ _).1, (hp _ _).2.1]

/-- A follow-up leaves queue and trip. -/
theorem State.followUp_keeps (fl : List Access) (b : Bool) (s : State) : (s.followUp fl b).pending = s.pending
    ∧ (s.followUp fl b).trip = s.trip := by
  unfold State.followUp
  dsimp only
  repeat' split
  all_goals simp

/-- A tail re-read leaves queue and trip. -/
theorem State.tailReread_keeps (fl : List Access) (c : Chain) (s : State) : (s.tailReread fl c).pending = s.pending
    ∧ (s.tailReread fl c).trip = s.trip := by
  unfold State.tailReread
  dsimp only
  repeat' split
  all_goals simp

/-- A restart leaves queue and trip. -/
theorem State.restart_keeps (fl : List Access) (c : Chain) (s : State) : (s.restart fl c).pending = s.pending
    ∧ (s.restart fl c).trip = s.trip := by
  unfold State.restart
  repeat' split
  all_goals simp

/-- A NUDGE leaves queue and trip where its action does. -/
theorem State.onNudge_keeps (n : BitVec 2) (act : Chain → State → State) (h : ∀ c u, (act c u).pending = u.pending
    ∧ (act c u).trip = u.trip) (s : State) :
    (s.onNudge n act).pending = s.pending ∧ (s.onNudge n act).trip = s.trip := by
  unfold State.onNudge
  repeat' split
  all_goals simp [h]

/-- The working of a TRIP slip leaves the queue. -/
theorem State.workTrip_pending (fl : List Access) (w : Nat) (f : InFlight) (s : State) : (s.workTrip fl w
    f).pending = s.pending := by
  unfold State.workTrip State.workBegin State.workEnd State.refuseTrip State.beginTrip State.endTrip
  repeat' split
  all_goals simp

/-- The working of a POSITION leaves the queue. -/
theorem State.workPosition_pending (fl : List Access) (f : InFlight) (s : State) : (s.workPosition fl f).pending =
    s.pending := by
  unfold State.workPosition State.refusePosition State.applyPosition State.place
  dsimp only
  repeat' split
  all_goals simp

/-- The working of an INSPECT leaves the queue. -/
theorem State.workInspect_pending (fl : List Access) (f : InFlight) (s : State) : (s.workInspect fl f).pending =
    s.pending := by
  unfold State.workInspect State.evaluateInspect State.refuseInspect State.concludeInspect
  dsimp only
  repeat' split
  all_goals simp

/-- The working of an AMEND leaves queue and trip. -/
theorem State.workAmend_keeps (fl : List Access) (f : InFlight) (s : State) : (s.workAmend fl f).pending = s.pending
    ∧ (s.workAmend fl f).trip = s.trip := by
  unfold State.workAmend
  dsimp only
  repeat' split
  all_goals simp

/-- The records of a MERGE leave queue and trip. -/
theorem State.mergeRecords_keeps (fl : List Access) (l : Link) (n i : Nat) (k : MergeCounts) (s : State) :
    (s.mergeRecords fl l n i k).1.pending = s.pending ∧ (s.mergeRecords fl l n i k).1.trip = s.trip := by
  induction n generalizing i k s with
  | zero => exact ⟨rfl, rfl⟩
  | succ n ih =>
    unfold State.mergeRecords
    split
    · exact ⟨rfl, rfl⟩
    · rename_i p _; have := ih (i + 1) (k.add (s.classify p)) (s.mergeRecord p); simpa using this

/-- The working of a MERGE leaves queue and trip. -/
theorem State.workMerge_keeps (fl : List Access) (f : InFlight) (s : State) : (s.workMerge fl f).pending = s.pending
    ∧ (s.workMerge fl f).trip = s.trip := by
  unfold State.workMerge
  dsimp only
  split
  · simp
  split
  · simp
  split
  · rename_i n _ _
    have h := State.mergeRecords_keeps fl (s.chain f.chain).cursor n 0 { accepted := 0, duplicate := 0, updated := 0, rejected := 0 } s
    split
    · rename_i u he; rw [he] at h; simpa using h
    · rename_i u k he; rw [he] at h; simpa using h
  · simp

/-- The working of a RECALL leaves queue and trip. -/
theorem State.workRecall_keeps (fl : List Access) (f : InFlight) (s : State) : (s.workRecall fl f).pending =
    s.pending ∧ (s.workRecall fl f).trip = s.trip := by
  unfold State.workRecall
  repeat' split
  all_goals simp

/-- The working of a slip with accesses in error leaves the queue. -/
theorem State.workFailing_pending (fl : List Access) (s : State) : (s.workFailing fl).pending = s.pending := by
  unfold State.workFailing State.workSlip
  repeat' split
  all_goals first | rfl | simp [State.workTrip_pending, State.workPosition_pending, State.workInspect_pending,
    State.workAmend_keeps, State.workMerge_keeps, State.workRecall_keeps]

/-- The working of a slip touches no examination. -/
theorem State.workTrip_examining (fl : List Access) (w : Nat) (f : InFlight) (s : State) : (s.workTrip fl w
    f).examining = s.examining := by
  unfold State.workTrip State.workBegin State.workEnd State.refuseTrip State.beginTrip State.endTrip
  repeat' split
  all_goals simp

theorem State.workPosition_examining (fl : List Access) (f : InFlight) (s : State) : (s.workPosition fl
    f).examining = s.examining := by
  unfold State.workPosition State.refusePosition State.applyPosition State.place
  dsimp only
  repeat' split
  all_goals simp

theorem State.workInspect_examining (fl : List Access) (f : InFlight) (s : State) : (s.workInspect fl f).examining =
    s.examining := by
  unfold State.workInspect State.evaluateInspect State.refuseInspect State.concludeInspect
  dsimp only
  repeat' split
  all_goals simp

theorem State.workAmend_examining (fl : List Access) (f : InFlight) (s : State) : (s.workAmend fl f).examining =
    s.examining := by
  unfold State.workAmend
  dsimp only
  repeat' split
  all_goals simp

theorem State.workRecall_examining (fl : List Access) (f : InFlight) (s : State) : (s.workRecall fl f).examining =
    s.examining := by
  unfold State.workRecall
  repeat' split
  all_goals simp

theorem State.mergeRecords_examining (fl : List Access) (l : Link) (n i : Nat) (k : MergeCounts) (s : State) :
    (s.mergeRecords fl l n i k).1.examining = s.examining := by
  induction n generalizing i k s with
  | zero => rfl
  | succ n ih =>
    unfold State.mergeRecords
    split
    · rfl
    · rename_i p _; have := ih (i + 1) (k.add (s.classify p)) (s.mergeRecord p); simpa using this

theorem State.workMerge_examining (fl : List Access) (f : InFlight) (s : State) : (s.workMerge fl f).examining =
    s.examining := by
  unfold State.workMerge
  dsimp only
  split
  · simp
  split
  · simp
  split
  · rename_i n _ _
    have h := State.mergeRecords_examining fl (s.chain f.chain).cursor n 0 { accepted := 0, duplicate := 0, updated := 0, rejected := 0 } s
    split
    · rename_i u he; rw [he] at h; simpa using h
    · rename_i u k he; rw [he] at h; simpa using h
  · simp

/-! ### Register accesses (R160) -/

theorem commandOfWrite_control (w : Word) : commandOfWrite 0x04 w = some (controlWrite w) := rfl

theorem commandOfWrite_events (w : Word) : commandOfWrite 0x0C w = some (eventsWrite w) := rfl

theorem commandOfWrite_nudge (w : Word) : commandOfWrite 0x14 w = some (nudgeWrite w) := rfl

/-- Where no register stands a write is no command. -/
theorem commandOfWrite_none {o : Nat} (w : Word) (h : ∀ r : Register, o ≠ r.offset) : commandOfWrite o w = none := by
  have hr : registerAt o = none := by
    unfold registerAt
    rw [List.find?_eq_none]
    intro r _
    rw [decide_eq_true_eq]
    exact fun e => h r e.symm
  unfold commandOfWrite
  rw [hr]
  rfl

/-- What a register read returns, bit by bit: CONTROL holds HOLD_REQ in bit 4 alone. -/
theorem readRegister_control (s : State) (i : Nat) :
    (readRegister s .control).getLsbD i = (decide (i = 4) && s.holdReq) := by
  show (BitVec.ofNat 32 (16 * bit s.holdReq)).getLsbD i = _
  cases s.holdReq
  · simp [bit]
  · rw [show (BitVec.ofNat 32 (16 * bit true)) = BitVec.twoPow 32 4 by decide, BitVec.getLsbD_twoPow]
    simp [eq_comm]

end Sys2Proof.Machine
end

