-- ==== Sys2Proof/WellFormed.lean ====
section
/-!
DEFINITION. Sys2Proof/WellFormed.lean: which commands are events the manual describes. Every command has a meaning
whether or not it is well formed; an ill-formed one names an event that cannot be told from another row's.
-/
namespace Sys2Proof

/-- An access that an activity may make (R156's table): the anchor block at START is read in bytes 0 to 63, a
chain head in bytes 20 to 22 or 24 to 26 (R170; bits 31:24 are not read), a slip within its 512 bytes. -/
def Access.within : Activity → Access → Bool
  | .anchorRead, .anchorRead o => decide (o < 64)
  | .walk, .tableRead _ _ => true
  | .examination, .slipRead o => decide (o < 2)
  | .examination, .slipWrite o => decide (o < 16)
  | .examination, .stageWrite s => decide (s ≠ .released)
  | .examination, .anchorRead o => decide (20 ≤ o ∧ o < 27)
  | .work, .slipRead o => decide (16 ≤ o ∧ o < 512)
  | .work, .slipWrite o => decide (o < 512)
  | .work, .stageWrite s => decide (s = .answered)
  | .work, .tableRead _ _ => true
  | .followUp _, .slipRead o => decide (8 ≤ o ∧ o < 11)
  | .followUp _, .stageWrite s => decide (s = .released)
  | .followUp _, .anchorRead o => decide (20 ≤ o ∧ o < 27)
  | .tailReread _, .slipRead o => decide (8 ≤ o ∧ o < 11)
  | .tailReread _, .stageWrite s => decide (s = .released)
  | .tailReread _, .anchorRead o => decide (20 ≤ o ∧ o < 27)
  | .restartHead _, .anchorRead o => decide (20 ≤ o ∧ o < 27)
  | _, _ => false

/-- A failed-access command names at least one access, and only accesses its activity makes. -/
def Access.wellFormed (a : Activity) (failing : List Access) : Bool :=
  !failing.isEmpty && failing.all (Access.within a)

/-- A write that R160 gives no effect: any value to STATE or FAULT, a value with none of the eleven flag bits to
EVENTS. A write to CONTROL always sets the hold request level (R150), a write to ENABLE always replaces it, a write
to ANCHOR and a NUDGE have rows of their own. -/
def Register.ignoresWrite (r : Register) (value : Word) : Bool :=
  match r with
  | .state => true
  | .fault => true
  | .events => decide (value.setWidth 11 = 0#11)
  | .anchor => false
  | .control => false
  | .enable => false
  | .nudge => false

/-- The well-formed commands. -/
def Instr.wellFormed : Instr → Bool
  | .registerWriteIgnored r v => r.ignoresWrite v
  | .accessTimeout a f => Access.wellFormed a f
  | .accessErrorResponse a f => Access.wellFormed a f
  | .start _ _ _ => true
  | .controlReset _ => true
  | .restReq _ => true
  | .wake _ _ => true
  | .holdReqSet => true
  | .holdReqClear => true
  | .anchorWrite _ => true
  | .nudge _ => true
  | .nudgeRestart _ => true
  | .eventsClear _ => true
  | .enableWrite _ => true
  | .faultRead => true
  | .resetPin => true
  | .powerOn => true
  | .minuteTick => true
  | .windowMinutesExpiry => true
  | .windowCountExpiry => true
  | .anchorCheck => true
  | .validationWalk => true
  | .arbiterChoice => true
  | .examination => true
  | .tripBegin => true
  | .tripEnd => true
  | .position => true
  | .inspect => true
  | .probe => true
  | .amend => true
  | .merge => true
  | .recallEntries => true
  | .followUp _ => true
  | .holdGrant => true
  | .restGiven => true
  | .tailLinkReread _ => true
  | .lateResponse => true
  | .resetPinRelease => true

end Sys2Proof
end

