-- ==== Sys2Proof/Tests/Slice0.lean ====
section
/-!
SUPPORT. Sys2Proof/Tests/Slice0.lean: the model's own tests: ill-formed commands that the check refuses, the worked
examples of the manual one step each, and for every statement with hypotheses a state that meets them.
-/
namespace Sys2Proof.Tests

set_option Elab.async false

open Sys2Proof Sys2Proof.Machine

/-! ### The well-formedness checks -/

theorem test_wellFormed_refuses_control_write_as_ignored :
    (Instr.registerWriteIgnored .control 0#32).wellFormed = false := by decide
theorem test_wellFormed_refuses_anchor_write_as_ignored :
    (Instr.registerWriteIgnored .anchor 4096#32).wellFormed = false := by decide
theorem test_wellFormed_refuses_enable_write_as_ignored :
    (Instr.registerWriteIgnored .enable 0x800#32).wellFormed = false := by decide
theorem test_wellFormed_refuses_nudge_as_ignored :
    (Instr.registerWriteIgnored .nudge 2#32).wellFormed = false := by decide
theorem test_wellFormed_refuses_flag_clear_as_ignored :
    (Instr.registerWriteIgnored .events 0x400#32).wellFormed = false := by decide
theorem test_wellFormed_accepts_bits_without_function :
    (Instr.registerWriteIgnored .events 0x800#32).wellFormed = true
      ∧ (Instr.registerWriteIgnored .state 1#32).wellFormed = true
      ∧ (Instr.registerWriteIgnored .fault 1#32).wellFormed = true := by decide
theorem test_wellFormed_refuses_timeout_of_no_access :
    (Instr.accessTimeout .walk []).wellFormed = false := by decide
theorem test_wellFormed_refuses_error_of_no_access :
    (Instr.accessErrorResponse .work []).wellFormed = false := by decide
theorem test_wellFormed_refuses_access_of_another_activity :
    (Instr.accessTimeout .walk [.slipRead 0]).wellFormed = false
      ∧ (Instr.accessErrorResponse .examination [.stageWrite .released]).wellFormed = false
      ∧ (Instr.accessTimeout .anchorRead [.anchorRead 64]).wellFormed = false
      ∧ (Instr.accessErrorResponse (.followUp false) [.slipRead 11]).wellFormed = false := by decide
theorem test_wellFormed_accepts_accesses_of_the_activity :
    (Instr.accessTimeout .anchorRead [.anchorRead 63]).wellFormed = true
      ∧ (Instr.accessErrorResponse (.followUp false) [.slipRead 10]).wellFormed = true := by decide

theorem test_decode_no_row_has_bits : decodeTableWord 32 0 = none ∧ decodeTableWord 0 0 = none := by decide

/-- The register map (R160): each offset, each CONTROL bit, and the NUDGE bits. -/
theorem test_register_writes_are_commands :
    commandOfWrite 0x00 0x42000#32 = some (.anchorWrite 0x42000#32)
      ∧ commandOfWrite 0x04 0x1F#32 = some (.controlReset 0x1D#32)
      ∧ commandOfWrite 0x04 0x1D#32 = some (.start true true true)
      ∧ commandOfWrite 0x04 0x1C#32 = some (.wake true true)
      ∧ commandOfWrite 0x04 0x04#32 = some (.restReq false)
      ∧ commandOfWrite 0x04 0x10#32 = some .holdReqSet ∧ commandOfWrite 0x04 0xE0#32 = some .holdReqClear
      ∧ commandOfWrite 0x08 1#32 = some (.registerWriteIgnored .state 1#32)
      ∧ commandOfWrite 0x0C 0x400#32 = some (.eventsClear 0x400#32)
      ∧ commandOfWrite 0x0C 0x800#32 = some (.registerWriteIgnored .events 0x800#32)
      ∧ commandOfWrite 0x10 3#32 = some (.enableWrite 3#32)
      ∧ commandOfWrite 0x14 0x001#32 = some (.nudge 1#2) ∧ commandOfWrite 0x14 0x103#32 = some (.nudgeRestart 3#2)
      ∧ commandOfWrite 0x18 0#32 = some (.registerWriteIgnored .fault 0#32)
      ∧ commandOfWrite 0x1C 0#32 = none ∧ commandOfWrite 0x02 0#32 = none := by decide

theorem test_register_reads_are_commands :
    commandOfRead 0x18 = some .faultRead ∧ commandOfRead 0x08 = none ∧ commandOfRead 0x1C = none := by decide

/-! ### A check of the invariant that can be evaluated -/

/-- The part of the invariant about the Link Port, as a Bool. -/
def portCheck (s : State) : Bool :=
  decide (s.anchor.toNat % 4096 = 0) && decide (s.windows.isSome = s.awake)
    && s.windows.all (fun w => decide (w.slipBase.toNat % 4096 = 0 ∧ w.slipLimit.toNat % 4096 = 4095
      ∧ w.tableBase.toNat % 4096 = 0 ∧ w.tableLimit.toNat % 4096 = 4095 ∧ w.slipBase.toNat ≤ w.slipLimit.toNat
      ∧ w.tableBase.toNat ≤ w.tableLimit.toNat
      ∧ (w.slipLimit.toNat < w.tableBase.toNat ∨ w.tableLimit.toNat < w.slipBase.toNat)))
    && decide (s.phaseTable.length = if s.awake then 16 else 0) && decide (s.restPending = true → s.part = .running)
    && decide (s.tables ≠ .unusable → s.awake = true) && decide (s.tables = .held → s.holdReq = true)
    && decide (s.snapshot.length = 16) && decide (s.faultRecord = none → s.faultMore = false)

theorem portCheck_sound {s : State} (h : portCheck s = true) : PortInv s := by
  simp only [portCheck, Bool.and_eq_true, decide_eq_true_eq] at h
  obtain ⟨⟨⟨⟨⟨⟨⟨⟨h1, h2⟩, h3⟩, h4⟩, h5⟩, h6⟩, h7⟩, h8⟩, h9⟩ := h
  refine ⟨h1, h2, ?_, h4, h5, h6, h7, h8, h9⟩
  intro w hw
  rw [hw] at h3
  simp only [Option.all_some, decide_eq_true_eq] at h3
  obtain ⟨a1, a2, a3, a4, a5, a6, a7⟩ := h3
  exact ⟨a1, a2, a3, a4, a5, a6, a7⟩

/-- One chain's part of the invariant, as a Bool. -/
def chainCheck (s : State) (c : Chain) : Bool :=
  decide ((s.chain c).state = .empty → s.chain c = .reset) && decide ((s.chain c).state = .broken → s.chain c = .broken)
    && decide ((s.chain c).state ≠ .empty → (s.chain c).state ≠ .broken → s.linkValid (s.chain c).cursor = true)
    && decide ((s.chain c).state = .parkedOnLink → (s.chain c).tail = (s.chain c).cursor)
    && decide ((s.chain c).rereading = true → (s.chain c).state = .parkedOnLink)
    && decide ((s.chain c).state = .active → s.inFlight.map InFlight.chain = some c)
    && decide ((s.chain c).restartRemembered = true → s.chainBusy c = true)

theorem chainCheck_sound {s : State} {c : Chain} (h : chainCheck s c = true) : ChainInv s c := by
  simp only [chainCheck, Bool.and_eq_true, decide_eq_true_eq] at h
  obtain ⟨⟨⟨⟨⟨⟨h1, h2⟩, h3⟩, h4⟩, h5⟩, h6⟩, h7⟩ := h
  refine ⟨h1, h2, h3, h4, h5, ?_, h7⟩
  intro ha
  obtain ⟨f, hf, hc⟩ := Option.map_eq_some_iff.mp (h6 ha)
  exact ⟨f, hf, hc⟩

/-- The Scheduler's part of the invariant, as a Bool. -/
def schedulerCheck (s : State) : Bool :=
  chainCheck s .interactive && chainCheck s .background
    && decide (s.awake = false → s.interactive = .reset ∧ s.background = .reset)
    && s.inFlight.all (fun f => decide ((s.chain f.chain).state = .active ∧ s.examining = none ∧ s.part = .running
      ∧ (s.tables = .usable ∨ s.tables = .unusable)))
    && s.examining.all (fun c => decide ((s.chain c).state = .ahead ∧ s.inFlight = none ∧ s.part = .running
      ∧ (s.tables = .usable ∨ s.tables = .unusable)))

theorem schedulerCheck_sound {s : State} (h : schedulerCheck s = true) : SchedulerInv s := by
  simp only [schedulerCheck, Bool.and_eq_true, decide_eq_true_eq] at h
  obtain ⟨⟨⟨⟨h1, h2⟩, h3⟩, h4⟩, h5⟩ := h
  refine ⟨?_, ?_, ?_, ?_⟩
  · intro c; cases c; exacts [chainCheck_sound h1, chainCheck_sound h2]
  · intro ha c; cases c; exacts [(h3 ha).1, (h3 ha).2]
  · intro f hf; rw [hf] at h4; simpa using h4
  · intro c hc; rw [hc] at h5; simpa using h5

/-- The trip's and the journal's part of the invariant, as a Bool. -/
def tripCheck (s : State) : Bool :=
  let t := s.trip
  decide (s.clockRunning = decide (t.state = .inTrip)) && decide (t.state = .inTrip → s.awake = true)
    && (decide (t.state = .noTrip) || decide (1 ≤ t.ownId.toNat ∧ t.ownId.toNat ≤ 63 ∧ 1 ≤ t.plan.length
      ∧ t.plan.length ≤ 96 ∧ 1 ≤ t.priority.length ∧ t.priority.length ≤ 4 ∧ (∀ n ∈ t.priority, n.toNat ≤ 15)
      ∧ t.priority.Nodup ∧ t.fallback.toNat ≤ 15 ∧ t.current.toNat < t.plan.length ∧ t.horizon.toNat ≤ 240
      ∧ 1 ≤ t.reachCount.toNat ∧ t.reachCount.toNat ≤ 8 ∧ 1 ≤ t.reachMinutes.toNat ∧ t.reachMinutes.toNat ≤ 60
      ∧ t.lo.toNat ≤ 15 ∧ t.lo.toNat ≤ t.hi.toNat ∧ t.hi.toNat ≤ 120 ∧ 1 ≤ t.cap.toNat ∧ t.cap.toNat ≤ 9999999))
    && t.plan.all (fun x => decide (1 ≤ x.distance.toNat ∧ x.distance.toNat ≤ 4095 ∧ x.claims.length ≤ 4
      ∧ (∀ c ∈ x.claims, c.network.toNat ≤ 15 ∧ 1 ≤ c.zone.toNat ∧ c.zone.toNat ≤ 254)
      ∧ (x.claims.map Claim.network).Nodup))
    && decide (t.state = .noTrip → t = .none ∧ s.clock = 0#32 ∧ s.journal = .empty)

theorem tripCheck_sound {s : State} (h : tripCheck s = true) : TripInv s := by
  simp only [tripCheck, Bool.and_eq_true, Bool.or_eq_true, decide_eq_true_eq] at h
  obtain ⟨⟨⟨⟨h1, h2⟩, h3⟩, h4⟩, h5⟩ := h
  refine ⟨h1, h2, ?_, h5⟩
  intro ht
  have h3 := h3.resolve_left (by rw [ht]; decide)
  obtain ⟨a1, a2, a3, a4, a5, a6, a7, a8, a9, b1, b2, b3, b4, b5, b6, b7, b8, b9, c1, c2⟩ := h3
  refine ⟨⟨a1, a2⟩, ⟨a3, a4⟩, ?_, ⟨a5, a6⟩, a7, a8, a9, b1, b2, ⟨b3, b4⟩, ⟨b5, b6⟩, ⟨b7, b8, b9⟩, ⟨c1, c2⟩⟩
  intro x hx
  have := List.all_eq_true.mp h4 x hx
  rw [decide_eq_true_eq] at this
  exact this

/-- One entry's part of the invariant, as a Bool. -/
def entryCheck (t : TripContext) (e : Entry) : Bool :=
  decide (1 ≤ e.originId.toNat ∧ e.originId.toNat ≤ 63) && decide (1 ≤ e.originNumber.toNat)
    && decide (e.section_.toNat < t.plan.length)
    && decide (e.originId ≠ t.ownId → e.issuer.toNat ≤ 15 ∧ e.adults = 0#8 ∧ e.children = 0#8 ∧ e.window = none)
    && e.window.all (fun w => decide (e.outcome = .none ∧ 1 ≤ w.count.toNat ∧ w.count.toNat ≤ t.reachCount.toNat
      ∧ 1 ≤ w.minutes.toNat ∧ w.minutes.toNat ≤ t.reachMinutes.toNat))

theorem entryCheck_sound {t : TripContext} {e : Entry} (h : entryCheck t e = true) : e.Legal t := by
  simp only [entryCheck, Bool.and_eq_true, decide_eq_true_eq] at h
  obtain ⟨⟨⟨⟨h1, h2⟩, h3⟩, h4⟩, h5⟩ := h
  refine ⟨h1, h2, h3, h4, ?_⟩
  intro w hw; rw [hw] at h5; simpa using h5

/-- The journal's part of the invariant, as a Bool. -/
def journalCheck (t : TripContext) (j : Journal) : Bool :=
  decide (j.entries.length ≤ 256) && j.entries.all (entryCheck t) && decide (j.openCounts.Pairwise (· < ·))
    && decide (j.ownNumbers t.ownId = lastOwnNumbers (j.ownNumbers t.ownId).length j.ownCounter)
    && decide (j.ownCounter = 0#16 → j.ownNumbers t.ownId = []) && decide (j.peerPairs t.ownId).Nodup
    && decide (j.wrapped = false → j.evictedThrough = 0#32)

theorem journalCheck_sound {t : TripContext} {j : Journal} (h : journalCheck t j = true) : j.Legal t := by
  simp only [journalCheck, Bool.and_eq_true, decide_eq_true_eq] at h
  obtain ⟨⟨⟨⟨⟨⟨h1, h2⟩, h3⟩, h4⟩, h5⟩, h6⟩, h7⟩ := h
  exact ⟨h1, fun e he => entryCheck_sound (List.all_eq_true.mp h2 e he), h3, h4, h5, h6, h7⟩

/-- The whole invariant, as a Bool. -/
def invCheck (s : State) : Bool :=
  Memory.wf s.mem && portCheck s && schedulerCheck s && tripCheck s && journalCheck s.trip s.journal

theorem invCheck_sound {s : State} (h : invCheck s = true) : Inv s := by
  simp only [invCheck, Bool.and_eq_true] at h
  obtain ⟨⟨⟨⟨h1, h2⟩, h3⟩, h4⟩, h5⟩ := h
  exact ⟨h1, portCheck_sound h2, schedulerCheck_sound h3, tripCheck_sound h4, journalCheck_sound h5⟩

/-! ### A small world: the anchor block, tables, trip and tickets of the manual's worked examples -/

/-- The cells of bytes from address `a` up. -/
def cells : Nat → List Byte → List Host.Cell
  | _, [] => []
  | a, b :: bs => if b = 0#8 then cells (a + 1) bs else (a, b) :: cells (a + 1) bs

/-- A value in `n` bytes, most significant first. -/
def msb (n v : Nat) : List Byte := (leBytes n v).reverse

/-- The anchor block of section 11.8, at 0x42000, with the table window's base given. -/
def anchorBytes (version tableBase : Nat) : List Byte :=
  leBytes 4 version ++ leBytes 4 0x100000 ++ leBytes 4 0x13FFFF ++ leBytes 4 tableBase ++ leBytes 4 0x27FFFF
    ++ leBytes 4 0x10 ++ leBytes 4 0 ++ [0#8, 0#8, 0#8, 1#8, 0#8, 0#8, 0#8, 1#8, 0#8, 0#8, 0#8, 1#8, 0#8, 0#8, 0#8, 1#8]

/-- The table window of section 4.8 at 0x200000, with the route plan of section 1.9 at offset 0x1800. -/
def tableCells : List Host.Cell :=
  cells 0x200008 (leBytes 4 0x100) ++ cells 0x200014 (leBytes 4 0x200)
    ++ cells 0x200100 ([1#8, 6#8] ++ leBytes 2 60 ++ leBytes 2 180 ++ [10#8, 50#8] ++ leBytes 2 10 ++ leBytes 2 160
      ++ leBytes 4 500 ++ leBytes 4 0x300 ++ leBytes 2 3 ++ [3#8, 0#8] ++ leBytes 4 0x400 ++ leBytes 4 0x500
      ++ leBytes 2 3)
    ++ cells 0x200200 ([0#8, 4#8] ++ leBytes 2 65476 ++ leBytes 2 240 ++ [15#8, 50#8] ++ leBytes 2 5 ++ leBytes 2 100
      ++ leBytes 4 0 ++ leBytes 4 0x600 ++ leBytes 2 2 ++ [1#8, 0#8] ++ leBytes 4 0x700)
    ++ cells 0x200300 (leBytes 2 110 ++ [2#8, 2#8, 60#8, 0#8, 1#8, 0#8, 1#8, 0#8, 0#8, 0#8])
    ++ cells 0x20030C (leBytes 2 260 ++ [2#8, 3#8, 0#8, 0#8, 1#8, 0#8, 2#8, 0#8, 0#8, 0#8])
    ++ cells 0x200318 (leBytes 2 410 ++ [2#8, 2#8, 120#8, 0#8, 2#8, 0#8, 4#8, 0#8, 0#8, 0#8])
    ++ cells 0x200400 (leBytes 4 0 ++ leBytes 4 250 ++ leBytes 4 1800 ++ leBytes 4 100 ++ leBytes 4 430
      ++ leBytes 4 1200 ++ leBytes 4 300 ++ leBytes 4 670 ++ leBytes 4 800)
    ++ cells 0x200500 (leBytes 8 100000000 ++ leBytes 8 100000999 ++ leBytes 4 1 ++ leBytes 8 500000000
      ++ leBytes 8 500004999 ++ leBytes 4 2 ++ leBytes 8 2000000000 ++ leBytes 8 2100000000 ++ leBytes 4 1)
    ++ cells 0x200600 (leBytes 2 20 ++ [2#8, 2#8, 90#8, 0#8, 1#8, 0#8, 1#8, 0#8, 0#8, 0#8])
    ++ cells 0x20060C (leBytes 2 35 ++ [2#8, 3#8, 0#8, 0#8, 2#8, 0#8, 1#8, 0#8, 0#8, 0#8])
    ++ cells 0x200700 (leBytes 4 0 ++ leBytes 4 300 ++ leBytes 4 2000)
    ++ cells 0x201800 (leBytes 4 5 ++ leBytes 2 30 ++ [1#8, 0#8, 2#8, 11#8, 0#8, 0#8, 0#8, 0#8, 0#8, 0#8]
      ++ leBytes 2 28 ++ [1#8, 0#8, 2#8, 12#8, 0#8, 0#8, 0#8, 0#8, 0#8, 0#8]
      ++ leBytes 2 61 ++ [1#8, 0#8, 2#8, 13#8, 0#8, 0#8, 0#8, 0#8, 0#8, 0#8]
      ++ leBytes 2 76 ++ [1#8, 0#8, 2#8, 14#8, 0#8, 0#8, 0#8, 0#8, 0#8, 0#8] ++ leBytes 2 42)

/-- Slip T at 0x100100 with the header and the body given, above the anchor block. -/
def memOf (kind stage link : Nat) (body : List Byte) : List Host.Cell :=
  cells 0x42000 (anchorBytes 1 0x200000)
    ++ cells 0x100100 ([byteOf stage, byteOf kind, 0#8, 0#8] ++ leBytes 4 0 ++ leBytes 4 link ++ leBytes 4 0 ++ body)

/-- The windows of section 11.8. -/
def windows : Windows :=
  { slipBase := 0x100000#32, slipLimit := 0x13FFFF#32, tableBase := 0x200000#32, tableLimit := 0x27FFFF#32 }

/-- The snapshot of section 4.8: slots 2 and 5. -/
def snapshot : List (Option Word) :=
  [none, none, some 0x100#32, none, none, some 0x200#32, none, none, none, none, none, none, none, none, none, none]

/-- A section of the route. -/
def leg (distance : Nat) (claims : List Claim) : RouteSection := { distance := BitVec.ofNat 16 distance, claims := claims }

/-- The trip of section 1.9 after its position reports. -/
def trip : TripContext :=
  { state := .inTrip, ownId := 7, plan := [leg 30 [⟨2#8, 11#8⟩], leg 28 [⟨2#8, 12#8⟩], leg 61 [⟨2#8, 13#8⟩],
      leg 76 [⟨2#8, 14#8⟩], leg 42 []], priority := [2#8], fallback := 5, current := 2, delay := 12, horizon := 240,
    reachCount := 4, reachMinutes := 20, lo := 2, hi := 2, cap := 20000, ownCount := 0 }

/-- The part after power-on with the hold requested. -/
def idle : State := { State.reset with holdReq := true }

/-- The part in STARTING with the anchor block of section 11.8. -/
def starting (version tableBase : Nat) : State :=
  { State.reset with part := .starting, anchor := 0x42000#32, mem := cells 0x42000 (anchorBytes version tableBase) }

/-- The part halted by an anchor fault. -/
def halted : State := { State.reset with part := .halted }

/-- The part in RUNNING with usable tables, slip T in memory and both chains EMPTY. -/
def running (kind stage link : Nat) (body : List Byte) : State :=
  { State.reset with
    part := .running, anchor := 0x42000#32, windows := some windows, tables := .usable, snapshot := snapshot,
    phaseTable := List.replicate 16 .interactive, mem := memOf kind stage link body }

/-- The state with the tables of section 4.8 placed above its memory's cells. -/
def tabled (s : State) : State := { s with mem := s.mem ++ tableCells }

/-- A chain at slip T. -/
def atT (state : ChainState) : ChainRec := { ChainRec.reset with state := state, cursor := 0x10#24 }

/-- A chain parked on link at slip T. -/
def parkedT : ChainRec := { atT .parkedOnLink with tail := 0x10#24 }

/-- Slip T in flight on a chain. -/
def flight (c : Chain) (kind : Nat) (progress : Progress) (t : Nat) (s : State) : State :=
  { s.setChain c (atT .active) with
    inFlight := some { chain := c, kind := byteOf kind, progress := progress, evalTime := BitVec.ofNat 32 t } }

/-- The trip in force. -/
def onTrip (clock : Nat) (s : State) : State := { s with trip := trip, clock := BitVec.ofNat 32 clock, clockRunning := true }

/-- The state an answer gives. -/
def after (a : Answer) : State :=
  match a with
  | .next t => t
  | .fault _ => State.reset
  | .refused _ => State.reset

/-- A little-endian field of slip T. -/
def slipField (s : State) (o n : Nat) : Nat :=
  leNat ((List.range n).map (fun i => Memory.read s.mem (0x100100 + o + i)))

/-- A TRIP BEGIN with the fields of section 1.9 and the start section given. -/
def beginBody (start : Nat) : List Byte :=
  [1#8, 7#8, 1#8, 5#8, 2#8, 0#8, 0#8, 0#8] ++ leBytes 4 0x1800
    ++ [byteOf start, 255#8, 4#8, 20#8, 2#8, 1#8, 0#8, 0#8] ++ leBytes 4 29000000 ++ leBytes 4 20000

/-- The token of section 3.4. -/
def tokenA : List Byte :=
  [2#8, 1#8, 3#8, 1#8, 6#8, 12#8] ++ msb 6 983503044 ++ [2#8, 2#8, 17#8] ++ msb 2 260
    ++ [9#8, 4#8, 24#8, 1#8, 2#8, 3#8, 4#8, 3#8, 4#8, 31#8] ++ msb 4 29000100
    ++ [4#8, 2#8, 36#8, 11#8, 12#8, 5#8, 2#8, 0#8, 1#8, 0#8]

/-- An INSPECT of a token: authenticity, persons, boarding, destination, self-declared. -/
def inspectBody (authenticity seated adults children boarding destination selfDeclared : Nat) (token : List Byte) :
    List Byte :=
  [byteOf authenticity, 1#8, byteOf seated, byteOf adults, byteOf children, byteOf boarding, byteOf destination, 0#8,
    byteOf selfDeclared, byteOf token.length, 0#8, 0#8, 0#8, 0#8, 0#8, 0#8] ++ token

/-- The INSPECT of section 5.9 in flight on a chain at evaluation time `t`. -/
def inspecting (c : Chain) (t : Nat) (body : List Byte) : State :=
  onTrip t (flight c 3 .working t (tabled (running 3 2 0 body)))

/-- An own entry of ticket A. -/
def ownEntry (n time : Nat) (v : Verdict) (o : Outcome) (w : Option Window) : Entry :=
  { originId := 7, originNumber := BitVec.ofNat 16 n, issuer := 2, serial := BitVec.ofNat 64 983503044, section_ := 2,
    time := BitVec.ofNat 32 time, adults := 1, children := 1, verdict := v, outcome := o, window := w }

/-- A peer entry of ticket A. -/
def peerEntry (o : Outcome) : Entry :=
  { originId := 12, originNumber := 40, issuer := 2, serial := BitVec.ofNat 64 983503044, section_ := 1,
    time := BitVec.ofNat 32 29000240, adults := 0, children := 0, verdict := .valid, outcome := o, window := none }

/-- A journal with entries and a counter. -/
def journalOf (entries : List Entry) (n : Nat) : Journal :=
  { entries := entries, ownCounter := BitVec.ofNat 16 n, wrapped := false, evictedThrough := 0 }

/-! ### Worked examples, one step each -/

/-- Section 11.8: START in IDLE. -/
theorem test_start_moves_to_starting :
    (after (exec (.start false false true) { State.reset with anchor := 0x42000#32 })).part = .starting := by decide

/-- Section 11.8: the anchor is accepted, the interactive chain AHEAD at 0x10, the background chain EMPTY. -/
theorem test_anchor_accepted :
    let t := after (exec .anchorCheck (starting 1 0x200000))
    t.part = .running ∧ t.interactive = atT .ahead ∧ t.background = .reset ∧ t.tables = .checking
      ∧ t.events = Event.started.mask ∧ t.windows = some windows := by decide +kernel

/-- Section 11.8: the table window overlaps the slip window: check 5. -/
theorem test_anchor_overlap_is_check_5 :
    let t := after (exec .anchorCheck (starting 1 0x120000))
    t.part = .halted ∧ t.faultRecord = some (.part 5#4) ∧ t.events = Event.partFault.mask
      ∧ faultWord t = 0x503#32 := by decide +kernel

/-- Section 4.8: the walk passes and takes slots 2 and 5. -/
theorem test_walk_passes :
    let t := after (exec .validationWalk { tabled (running 0 0 0 []) with tables := .checking, snapshot := emptySnapshot })
    t.tables = .usable ∧ t.snapshot = snapshot := by decide +kernel

/-- Section 4.8: network 5's only band begins at 10: check 8 of slot 5. -/
theorem test_walk_fails_at_check_8 :
    let s := { tabled (running 0 0 0 []) with tables := .checking }.hostStore 0x200700#32 10#8
    let t := after (exec .validationWalk s)
    t.tables = .unusable ∧ t.faultRecord = some (.table 5#8 8#8) ∧ t.snapshot = snapshot
      ∧ t.events = Event.tableFault.mask := by decide +kernel

/-- R51: with deny count 0 the deny offset is not read: its failing byte fails the walk of slot 2 alone. -/
theorem test_deny_offset_read_only_under_a_count :
    let walked := fun (slot : Byte) (a : Nat) =>
      after (exec (.accessTimeout .walk [.tableRead slot a]) { tabled (running 0 0 0 []) with tables := .checking })
    (walked 5#8 0x20021C).tables = .usable ∧ (walked 2#8 0x20011C).faultRecord = some (.table 2#8 13#8) := by
  decide +kernel

/-- Section 1.9: the trip begins. -/
theorem test_trip_begins :
    let t := after (exec .tripBegin (flight .interactive 1 .working 0 (tabled (running 1 2 0 (beginBody 0)))))
    t.trip = { trip with current := 0, delay := 0 } ∧ t.clock.toNat = 29000000 ∧ t.clockRunning = true
      ∧ slipField t 0 4 = 0x10103 ∧ slipField t 12 4 = 29000000 ∧ slipField t 64 2 = 5 ∧ slipField t 66 1 = 1
      ∧ slipField t 67 1 = 240 ∧ slipField t 68 1 = 2 := by decide +kernel

/-- R11: a start section not below N is a bad route. -/
theorem test_trip_bad_start_section :
    let t := after (exec .tripBegin (flight .interactive 1 .working 0 (tabled (running 1 2 0 (beginBody 5)))))
    t.trip = .none ∧ slipField t 0 4 = 0x8020103 ∧ slipField t 64 8 = 0 := by decide +kernel

/-- Section 1.9: TRIP END answers the entries held, the own inspections and the clock, with stamp 0. -/
theorem test_trip_ends :
    let s := { onTrip 29000300 (flight .interactive 1 .working 0 (running 1 2 0 [2#8])) with
      journal := journalOf [ownEntry 1 29000250 .excess .none none] 1 }
    let t := after (exec .tripEnd { s with trip := { trip with ownCount := 6 } })
    t.trip = .none ∧ t.journal = .empty ∧ slipField t 64 2 = 1 ∧ slipField t 72 4 = 6 ∧ slipField t 76 4 = 29000300
      ∧ slipField t 12 4 = 0 := by decide +kernel

/-- Section 1.9, P2: a report within lo is adopted with no flag. -/
theorem test_position_adopts :
    let t := after (exec .position (onTrip 29000041 (flight .interactive 2 .working 0
      (running 2 2 0 ([2#8, 1#8, 25#8, 0#8] ++ leBytes 4 29000042)))))
    t.trip.current = 2#8 ∧ t.trip.delay = 25#8 ∧ t.clock.toNat = 29000042 ∧ slipField t 32 4 = 0x1902
      ∧ slipField t 36 4 = 29000042 ∧ slipField t 0 4 = 0x10203 := by decide +kernel

/-- Section 1.9, P3 and P4: backward, then a section that does not exist. -/
theorem test_position_refused :
    let at_ := fun sec => after (exec .position (onTrip 29000043 (flight .background 2 .working 0
      (running 2 2 0 [sec, 0#8, 20#8, 0#8]))))
    slipField (at_ 1#8) 0 4 = 0xA020203 ∧ slipField (at_ 5#8) 0 4 = 0x7020203 ∧ slipField (at_ 1#8) 32 4 = 0xC02
      ∧ (at_ 1#8).trip = trip := by decide +kernel

/-- Section 2.6, lo 2 and hi 10: Q1 to Q4. -/
theorem test_time_reports :
    judge 2 10 29000030 29000031 = .adopted ∧ judge 2 10 29000070 29000064 = .stepped
      ∧ judge 2 10 29000090 29000130 = .notAdopted ∧ judge 2 10 29000110 29000120 = .stepped := by decide

/-- Section 2.5: the pass across the change of service day ends at 29,000,280, and the one used after it later. -/
theorem test_service_day_end :
    nextServiceDay (calendarOf 60 180 10) 29000100 = 29000280 ∧ nextServiceDay (calendarOf 60 180 10) 29000300 = 29001720
      ∧ validityTest 29000100 29000280 10 25 29000099 = .notYetValid
      ∧ validityTest 29000100 29000280 10 25 29000290 = .delay
      ∧ validityTest 29000100 29000280 10 25 29000305 = .expired
      ∧ validityTest 29000200 29000290 15 12 29000295 = .grace := by decide

/-- Sections 5.9 and 6.8: the excess case, amount 1,965. -/
theorem test_inspect_excess :
    let t := after (exec .inspect (inspecting .interactive 29000250 (inspectBody 1 2 1 1 255 4 0 tokenA)))
    slipField t 0 4 = 0x10303 ∧ slipField t 224 4 = 0x3000003 ∧ slipField t 228 2 = 0 ∧ slipField t 230 4 = 0x2020400
      ∧ slipField t 234 2 = 1 ∧ slipField t 240 4 = 1965 ∧ slipField t 244 4 = 500 ∧ slipField t 248 8 = 1285
      ∧ slipField t 256 8 = 180 ∧ slipField t 264 8 = 0 ∧ slipField t 276 4 = 29000250
      ∧ t.journal.entries = [ownEntry 1 29000250 .excess .none (some ⟨4#8, 20#8⟩)] := by decide +kernel

/-- Section 5.9: first class, total 2,715. Section 6.8: expired and forged: INVALID, reason AUTH_FAILED, 1,895; a
malformed token: INVALID, 1,425, key serial 0. -/
theorem test_inspect_variants :
    let first := after (exec .inspect (inspecting .interactive 29000250 (inspectBody 1 1 1 1 255 4 0 tokenA)))
    let forged := after (exec .inspect (inspecting .interactive 29000295 (inspectBody 3 2 1 1 255 4 0 tokenA)))
    let malformed := after (exec .inspect (inspecting .interactive 29000300
      (inspectBody 3 0 0 0 255 4 0 (tokenA.set 25 6#8))))
    slipField first 240 4 = 2715 ∧ slipField first 256 8 = 280 ∧ slipField first 264 8 = 220
      ∧ slipField forged 224 4 = 0x3300505 ∧ slipField forged 240 4 = 1895
      ∧ slipField malformed 224 3 = 0x110105 ∧ slipField malformed 240 4 = 1425
      ∧ malformed.journal.entries.map Entry.serial = [0#64] := by decide +kernel

/-- Section 6.8: a probe meets a peer sighting: CHALLENGE, amount 1,355, and no entry. -/
theorem test_probe_challenge :
    let s := { inspecting .background 29000260 (inspectBody 1 2 1 0 255 4 0 tokenA) with
      journal := journalOf [peerEntry .none] 0 }
    let t := after (exec .probe s)
    slipField t 224 1 = 4 ∧ slipField t 234 2 = 0 ∧ slipField t 236 1 = 12 ∧ slipField t 238 2 = 40
      ∧ slipField t 240 4 = 1355 ∧ slipField t 272 4 = 20 ∧ t.journal = s.journal
      ∧ t.events = Event.bgAnswer.mask := by decide +kernel

/-- Section 8.5: NOT_AMENDABLE for SETTLED on a VALID entry; DONE for CONFIRMED on a CHALLENGE. -/
theorem test_amend :
    let run := fun (v : Verdict) (o : Byte) => after (exec .amend { onTrip 29000280 (flight .interactive 4 .working 0
      (running 4 2 0 [1#8, 0#8, o])) with journal := journalOf [ownEntry 1 29000270 v .none (some ⟨2#8, 6#8⟩)] 1 })
    slipField (run .valid 1#8) 0 4 = 0xD020403 ∧ slipField (run .valid 1#8) 32 4 = 0x6020001
      ∧ slipField (run .challenge 3#8) 0 4 = 0x10403 ∧ slipField (run .challenge 3#8) 32 4 = 0x6020304
      ∧ (run .challenge 3#8).journal.entries = [ownEntry 1 29000270 .challenge .confirmed none] := by decide +kernel

/-- A peer record's 20 bytes. -/
def peerBytes (id number section_ verdict outcome : Nat) : List Byte :=
  [byteOf id, 2#8] ++ leBytes 2 number ++ leBytes 8 983503044 ++ leBytes 4 29000240
    ++ [byteOf section_, byteOf verdict, byteOf outcome, 0#8]

/-- A MERGE with the record count given and the five records of section 7.7. -/
def merging (n : Nat) : State :=
  onTrip 29000250 (flight .background 5 .working 0 (running 5 2 0 ([byteOf n] ++ zeros 15 ++ peerBytes 12 40 1 1 0
    ++ peerBytes 7 15 2 1 0 ++ peerBytes 12 40 1 1 1 ++ peerBytes 12 40 1 1 2 ++ peerBytes 20 3 5 3 0)))

/-- Section 7.7: the merge batch: accepted 1, duplicate 1, updated 1, rejected 2. -/
theorem test_merge_batch :
    let t := after (exec .merge (merging 5))
    slipField t 0 4 = 0x10503 ∧ slipField t 352 8 = 0x2010101
      ∧ t.journal.entries = [peerEntry .settled] := by decide +kernel

/-- A RECALL of ticket A over the journal of section 7.7. -/
def recalling : State :=
  { onTrip 29000280 (flight .background 6 .working 0 (running 6 2 0 ([2#8] ++ zeros 7 ++ leBytes 8 983503044))) with
    journal := journalOf [ownEntry 1 29000250 .excess .settled none,
      ownEntry 2 29000262 .excess .none (some ⟨3#8, 12#8⟩), peerEntry .settled] 2 }

/-- Section 7.7: the recall returns three places, newest first. -/
theorem test_recall :
    let t := after (exec .recallEntries recalling)
    slipField t 32 4 = 3 ∧ slipField t 36 4 = 0x2802 * 256 + 12 ∧ slipField t 60 1 = 7 ∧ slipField t 62 2 = 2
      ∧ slipField t 81 2 = 0xC03 ∧ slipField t 86 2 = 1 ∧ slipField t 108 1 = 0 := by decide +kernel

/-- R79: a half rounds upward to the unit. -/
theorem test_rounding_half_up :
    roundFare 0 711600 10 = 710 ∧ roundFare 0 715000 10 = 720 ∧ roundFare 0 714999 10 = 710 := by decide

/-- Section 9.11 and R140: a NUDGE re-reads the tail's link; link 0x30 gives AHEAD and RELEASED on the tail. -/
theorem test_nudge_and_reread :
    let s := { running 1 3 0x30 [] with interactive := parkedT }
    let n := after (exec (.nudge 0#2) s)
    let t := after (exec (.tailLinkReread .interactive) n)
    n.interactive = { parkedT with rereading := true } ∧ t.interactive = { ChainRec.reset with state := .ahead, cursor := 0x30#24 }
      ∧ slipField t 0 1 = 4 := by decide +kernel

/-- R137: a POSTED slip is taken, TAKEN is written, p advances. -/
theorem test_examination_takes :
    let t := after (exec .examination { running 1 1 0 (beginBody 0) with interactive := atT .ahead, examining := some .interactive })
    t.interactive = atT .active ∧ slipField t 0 1 = 2 ∧ t.phase = 1
      ∧ t.inFlight = some { chain := .interactive, kind := 1#8, progress := .working, evalTime := 0#32 } := by
  decide +kernel

/-- R138: a MERGE on the interactive chain is refused with WRONG_CHAIN at once. -/
theorem test_examination_wrong_chain :
    let t := after (exec .examination { running 5 1 0 [] with interactive := atT .ahead, examining := some .interactive })
    slipField t 0 4 = 0x2020503 ∧ t.events = Event.intAnswer.mask := by decide +kernel

/-- R139: link 0 parks the chain with T as its tail. -/
theorem test_follow_up_parks :
    let t := after (exec (.followUp false) (flight .interactive 1 .answered 0 (running 1 3 0 [])))
    t.interactive = parkedT ∧ t.inFlight = none := by decide +kernel

/-- R145: an access error at the stage write of the answer breaks the chain, with the bytes before it written. -/
theorem test_access_error_at_stage_write :
    let t := after (exec (.accessTimeout .work [.stageWrite .answered])
      (flight .interactive 1 .working 0 (tabled (running 1 2 0 (beginBody 0)))))
    t.interactive = .broken ∧ t.faultRecord = some (.chain .interactive 0x10#24) ∧ slipField t 0 4 = 0x10102
      ∧ t.events = Event.chainFault.mask ∧ t.trip.state = .inTrip := by decide +kernel

/-- R11: an access error on a section record of the route plan is TABLE_READ, check 14 of slot 255. -/
theorem test_access_error_on_route_plan :
    let t := after (exec (.accessErrorResponse .work [.tableRead 255#8 0x201804])
      (flight .interactive 1 .working 0 (tabled (running 1 2 0 (beginBody 0)))))
    t.tables = .unusable ∧ slipField t 0 4 = 0x6020103 ∧ t.faultRecord = some (.table 255#8 14#8)
      ∧ t.trip = .none := by decide +kernel

/-- R65: an error response on a table read refuses the INSPECT with TABLE_READ and makes the tables UNUSABLE. -/
theorem test_access_error_on_table_read :
    let t := after (exec (.accessErrorResponse .work [.tableRead 2#8 0x200100])
      (inspecting .interactive 29000250 (inspectBody 1 2 1 1 255 4 0 tokenA)))
    t.tables = .unusable ∧ slipField t 0 4 = 0x6020303 ∧ t.faultRecord = some (.table 2#8 15#8) := by decide +kernel

/-- R122: the tick that brings a window to 0 minutes closes it. -/
theorem test_tick_closes_window :
    let t := after (exec .minuteTick { onTrip 29000269 (running 0 0 0 []) with
      journal := journalOf [ownEntry 1 29000250 .excess .none (some ⟨3#8, 1#8⟩)] 1 })
    t.clock.toNat = 29000270 ∧ t.journal.entries.map Entry.window = [none] := by decide +kernel

/-! ### Witnesses: for every statement with hypotheses, states that meet them -/

theorem of_any {α : Type} {o : Option α} {p : α → Bool} (h : o.any p = true) : ∃ a, o = some a ∧ p a = true := by
  cases o with
  | none => cases h
  | some a => exact ⟨a, rfl, h⟩

/-- The success of a reading. -/
def succeeded {ε α : Type} : Except ε α → Bool
  | .ok _ => true
  | .error _ => false

theorem of_succeeded {ε α : Type} {x : Except ε α} (h : succeeded x = true) : ∃ a, x = .ok a := by
  cases x with
  | ok a => exact ⟨a, rfl⟩
  | error e => cases h

/-- A quiet part in RUNNING. -/
def quiet : State := running 0 0 0 []

/-- The part with an AHEAD interactive chain under examination. -/
def examined (stage : Nat) : State :=
  { running 1 stage 0 [] with interactive := atT .ahead, examining := some .interactive }

/-- The part with an answered slip that awaits its follow-up. -/
def answered (link : Nat) : State := flight .interactive 1 .answered 0 (running 1 3 link [])

/-- The part with a tail re-read under way. -/
def rereading (link : Nat) (nudge restart : Bool) : State :=
  { running 1 3 link [] with
    interactive := { parkedT with rereading := true, pendingNudge := nudge, restartRemembered := restart } }

theorem witness_StepRunsFrontCommand :
    { quiet with pending := [.minuteTick] }.pending = .minuteTick :: [] ∧ quiet.pending = [] := ⟨rfl, rfl⟩

/-- Each form of a CONTROL write, an EVENTS write without a flag, and an offset without a register. -/
theorem witness_StateRegisterShowsTheBlocks :
    (2#32 : Word).getLsbD 1 = true ∧ ((1#32 : Word).getLsbD 1 = false ∧ (1#32 : Word).getLsbD 0 = true)
      ∧ ((8#32 : Word).getLsbD 1 = false ∧ (8#32 : Word).getLsbD 0 = false ∧ (8#32 : Word).getLsbD 3 = true)
      ∧ ((4#32 : Word).getLsbD 1 = false ∧ (4#32 : Word).getLsbD 0 = false ∧ (4#32 : Word).getLsbD 3 = false
        ∧ (4#32 : Word).getLsbD 2 = true)
      ∧ (∀ i < 4, (16#32 : Word).getLsbD i = false) ∧ (∀ i < 11, (0x800#32 : Word).getLsbD i = false)
      ∧ (0x1C : Nat) ∉ [0x00, 0x04, 0x08, 0x0C, 0x10, 0x14, 0x18] := by decide

theorem witness_EveryStepKeepsInvariant :
    let s := { quiet with pending := [.minuteTick] }
    Inv s ∧ ∃ t, step s = .next t := ⟨invCheck_sound (by decide +kernel), _, rfl⟩

/-- A journal with an open window, and a peer entry. -/
def recorded : State :=
  { onTrip 29000270 quiet with
    journal := journalOf [ownEntry 1 29000250 .excess .none (some ⟨3#8, 1#8⟩), peerEntry .none] 1 }

theorem witness_JournalPairsAndWindows : Inv recorded ∧ ∃ e ∈ recorded.journal.entries, e.window.isSome = true :=
  ⟨invCheck_sound (by decide +kernel), _, List.mem_cons_self, rfl⟩

theorem witness_CurrentSectionNeverDecreases :
    Inv recorded ∧ recorded.trip.state = .inTrip ∧ ∃ t, exec .minuteTick recorded = .next t ∧ t.trip.state = .inTrip :=
  ⟨invCheck_sound (by decide +kernel), rfl, _, rfl, rfl⟩

theorem witness_ResetsGiveResetValues : quiet.resetHeld = false := rfl

theorem witness_StartMovesIdleToStarting :
    (Inv idle ∧ idle.resetHeld = false ∧ idle.part = .idle) ∧ (Inv quiet ∧ quiet.resetHeld = false ∧ quiet.part ≠ .idle)
      ∧ (Inv halted ∧ halted.resetHeld = false ∧ halted.part ≠ .idle) :=
  ⟨⟨invCheck_sound (by decide), rfl, rfl⟩, ⟨invCheck_sound (by decide +kernel), rfl, by decide⟩,
    ⟨invCheck_sound (by decide), rfl, by decide⟩⟩

/-- The part with the hold granted. -/
def holding : State := { quiet with holdReq := true, tables := .held }

theorem witness_HoldRequestActs :
    (quiet.resetHeld = false ∧ quiet.awake = true ∧ quiet.tables ≠ .held ∧ quiet.inFlight = none ∧ quiet.examining = none)
      ∧ (holding.resetHeld = false ∧ holding.tables = .held)
      ∧ ¬ (holding.awake = true ∧ holding.tables ≠ .held ∧ holding.inFlight = none ∧ holding.examining = none)
      ∧ (let s := { quiet with holdReq := true }
         s.holdReq = true ∧ s.awake = true ∧ s.tables ≠ .held ∧ s.inFlight = none ∧ s.examining = none)
      ∧ ¬ (quiet.holdReq = true ∧ quiet.awake = true ∧ quiet.tables ≠ .held ∧ quiet.inFlight = none
        ∧ quiet.examining = none) := by decide +kernel

/-- The part in RESTING. -/
def resting : State := { quiet with part := .resting }

theorem witness_RestFollowsItsRequest :
    (Inv quiet ∧ quiet.resetHeld = false ∧ quiet.mayGrant = false ∧ quiet.part = .running ∧ quiet.inFlight = none
      ∧ quiet.examining = none ∧ quiet.tables ≠ .checking)
    ∧ (let s := answered 0
       Inv s ∧ s.resetHeld = false ∧ s.mayGrant = false ∧ s.part = .running
        ∧ ¬ (s.inFlight = none ∧ s.examining = none ∧ s.tables ≠ .checking))
    ∧ (Inv resting ∧ resting.resetHeld = false ∧ resting.mayGrant = false ∧ resting.part ≠ .running)
    ∧ (let s := { quiet with restPending := true }
       s.restPending = true ∧ s.part = .running ∧ s.inFlight = none ∧ s.examining = none ∧ s.tables ≠ .checking)
    ∧ ¬ (quiet.restPending = true ∧ quiet.part = .running ∧ quiet.inFlight = none ∧ quiet.examining = none
      ∧ quiet.tables ≠ .checking) :=
  ⟨⟨invCheck_sound (by decide +kernel), by decide +kernel⟩, ⟨invCheck_sound (by decide +kernel), by decide +kernel⟩,
    ⟨invCheck_sound (by decide +kernel), by decide +kernel⟩, by decide +kernel, by decide +kernel⟩

theorem witness_WakeEndsOrCancelsRest :
    (Inv resting ∧ resting.resetHeld = false ∧ resting.mayGrant = false ∧ resting.part = .resting)
      ∧ (Inv quiet ∧ quiet.resetHeld = false ∧ quiet.mayGrant = false ∧ quiet.part = .running)
      ∧ (Inv idle ∧ idle.resetHeld = false ∧ idle.mayGrant = false ∧ idle.part ≠ .resting ∧ idle.part ≠ .running) :=
  ⟨⟨invCheck_sound (by decide +kernel), by decide +kernel⟩, ⟨invCheck_sound (by decide +kernel), by decide +kernel⟩,
    ⟨invCheck_sound (by decide), by decide⟩⟩

theorem witness_AnchorWriteActsInIdleAlone :
    (idle.resetHeld = false ∧ idle.part = .idle) ∧ (quiet.resetHeld = false ∧ quiet.part ≠ .idle) := by decide

theorem witness_EventFlagsFollowWrites : quiet.resetHeld = false := rfl

theorem witness_FaultReadReturnsAndEmpties :
    quiet.faultRecord = none ∧ { quiet with faultRecord := some (.chain .background 0xFFFFFF#24) }.faultRecord
        = some (.chain .background 0xFFFFFF#24)
      ∧ { quiet with faultRecord := some (.table 255#8 14#8) }.faultRecord = some (.table 255#8 14#8)
      ∧ { quiet with faultRecord := some (.part 6#4) }.faultRecord = some (.part 6#4) := ⟨rfl, rfl, rfl, rfl⟩

theorem witness_IgnoredAccessesChangeNothing : { quiet with resetHeld := true }.resetHeld = true := rfl

theorem witness_MinuteTickAndWindowExpiries :
    recorded.clockRunning = true ∧ quiet.clockRunning = false ∧ Inv recorded :=
  ⟨rfl, rfl, invCheck_sound (by decide +kernel)⟩

/-- The three outcomes at the two tolerances: distance lo, lo + 1, hi, hi + 1. -/
theorem witness_TimeReportIsJudged :
    let s := { onTrip 100 quiet with trip := { trip with lo := 2, hi := 10 } }
    s.trip.lo.toNat ≤ s.trip.hi.toNat
      ∧ ((102#32 : Word).toNat - (s.clock.toNat : Int)).natAbs ≤ s.trip.lo.toNat
      ∧ s.trip.lo.toNat < ((97#32 : Word).toNat - (s.clock.toNat : Int)).natAbs
      ∧ ((110#32 : Word).toNat - (s.clock.toNat : Int)).natAbs ≤ s.trip.hi.toNat
      ∧ s.trip.hi.toNat < ((89#32 : Word).toNat - (s.clock.toNat : Int)).natAbs := by decide

/-- Both ends of a service day, below and above minute 0. -/
theorem witness_ServiceDayIsTheFloor :
    let cal : Calendar := { offset := 0, dayStart := 180, grace := 0 }
    ((-1 : Int) * 1440 + cal.dayStart ≤ 179 ∧ (179 : Int) < (-1) * 1440 + cal.dayStart + 1440)
      ∧ ((0 : Int) * 1440 + cal.dayStart ≤ 180 ∧ (180 : Int) < 0 * 1440 + cal.dayStart + 1440) := by decide

/-- Each clause at its boundaries: start 100, end 200, grace 10 or declared delay 12. -/
theorem witness_ValidityTestFindings :
    (100 ≤ 200 ∧ 100 ≤ 100 ∧ 100 < 200) ∧ (200 ≤ 209 ∧ 209 < 200 + max 10 10 ∧ 10 ≤ 10)
      ∧ (200 ≤ 211 ∧ 211 < 200 + max 10 12 ∧ 10 < 12) ∧ 99 < 100 ∧ 200 + max 10 12 ≤ 212 := by decide

theorem witness_EndOfValidityFollowsRule :
    let p : Nat → Product := fun r =>
      { code := 1, class_ := 2, rule := r, duration := 120, coverage := 1, identity := 0, maxTravellers := 1 }
    ((-720 : Int) ≤ -720 ∧ (840 : Int) ≤ 840) ∧ 359 ≤ 359 ∧ 120 ≤ 120 ∧ (-721 : Int) < -720 ∧ (840 : Int) < 841
      ∧ 359 < 360 ∧ 120 < 121 ∧ (p 1).rule = 1 ∧ (p 2).rule = 2
      ∧ ((p 3).rule = 3 ∧ 2000 ≤ 2000) := by decide

theorem witness_AnchorCheckAcceptsOrHalts :
    (Inv (starting 1 0x200000) ∧ (starting 1 0x200000).part = .starting
      ∧ ∃ a, readAnchorBlock ((starting 1 0x200000).anchorByte []) = some a ∧ a.failedCheck = none)
    ∧ (Inv (starting 2 0x200000) ∧ (starting 2 0x200000).part = .starting
      ∧ ∃ a, readAnchorBlock ((starting 2 0x200000).anchorByte []) = some a ∧ a.failedCheck = some 2)
    ∧ (Inv quiet ∧ quiet.part ≠ .starting) := by
  refine ⟨⟨invCheck_sound (by decide +kernel), rfl, ?_⟩, ⟨invCheck_sound (by decide +kernel), rfl, ?_⟩,
    ⟨invCheck_sound (by decide +kernel), by decide⟩⟩
  · obtain ⟨a, h1, h2⟩ := of_any (show (readAnchorBlock ((starting 1 0x200000).anchorByte [])).any
      (fun a => decide (a.failedCheck = none)) = true by decide +kernel)
    exact ⟨a, h1, of_decide_eq_true h2⟩
  · obtain ⟨a, h1, h2⟩ := of_any (show (readAnchorBlock ((starting 2 0x200000).anchorByte [])).any
      (fun a => decide (a.failedCheck = some 2)) = true by decide +kernel)
    exact ⟨a, h1, of_decide_eq_true h2⟩

/-- The part in CHECKING with the tables of section 4.8. -/
def walking : State := { tabled quiet with tables := .checking }

theorem witness_WalkEndsUsableOrUnusable :
    (walking.tables = .checking ∧ ∃ slots, walking.walkResult [] = .ok slots)
    ∧ (let s := walking.hostStore 0x200700#32 10#8
       s.tables = .checking ∧ s.walkResult [] = .error (5#8, 8)) ∧ quiet.tables ≠ .checking := by
  refine ⟨⟨rfl, of_succeeded (by decide +kernel)⟩, ⟨rfl, ?_⟩, by decide⟩
  have h : (match (walking.hostStore 0x200700#32 10#8).walkResult [] with
    | .ok _ => false | .error e => decide (e = (5#8, 8))) = true := by decide +kernel
  revert h
  generalize (walking.hostStore 0x200700#32 10#8).walkResult [] = x
  intro h
  cases x with
  | ok a => cases h
  | error e => rw [of_decide_eq_true h]

theorem witness_ValidatedProductLookupIsComplete :
    let s := onTrip 29000000 walking
    s.trip.state = .inTrip ∧ ∃ slots, s.walkResult [] = .ok slots ∧ slots[2]? = some (some 0x100#32) := by
  refine ⟨rfl, ?_⟩
  have h : (match (onTrip 29000000 walking).walkResult [] with
    | .ok l => decide (l[2]? = some (some 0x100#32)) | .error _ => false) = true := by decide +kernel
  revert h
  generalize (onTrip 29000000 walking).walkResult [] = x
  intro h
  cases x with
  | ok a => exact ⟨a, rfl, of_decide_eq_true h⟩
  | error e => cases h

theorem witness_ArbiterFollowsPhaseTable :
    (let s := { quiet with interactive := atT .ahead }
     s.inFlight = none ∧ s.examining = none ∧ s.part = .running ∧ (s.tables = .usable ∨ s.tables = .unusable)
      ∧ s.holdReq = false ∧ s.restPending = false ∧ s.phaseTable[s.phase.val]? = some .interactive
      ∧ (s.chain .interactive).state = .ahead)
    ∧ (let s := { quiet with background := atT .ahead }
       s.phaseTable[s.phase.val]? = some .interactive ∧ (s.chain .interactive).state ≠ .ahead
        ∧ (s.chain (otherChain .interactive)).state = .ahead)
    ∧ ((quiet.chain .interactive).state ≠ .ahead ∧ (quiet.chain (otherChain .interactive)).state ≠ .ahead)
    ∧ ¬ (holding.inFlight = none ∧ holding.examining = none ∧ holding.part = .running
      ∧ (holding.tables = .usable ∨ holding.tables = .unusable) ∧ holding.holdReq = false
      ∧ holding.restPending = false) := by decide +kernel

theorem witness_SlipsAreTakenByExaminationAlone :
    (let s := { quiet with interactive := atT .ahead }
     Inv s ∧ ∃ t, exec .arbiterChoice s = .next t ∧ t.examining = some .interactive ∧ s.examining ≠ some .interactive)
    ∧ (let s := examined 1
       Inv s ∧ s.inFlight = none ∧ (∃ t, exec .examination s = .next t ∧ t.inFlight ≠ none)
        ∧ ∃ t, exec (accessFailed true .examination [.slipWrite 2]) s = .next t ∧ t.inFlight ≠ none) :=
  ⟨⟨invCheck_sound (by decide +kernel), _, rfl, by decide +kernel, by decide⟩,
    ⟨invCheck_sound (by decide +kernel), rfl, ⟨_, rfl, by decide +kernel⟩, _, rfl, by decide +kernel⟩⟩

theorem witness_ExaminationTakesPostedSlip :
    (let s := examined 1
     Inv s ∧ s.examining = some .interactive
      ∧ Memory.read s.mem (s.slipAddress (s.chain .interactive).cursor) = 1#8
      ∧ dispatchRefusal .interactive (Memory.read s.mem (s.slipAddress (s.chain .interactive).cursor + 1)) = none)
    ∧ (1 ≤ (1#8 : Byte).toNat ∧ (4#8 : Byte).toNat ≤ 4) ∧ (5 ≤ (5#8 : Byte).toNat ∧ (6#8 : Byte).toNat ≤ 6)
    ∧ ((0#8 : Byte).toNat = 0 ∧ 6 < (7#8 : Byte).toNat) :=
  ⟨⟨invCheck_sound (by decide +kernel), by decide +kernel⟩, by decide, by decide, by decide⟩

theorem witness_ExaminationParksChain :
    (let s := examined 0
     Inv s ∧ s.examining = some .interactive
      ∧ Memory.read s.mem (s.slipAddress (s.chain .interactive).cursor) ≠ 1#8
      ∧ (s.chain .interactive).restartRemembered = false ∧ (s.chain .interactive).pendingNudge = false)
    ∧ (let s := { examined 0 with interactive := { atT .ahead with pendingNudge := true } }
       Inv s ∧ s.examining = some .interactive
        ∧ Memory.read s.mem (s.slipAddress (s.chain .interactive).cursor) ≠ 1#8
        ∧ (s.chain .interactive).restartRemembered = false ∧ (s.chain .interactive).pendingNudge = true)
    ∧ (let s := { examined 2 with interactive := { atT .ahead with restartRemembered := true } }
       Inv s ∧ s.examining = some .interactive
        ∧ Memory.read s.mem (s.slipAddress (s.chain .interactive).cursor) ≠ 1#8
        ∧ (s.chain .interactive).restartRemembered = true) :=
  ⟨⟨invCheck_sound (by decide +kernel), by decide +kernel⟩, ⟨invCheck_sound (by decide +kernel), by decide +kernel⟩,
    ⟨invCheck_sound (by decide +kernel), by decide +kernel⟩⟩

/-- Links 0, 0x3FE0 (the last valid one) and 0x3FE1 (not valid), and the two flags. -/
theorem witness_FollowUpActsOnLink :
    (let s := answered 0x3FE0
     Inv s ∧ s.inFlight.map InFlight.progress = some .answered ∧ (s.chain .interactive).restartRemembered = false
      ∧ s.linkOf (s.chain .interactive).cursor ≠ 0#24
      ∧ s.linkValid (s.linkOf (s.chain .interactive).cursor) = true)
    ∧ (let s := answered 0x3FE1
       Inv s ∧ s.linkOf (s.chain .interactive).cursor ≠ 0#24
        ∧ s.linkValid (s.linkOf (s.chain .interactive).cursor) = false)
    ∧ (let s := answered 0
       Inv s ∧ s.linkOf (s.chain .interactive).cursor = 0#24 ∧ (s.chain .interactive).pendingNudge = false)
    ∧ (let s := { answered 0 with interactive := { atT .active with pendingNudge := true } }
       Inv s ∧ s.linkOf (s.chain .interactive).cursor = 0#24 ∧ (s.chain .interactive).pendingNudge = true)
    ∧ (let s := { answered 0 with interactive := { atT .active with restartRemembered := true } }
       Inv s ∧ (s.chain .interactive).restartRemembered = true) :=
  ⟨⟨invCheck_sound (by decide +kernel), by decide +kernel⟩, ⟨invCheck_sound (by decide +kernel), by decide +kernel⟩,
    ⟨invCheck_sound (by decide +kernel), by decide +kernel⟩, ⟨invCheck_sound (by decide +kernel), by decide +kernel⟩,
    ⟨invCheck_sound (by decide +kernel), by decide +kernel⟩⟩

theorem witness_TailRereadActsOnLink :
    (let s := rereading 0x3FE0 false false
     Inv s ∧ (s.chain .interactive).rereading = true ∧ (s.chain .interactive).restartRemembered = false
      ∧ s.linkOf (s.chain .interactive).tail ≠ 0#24 ∧ s.linkValid (s.linkOf (s.chain .interactive).tail) = true)
    ∧ (let s := rereading 0x3FE0 false true
       Inv s ∧ (s.chain .interactive).restartRemembered = true
        ∧ s.linkValid (s.linkOf (s.chain .interactive).tail) = true)
    ∧ (let s := rereading 0x3FE1 false false
       Inv s ∧ s.linkOf (s.chain .interactive).tail ≠ 0#24
        ∧ s.linkValid (s.linkOf (s.chain .interactive).tail) = false)
    ∧ (let s := rereading 0 false false
       Inv s ∧ s.linkOf (s.chain .interactive).tail = 0#24 ∧ (s.chain .interactive).pendingNudge = false)
    ∧ (let s := rereading 0 true false
       Inv s ∧ s.linkOf (s.chain .interactive).tail = 0#24 ∧ (s.chain .interactive).pendingNudge = true)
    ∧ (let s := rereading 0 false true
       Inv s ∧ s.linkOf (s.chain .interactive).tail = 0#24 ∧ (s.chain .interactive).restartRemembered = true) :=
  ⟨⟨invCheck_sound (by decide +kernel), by decide +kernel⟩, ⟨invCheck_sound (by decide +kernel), by decide +kernel⟩,
    ⟨invCheck_sound (by decide +kernel), by decide +kernel⟩, ⟨invCheck_sound (by decide +kernel), by decide +kernel⟩,
    ⟨invCheck_sound (by decide +kernel), by decide +kernel⟩, ⟨invCheck_sound (by decide +kernel), by decide +kernel⟩⟩

theorem witness_NudgeActsByChainState :
    (let s := { quiet with interactive := parkedT }
     s.resetHeld = false ∧ s.awake = true ∧ (s.chain .interactive).state = .parkedOnLink
      ∧ (s.chain .interactive).rereading = false)
    ∧ ((rereading 0 false false).chain .interactive).rereading = true
    ∧ (atT .parkedOnStage).state = .parkedOnStage ∧ (atT .ahead).state = .ahead ∧ (quiet.chain .interactive).state = .empty
    ∧ idle.awake = false ∧ 2 ≤ (2#2 : BitVec 2).toNat := by decide +kernel

theorem witness_RestartNudgeReadsOrRemembers :
    (quiet.resetHeld = false ∧ quiet.awake = true ∧ (quiet.chain .interactive).state ≠ .active
      ∧ (quiet.chain .interactive).rereading = false ∧ quiet.examining ≠ some .interactive)
    ∧ ((answered 0).awake = true ∧ ((answered 0).chain .interactive).state = .active)
    ∧ (examined 1).examining = some .interactive := by decide +kernel

/-- The TRIP BEGIN of section 1.9 being worked. -/
def beginning (start : Nat) : State := flight .interactive 1 .working 0 (tabled (running 1 2 0 (beginBody start)))

/-- The slip in flight of kind `kind` on chain `c`. -/
def inFlightOf (c : Chain) (kind : Nat) (t : Nat) : InFlight :=
  { chain := c, kind := byteOf kind, progress := .working, evalTime := BitVec.ofNat 32 t }

/-- The reads of R145's table: stage and kind, link, head, body, and record 5 of a MERGE of 5. -/
theorem witness_AccessErrorBreaksChain :
    (Inv (examined 1) ∧ (examined 1).examining = some .interactive ∧ Access.slipRead 1 ∈ [Access.slipRead 1])
    ∧ (Inv (answered 0) ∧ ((answered 0).inFlight.map InFlight.progress = some .answered)
      ∧ ((answered 0).chain .interactive).restartRemembered = false ∧ Access.slipRead 10 ∈ [Access.slipRead 10])
    ∧ (Inv (rereading 0 false false) ∧ Access.slipRead 8 ∈ [Access.slipRead 8])
    ∧ (Inv quiet ∧ quiet.awake = true ∧ Access.anchorRead (headOffset .background + 2) ∈ [Access.anchorRead 26])
    ∧ (let s := flight .interactive 2 .working 0 (onTrip 5 (running 2 2 0 []))
       Inv s ∧ s.inFlight.map InFlight.progress = some .working ∧ s.trip.state = .inTrip
        ∧ Access.slipRead 16 ∈ [Access.slipRead 16])
    ∧ (Inv (merging 5) ∧ (merging 5).inFlight = some (inFlightOf .background 5 0)
      ∧ (merging 5).trip.state = .inTrip
      ∧ 5 = (Memory.read (merging 5).mem ((merging 5).slipOf (inFlightOf .background 5 0) + 16)).toNat
      ∧ ∀ x ∈ [Access.slipRead (32 + 20 * 4), .slipRead (32 + 20 * 4 + 18)],
        x = .slipRead (32 + 20 * 4) ∨ x = .slipRead (32 + 20 * 4 + 18)) :=
  ⟨⟨invCheck_sound (by decide +kernel), by decide +kernel⟩, ⟨invCheck_sound (by decide +kernel), by decide +kernel⟩,
    ⟨invCheck_sound (by decide +kernel), by decide⟩, ⟨invCheck_sound (by decide +kernel), by decide +kernel⟩,
    ⟨invCheck_sound (by decide +kernel), by decide +kernel⟩, ⟨invCheck_sound (by decide +kernel), by decide +kernel⟩⟩

/-- The writes of R145's table: TAKEN, RELEASED of a follow-up and of a re-read, the first and the last write of an
answer, and a write of a refusal at dispatch. -/
theorem witness_AccessErrorBreaksChain_writes :
    (∀ x ∈ [Access.stageWrite .taken, .stageWrite .released, .stageWrite .answered, .slipWrite 2, .slipWrite 64],
      x.isWrite = true)
    ∧ (examined 1).examining = some .interactive
    ∧ Memory.read (examined 1).mem ((examined 1).slipAddress ((examined 1).chain .interactive).cursor) = 1#8
    ∧ (let s := answered 0x3FE0
       s.linkOf (s.chain .interactive).cursor ≠ 0#24 ∧ s.linkValid (s.linkOf (s.chain .interactive).cursor) = true)
    ∧ (let s := rereading 0x3FE0 false false
       s.linkOf (s.chain .interactive).tail ≠ 0#24 ∧ s.linkValid (s.linkOf (s.chain .interactive).tail) = true)
    ∧ (Inv (beginning 0) ∧ (beginning 0).inFlight = some (inFlightOf .interactive 1 0)
      ∧ answerOrder 64 16 = [] ++ (.slipWrite 64, 64) :: (answerOrder 64 16).tail
      ∧ answerOrder 64 16 = (answerOrder 64 16).dropLast ++ (.stageWrite .answered, 0) :: []
      ∧ ∀ x ∈ (answerOrder 64 16).dropLast, x.1 ∉ [Access.stageWrite .answered])
    ∧ (let s := { running 5 1 0 [] with interactive := atT .ahead, examining := some .interactive }
       Inv s ∧ Memory.read s.mem (s.slipAddress (s.chain .interactive).cursor) = 1#8
        ∧ dispatchRefusal .interactive (Memory.read s.mem (s.slipAddress (s.chain .interactive).cursor + 1))
          = some .wrongChain
        ∧ answerOrder 16 0 = [] ++ (.slipWrite 2, 2) :: (answerOrder 16 0).tail) :=
  ⟨by decide, rfl, by decide +kernel, by decide +kernel, by decide +kernel,
    ⟨invCheck_sound (by decide +kernel), by decide +kernel⟩, ⟨invCheck_sound (by decide +kernel), by decide +kernel⟩⟩

theorem witness_AccessErrorFailsAnchorAndWalk :
    ((starting 1 0x200000).part = .starting ∧ Access.anchorRead 63 ∈ [Access.anchorRead 63])
    ∧ (walking.tables = .checking
      ∧ Access.tableRead 255#8 (walking.tableBase + 63) ∈ [Access.tableRead 255#8 0x20003F]) := by decide +kernel

/-- A slip of the trip's kinds in flight, worked on a chain. -/
theorem working_of {s : State} {kind : Byte} {f : InFlight} (h1 : s.working kind = some f)
    (h2 : s.linkValid (s.chain f.chain).cursor = true) (h3 : Memory.wf s.mem = true) : Working s kind f := ⟨h1, h2, h3⟩

theorem witness_TripBeginStoresContext :
    ∃ q plan, Working (beginning 4) kindTrip (inFlightOf .interactive 1 0)
      ∧ Memory.read (beginning 4).mem ((beginning 4).slipOf (inFlightOf .interactive 1 0) + 16) = 1#8
      ∧ (beginning 4).trip.state = .noTrip
      ∧ readTripRequest ((beginning 4).slipByte [] ((beginning 4).chain .interactive).cursor) = some q
      ∧ q.inRange = true ∧ (beginning 4).tables = .usable
      ∧ (∀ n ∈ q.priority ++ [byteOf q.fallback], slotOf (beginning 4).snapshot n ≠ none)
      ∧ (beginning 4).routeWalk [] q.planOffset q.start = .plan plan := by
  obtain ⟨q, h1, h2⟩ := of_any (show (readTripRequest
      ((beginning 4).slipByte [] ((beginning 4).chain .interactive).cursor)).any (fun q => decide (q.inRange = true
        ∧ (∀ n ∈ q.priority ++ [byteOf q.fallback], slotOf (beginning 4).snapshot n ≠ none)
        ∧ (beginning 4).routeWalk [] q.planOffset q.start = .plan trip.plan)) = true by decide +kernel)
  obtain ⟨h3, h4, h5⟩ := of_decide_eq_true h2
  exact ⟨q, _, ⟨by decide +kernel, by decide +kernel, by decide +kernel⟩, by decide +kernel, rfl, h1, h3, rfl, h4, h5⟩

theorem witness_TripSlipRefusals :
    (let s := flight .interactive 1 .working 0 (running 1 2 0 [3#8])
     Working s kindTrip (inFlightOf .interactive 1 0)
      ∧ Memory.read s.mem (s.slipOf (inFlightOf .interactive 1 0) + 16) ≠ 1#8
      ∧ Memory.read s.mem (s.slipOf (inFlightOf .interactive 1 0) + 16) ≠ 2#8)
    ∧ (let s := flight .interactive 1 .working 0 (running 1 2 0 [2#8])
       Memory.read s.mem (s.slipOf (inFlightOf .interactive 1 0) + 16) = 2#8 ∧ s.trip.state = .noTrip)
    ∧ (let s := onTrip 5 (beginning 0)
       Working s kindTrip (inFlightOf .interactive 1 0) ∧ s.trip.state = .inTrip)
    ∧ (let s := flight .interactive 1 .working 0 (running 1 2 0 [1#8])
       ∃ q, readTripRequest (s.slipByte [] (s.chain .interactive).cursor) = some q ∧ q.inRange = false)
    ∧ (let s := beginning 5
       ∃ q, readTripRequest (s.slipByte [] (s.chain .interactive).cursor) = some q ∧ q.inRange = true
        ∧ (∀ n ∈ q.priority ++ [byteOf q.fallback], slotOf s.snapshot n ≠ none)
        ∧ (∃ n ∈ q.priority ++ [byteOf q.fallback], slotOf emptySnapshot n = none)
        ∧ s.routeWalk [] q.planOffset q.start = .badRoute)
    ∧ (let s := beginning 4
       ∃ q, readTripRequest (s.slipByte [] (s.chain .interactive).cursor) = some q ∧ q.inRange = true
        ∧ s.tableHolds q.planOffset 4 = true
        ∧ s.routeWalk [.tableRead 255#8 (s.tableBase + q.planOffset + 1)] q.planOffset q.start = .accessError
        ∧ s.routeWalk [] q.planOffset q.start = .plan trip.plan
        ∧ (trip.plan[3]?.map (fun x => x.claims.length)) = some 1
        ∧ s.routeWalk [.tableRead 255#8 (s.tableBase + q.planOffset + 4 + 12 * 3 + 5)] q.planOffset q.start
          = .accessError)
    ∧ (let s := { beginning 4 with tables := .unusable }
       Working s kindTrip (inFlightOf .interactive 1 0) ∧ s.trip.state = .noTrip ∧ s.tables ≠ .usable
        ∧ Memory.read s.mem (s.slipOf (inFlightOf .interactive 1 0) + 16) = 1#8
        ∧ ∃ q, readTripRequest (s.slipByte [] (s.chain .interactive).cursor) = some q ∧ q.inRange = true) := by
  refine ⟨⟨⟨by decide +kernel, by decide +kernel, by decide +kernel⟩, by decide +kernel⟩, by decide +kernel,
    ⟨⟨by decide +kernel, by decide +kernel, by decide +kernel⟩, rfl⟩, ?_, ?_, ?_,
    ⟨by decide +kernel, by decide +kernel, by decide +kernel⟩, rfl, by decide +kernel, by decide +kernel, ?_⟩
  · obtain ⟨q, h1, h2⟩ := of_any (show (readTripRequest ((flight .interactive 1 .working 0 (running 1 2 0 [1#8])).slipByte []
      0x10#24)).any (fun q => !q.inRange) = true by decide +kernel)
    exact ⟨q, h1, by simpa using h2⟩
  · obtain ⟨q, h1, h2⟩ := of_any (show (readTripRequest ((beginning 5).slipByte [] 0x10#24)).any (fun q =>
      decide (q.inRange = true ∧ (∀ n ∈ q.priority ++ [byteOf q.fallback], slotOf (beginning 5).snapshot n ≠ none)
        ∧ (∃ n ∈ q.priority ++ [byteOf q.fallback], slotOf emptySnapshot n = none)
        ∧ (beginning 5).routeWalk [] q.planOffset q.start = .badRoute)) = true by decide +kernel)
    exact ⟨q, h1, of_decide_eq_true h2⟩
  · obtain ⟨q, h1, h2⟩ := of_any (show (readTripRequest ((beginning 4).slipByte [] 0x10#24)).any (fun q =>
      decide (q.inRange = true ∧ (beginning 4).tableHolds q.planOffset 4 = true
        ∧ (beginning 4).routeWalk [.tableRead 255#8 ((beginning 4).tableBase + q.planOffset + 1)] q.planOffset q.start
          = .accessError
        ∧ (beginning 4).routeWalk [] q.planOffset q.start = .plan trip.plan
        ∧ (trip.plan[3]?.map (fun x => x.claims.length)) = some 1
        ∧ (beginning 4).routeWalk [.tableRead 255#8 ((beginning 4).tableBase + q.planOffset + 4 + 12 * 3 + 5)]
          q.planOffset q.start = .accessError)) = true by decide +kernel)
    exact ⟨q, h1, of_decide_eq_true h2⟩
  · exact of_any (show (readTripRequest (({ beginning 4 with tables := .unusable } : State).slipByte [] 0x10#24)).any
      (fun q => q.inRange) = true by decide +kernel)

theorem witness_TripEndClearsTheTrip :
    let s := onTrip 29000300 (flight .interactive 1 .working 0 (running 1 2 0 [2#8]))
    Working s kindTrip (inFlightOf .interactive 1 0)
      ∧ Memory.read s.mem (s.slipOf (inFlightOf .interactive 1 0) + 16) = 2#8 ∧ s.trip.state = .inTrip :=
  ⟨⟨by decide +kernel, by decide +kernel, by decide +kernel⟩, by decide +kernel, rfl⟩

/-- A POSITION with section, flag and report in flight on the background chain. -/
def positioning (section_ flag : Nat) : State :=
  onTrip 29000041 (flight .background 2 .working 0
    (running 2 2 0 ([byteOf section_, byteOf flag, 25#8, 0#8] ++ leBytes 4 29000042)))

theorem position_read (section_ flag : Nat) (p : PositionRequest → Bool)
    (h : (readPositionRequest ((positioning section_ flag).slipByte [] 0x10#24)).any p = true) :
    ∃ q, readPositionRequest ((positioning section_ flag).slipByte [] ((positioning section_ flag).chain .background).cursor)
      = some q ∧ p q = true := of_any h

/-- Flags 0 and 1 at the lowest and the highest section allowed. -/
theorem witness_PositionMovesTheTrain :
    Working (positioning 2 0) kindPosition (inFlightOf .background 2 0) ∧ (positioning 2 0).trip.state = .inTrip
      ∧ (positioning 2 0).trip.plan.length ≤ 96
      ∧ (∃ q, readPositionRequest ((positioning 2 0).slipByte [] ((positioning 2 0).chain .background).cursor) = some q
        ∧ decide (q.flag = 0 ∧ q.section_ < trip.plan.length ∧ trip.current.toNat ≤ q.section_) = true)
      ∧ (∃ q, readPositionRequest ((positioning 4 1).slipByte [] ((positioning 4 1).chain .background).cursor) = some q
        ∧ decide (q.flag = 1 ∧ q.section_ < trip.plan.length ∧ trip.current.toNat ≤ q.section_) = true) :=
  ⟨⟨by decide +kernel, by decide +kernel, by decide +kernel⟩, rfl, by decide, position_read 2 0 _ (by decide +kernel),
    position_read 4 1 _ (by decide +kernel)⟩

theorem witness_PositionRefusals :
    (let s := flight .background 2 .working 0 (running 2 2 0 [])
     Inv s ∧ Working s kindPosition (inFlightOf .background 2 0) ∧ s.trip.state = .noTrip)
    ∧ (Inv (positioning 1 0) ∧ Working (positioning 1 0) kindPosition (inFlightOf .background 2 0))
    ∧ (∃ q, readPositionRequest ((positioning 2 2).slipByte [] ((positioning 2 2).chain .background).cursor) = some q
      ∧ decide (1 < q.flag) = true)
    ∧ (∃ q, readPositionRequest ((positioning 5 0).slipByte [] ((positioning 5 0).chain .background).cursor) = some q
      ∧ decide (trip.plan.length ≤ q.section_) = true)
    ∧ (∃ q, readPositionRequest ((positioning 1 0).slipByte [] ((positioning 1 0).chain .background).cursor) = some q
      ∧ decide (q.flag ≤ 1 ∧ q.section_ < trip.plan.length ∧ q.section_ < trip.current.toNat) = true) :=
  ⟨⟨invCheck_sound (by decide +kernel), ⟨by decide +kernel, by decide +kernel, by decide +kernel⟩, rfl⟩,
    ⟨invCheck_sound (by decide +kernel), ⟨by decide +kernel, by decide +kernel, by decide +kernel⟩⟩,
    position_read 2 2 _ (by decide +kernel), position_read 5 0 _ (by decide +kernel),
    position_read 1 0 _ (by decide +kernel)⟩

/-- The INSPECT of section 5.9 on a chain, with the authenticity given. -/
def inspectingA (c : Chain) (authenticity : Nat) : State :=
  inspecting c 29000250 (inspectBody authenticity 2 1 1 255 4 0 tokenA)

theorem inspect_read (c : Chain) (authenticity : Nat) (p : InspectRequest → Bool)
    (h : (readInspectRequest ((inspectingA c authenticity).slipByte [] 0x10#24)).any p = true) :
    ∃ q, readInspectRequest ((inspectingA c authenticity).slipByte [] 0x10#24) = some q ∧ p q = true := of_any h

theorem inspect_working (c : Chain) : Working (inspectingA c 1) kindInspect (inFlightOf c 3 29000250) := by
  cases c <;> exact ⟨by decide +kernel, by decide +kernel, by decide +kernel⟩

theorem witness_InspectRecordsItsVerdict :
    let s := inspectingA .interactive 1
    Working s kindInspect (inFlightOf .interactive 3 29000250) ∧ s.trip.state = .inTrip ∧ s.tables = .usable
      ∧ ∃ q, readInspectRequest (s.slipByte [] 0x10#24) = some q ∧ q.inRange = true
        ∧ ∃ g, s.findings [] 0x10#24 q (BitVec.ofNat 32 29000250) = .ok g := by
  refine ⟨inspect_working _, rfl, rfl, ?_⟩
  obtain ⟨q, h1, h2⟩ := inspect_read .interactive 1 (fun q => q.inRange
    && succeeded ((inspectingA .interactive 1).findings [] 0x10#24 q (BitVec.ofNat 32 29000250))) (by decide +kernel)
  rw [Bool.and_eq_true] at h2
  exact ⟨q, h1, h2.1, of_succeeded h2.2⟩

theorem witness_ProbeLeavesNoTrace :
    let s := inspectingA .background 1
    Working s kindInspect (inFlightOf .background 3 29000250) ∧ s.trip.state = .inTrip ∧ s.tables = .usable
      ∧ ∃ q, readInspectRequest (s.slipByte [] 0x10#24) = some q ∧ q.inRange = true
        ∧ ∃ g, s.findings [] 0x10#24 q (BitVec.ofNat 32 29000250) = .ok g := by
  refine ⟨inspect_working _, rfl, rfl, ?_⟩
  obtain ⟨q, h1, h2⟩ := inspect_read .background 1 (fun q => q.inRange
    && succeeded ((inspectingA .background 1).findings [] 0x10#24 q (BitVec.ofNat 32 29000250))) (by decide +kernel)
  rw [Bool.and_eq_true] at h2
  exact ⟨q, h1, h2.1, of_succeeded h2.2⟩

/-- Authenticity 4 is out of range; the tables may be UNUSABLE. -/
theorem witness_InspectRefusals :
    (let s := flight .interactive 3 .working 0 (running 3 2 0 [])
     Working s kindInspect (inFlightOf .interactive 3 0) ∧ s.trip.state = .noTrip)
    ∧ (∃ q, readInspectRequest ((inspectingA .background 4).slipByte [] 0x10#24) = some q ∧ q.inRange = false)
    ∧ (let s := { inspectingA .background 1 with tables := .unusable }
       Working s kindInspect (inFlightOf .background 3 29000250) ∧ s.tables ≠ .usable
        ∧ ∃ q, readInspectRequest (s.slipByte [] 0x10#24) = some q ∧ q.inRange = true) := by
  refine ⟨⟨⟨by decide +kernel, by decide +kernel, by decide +kernel⟩, rfl⟩, ?_,
    ⟨⟨by decide +kernel, by decide +kernel, by decide +kernel⟩, by decide, ?_⟩⟩
  · obtain ⟨q, h1, h2⟩ := inspect_read .background 4 (fun q => !q.inRange) (by decide +kernel)
    exact ⟨q, h1, by simpa using h2⟩
  · exact inspect_read .background 1 (fun q => q.inRange) (by decide +kernel)

/-- A reading ends at the table read named. -/
def stopsAt {α : Type} (slot : Byte) (check : Nat) : Except Stop α → Bool
  | .error (.table slot' check') => decide (slot' = slot ∧ check' = check)
  | _ => false

theorem of_stopsAt {α : Type} {slot : Byte} {check : Nat} {x : Except Stop α} (h : stopsAt slot check x = true) :
    x = .error (.table slot check) := by
  cases x with
  | ok g => cases h
  | error e =>
    cases e with
    | slip => cases h
    | table slot' check' => obtain ⟨rfl, rfl⟩ := of_decide_eq_true h; rfl

/-- The tables rewritten outside a hold so that the product table lies outside the window: check 16; and an access error
on the last byte of a deny entry that the search probes: check 15. -/
theorem witness_TableReadErrorRefusesInspect :
    (let s := (inspectingA .interactive 1).hostStore 0x200113#32 1#8
     Working s kindInspect (inFlightOf .interactive 3 29000250) ∧ s.trip.state = .inTrip ∧ s.tables = .usable
      ∧ ∃ q, readInspectRequest (s.slipByte [] 0x10#24) = some q ∧ q.inRange = true
        ∧ s.findings [] 0x10#24 q (BitVec.ofNat 32 29000250) = .error (.table 2#8 16))
    ∧ (let s := inspectingA .interactive 1
       ∃ q, readInspectRequest (s.slipByte [] 0x10#24) = some q ∧ q.inRange = true
        ∧ s.findings [.tableRead 2#8 0x200524] 0x10#24 q (BitVec.ofNat 32 29000250) = .error (.table 2#8 15)) := by
  refine ⟨⟨⟨by decide +kernel, by decide +kernel, by decide +kernel⟩, rfl, rfl, ?_⟩, ?_⟩
  · obtain ⟨q, h1, h2⟩ := of_any (show (readInspectRequest
      (((inspectingA .interactive 1).hostStore 0x200113#32 1#8).slipByte [] 0x10#24)).any (fun q => q.inRange
        && stopsAt 2#8 16 (((inspectingA .interactive 1).hostStore 0x200113#32 1#8).findings [] 0x10#24 q
          (BitVec.ofNat 32 29000250))) = true by decide +kernel)
    rw [Bool.and_eq_true] at h2
    exact ⟨q, h1, h2.1, of_stopsAt h2.2⟩
  · obtain ⟨q, h1, h2⟩ := inspect_read .interactive 1 (fun q => q.inRange
      && stopsAt 2#8 15 ((inspectingA .interactive 1).findings [.tableRead 2#8 0x200524] 0x10#24 q
        (BitVec.ofNat 32 29000250))) (by decide +kernel)
    rw [Bool.and_eq_true] at h2
    exact ⟨q, h1, h2.1, of_stopsAt h2.2⟩

/-- The header of the token of section 3.4 is well formed and its issuer has a profile. -/
theorem witness_TableReadErrorRefusesInspect_header :
    readTokenHeader (fun i => (inspectingA .interactive 1).slipByte [] 0x10#24 (imageAt + i)) 47 = .ok (2#8, some 3)
      ∧ (inspectingA .interactive 1).profileOf 2#8 = some 0x200100 := by
  refine ⟨?_, by decide +kernel⟩
  have h : (match readTokenHeader (fun i => (inspectingA .interactive 1).slipByte [] 0x10#24 (imageAt + i)) 47 with
    | .ok x => decide (x = (2#8, some 3)) | .error _ => false) = true := by decide +kernel
  revert h
  generalize readTokenHeader (fun i => (inspectingA .interactive 1).slipByte [] 0x10#24 (imageAt + i)) 47 = x
  intro h
  cases x with
  | ok a => rw [of_decide_eq_true h]
  | error e => cases h

theorem witness_HighestVerdictDecides :
    ([Cause.expired] ≠ [] ∧ Cause.expired ∈ [Cause.expired, Cause.notYetValid]
      ∧ ∀ d ∈ [Cause.expired, Cause.notYetValid], Cause.expired.code ≤ d.code) ∧ 0 < 1
      ∧ [Note.delay] ≠ [] := by decide

theorem witness_CoverageAndPricingFollowClaims :
    (leg 4095 [⟨2#8, 254#8⟩]).Legal ∧ trip.priority = [] ++ 2#8 :: []
      ∧ 2#8 ∈ (leg 30 [⟨2#8, 11#8⟩]).claims.map Claim.network
      ∧ ∀ m ∈ trip.priority, m ∉ (leg 42 []).claims.map Claim.network :=
  ⟨by unfold RouteSection.Legal; decide, rfl, by decide, by decide⟩

/-- The smallest and the largest route, both ends given and absent. -/
theorem witness_JourneySpanHoldsCurrentSection : (0 < 1 ∧ 1 ≤ 96) ∧ (95 < 96 ∧ 96 ≤ 96) ∧ 95 ≠ 255 := by decide

theorem witness_PersonCountsSplit : 9 ≤ 9 ∧ 0 ≤ 9 := by decide

/-- The bounds themselves. -/
theorem witness_FareArithmeticIsExact :
    let b : Band := { lower := 0, base := 999999, rate := 65535 }
    let g : Pricing := { unit := 1000, classPercent := 250, childPercent := 100, surcharge := 0, bandOffset := 0, bandCount := 1 }
    b.base ≤ 999999 ∧ b.rate ≤ 65535 ∧ b.lower ≤ 393120 ∧ 393120 ≤ 393120 ∧ 250 ≤ 250 ∧ 9 ≤ 9 ∧ g.childPercent ≤ 100
      ∧ 1 ≤ g.unit ∧ g.unit ≤ 1000 := by decide

theorem witness_ClassLineIsNeverNegative :
    let b : Band := { lower := 0, base := 250, rate := 1800 }
    let g : Pricing := { unit := 1, classPercent := 160, childPercent := 50, surcharge := 0, bandOffset := 0, bandCount := 1 }
    b.base ≤ 999999 ∧ b.rate ≤ 65535 ∧ b.lower ≤ 58 ∧ 58 ≤ 393120 ∧ 100 ≤ 250 ∧ 250 ≤ 250 ∧ g.childPercent ≤ 100
      ∧ 1 ≤ g.unit ∧ g.unit ≤ 1000 := by decide

/-- An uncovered leg of network 2 with nonzero lines. -/
theorem witness_TotalIsCappedSum :
    let l : NetworkLines := { network := 2#8, uncovered := 710, extra := 180, class_ := 0, rounded := true, surcharge := 500 }
    let legs : List Leg := [{ network := 2#8, distance := 137, covered := false }]
    let r := totalOf 20000 { boarding := 0, destination := 0, clamped := false } legs (personCounts 1 0 1 1) 0 [l]
    r.surcharged = true ∧ (legs.find? (fun l => !l.covered)).map Leg.network = some 2#8 ∧ [l] = [] ++ l :: []
      ∧ l.network = 2#8 ∧ (totalOf 5 r.span [] r.persons 1 []).surcharged = false := by decide

/-- A journal of 256 entries: 256 own entries with entry numbers 1 to 256. -/
def full : Journal :=
  journalOf ((List.range 256).map (fun i => ownEntry (i + 1) 29000250 .valid .none none)) 256

theorem witness_OwnInsertionInOrder :
    (Inv recorded ∧ recorded.journal.entries.length < 256)
    ∧ (let s := { onTrip 29000270 quiet with journal := full }
       Inv s ∧ s.journal.entries.length = 256 ∧ ∃ e rest, s.journal.entries = e :: rest) := by
  refine ⟨⟨invCheck_sound (by decide +kernel), by decide⟩, invCheck_sound (by decide +kernel), by decide +kernel, ?_⟩
  cases h : ({ onTrip 29000270 quiet with journal := full } : State).journal.entries with
  | nil => exact absurd (congrArg List.length h) (by decide +kernel)
  | cons e rest => exact ⟨e, rest, rfl⟩

/-- An own and a peer entry sighted last; no sighting under another issuer. -/
theorem witness_PassbackSearchFindings :
    let e := peerEntry .none
    (recorded.journal.entries = [ownEntry 1 29000250 .excess .none (some ⟨3#8, 1#8⟩)] ++ e :: [])
      ∧ (e.issuer = 2#8 ∧ e.serial = BitVec.ofNat 64 983503044 ∧ e.outcome ≠ .voided)
      ∧ (∀ x ∈ recorded.journal.entries, ¬ (x.issuer = 3#8 ∧ x.serial = BitVec.ofNat 64 983503044
        ∧ x.outcome ≠ .voided)) := by decide

/-- An AMEND of entry `n` with outcome `o` in flight, over an entry 1 of verdict `v` with window `w`. -/
def amending (n o : Nat) (v : Verdict) (w : Option Window) : State :=
  { onTrip 29000280 (flight .interactive 4 .working 0 (running 4 2 0 (leBytes 2 n ++ [byteOf o]))) with
    journal := journalOf [ownEntry 1 29000270 v .none w] 1 }

theorem amend_read {n o : Nat} {v : Verdict} {w : Option Window} {m : Nat × Nat}
    (h : (readAmendRequest ((amending n o v w).slipByte [] 0x10#24)) = some m) :
    readAmendRequest ((amending n o v w).slipByte [] ((amending n o v w).chain .interactive).cursor) = some m := h

theorem witness_AmendSetsOutcome :
    let s := amending 1 3 .challenge (some ⟨2#8, 6#8⟩)
    let e := ownEntry 1 29000270 .challenge .none (some ⟨2#8, 6#8⟩)
    Working s kindAmend (inFlightOf .interactive 4 0) ∧ s.trip.state = .inTrip
      ∧ readAmendRequest (s.slipByte [] (s.chain .interactive).cursor) = some (1, 3) ∧ 1 ≤ 1
      ∧ Outcome.confirmed.code = 3 ∧ Outcome.confirmed ≠ .none
      ∧ s.journal.entryOf s.trip.ownId (BitVec.ofNat 16 1) = some e ∧ e.window = some ⟨2#8, 6#8⟩
      ∧ e.verdict = .challenge :=
  ⟨⟨by decide +kernel, by decide +kernel, by decide +kernel⟩, rfl, by decide +kernel, by decide, rfl, by decide,
    by decide +kernel, rfl, rfl⟩

theorem witness_AmendRefusals :
    (let s := flight .interactive 4 .working 0 (running 4 2 0 [])
     Working s kindAmend (inFlightOf .interactive 4 0) ∧ s.trip.state = .noTrip)
    ∧ (let s := amending 1 5 .valid none
       Working s kindAmend (inFlightOf .interactive 4 0) ∧ s.trip.state = .inTrip
        ∧ readAmendRequest (s.slipByte [] (s.chain .interactive).cursor) = some (1, 5))
    ∧ (let s := amending 2 4 .valid none
       readAmendRequest (s.slipByte [] (s.chain .interactive).cursor) = some (2, 4)
        ∧ s.journal.entryOf s.trip.ownId (BitVec.ofNat 16 2) = none)
    ∧ (let s := amending 1 1 .valid none
       readAmendRequest (s.slipByte [] (s.chain .interactive).cursor) = some (1, 1)
        ∧ s.journal.entryOf s.trip.ownId (BitVec.ofNat 16 1) = some (ownEntry 1 29000270 .valid .none none))
    ∧ (let s := amending 1 2 .noted (some ⟨1#8, 1#8⟩)
       readAmendRequest (s.slipByte [] (s.chain .interactive).cursor) = some (1, 2)
        ∧ s.journal.entryOf s.trip.ownId (BitVec.ofNat 16 1)
          = some (ownEntry 1 29000270 .noted .none (some ⟨1#8, 1#8⟩))) :=
  ⟨⟨⟨by decide +kernel, by decide +kernel, by decide +kernel⟩, rfl⟩,
    ⟨⟨by decide +kernel, by decide +kernel, by decide +kernel⟩, rfl, by decide +kernel⟩, by decide +kernel,
    by decide +kernel, by decide +kernel⟩

/-- A peer record of the merge batch. -/
def record (id outcome : Nat) : PeerRecord :=
  { originId := id, issuer := 15, originNumber := 40, serial := 983503044, time := 29000240, section_ := 4, verdict := 5,
    outcome := outcome }

/-- Each class of record, with the boundary values origin 63, issuer 15, section N - 1, verdict 5, outcome 4. -/
theorem witness_MergeRecordClasses :
    Inv recorded ∧ recorded.trip.state = .inTrip ∧ (record 12 0).originNumber < 65536
      ∧ recorded.classify (record 7 0) = .rejected ∧ recorded.classify (record 64 0) = .rejected
      ∧ recorded.classify (record 12 0) = .duplicate ∧ recorded.classify (record 12 4) = .updated .voided
      ∧ recorded.classify (record 63 4) = .accepted .invalid .voided ∧ recorded.journal.entries.length < 256
      ∧ (let s := { onTrip 29000270 quiet with journal := full }
         Inv s ∧ s.classify (record 63 4) = .accepted .invalid .voided ∧ s.journal.entries.length = 256
          ∧ s.journal.entries.head? = some (ownEntry 1 29000250 .valid .none none)) :=
  ⟨invCheck_sound (by decide +kernel), rfl, by decide, by decide +kernel, by decide +kernel, by decide +kernel,
    by decide +kernel, by decide +kernel, by decide, invCheck_sound (by decide +kernel), by decide +kernel,
    by decide +kernel, by decide +kernel⟩

/-- Record counts 0, 1, 16 and 17, and a MERGE in NO_TRIP. -/
theorem witness_MergeAnswersItsCounts :
    (let s := flight .background 5 .working 0 (running 5 2 0 [])
     Inv s ∧ Working s kindMerge (inFlightOf .background 5 0) ∧ s.trip.state = .noTrip)
    ∧ (Inv (merging 16) ∧ Working (merging 16) kindMerge (inFlightOf .background 5 0)
      ∧ (merging 16).trip.state = .inTrip
      ∧ 16 = (Memory.read (merging 16).mem ((merging 16).slipOf (inFlightOf .background 5 0) + 16)).toNat)
    ∧ 1 = (Memory.read (merging 1).mem ((merging 1).slipOf (inFlightOf .background 5 0) + 16)).toNat
    ∧ 0 = (Memory.read (merging 0).mem ((merging 0).slipOf (inFlightOf .background 5 0) + 16)).toNat
    ∧ 17 = (Memory.read (merging 17).mem ((merging 17).slipOf (inFlightOf .background 5 0) + 16)).toNat :=
  ⟨⟨invCheck_sound (by decide +kernel), ⟨by decide +kernel, by decide +kernel, by decide +kernel⟩, rfl⟩,
    ⟨invCheck_sound (by decide +kernel), ⟨by decide +kernel, by decide +kernel, by decide +kernel⟩, rfl,
      by decide +kernel⟩, by decide +kernel, by decide +kernel, by decide +kernel⟩

theorem witness_RecallReturnsNewestMatches :
    (let s := flight .background 6 .working 0 (running 6 2 0 [])
     Working s kindRecall (inFlightOf .background 6 0) ∧ s.trip.state = .noTrip)
    ∧ (Working recalling kindRecall (inFlightOf .background 6 0) ∧ recalling.trip.state = .inTrip
      ∧ readRecallRequest (recalling.slipByte [] (recalling.chain .background).cursor) = some (2, 983503044)) :=
  ⟨⟨⟨by decide +kernel, by decide +kernel, by decide +kernel⟩, rfl⟩,
    ⟨⟨by decide +kernel, by decide +kernel, by decide +kernel⟩, rfl, by decide +kernel⟩⟩

end Sys2Proof.Tests
end

section
/-!
PROOFS. Trip time and validity periods (02_trip_time_and_validity_periods.md): the service day, the judgement of a
time report and the validity test, each by its equations, and the three statements about them.
-/
namespace Sys2Proof.Machine

/-! ### The service day -/

/-- R27: rounding toward minus infinity is what the two bounds of a day say, also below minute 0. -/
theorem serviceDay_eq_iff (cal : Calendar) (l i : Int) :
    serviceDay cal l = i ↔ i * 1440 + cal.dayStart ≤ l ∧ l < i * 1440 + cal.dayStart + 1440 := by
  have lower : i ≤ serviceDay cal l ↔ i * 1440 ≤ l - cal.dayStart := Int.le_ediv_iff_mul_le (by decide)
  have upper : serviceDay cal l < i + 1 ↔ l - cal.dayStart < (i + 1) * 1440 := Int.ediv_lt_iff_lt_mul (by decide)
  omega

/-- Settles O20: both the bounds and the uniqueness are `serviceDay_eq_iff`; the next day's beginning is how
`nextServiceDay` is defined. -/
theorem serviceDayIsTheFloor : Obligations.ServiceDayIsTheFloor := by
  intro cal l
  refine ⟨?bounds, ?unique, fun m => rfl⟩
  case bounds => exact (serviceDay_eq_iff cal l _).mp rfl
  case unique =>
    intro i hlow hhigh
    exact ((serviceDay_eq_iff cal l i).mpr ⟨hlow, hhigh⟩).symm

/-! ### The judgement of a time report -/

/-- R23: the model's distance is the absolute difference of the two values as integers. -/
theorem distance_eq_natAbs (a b : Nat) : distance a b = ((a : Int) - b).natAbs := by
  unfold distance
  split <;> omega

section
variable {lo hi k r : Nat}

theorem judge_eq_adopted (hlo : distance r k ≤ lo) : judge lo hi k r = .adopted :=
  if_pos hlo

theorem judge_eq_stepped (hlo : lo < distance r k) (hhi : distance r k ≤ hi) : judge lo hi k r = .stepped := by
  simp [judge, hlo.not_ge, hhi]

theorem judge_eq_notAdopted (hlo : lo < distance r k) (hhi : hi < distance r k) :
    judge lo hi k r = .notAdopted := by
  simp [judge, hlo.not_ge, hhi.not_ge]

end

@[simp] theorem State.applyJudgement_adopted (s : State) (r : Word) :
    s.applyJudgement .adopted r.toNat = { s with clock := r } := by
  simp [State.applyJudgement]

@[simp] theorem State.applyJudgement_stepped (s : State) (r : Word) :
    s.applyJudgement .stepped r.toNat = { s with clock := r, events := s.events ||| Event.clockStep.mask } := by
  simp [State.applyJudgement, State.raise]

@[simp] theorem State.applyJudgement_notAdopted (s : State) (r : Nat) :
    s.applyJudgement .notAdopted r = { s with events := s.events ||| Event.timeReject.mask } := rfl

/-- Settles O19, one range of the distance at a time: the range fixes the judgement, and the judgement fixes the next
state and the answer flags. -/
theorem timeReportIsJudged : Obligations.TimeReportIsJudged := by
  intro s r hlohi
  dsimp only
  rw [← distance_eq_natAbs]
  refine ⟨?adopted, ?stepped, ?notAdopted⟩
  case adopted =>
    intro hlo
    rw [judge_eq_adopted hlo]
    exact ⟨s.applyJudgement_adopted r, rfl⟩
  case stepped =>
    intro hlo hhi
    rw [judge_eq_stepped hlo hhi]
    exact ⟨s.applyJudgement_stepped r, rfl⟩
  case notAdopted =>
    intro hhi
    rw [judge_eq_notAdopted (hlohi.trans_lt hhi) hhi]
    exact ⟨s.applyJudgement_notAdopted _, rfl⟩

/-! ### The validity test -/

section
variable {start e g d t : Nat}

theorem validityTest_eq_notYetValid (h : t < start) : validityTest start e g d t = .notYetValid :=
  if_pos h

theorem validityTest_eq_valid (hs : start ≤ t) (he : t < e) : validityTest start e g d t = .valid := by
  simp [validityTest, hs.not_gt, he]

/-- R29, R30: between the end and the effective end the larger allowance is named, and grace wins a tie. -/
theorem validityTest_within_allowance (hs : start ≤ e) (he : e ≤ t) (hx : t < e + max g d) :
    validityTest start e g d t = if d ≤ g then .grace else .delay := by
  rw [validityTest, if_neg (hs.trans he).not_gt, if_neg he.not_gt, if_pos hx]

theorem validityTest_eq_expired (hs : start ≤ e) (hx : e + max g d ≤ t) :
    validityTest start e g d t = .expired := by
  have he : e ≤ t := (Nat.le_add_right e _).trans hx
  rw [validityTest, if_neg (hs.trans he).not_gt, if_neg he.not_gt, if_neg hx.not_gt]

end

/-- Settles O21: each range of the evaluation time gives one finding, and the finding gives its note and its cause. -/
theorem validityTestFindings : Obligations.ValidityTestFindings := by
  intro start e g d t hse
  dsimp only
  refine ⟨?valid, ?grace, ?delay, ?notYetValid, ?expired⟩
  case valid =>
    intro hs he
    rw [validityTest_eq_valid hs he]
    exact ⟨rfl, rfl⟩
  case grace =>
    intro he hx hdg
    rw [validityTest_within_allowance hse he hx, if_pos hdg]
    exact ⟨rfl, rfl⟩
  case delay =>
    intro he hx hgd
    rw [validityTest_within_allowance hse he hx, if_neg hgd.not_ge]
    exact ⟨rfl, rfl⟩
  case notYetValid =>
    intro hs
    rw [validityTest_eq_notYetValid hs]
    exact ⟨rfl, rfl⟩
  case expired =>
    intro hx
    rw [validityTest_eq_expired hse hx]
    exact ⟨rfl, rfl⟩

end Sys2Proof.Machine
end

section
/-!
PROOFS. Presented tokens (03_presented_tokens.md): the token header of R37, one equation per check in the order in which
the decoder makes them, and the statement about it. An equation asks only for the bytes its check has reached.
-/
namespace Sys2Proof.Machine

/-! ### The token header -/

section
variable {get : Nat → Option Byte} {issuer version first : Byte} {length : Nat}

theorem readTokenHeader_of_issuer_refused (h0 : get 0 = some issuer) (hi : 15 < issuer.toNat) :
    readTokenHeader get length = .ok (issuer, none) := by
  simp only [readTokenHeader, h0, fromSlip, bind, Except.bind, if_pos hi]
  rfl

theorem readTokenHeader_of_version_refused (h0 : get 0 = some issuer) (hi : issuer.toNat ≤ 15)
    (h1 : get 1 = some version) (hv : version ≠ 1#8) : readTokenHeader get length = .ok (issuer, none) := by
  simp only [readTokenHeader, h0, h1, fromSlip, bind, Except.bind, if_neg hi.not_gt, if_pos hv]
  rfl

/-- R37: with issuer and version accepted, the test of the first element offset alone decides. -/
theorem readTokenHeader_of_version_accepted (h0 : get 0 = some issuer) (hi : issuer.toNat ≤ 15) (h1 : get 1 = some 1#8)
    (h2 : get 2 = some first) : readTokenHeader get length = .ok (issuer,
      if 3 ≤ first.toNat ∧ first.toNat + 3 ≤ length then some first.toNat else none) := by
  simp only [readTokenHeader, h0, h1, h2, fromSlip, bind, Except.bind, if_neg hi.not_gt, ne_eq, not_true_eq_false,
    if_false]
  by_cases ho : 3 ≤ first.toNat ∧ first.toNat + 3 ≤ length
  · rw [if_neg (by omega), if_pos ho]
    rfl
  · rw [if_pos (by omega), if_neg ho]
    rfl

end

/-- Settles O47, one check at a time: the first that fails refuses the header, and the last is read only when the two
before it have passed. -/
theorem tokenHeaderIsChecked : Obligations.TokenHeaderIsChecked := by
  intro image length
  by_cases hissuer : (image 0).toNat ≤ 15
  case neg =>
    rw [readTokenHeader_of_issuer_refused rfl (not_le.mp hissuer), if_neg fun accepted => hissuer accepted.1]
  by_cases hversion : image 1 = 1#8
  case neg =>
    rw [readTokenHeader_of_version_refused rfl hissuer rfl hversion, if_neg fun accepted => hversion accepted.2.1]
  have hread : some (image 1) = some 1#8 := congrArg some hversion
  rw [readTokenHeader_of_version_accepted rfl hissuer hread rfl]
  simp only [hissuer, hversion, true_and]

end Sys2Proof.Machine
end

section
/-!
PROOFS. Coverage and fare arithmetic (05_coverage_and_fare_arithmetic.md): what covers and what prices a section, the
journey span and the person counts, each by its equations, and the three statements about them.
-/
namespace Sys2Proof.Machine

/-! ### Coverage and pricing networks -/

/-- R53, R67: the coverage of a product, held zones given, admits a zone. -/
def Product.Admits (p : Product) (zones : Option (List Byte)) (z : Byte) : Prop :=
  p.coverage = coverageWhole ∨ (p.coverage = coverageZones ∧ ∃ zs, zones = some zs ∧ z ∈ zs)

theorem Assessed.covers_of_cause {a : Assessed} (hc : a.causes ≠ []) (sec : RouteSection) : a.covers sec = false := by
  simp [Assessed.covers, hc]

theorem Assessed.covers_of_productless {a : Assessed} (hp : a.product = none) (sec : RouteSection) :
    a.covers sec = false := by
  simp [Assessed.covers, hp]

theorem Assessed.covers_of_unclaimed {a : Assessed} {sec : RouteSection} (hz : sec.claimOf a.issuer = none) :
    a.covers sec = false := by
  cases hp : a.product <;> simp [Assessed.covers, hp, hz]

/-- R67: without a cause, the product's coverage decides on the zone of the issuer's claim. -/
theorem Assessed.covers_of_claim {a : Assessed} {sec : RouteSection} {p : Product} {z : Byte} (hc : a.causes = [])
    (hp : a.product = some p) (hz : sec.claimOf a.issuer = some z) :
    a.covers sec = true ↔ p.Admits a.zones z := by
  cases hzs : a.zones <;>
    simp [Assessed.covers, Product.Admits, hc, hp, hz, hzs]

theorem Assessed.covers_iff (a : Assessed) (sec : RouteSection) :
    a.covers sec = true ↔ a.causes = [] ∧ ∃ p z, a.product = some p ∧ sec.claimOf a.issuer = some z
      ∧ p.Admits a.zones z := by
  constructor
  · intro covered
    by_cases hc : a.causes = []
    case neg => simp [Assessed.covers_of_cause hc] at covered
    cases hp : a.product with
    | none => simp [Assessed.covers_of_productless hp] at covered
    | some p =>
      cases hz : sec.claimOf a.issuer with
      | none => simp [Assessed.covers_of_unclaimed hz] at covered
      | some z => exact ⟨hc, p, z, rfl, rfl, (Assessed.covers_of_claim hc hp hz).mp covered⟩
  · rintro ⟨hc, p, z, hp, hz, admits⟩
    exact (Assessed.covers_of_claim hc hp hz).mpr admits

theorem TripContext.pricingNetwork_of_first_claim {t : TripContext} {sec : RouteSection} {pre post : List Byte}
    {n : Byte} (hsplit : t.priority = pre ++ n :: post) (hpre : ∀ m ∈ pre, m ∉ sec.claims.map Claim.network)
    (hn : n ∈ sec.claims.map Claim.network) : t.pricingNetwork sec = n := by
  have earlier : ∀ m ∈ pre, (sec.claimOf m).isSome = false := fun m hm =>
    Bool.eq_false_iff.mpr (mt RouteSection.claimOf_isSome.mp (hpre m hm))
  rw [TripContext.pricingNetwork, find_first hsplit earlier (RouteSection.claimOf_isSome.mpr hn), Option.getD_some]

theorem TripContext.pricingNetwork_of_unclaimed {t : TripContext} {sec : RouteSection}
    (h : ∀ m ∈ t.priority, m ∉ sec.claims.map Claim.network) : t.pricingNetwork sec = t.fallback := by
  have nobody : t.priority.find? (fun m => (sec.claimOf m).isSome) = .none :=
    List.find?_eq_none.mpr fun m hm => mt RouteSection.claimOf_isSome.mp (h m hm)
  rw [TripContext.pricingNetwork, nobody, Option.getD_none]

/-- Settles O48: coverage is `Assessed.covers_iff`, where R4's distinct networks make the issuer's claim the only one;
the pricing network is one search, which ends at the first claim or finds none. -/
theorem coverageAndPricingFollowClaims : Obligations.CoverageAndPricingFollowClaims := by
  refine ⟨fun a sec legal => ?_, fun t sec => ⟨?firstClaim, ?unclaimed⟩⟩
  · simp only [Assessed.covers_iff, RouteSection.claimOf_some legal, Product.Admits, coverageWhole,
      coverageZones]
  case firstClaim => exact fun _ _ _ hsplit hpre hn => TripContext.pricingNetwork_of_first_claim hsplit hpre hn
  case unclaimed => exact TripContext.pricingNetwork_of_unclaimed

/-! ### The journey span -/

/-- R70: the default boarding section is the greatest beginning of a run up to `c`, and 0 when there is none. -/
theorem defaultBoarding_eq_findGreatest (map : List Bool) (c : Nat) :
    defaultBoarding map c = Nat.findGreatest (fun i => startsRun map i = true) c := by
  induction c with
  | zero => rfl
  | succ c ih => rw [defaultBoarding, Nat.findGreatest_succ, ih]

theorem defaultBoarding_le (map : List Bool) (c : Nat) : defaultBoarding map c ≤ c := by
  rw [defaultBoarding_eq_findGreatest]
  exact Nat.findGreatest_le c

theorem startsRun_after_defaultBoarding {map : List Bool} {c i : Nat} (hi : i ≤ c) (hlt : defaultBoarding map c < i) :
    startsRun map i = false := by
  rw [defaultBoarding_eq_findGreatest] at hlt
  exact Bool.eq_false_iff.mpr (Nat.findGreatest_is_greatest hlt hi)

theorem startsRun_defaultBoarding {map : List Bool} {c i : Nat} (hi : i ≤ c) (hrun : startsRun map i = true) :
    startsRun map (defaultBoarding map c) = true := by
  rw [defaultBoarding_eq_findGreatest]
  exact Nat.findGreatest_spec (P := fun i => startsRun map i = true) hi hrun

theorem defaultBoarding_eq_zero {map : List Bool} {c : Nat} (h : ∀ i ≤ c, startsRun map i = false) :
    defaultBoarding map c = 0 := by
  rw [defaultBoarding_eq_findGreatest, Nat.findGreatest_eq_zero_iff]
  intro i _ hi
  simp [h i hi]

theorem defaultBoarding_startsRun_or_zero (map : List Bool) (c : Nat) :
    startsRun map (defaultBoarding map c) = true
      ∨ (defaultBoarding map c = 0 ∧ ∀ i ≤ c, startsRun map i = false) := by
  by_cases h : ∃ i ≤ c, startsRun map i = true
  case pos =>
    obtain ⟨i, hi, hrun⟩ := h
    exact .inl (startsRun_defaultBoarding hi hrun)
  case neg =>
    have none_starts : ∀ i ≤ c, startsRun map i = false := fun i hi =>
      Bool.eq_false_iff.mpr fun hrun => h ⟨i, hi, hrun⟩
    exact .inr ⟨defaultBoarding_eq_zero none_starts, none_starts⟩

section
variable {map : List Bool} {n c b d : Nat}

theorem journeySpan_boarding_absent : (journeySpan map n c absent d).boarding = defaultBoarding map c := rfl

theorem journeySpan_boarding_given (hb : b ≠ absent) : (journeySpan map n c b d).boarding = min b c := if_neg hb

theorem journeySpan_destination_absent : (journeySpan map n c b absent).destination = n - 1 := rfl

theorem journeySpan_destination_given (hd : d ≠ absent) :
    (journeySpan map n c b d).destination = min (max d c) (n - 1) := if_neg hd

theorem journeySpan_boarding_le (map : List Bool) (n c b d : Nat) : (journeySpan map n c b d).boarding ≤ c := by
  by_cases hb : b = absent
  · subst hb
    exact defaultBoarding_le map c
  · rw [journeySpan_boarding_given hb]
    exact min_le_right b c

theorem le_journeySpan_destination (map : List Bool) (b d : Nat) (hc : c < n) :
    c ≤ (journeySpan map n c b d).destination := by
  have last : c ≤ n - 1 := Nat.le_sub_one_of_lt hc
  by_cases hd : d = absent
  · subst hd
    exact last
  · rw [journeySpan_destination_given hd]
    exact le_min (le_max_right d c) last

theorem journeySpan_destination_le (map : List Bool) (n c b d : Nat) :
    (journeySpan map n c b d).destination ≤ n - 1 := by
  by_cases hd : d = absent
  · subst hd
    exact le_rfl
  · rw [journeySpan_destination_given hd]
    exact min_le_right _ _

theorem journeySpan_clamped (map : List Bool) (n c b d : Nat) :
    (journeySpan map n c b d).clamped = true ↔ (b ≠ absent ∧ c < b) ∨ (d ≠ absent ∧ (d < c ∨ n - 1 < d)) := by
  simp [journeySpan]

/-- R69, R72: a given boarding section is adjusted when it lies above the current section. -/
theorem journeySpan_boarding_ne_iff (hb : b ≠ absent) : (journeySpan map n c b d).boarding ≠ b ↔ c < b := by
  rw [journeySpan_boarding_given hb, ne_eq, min_eq_left_iff, not_le]

/-- R71, R72: a given destination is adjusted when it lies below the current section or beyond the route. -/
theorem journeySpan_destination_ne_iff (hd : d ≠ absent) (hc : c < n) :
    (journeySpan map n c b d).destination ≠ d ↔ d < c ∨ n - 1 < d := by
  rw [journeySpan_destination_given hd]
  omega

end

/-- Settles O49: the order of b, c and d, the two ends given or absent, and SPAN_CLAMPED, whose two tests say that an
end was adjusted. -/
theorem journeySpanHoldsCurrentSection : Obligations.JourneySpanHoldsCurrentSection := by
  intro map n c b d hc _
  refine ⟨journeySpan_boarding_le map n c b d, le_journeySpan_destination map b d hc,
    journeySpan_destination_le map n c b d, journeySpan_boarding_given, ?destinationAbsent,
    journeySpan_destination_given, ?startsRun, ?latest, ?clamped⟩
  case destinationAbsent =>
    rintro rfl
    exact journeySpan_destination_absent
  case startsRun =>
    rintro rfl
    exact defaultBoarding_startsRun_or_zero map c
  case latest =>
    rintro rfl i hi hlt
    exact startsRun_after_defaultBoarding hi hlt
  case clamped =>
    rw [journeySpan_clamped]
    exact or_congr (and_congr_right fun hb => (journeySpan_boarding_ne_iff hb).symm)
      (and_congr_right fun hd => (journeySpan_destination_ne_iff hd hc).symm)

/-! ### Persons -/

/-- The truncated difference of two counts is the maximum of 0 and their difference, in which R74 is written. -/
theorem natCast_sub_eq_max (m k : Nat) : ((m - k : Nat) : Int) = max 0 ((m : Int) - k) := by
  omega

section
variable (ta tc pa pc : Nat)

theorem personCounts_extraAdults : ((personCounts ta tc pa pc).extraAdults : Int) = max 0 ((pa : Int) - ta) :=
  natCast_sub_eq_max pa ta

/-- R74: the ticket's adults who are not present carry children beyond the ticket's own. -/
theorem personCounts_extraChildren : ((personCounts ta tc pa pc).extraChildren : Int)
    = max 0 ((pc : Int) - tc - max 0 ((ta : Int) - pa)) := by
  have places : (personCounts ta tc pa pc).extraChildren = pc - (tc + (ta - pa)) := Nat.sub_sub ..
  rw [places, natCast_sub_eq_max, Nat.cast_add, natCast_sub_eq_max, sub_add_eq_sub_sub]

theorem personCounts_extraAdults_le : (personCounts ta tc pa pc).extraAdults ≤ pa := Nat.sub_le pa ta

theorem personCounts_extraChildren_le : (personCounts ta tc pa pc).extraChildren ≤ pc :=
  (Nat.sub_le _ _).trans (Nat.sub_le _ _)

theorem personCounts_adults_split :
    (personCounts ta tc pa pc).coveredAdults + (personCounts ta tc pa pc).extraAdults = pa :=
  Nat.sub_add_cancel (personCounts_extraAdults_le ta tc pa pc)

theorem personCounts_children_split :
    (personCounts ta tc pa pc).coveredChildren + (personCounts ta tc pa pc).extraChildren = pc :=
  Nat.sub_add_cancel (personCounts_extraChildren_le ta tc pa pc)

end

/-- Settles O50: the extra counts are R74's, and since they and the covered ones split the counts present, each lies
within 0 to 9 as those do. -/
theorem personCountsSplit : Obligations.PersonCountsSplit := by
  intro ta tc pa pc _ _ hpa hpc
  dsimp only
  have adults := personCounts_adults_split ta tc pa pc
  have children := personCounts_children_split ta tc pa pc
  refine ⟨personCounts_extraAdults ta tc pa pc, personCounts_extraChildren ta tc pa pc, adults, children, rfl, rfl,
    ?_, ?_, ?_, ?_⟩ <;> omega

end Sys2Proof.Machine
end

section
/-!
PROOFS. The commands: what exec answers for each of them, once, in the terms of the blocks' operations. The proofs after
this one rewrite with these equations and do not unfold exec.
-/
namespace Sys2Proof.Machine

/-! ### The slip being worked -/

/-- The state after `work` on the slip of kind `kind` being worked; unchanged where none is (R138). -/
def State.workOn (kind : Byte) (work : InFlight → State → State) (s : State) : State :=
  match s.working kind with
  | none => s
  | some f => work f s

theorem State.workOn_of_working {s : State} {kind : Byte} {f : InFlight} (h : s.working kind = some f)
    (work : InFlight → State → State) : s.workOn kind work = work f s := by
  simp only [State.workOn, h]

/-- What holds where no slip is worked, and after the work on the slip in flight, holds after the command. -/
theorem State.workOn_induction {P : State → Prop} {s : State} {kind : Byte} {work : InFlight → State → State}
    (unchanged : P s) (worked : ∀ f, s.inFlight = some f → P (work f s)) : P (s.workOn kind work) := by
  cases h : s.working kind with
  | none => simpa only [State.workOn, h] using unchanged
  | some f =>
    rw [State.workOn_of_working h]
    exact worked f (State.working_inFlight h).1

/-- The work on an INSPECT by the command of chain `c`; an INSPECT of the other chain is left to the other command. -/
def State.workInspectOn (c : Chain) (f : InFlight) (s : State) : State :=
  if f.chain = c then s.workInspect [] f else s

/-! ### The equations of exec -/

section
variable (s : State)

theorem exec_start (r w h : Bool) : exec (.start r w h) s = .next (hostWrite (State.writeControl true r w h) s) := rfl

theorem exec_controlReset (others : Word) :
    exec (.controlReset others) s = .next (hostWrite (fun s => s.resetTo s.anchor) s) := rfl

theorem exec_restReq (h : Bool) :
    exec (.restReq h) s = .next (hostWrite (State.writeControl false true false h) s) := rfl

theorem exec_wake (r h : Bool) : exec (.wake r h) s = .next (hostWrite (State.writeControl false r true h) s) := rfl

theorem exec_holdReqSet : exec .holdReqSet s = .next (hostWrite (State.writeControl false false false true) s) := rfl

theorem exec_holdReqClear :
    exec .holdReqClear s = .next (hostWrite (State.writeControl false false false false) s) := rfl

theorem exec_anchorWrite (v : Word) : exec (.anchorWrite v) s
    = .next (hostWrite (fun s => if s.part = .idle then { s with anchor := anchorOf v } else s) s) := rfl

theorem exec_nudge (n : BitVec 2) : exec (.nudge n) s
    = .next (hostWrite (State.onNudge n (fun c s => s.setChain c (s.chain c).nudged)) s) := rfl

theorem exec_nudgeRestart (n : BitVec 2) :
    exec (.nudgeRestart n) s = .next (hostWrite (State.onNudge n (State.restart [])) s) := rfl

theorem exec_eventsClear (v : Word) : exec (.eventsClear v) s
    = .next (hostWrite (fun s => { s with events := s.events &&& ~~~ (v.setWidth 11) }) s) := rfl

theorem exec_enableWrite (v : Word) :
    exec (.enableWrite v) s = .next (hostWrite (fun s => { s with enable := v.setWidth 11 }) s) := rfl

theorem exec_faultRead : exec .faultRead s
    = .next { s with readData := faultWord s, faultRecord := none, faultMore := false } := rfl

theorem exec_registerWriteIgnored (r : Register) (v : Word) : exec (.registerWriteIgnored r v) s = .next s := rfl

theorem exec_resetPin : exec .resetPin s = .next { s.resetTo 0#32 with resetHeld := true } := rfl

theorem exec_powerOn : exec .powerOn s = .next (s.resetTo 0#32) := rfl

theorem exec_resetPinRelease : exec .resetPinRelease s = .next { s with resetHeld := false } := rfl

theorem exec_minuteTick : exec .minuteTick s
    = .next (if s.clockRunning then { s with clock := saturate s.clock }.mapEntries Entry.tick else s) := rfl

theorem exec_windowMinutesExpiry : exec .windowMinutesExpiry s = .next (s.mapEntries Entry.closeAtMinutes) := rfl

theorem exec_windowCountExpiry : exec .windowCountExpiry s = .next (s.mapEntries Entry.closeAtCount) := rfl

theorem exec_anchorCheck : exec .anchorCheck s = .next (s.anchorRead []) := rfl

theorem exec_validationWalk : exec .validationWalk s = .next (s.walk []) := rfl

theorem exec_arbiterChoice :
    exec .arbiterChoice s = .next (if s.mayChoose then { s with examining := s.choice } else s) := rfl

theorem exec_examination : exec .examination s = .next (s.examine []) := rfl

theorem exec_tripBegin : exec .tripBegin s = .next (s.workOn kindTrip (State.workTrip [] formBegin)) := rfl

theorem exec_tripEnd : exec .tripEnd s = .next (s.workOn kindTrip (State.workTrip [] formEnd)) := rfl

theorem exec_position : exec .position s = .next (s.workOn kindPosition (State.workPosition [])) := rfl

theorem exec_inspect : exec .inspect s = .next (s.workOn kindInspect (State.workInspectOn .interactive)) := rfl

theorem exec_probe : exec .probe s = .next (s.workOn kindInspect (State.workInspectOn .background)) := rfl

theorem exec_amend : exec .amend s = .next (s.workOn kindAmend (State.workAmend [])) := rfl

theorem exec_merge : exec .merge s = .next (s.workOn kindMerge (State.workMerge [])) := rfl

theorem exec_recallEntries : exec .recallEntries s = .next (s.workOn kindRecall (State.workRecall [])) := rfl

theorem exec_followUp (b : Bool) : exec (.followUp b) s = .next (s.followUp [] b) := rfl

theorem exec_holdGrant : exec .holdGrant s = .next s.grantIfFree := rfl

theorem exec_restGiven : exec .restGiven s
    = .next (if s.restPending && decide (s.part = .running) && s.mayRest then s.rest else s) := rfl

theorem exec_tailLinkReread (c : Chain) : exec (.tailLinkReread c) s = .next (s.tailReread [] c) := rfl

theorem exec_accessTimeout (a : Activity) (failing : List Access) :
    exec (.accessTimeout a failing) s = .next (s.activity a failing) := rfl

theorem exec_accessErrorResponse (a : Activity) (failing : List Access) :
    exec (.accessErrorResponse a failing) s = .next (s.activity a failing) := rfl

theorem exec_lateResponse : exec .lateResponse s = .next s := rfl

end

/-! ### The queue -/

theorem step_of_pending_cons {s : State} {c : Instr} {rest : List Instr} (h : s.pending = c :: rest) :
    step s = exec c { s with pending := rest } := by
  simp only [step, h]

theorem step_of_pending_nil {s : State} (h : s.pending = []) : step s = .next s := by
  simp only [step, h]

/-- Settles O1: the two cases of the queue. -/
theorem stepRunsFrontCommand : Obligations.StepRunsFrontCommand := fun _ =>
  ⟨fun _ _ => step_of_pending_cons, step_of_pending_nil⟩

end Sys2Proof.Machine
end

section
/-!
PROOFS. What every command does to the queue, the trip, the examination and the slip in flight: one relation between the
state before and after, shown once for each command, and the statements that follow from it.
-/
namespace Sys2Proof.Machine

/-! ### A command and a property of its next state -/

/-- Command `c` answers a next state of which `P` holds. -/
def Gives (c : Instr) (s : State) (P : State → Prop) : Prop := ∃ t, exec c s = .next t ∧ P t

section
variable {c : Instr} {s : State} {P : State → Prop}

theorem Gives.of_eq {t : State} (h : exec c s = .next t) (ht : P t) : Gives c s P := ⟨t, h, ht⟩

theorem Gives.of_exec {t : State} (h : Gives c s P) (ht : exec c s = .next t) : P t := by
  obtain ⟨u, hu, hP⟩ := h
  rw [hu] at ht
  cases ht
  exact hP

/-- A register write is ignored or acts (R167). -/
theorem Gives.of_hostWrite {act : State → State} (h : exec c s = .next (hostWrite act s)) (ignored : P s)
    (acts : P (act s)) : Gives c s P := by
  refine .of_eq h ?_
  unfold hostWrite
  split
  · exact ignored
  · exact acts

/-- A command that works a slip finds none, or works the one in flight (R138). -/
theorem Gives.of_workOn {kind : Byte} {work : InFlight → State → State} (h : exec c s = .next (s.workOn kind work))
    (unchanged : P s) (worked : ∀ f, s.inFlight = some f → P (work f s)) : Gives c s P :=
  .of_eq h (State.workOn_induction unchanged worked)

end

/-! ### The trip in force -/

/-- `u` is the trip context `t` later in the same trip: only the current section, not before what it was, the declared
delay and the own inspection count may differ (R2, R6, R15). -/
structure TripContext.Advances (t u : TripContext) : Prop where
  current : t.current.toNat ≤ u.current.toNat
  rest : u = { t with current := u.current, delay := u.delay, ownCount := u.ownCount }

theorem TripContext.Advances.refl (t : TripContext) : t.Advances t := ⟨le_rfl, rfl⟩

/-- From `s` to `t` a trip that stays in force advances. -/
def TripAdvances (s t : State) : Prop :=
  s.trip.state = .inTrip → t.trip.state = .inTrip → s.trip.Advances t.trip

theorem TripAdvances.of_eq {s t : State} (h : t.trip = s.trip) : TripAdvances s t := fun _ _ => by
  rw [h]
  exact .refl _

theorem TripAdvances.of_noTrip {s t : State} (h : t.trip.state = .noTrip) : TripAdvances s t := fun _ ht => by
  rw [h] at ht
  cases ht

/-- In a trip a BEGIN is refused, so a TRIP slip leaves the context or ends the trip (R9, R13). -/
theorem State.workTrip_advances (failing : List Access) (wanted : Nat) (f : InFlight) (s : State) :
    TripAdvances s (s.workTrip failing wanted f) := by
  intro before after
  suffices same : (s.workTrip failing wanted f).trip = s.trip by rw [same]; exact .refl _
  revert after
  unfold State.workTrip State.workBegin State.workEnd State.refuseTrip State.endTrip
  have notOver : s.trip.state ≠ .noTrip := by rw [before]; decide
  rw [if_pos before, if_neg notOver]
  repeat' split
  all_goals simp [TripContext.none]

theorem readPositionRequest_section_lt {get : Nat → Option Byte} {q : PositionRequest}
    (h : readPositionRequest get = some q) : q.section_ < 256 := by
  simp only [readPositionRequest, Option.bind_eq_bind, Option.bind_eq_some_iff] at h
  obtain ⟨sec, hsec, _, _, _, _, e⟩ := h
  have same : q.section_ = sec := by
    split at e
    · obtain ⟨_, _, e⟩ := Option.bind_eq_some_iff.mp e
      cases e
      rfl
    · cases e
      rfl
  rw [same]
  exact readField_lt hsec

theorem State.applyPosition_trip (q : PositionRequest) (s : State) :
    (s.applyPosition q).trip = { s.trip with current := byteOf q.section_, delay := byteOf q.delay } := by
  unfold State.applyPosition
  split <;> simp [State.place]

theorem State.workPosition_advances (failing : List Access) (f : InFlight) (s : State) :
    TripAdvances s (s.workPosition failing f) := by
  unfold State.workPosition State.refusePosition
  split
  · exact .of_eq (by simp)
  split
  · exact .of_eq (by simp)
  next q hq =>
    split
    · exact .of_eq (by simp)
    next hc =>
      obtain ⟨-, -, forward⟩ := State.checkPosition_none hc
      intro _ _
      simp only [State.answer_frame, State.applyPosition_trip]
      exact ⟨by rw [byteOf_toNat (readPositionRequest_section_lt hq)]; exact forward, rfl⟩

theorem State.insertOwn_advances (o : OwnSighting) (s : State) : s.trip.Advances (s.insertOwn o).trip := by
  rw [State.insertOwn_trip]
  exact ⟨le_rfl, rfl⟩

theorem State.concludeInspect_advances (failing : List Access) (f : InFlight) (g : Findings) (s : State) :
    s.trip.Advances (s.concludeInspect failing f g).trip := by
  cases h : f.chain with
  | interactive =>
    rw [State.concludeInspect_interactive h]
    simp only [State.answer_frame]
    exact State.insertOwn_advances _ s
  | background =>
    rw [State.concludeInspect_background h]
    simp only [State.answer_frame]
    exact .refl _

theorem State.workInspect_advances (failing : List Access) (f : InFlight) (s : State) :
    TripAdvances s (s.workInspect failing f) := by
  unfold State.workInspect State.refuseInspect
  split
  · exact .of_eq (by simp)
  split
  · exact .of_eq (by simp)
  split
  · exact .of_eq (by simp)
  split
  · exact .of_eq (by simp)
  unfold State.evaluateInspect State.refuseInspect
  split
  · exact .of_eq (by simp)
  · exact .of_eq (by simp)
  · exact fun _ _ => State.concludeInspect_advances failing f _ { s with freeCount := s.freeCount + 1 }

/-! ### The relation -/

/-- The commands that complete an examination, ordinary or with accesses in error (R137, R145). -/
def Examines (c : Instr) : Prop :=
  c = .examination ∨ ∃ timeout failing, c = accessFailed timeout .examination failing

/-- What every command `c` keeps from `s` to `t`: the queue; a trip in force but for what may advance; no examination
begins but by ARBITER_CHOICE where a chain may be chosen, and no slip comes to be in flight but by an examination under
way (R144, R149). -/
structure Moves (c : Instr) (s t : State) : Prop where
  pending : t.pending = s.pending
  trip : TripAdvances s t
  examining : t.examining = s.examining ∨ t.examining = none ∨ (c = .arbiterChoice ∧ s.mayChoose = true)
  inFlight : s.inFlight = none → t.inFlight = none ∨ (Examines c ∧ s.examining ≠ none)

section
variable {c : Instr} {s t : State}

theorem Moves.of_keeps (h : t.pending = s.pending ∧ t.trip = s.trip ∧ t.inFlight = s.inFlight
    ∧ t.examining = s.examining) : Moves c s t := by
  obtain ⟨pending, trip, inFlight, examining⟩ := h
  exact ⟨pending, .of_eq trip, .inl examining, fun hf => .inl (inFlight.trans hf)⟩

theorem Moves.refl (c : Instr) (s : State) : Moves c s s := .of_keeps ⟨rfl, rfl, rfl, rfl⟩

theorem Moves.of_reset (pending : t.pending = s.pending) (trip : t.trip = .none) (examining : t.examining = none)
    (inFlight : t.inFlight = none) : Moves c s t :=
  ⟨pending, .of_noTrip (by rw [trip]; rfl), .inr (.inl examining), fun _ => .inl inFlight⟩

/-- The work on the slip in flight: none comes to be in flight, since one is. -/
theorem Moves.of_work {f : InFlight} (hf : s.inFlight = some f) (pending : t.pending = s.pending)
    (trip : TripAdvances s t) (examining : t.examining = s.examining) : Moves c s t :=
  ⟨pending, trip, .inl examining, fun h => by rw [hf] at h; cases h⟩

theorem Moves.restart (failing : List Access) (n : BitVec 2) : Moves c s (s.onNudge n (State.restart failing)) := by
  unfold State.onNudge State.restart
  repeat' split
  all_goals exact .of_keeps (by simp)

theorem Moves.nudge (n : BitVec 2) : Moves c s (s.onNudge n (fun c s => s.setChain c (s.chain c).nudged)) := by
  unfold State.onNudge
  repeat' split
  all_goals exact .of_keeps (by simp)

theorem Moves.followUp (failing : List Access) (b : Bool) : Moves c s (s.followUp failing b) := by
  obtain ⟨pending, trip⟩ := State.followUp_keeps failing b s
  unfold State.followUp at *
  split
  · exact .refl c s
  next f hf => exact .of_work hf (by simpa [hf] using pending) (.of_eq (by simpa [hf] using trip)) (by
      dsimp only
      repeat' split
      all_goals simp)

theorem Moves.tailReread (failing : List Access) (d : Chain) : Moves c s (s.tailReread failing d) := by
  unfold State.tailReread
  dsimp only
  split
  · exact .of_keeps (by simp)
  · exact .refl c s

theorem Moves.examine (hc : Examines c) (failing : List Access) : Moves c s (s.examine failing) := by
  obtain ⟨pending, trip⟩ := State.examine_keeps failing s
  refine ⟨pending, .of_eq trip, ?examining, ?inFlight⟩
  case examining =>
    unfold State.examine State.dispatch
    have parks := fun d u => (State.parkOnStage_keeps failing d u).2.2.2
    dsimp only
    repeat' split
    all_goals simp [parks]
  case inFlight =>
    intro _
    cases he : s.examining with
    | none => exact .inl (by simpa [State.examine, he])
    | some d => exact .inr ⟨hc, by simp⟩

theorem Moves.workTrip {f : InFlight} (hf : s.inFlight = some f) (failing : List Access) (wanted : Nat) :
    Moves c s (s.workTrip failing wanted f) :=
  .of_work hf (State.workTrip_pending ..) (State.workTrip_advances failing wanted f s) (State.workTrip_examining ..)

theorem Moves.workPosition {f : InFlight} (hf : s.inFlight = some f) (failing : List Access) :
    Moves c s (s.workPosition failing f) :=
  .of_work hf (State.workPosition_pending ..) (State.workPosition_advances failing f s)
    (State.workPosition_examining ..)

theorem Moves.workInspect {f : InFlight} (hf : s.inFlight = some f) (failing : List Access) :
    Moves c s (s.workInspect failing f) :=
  .of_work hf (State.workInspect_pending ..) (State.workInspect_advances failing f s) (State.workInspect_examining ..)

theorem Moves.workInspectOn {f : InFlight} (hf : s.inFlight = some f) (d : Chain) :
    Moves c s (s.workInspectOn d f) := by
  unfold State.workInspectOn
  split
  · exact .workInspect hf []
  · exact .refl c s

theorem Moves.workAmend {f : InFlight} (hf : s.inFlight = some f) (failing : List Access) :
    Moves c s (s.workAmend failing f) :=
  .of_work hf (State.workAmend_keeps ..).1 (.of_eq (State.workAmend_keeps ..).2) (State.workAmend_examining ..)

theorem Moves.workMerge {f : InFlight} (hf : s.inFlight = some f) (failing : List Access) :
    Moves c s (s.workMerge failing f) :=
  .of_work hf (State.workMerge_keeps ..).1 (.of_eq (State.workMerge_keeps ..).2) (State.workMerge_examining ..)

theorem Moves.workRecall {f : InFlight} (hf : s.inFlight = some f) (failing : List Access) :
    Moves c s (s.workRecall failing f) :=
  .of_work hf (State.workRecall_keeps ..).1 (.of_eq (State.workRecall_keeps ..).2) (State.workRecall_examining ..)

theorem Moves.workFailing (failing : List Access) : Moves c s (s.workFailing failing) := by
  unfold State.workFailing
  split
  · exact .refl c s
  next f hf =>
    split
    · unfold State.workSlip
      split_ifs
      · exact .workTrip hf failing _
      · exact .workPosition hf failing
      · exact .workInspect hf failing
      · exact .workAmend hf failing
      · exact .workMerge hf failing
      · exact .workRecall hf failing
      · exact .refl c s
    · exact .refl c s

theorem Moves.resetTo (a : Word) : Moves c s (s.resetTo a) := .of_reset rfl rfl rfl rfl

theorem Moves.of_port (h : t = { s with
    anchor := t.anchor, holdReq := t.holdReq, restPending := t.restPending, events := t.events, enable := t.enable,
    faultRecord := t.faultRecord, faultMore := t.faultMore, readData := t.readData, resetHeld := t.resetHeld,
    part := t.part, tables := t.tables, clock := t.clock, journal := t.journal }) : Moves c s t := by
  rw [h]
  exact .of_keeps ⟨rfl, rfl, rfl, rfl⟩

end

/-- An activity with accesses in error (R156); only an examination may put a slip in flight. -/
theorem Moves.activity {c : Instr} {s : State} {a : Activity} (failing : List Access)
    (hc : a = .examination → Examines c) : Moves c s (s.activity a failing) := by
  cases a with
  | anchorRead => exact .of_keeps (State.anchorRead_keeps failing s)
  | walk => exact .of_keeps (State.walk_keeps failing s)
  | examination => exact .examine (hc rfl) failing
  | work => exact .workFailing failing
  | followUp b => exact .followUp failing b
  | tailReread d => exact .tailReread failing d
  | restartHead d =>
    show Moves c s (hostWrite _ s)
    unfold hostWrite
    split
    · exact .refl c s
    · exact .restart failing _

theorem exec_moves (c : Instr) (s : State) : Gives c s (Moves c s) := by
  have control : ∀ a b d e, Moves c s (s.writeControl a b d e) := fun a b d e =>
    .of_keeps (State.writeControl_keeps a b d e s)
  have same := Moves.refl c s
  cases c with
  | start r w h => exact .of_hostWrite (exec_start s r w h) same (control ..)
  | controlReset o => exact .of_hostWrite (exec_controlReset s o) same (.resetTo _)
  | restReq h => exact .of_hostWrite (exec_restReq s h) same (control ..)
  | wake r h => exact .of_hostWrite (exec_wake s r h) same (control ..)
  | holdReqSet => exact .of_hostWrite (exec_holdReqSet s) same (control ..)
  | holdReqClear => exact .of_hostWrite (exec_holdReqClear s) same (control ..)
  | anchorWrite v =>
    refine .of_hostWrite (exec_anchorWrite s v) same ?_
    split
    · exact .of_port rfl
    · exact same
  | nudge n => exact .of_hostWrite (exec_nudge s n) same (.nudge n)
  | nudgeRestart n => exact .of_hostWrite (exec_nudgeRestart s n) same (.restart [] n)
  | eventsClear v => exact .of_hostWrite (exec_eventsClear s v) same (.of_port rfl)
  | enableWrite v => exact .of_hostWrite (exec_enableWrite s v) same (.of_port rfl)
  | faultRead => exact .of_eq (exec_faultRead s) (.of_port rfl)
  | registerWriteIgnored r v => exact .of_eq (exec_registerWriteIgnored s r v) same
  | resetPin => exact .of_eq (exec_resetPin s) (.of_reset rfl rfl rfl rfl)
  | powerOn => exact .of_eq (exec_powerOn s) (.resetTo _)
  | minuteTick =>
    refine .of_eq (exec_minuteTick s) ?_
    split
    · exact .of_port rfl
    · exact same
  | windowMinutesExpiry => exact .of_eq (exec_windowMinutesExpiry s) (.of_port rfl)
  | windowCountExpiry => exact .of_eq (exec_windowCountExpiry s) (.of_port rfl)
  | accessTimeout a failing =>
    exact .of_eq (exec_accessTimeout s a failing) (.activity failing fun ha => .inr ⟨true, failing, by rw [ha]; rfl⟩)
  | anchorCheck => exact .of_eq (exec_anchorCheck s) (.of_keeps (State.anchorRead_keeps [] s))
  | validationWalk => exact .of_eq (exec_validationWalk s) (.of_keeps (State.walk_keeps [] s))
  | arbiterChoice =>
    refine .of_eq (exec_arbiterChoice s) ?_
    split
    next hm => exact ⟨rfl, .of_eq rfl, .inr (.inr ⟨rfl, hm⟩), .inl⟩
    next => exact same
  | examination => exact .of_eq (exec_examination s) (.examine (.inl rfl) [])
  | tripBegin => exact .of_workOn (exec_tripBegin s) same fun f hf => .workTrip hf [] formBegin
  | tripEnd => exact .of_workOn (exec_tripEnd s) same fun f hf => .workTrip hf [] formEnd
  | position => exact .of_workOn (exec_position s) same fun f hf => .workPosition hf []
  | inspect => exact .of_workOn (exec_inspect s) same fun f hf => .workInspectOn hf .interactive
  | probe => exact .of_workOn (exec_probe s) same fun f hf => .workInspectOn hf .background
  | amend => exact .of_workOn (exec_amend s) same fun f hf => .workAmend hf []
  | merge => exact .of_workOn (exec_merge s) same fun f hf => .workMerge hf []
  | recallEntries => exact .of_workOn (exec_recallEntries s) same fun f hf => .workRecall hf []
  | followUp b => exact .of_eq (exec_followUp s b) (.followUp [] b)
  | holdGrant =>
    refine .of_eq (exec_holdGrant s) ?_
    unfold State.grantIfFree
    split
    · exact .of_port rfl
    · exact same
  | restGiven =>
    refine .of_eq (exec_restGiven s) ?_
    split
    · exact .of_port rfl
    · exact same
  | tailLinkReread d => exact .of_eq (exec_tailLinkReread s d) (.tailReread [] d)
  | accessErrorResponse a failing =>
    exact .of_eq (exec_accessErrorResponse s a failing)
      (.activity failing fun ha => .inr ⟨false, failing, by rw [ha]; rfl⟩)
  | lateResponse => exact .of_eq (exec_lateResponse s) same
  | resetPinRelease => exact .of_eq (exec_resetPinRelease s) (.of_port rfl)

/-- Settles O2: every command answers, and the relation keeps the queue. -/
theorem everyCommandAnswersNext : Obligations.EveryCommandAnswersNext := fun c s => by
  obtain ⟨t, ht, moves⟩ := exec_moves c s
  exact ⟨t, ht, moves.pending⟩

end Sys2Proof.Machine
end

section
/-!
PROOFS. The invariant: it holds after power-on and every command keeps it, and what it says of the journal, of the trip
and of the slips taken.
-/
namespace Sys2Proof.Machine

/-- Settles O3: each part of the invariant after a reset. -/
theorem resetStateSatisfiesInvariant : Obligations.ResetStateSatisfiesInvariant :=
  ⟨Memory.wf_reset, .reset, .reset, .reset, .empty _⟩

/-! ### The commands of the Link Port and of time -/

/-- The invariant speaks of none of the pin level, EVENTS, ENABLE, what FAULT last returned and the queue; the FAULT
record may be emptied. -/
theorem Inv.of_registers {s t : State} (h : Inv s) (frame : t = { s with
      events := t.events, enable := t.enable, faultRecord := t.faultRecord, faultMore := t.faultMore,
      readData := t.readData, resetHeld := t.resetHeld, pending := t.pending })
    (fault : t.FaultOk) : Inv t := by
  have eq : ∀ {α : Type} (g : State → α), g t = g { s with
      events := t.events, enable := t.enable, faultRecord := t.faultRecord, faultMore := t.faultMore,
      readData := t.readData, resetHeld := t.resetHeld, pending := t.pending } := fun g => congrArg g frame
  have part := eq State.part
  refine h.of_parts ?memory ?port ?scheduler (State.awake_of_part part) (eq State.trip) (eq State.clock)
    (eq State.clockRunning) (eq State.journal)
  case memory =>
    rw [eq State.mem]
    exact h.memory
  case port =>
    exact h.port.of_same part (eq State.anchor) (eq State.windows) (eq State.phaseTable) (eq State.restPending)
      (eq State.holdReq) (eq State.snapshot) (.inl (eq State.tables)) fault
  case scheduler =>
    exact h.scheduler.of_same part (eq State.windows) (eq State.interactive) (eq State.background)
      (eq State.inFlight) (eq State.examining) (.inl (eq State.tables))

theorem Inv.setPending {s : State} (h : Inv s) (queue : List Instr) : Inv { s with pending := queue } :=
  h.of_registers rfl h.port.fault

theorem Inv.setAnchor {s : State} (h : Inv s) (v : Word) : Inv { s with anchor := anchorOf v } := by
  have hp := h.port
  exact h.of_parts h.memory
    ⟨anchorOf_aligned v, hp.windows, hp.legal, hp.phaseTable, hp.restPending, hp.tables, hp.held, hp.snapshot, hp.fault⟩
    (h.scheduler.of_same rfl rfl rfl rfl rfl rfl (.inl rfl)) id rfl rfl rfl rfl

theorem Inv.setResetHeld {s : State} (h : Inv s) (held : Bool) : Inv { s with resetHeld := held } :=
  h.of_registers rfl h.port.fault

/-- The clock runs while a trip is in force alone, so a tick finds a legal journal of that trip (R19, R122). -/
theorem Inv.tick {s : State} (h : Inv s) (hr : s.clockRunning = true) :
    Inv ({ s with clock := saturate s.clock }.mapEntries Entry.tick) := by
  have hin : s.trip.state = .inTrip := by
    have running := h.trip.clock
    rw [hr] at running
    exact of_decide_eq_true running.symm
  exact h.of_work rfl (h.trip.of_inTrip hin rfl rfl rfl) h.journal.tick

/-- A closing that spares the open window changes nothing. -/
theorem Entry.filterWindow_eq {e : Entry} {p : Window → Bool} (h : ∀ w, e.window = some w → p w = true) :
    { e with window := e.window.filter p } = e := by
  have spared : e.window.filter p = e.window := by
    cases hw : e.window with
    | none => rfl
    | some w => rw [Option.filter_some, if_pos (h w hw)]
  rw [spared]

/-- An open window of a legal entry has minutes and a count left, so that an expiry finds nothing to close. -/
theorem Entry.Legal.closeAtMinutes_eq {t : TripContext} {e : Entry} (h : e.Legal t) : e.closeAtMinutes = e := by
  refine Entry.filterWindow_eq fun w hw => decide_eq_true fun hz => ?_
  obtain ⟨-, -, -, left, -⟩ := h.window w hw
  rw [hz] at left
  exact absurd left (by decide)

theorem Entry.Legal.closeAtCount_eq {t : TripContext} {e : Entry} (h : e.Legal t) : e.closeAtCount = e := by
  refine Entry.filterWindow_eq fun w hw => decide_eq_true fun hz => ?_
  obtain ⟨-, left, -⟩ := h.window w hw
  rw [hz] at left
  exact absurd left (by decide)

theorem State.mapEntries_eq_self {s : State} {f : Entry → Entry} (h : ∀ e ∈ s.journal.entries, f e = e) :
    s.mapEntries f = s := by
  have same : s.journal.entries.map f = s.journal.entries :=
    (List.map_congr_left (g := id) h).trans (List.map_id _)
  simp only [State.mapEntries, same]

theorem Inv.closeAtMinutes_eq {s : State} (h : Inv s) : s.mapEntries Entry.closeAtMinutes = s :=
  State.mapEntries_eq_self fun e he => (h.journal.entries e he).closeAtMinutes_eq

theorem Inv.closeAtCount_eq {s : State} (h : Inv s) : s.mapEntries Entry.closeAtCount = s :=
  State.mapEntries_eq_self fun e he => (h.journal.entries e he).closeAtCount_eq

theorem Inv.grantIfFree {s : State} (h : Inv s) : Inv s.grantIfFree := by
  refine h.of_parts ?memory h.port.grantIfFree h.scheduler.grantIfFree ?awake ?_ ?_ ?_ ?_
  case memory => unfold State.grantIfFree; split <;> exact h.memory
  case awake => unfold State.grantIfFree; split <;> exact id
  all_goals
    unfold State.grantIfFree
    split <;> rfl

theorem Inv.rest {s : State} (h : Inv s) (hr : s.part = .running) (hm : s.mayRest = true) : Inv s.rest :=
  h.of_parts h.memory (h.port.rest hr) (h.scheduler.rest hm) (fun _ => rfl) rfl rfl rfl rfl

theorem Inv.choose {s : State} (h : Inv s) (hm : s.mayChoose = true) : Inv { s with examining := s.choice } :=
  h.of_parts h.memory (h.port.of_rest rfl rfl rfl rfl rfl rfl rfl rfl rfl rfl) (h.scheduler.choose hm) id rfl rfl
    rfl rfl

/-! ### Every command -/

theorem Inv.workInspectOn {s : State} (h : Inv s) (c : Chain) {f : InFlight} (hf : s.inFlight = some f) :
    Inv (s.workInspectOn c f) := by
  unfold State.workInspectOn
  split
  · exact h.workInspect [] hf
  · exact h

theorem Inv.nudge {s : State} (h : Inv s) (n : BitVec 2) :
    Inv (s.onNudge n (fun c s => s.setChain c (s.chain c).nudged)) :=
  h.onNudge n fun _ c ht ha => ht.nudged ha c

theorem Inv.nudgeRestart {s : State} (h : Inv s) (failing : List Access) (n : BitVec 2) :
    Inv (s.onNudge n (State.restart failing)) :=
  h.onNudge n fun _ c ht ha => ht.restart ha failing c

theorem Inv.activity {s : State} (h : Inv s) (a : Activity) (failing : List Access) : Inv (s.activity a failing) := by
  cases a with
  | anchorRead => exact h.anchorRead failing
  | walk => exact h.walk failing
  | examination => exact h.examine failing
  | work => exact h.workFailing failing
  | followUp b => exact h.followUp failing b
  | tailReread c => exact h.tailReread failing c
  | restartHead c =>
    show Inv (hostWrite _ s)
    unfold hostWrite
    split
    · exact h
    · exact h.nudgeRestart failing _

theorem exec_keeps_inv {s : State} (h : Inv s) (c : Instr) : Gives c s Inv := by
  cases c with
  | start r w d => exact .of_hostWrite (exec_start s r w d) h (h.writeControl ..)
  | controlReset o => exact .of_hostWrite (exec_controlReset s o) h (h.resetTo h.port.anchor)
  | restReq d => exact .of_hostWrite (exec_restReq s d) h (h.writeControl ..)
  | wake r d => exact .of_hostWrite (exec_wake s r d) h (h.writeControl ..)
  | holdReqSet => exact .of_hostWrite (exec_holdReqSet s) h (h.writeControl ..)
  | holdReqClear => exact .of_hostWrite (exec_holdReqClear s) h (h.writeControl ..)
  | anchorWrite v =>
    refine .of_hostWrite (exec_anchorWrite s v) h ?_
    split
    · exact h.setAnchor v
    · exact h
  | nudge n => exact .of_hostWrite (exec_nudge s n) h (h.nudge n)
  | nudgeRestart n => exact .of_hostWrite (exec_nudgeRestart s n) h (h.nudgeRestart [] n)
  | eventsClear v => exact .of_hostWrite (exec_eventsClear s v) h (h.of_registers rfl h.port.fault)
  | enableWrite v => exact .of_hostWrite (exec_enableWrite s v) h (h.of_registers rfl h.port.fault)
  | faultRead => exact .of_eq (exec_faultRead s) (h.of_registers rfl fun _ => rfl)
  | registerWriteIgnored r v => exact .of_eq (exec_registerWriteIgnored s r v) h
  | resetPin => exact .of_eq (exec_resetPin s) ((h.resetTo rfl).setResetHeld true)
  | powerOn => exact .of_eq (exec_powerOn s) (h.resetTo rfl)
  | minuteTick =>
    refine .of_eq (exec_minuteTick s) ?_
    split
    next hr => exact h.tick hr
    next => exact h
  | windowMinutesExpiry => exact .of_eq (exec_windowMinutesExpiry s) (by rwa [h.closeAtMinutes_eq])
  | windowCountExpiry => exact .of_eq (exec_windowCountExpiry s) (by rwa [h.closeAtCount_eq])
  | accessTimeout a failing => exact .of_eq (exec_accessTimeout s a failing) (h.activity a failing)
  | anchorCheck => exact .of_eq (exec_anchorCheck s) (h.anchorRead [])
  | validationWalk => exact .of_eq (exec_validationWalk s) (h.walk [])
  | arbiterChoice =>
    refine .of_eq (exec_arbiterChoice s) ?_
    split
    next hm => exact h.choose hm
    next => exact h
  | examination => exact .of_eq (exec_examination s) (h.examine [])
  | tripBegin => exact .of_workOn (exec_tripBegin s) h fun f hf => h.workTrip [] formBegin hf
  | tripEnd => exact .of_workOn (exec_tripEnd s) h fun f hf => h.workTrip [] formEnd hf
  | position => exact .of_workOn (exec_position s) h fun f hf => h.workPosition [] hf
  | inspect => exact .of_workOn (exec_inspect s) h fun f hf => h.workInspectOn .interactive hf
  | probe => exact .of_workOn (exec_probe s) h fun f hf => h.workInspectOn .background hf
  | amend => exact .of_workOn (exec_amend s) h fun f hf => h.workAmend [] hf
  | merge => exact .of_workOn (exec_merge s) h fun f hf => h.workMerge [] hf
  | recallEntries => exact .of_workOn (exec_recallEntries s) h fun f hf => h.workRecall [] hf
  | followUp b => exact .of_eq (exec_followUp s b) (h.followUp [] b)
  | holdGrant => exact .of_eq (exec_holdGrant s) h.grantIfFree
  | restGiven =>
    refine .of_eq (exec_restGiven s) ?_
    split
    next hm =>
      simp only [Bool.and_eq_true, decide_eq_true_eq] at hm
      exact h.rest hm.1.2 hm.2
    next => exact h
  | tailLinkReread c => exact .of_eq (exec_tailLinkReread s c) (h.tailReread [] c)
  | accessErrorResponse a failing => exact .of_eq (exec_accessErrorResponse s a failing) (h.activity a failing)
  | lateResponse => exact .of_eq (exec_lateResponse s) h
  | resetPinRelease => exact .of_eq (exec_resetPinRelease s) (h.setResetHeld false)

/-- Settles O4: a step runs a command from the state without it in its queue, of which the invariant does not speak, or
idles. -/
theorem everyStepKeepsInvariant : Obligations.EveryStepKeepsInvariant := by
  intro s t h ht
  cases hq : s.pending with
  | nil =>
    rw [step_of_pending_nil hq] at ht
    cases ht
    exact h
  | cons c rest =>
    rw [step_of_pending_cons hq] at ht
    exact (exec_keeps_inv (h.setPending rest) c).of_exec ht

/-! ### What the invariant says -/

/-- Settles O6: a trip in force advances, and the invariant after the command bounds the section. -/
theorem currentSectionNeverDecreases : Obligations.CurrentSectionNeverDecreases := by
  intro c s t h ht before after
  obtain ⟨forward, rest⟩ := ((exec_moves c s).of_exec ht).trip before after
  have legal := ((exec_keeps_inv h c).of_exec ht).trip.legal after
  exact ⟨forward, legal.current, rest⟩

/-- A peer entry has no window, so an entry with one is an own entry. -/
theorem Entry.Legal.own_of_window {t : TripContext} {e : Entry} (h : e.Legal t) (hw : e.window.isSome = true) :
    e.originId = t.ownId ∧ e.outcome = .none := by
  obtain ⟨w, hw⟩ := Option.isSome_iff_exists.mp hw
  refine ⟨?own, (h.window w hw).1⟩
  case own =>
    by_contra peer
    obtain ⟨-, -, -, closed⟩ := h.peer peer
    rw [hw] at closed
    cases closed

/-- Outside a trip the journal is empty; in a trip the reach is at most 8. -/
theorem Inv.open_le_eight {s : State} (h : Inv s) :
    (s.journal.entries.filter (fun e => e.window.isSome)).length ≤ 8 := by
  by_cases hin : s.trip.state = .inTrip
  case pos => exact h.journal.open_le_eight (h.trip.legal hin).reachCount.2
  case neg =>
    obtain ⟨-, -, emptied⟩ := h.trip.noTrip (TripState.ne_inTrip hin)
    simp [emptied, Journal.empty]

/-- Settles O5: the windows by the rising counts, the entries by what R104 allows, the pairs by the numbering. -/
theorem journalPairsAndWindows : Obligations.JournalPairsAndWindows := fun _ h =>
  ⟨h.open_le_eight, fun e he hw => (h.journal.entries e he).own_of_window hw, h.journal.pairs_nodup⟩

theorem State.mayChoose_iff (s : State) : s.mayChoose = true ↔ s.inFlight = none ∧ s.examining = none
    ∧ s.part = .running ∧ (s.tables = .usable ∨ s.tables = .unusable) ∧ s.holdReq = false ∧ s.restPending = false := by
  simp [State.mayChoose, State.free, and_assoc]

/-- Settles O28: the relation of every command says which begins an examination and which puts a slip in flight; the
conditions are the arbiter's, and the invariant's for a chain under examination. -/
theorem slipsAreTakenByExaminationAlone : Obligations.SlipsAreTakenByExaminationAlone := by
  intro c s t h ht
  have moves := (exec_moves c s).of_exec ht
  refine ⟨?begins, ?takes⟩
  case begins =>
    intro d hd new
    rcases moves.examining with same | ended | ⟨hc, hm⟩
    · exact absurd (same ▸ hd) new
    · rw [ended] at hd
      cases hd
    · obtain ⟨free, -, running, -, hold, rest⟩ := s.mayChoose_iff.mp hm
      exact ⟨hc, running, free, hold, rest⟩
  case takes =>
    intro free taken
    rcases moves.inFlight free with still | ⟨hc, he⟩
    · exact absurd still taken
    · obtain ⟨d, hd⟩ := Option.ne_none_iff_exists'.mp he
      obtain ⟨-, -, running, usable⟩ := h.scheduler.examining d hd
      exact ⟨hc, he, running, usable⟩

end Sys2Proof.Machine
end

section
/-!
PROOFS. The Link Port (10_table_hold_and_revalidation.md, 11_link_port_registers_and_power.md): resets, CONTROL writes,
hold and rest.
-/
namespace Sys2Proof.Machine

/-! ### Resets -/

/-- Settles O7: the reset state is written out field by field. -/
theorem powerOnValuesAreTheManuals : Obligations.PowerOnValuesAreTheManuals := by
  have chains : ∀ c, State.reset.chain c = .reset := fun c => by cases c <;> rfl
  exact ⟨rfl, rfl, rfl, rfl, rfl, rfl, rfl, by decide, rfl, rfl, chains, rfl, rfl, rfl, rfl, by decide, rfl, rfl, rfl,
    rfl, rfl⟩

/-- Settles O8: the three resets are one operation, which takes what ANCHOR is to hold. -/
theorem resetsGiveResetValues : Obligations.ResetsGiveResetValues := by
  intro s
  refine ⟨exec_powerOn s, exec_resetPin s, exec_resetPinRelease s, fun others released => ?_⟩
  rw [exec_controlReset, hostWrite_acts released, State.resetTo, released]

/-! ### Writes while the pin is held -/

/-- Settles O17. -/
theorem ignoredAccessesChangeNothing : Obligations.IgnoredAccessesChangeNothing := by
  refine ⟨fun s r v => ⟨exec_registerWriteIgnored s r v, exec_lateResponse s⟩, fun s held => ?_⟩
  have ignored : ∀ act, (.next (hostWrite act s) : Answer) = .next s := fun act =>
    congrArg Host.Outcome.next (hostWrite_held held)
  exact ⟨fun a b d => (exec_start s a b d).trans (ignored _), fun o => (exec_controlReset s o).trans (ignored _),
    fun a => (exec_restReq s a).trans (ignored _), fun a b => (exec_wake s a b).trans (ignored _),
    (exec_holdReqSet s).trans (ignored _), (exec_holdReqClear s).trans (ignored _),
    fun v => (exec_anchorWrite s v).trans (ignored _), fun n => (exec_nudge s n).trans (ignored _),
    fun n => (exec_nudgeRestart s n).trans (ignored _), fun v => (exec_eventsClear s v).trans (ignored _),
    fun v => (exec_enableWrite s v).trans (ignored _)⟩

/-! ### ANCHOR -/

theorem baseOf_eq_mul (v : Nat) : baseOf v = v / 4096 * 4096 := by
  unfold baseOf
  omega

theorem limitOf_eq_mul (v : Nat) : limitOf v = v / 4096 * 4096 + 4095 := by
  unfold limitOf
  omega

/-- Settles O13. -/
theorem anchorWriteActsInIdleAlone : Obligations.AnchorWriteActsInIdleAlone := by
  intro s v released
  rw [exec_anchorWrite, hostWrite_acts released]
  refine ⟨fun idle => ?_, fun other => ?_⟩
  · rw [if_pos idle, anchorOf, baseOf_eq_mul]
  · rw [if_neg other]

/-! ### The hold level -/

theorem State.mayGrant_iff (s : State) : s.mayGrant = true ↔ s.holdReq = true ∧ s.awake = true ∧ s.tables ≠ .held
    ∧ s.inFlight = none ∧ s.examining = none := by
  simp [State.mayGrant, State.granted, State.free, and_assoc]

theorem State.grantIfFree_of_mayGrant {s : State} (h : s.mayGrant = true) :
    s.grantIfFree = { s with tables := .held, events := s.events ||| Event.holdGrant.mask } := if_pos h

theorem State.grantIfFree_of_not {s : State} (h : ¬ s.mayGrant = true) : s.grantIfFree = s := if_neg h

theorem State.grantIfFree_holdReq (s : State) : s.grantIfFree.holdReq = s.holdReq := by
  unfold State.grantIfFree
  split <;> rfl

theorem State.setHoldLevel_holdReq (s : State) (level : Bool) : (s.setHoldLevel level).holdReq = level := by
  cases level with
  | false => rfl
  | true => exact State.grantIfFree_holdReq _

/-- Withdrawing where nothing is granted cancels the request (R154). -/
theorem State.setHoldLevel_clear {s : State} (h : s.tables ≠ .held) :
    s.setHoldLevel false = { s with holdReq := false } := by
  simp only [State.setHoldLevel, Bool.false_eq_true, if_false, if_neg h]

theorem State.setHoldLevel_withdraw {s : State} (h : s.tables = .held) :
    s.setHoldLevel false = { s with holdReq := false, tables := .checking } := by
  simp only [State.setHoldLevel, Bool.false_eq_true, if_false, if_pos h]

/-- In a part that is not awake the level is all that a write changes. -/
theorem Inv.setHoldLevel_idle {s : State} (h : Inv s) (idle : s.part = .idle) (level : Bool) :
    s.setHoldLevel level = { s with holdReq := level } := by
  have asleep : s.awake = false := by simp [State.awake, idle]
  cases level with
  | false =>
    refine State.setHoldLevel_clear fun held => ?_
    have awake := h.port.tables (by rw [held]; decide)
    rw [asleep] at awake
    cases awake
  | true =>
    refine State.grantIfFree_of_not fun hm => ?_
    have awake : s.awake = true := (State.mayGrant_iff _).mp hm |>.2.1
    rw [asleep] at awake
    cases awake

/-! ### CONTROL writes -/

section
variable {s : State} {level : Bool}

/-- A CONTROL write without an action takes the level alone (R161). -/
theorem State.writeControl_level : s.writeControl false false false level = s.setHoldLevel level := by
  simp [State.writeControl]

theorem State.writeControl_start (idle : s.part = .idle) (r w : Bool) :
    s.writeControl true r w level = { s.setHoldLevel level with part := .starting } := by
  simp [State.writeControl, State.setHoldLevel_part, idle]

/-- In any other part state START does not act (R161). -/
theorem State.writeControl_start_ignored (other : s.part ≠ .idle) (r w : Bool) :
    s.writeControl true r w level = s.writeControl false r w level := by
  simp [State.writeControl, State.setHoldLevel_part, other]

/-- WAKE prevails over REST_REQ (R161). -/
theorem State.writeControl_wake (other : s.part ≠ .idle) (r : Bool) :
    s.writeControl false r true level = (s.setHoldLevel level).wakeUp := by
  simp [State.writeControl, State.setHoldLevel_part, other]

theorem State.writeControl_restReq (other : s.part ≠ .idle) :
    s.writeControl false true false level = (s.setHoldLevel level).requestRest := by
  simp [State.writeControl, State.setHoldLevel_part, other]

theorem State.writeControl_idle (idle : s.part = .idle) (r w : Bool) :
    s.writeControl false r w level = s.setHoldLevel level := by
  simp [State.writeControl, State.setHoldLevel_part, idle]

theorem State.requestRest_holdReq : s.requestRest.holdReq = s.holdReq := by
  unfold State.requestRest
  split_ifs <;> rfl

theorem State.wakeUp_holdReq : s.wakeUp.holdReq = s.holdReq := by
  unfold State.wakeUp
  split_ifs <;> rfl

end

/-- R150: every CONTROL write sets the level from its bit. -/
theorem State.writeControl_holdReq (start r w level : Bool) (s : State) :
    (s.writeControl start r w level).holdReq = level := by
  have taken := s.setHoldLevel_holdReq level
  by_cases idle : s.part = .idle
  · cases start with
    | true => rwa [State.writeControl_start idle]
    | false => rwa [State.writeControl_idle idle]
  · have same : s.writeControl start r w level = s.writeControl false r w level := by
      cases start with
      | true => exact State.writeControl_start_ignored idle r w
      | false => rfl
    rw [same]
    cases w with
    | true => rwa [State.writeControl_wake idle, State.wakeUp_holdReq]
    | false =>
      cases r with
      | true => rwa [State.writeControl_restReq idle, State.requestRest_holdReq]
      | false => rwa [State.writeControl_level]

/-- Settles O9: in IDLE the level is all that the write takes before START; elsewhere START does not act, so that the
write is the one that its other bits name. -/
theorem startMovesIdleToStarting : Obligations.StartMovesIdleToStarting := by
  intro s r w level h released
  refine ⟨fun idle => ?_, fun other => ?_⟩
  · rw [exec_start, hostWrite_acts released, State.writeControl_start idle, h.setHoldLevel_idle idle]
  · have without : ∀ a b d, hostWrite (State.writeControl true a b d) s = s.writeControl false a b d := fun a b d => by
      rw [hostWrite_acts released, State.writeControl_start_ignored other]
    refine ⟨?_, ?_, ?_, ?_⟩
    · rw [exec_start, without, exec_holdReqSet, hostWrite_acts released]
    · rw [exec_start, without, exec_holdReqClear, hostWrite_acts released]
    · rw [exec_start, without, exec_restReq, hostWrite_acts released]
    · rw [exec_start, without, exec_wake, hostWrite_acts released]

/-- Settles O10: a level set is granted when the grant's conditions hold of the state with the level set. -/
theorem holdRequestActs : Obligations.HoldRequestActs := by
  refine ⟨fun s released => ?level, fun s => ?grant⟩
  case level =>
    have set : exec .holdReqSet s = .next { s with holdReq := true }.grantIfFree := by
      rw [exec_holdReqSet, hostWrite_acts released, State.writeControl_level]
      rfl
    have clear : exec .holdReqClear s = .next (s.setHoldLevel false) := by
      rw [exec_holdReqClear, hostWrite_acts released, State.writeControl_level]
    have due := State.mayGrant_iff { s with holdReq := true }
    refine ⟨fun awake free flight examining => ?_, fun waits => ?_, fun held => ?_, fun free => ?_, fun r w level => ?_⟩
    · rw [set, State.grantIfFree_of_mayGrant (due.mpr ⟨rfl, awake, free, flight, examining⟩)]
    · rw [set, State.grantIfFree_of_not fun hm => waits (due.mp hm).2]
    · rw [clear, State.setHoldLevel_withdraw held]
    · rw [clear, State.setHoldLevel_clear free]
    · have written : ∀ a b d, (hostWrite (State.writeControl a b d level) s).holdReq = level := fun a b d => by
        rw [hostWrite_acts released, State.writeControl_holdReq]
      exact ⟨⟨_, exec_restReq s level, written ..⟩, ⟨_, exec_wake s r level, written ..⟩,
        ⟨_, exec_start s r w level, written ..⟩⟩
  case grant =>
    rw [exec_holdGrant]
    refine ⟨fun hold awake free flight examining => ?_, fun notDue => ?_⟩
    · rw [State.grantIfFree_of_mayGrant (s.mayGrant_iff.mpr ⟨hold, awake, free, flight, examining⟩)]
    · rw [State.grantIfFree_of_not (mt s.mayGrant_iff.mp notDue)]

/-! ### Rest -/

theorem State.mayRest_iff (s : State) :
    s.mayRest = true ↔ s.inFlight = none ∧ s.examining = none ∧ s.tables ≠ .checking := by
  simp [State.mayRest, State.free, and_assoc]

section
variable {s : State}

theorem State.requestRest_given (running : s.part = .running) (hm : s.mayRest = true) : s.requestRest = s.rest := by
  simp [State.requestRest, running, hm]

theorem State.requestRest_pending (running : s.part = .running) (hm : ¬ s.mayRest = true) :
    s.requestRest = { s with restPending := true } := by
  simp [State.requestRest, running, hm]

theorem State.requestRest_ignored (other : s.part ≠ .running) : s.requestRest = s := if_neg other

theorem State.wakeUp_resting (resting : s.part = .resting) : s.wakeUp = { s with part := .running } := if_pos resting

theorem State.wakeUp_running (running : s.part = .running) : s.wakeUp = { s with restPending := false } := by
  simp [State.wakeUp, running]

theorem State.wakeUp_ignored (h1 : s.part ≠ .resting) (h2 : s.part ≠ .running) : s.wakeUp = s := by
  simp [State.wakeUp, h1, h2]

/-- A REST_REQ that keeps the level, no grant being due, is the request alone. -/
theorem exec_restReq_same_level (h : Inv s) (released : s.resetHeld = false) (hg : s.mayGrant = false) :
    exec (.restReq s.holdReq) s = .next s.requestRest := by
  have level := State.setHoldLevel_same h hg
  rw [exec_restReq, hostWrite_acts released]
  by_cases idle : s.part = .idle
  · rw [State.writeControl_idle idle, level, State.requestRest_ignored (by rw [idle]; decide)]
  · rw [State.writeControl_restReq idle, level]

theorem exec_wake_same_level (h : Inv s) (released : s.resetHeld = false) (hg : s.mayGrant = false) (r : Bool) :
    exec (.wake r s.holdReq) s = .next s.wakeUp := by
  have level := State.setHoldLevel_same h hg
  rw [exec_wake, hostWrite_acts released]
  by_cases idle : s.part = .idle
  · rw [State.writeControl_idle idle, level, State.wakeUp_ignored (by rw [idle]; decide) (by rw [idle]; decide)]
  · rw [State.writeControl_wake idle, level]

end

/-- Settles O11: a write that keeps the level is its request, which is given, waits or is ignored; REST_GIVEN tests the
same conditions. -/
theorem restFollowsItsRequest : Obligations.RestFollowsItsRequest := by
  refine ⟨fun s h released hg => ?request, fun s => ?given⟩
  case request =>
    rw [exec_restReq_same_level h released hg]
    refine ⟨fun running flight examining walk => ?_, fun running busy => ?_, fun other => ?_⟩
    · rw [State.requestRest_given running (s.mayRest_iff.mpr ⟨flight, examining, walk⟩)]
      rfl
    · rw [State.requestRest_pending running (mt s.mayRest_iff.mp busy)]
    · rw [State.requestRest_ignored other]
  case given =>
    have due : (s.restPending && decide (s.part = .running) && s.mayRest) = true ↔ s.restPending = true
        ∧ s.part = .running ∧ s.inFlight = none ∧ s.examining = none ∧ s.tables ≠ .checking := by
      rw [Bool.and_eq_true, Bool.and_eq_true, decide_eq_true_eq, s.mayRest_iff, and_assoc]
    rw [exec_restGiven]
    refine ⟨fun pending running flight examining walk => ?_, fun notDue => ?_⟩
    · rw [if_pos (due.mpr ⟨pending, running, flight, examining, walk⟩)]
      rfl
    · rw [if_neg (mt due.mp notDue)]

/-- Settles O12. -/
theorem wakeEndsOrCancelsRest : Obligations.WakeEndsOrCancelsRest := by
  intro s r h released hg
  rw [exec_wake_same_level h released hg]
  refine ⟨fun resting => ?_, fun running => ?_, fun h1 h2 => ?_⟩
  · rw [State.wakeUp_resting resting]
  · rw [State.wakeUp_running running]
  · rw [State.wakeUp_ignored h1 h2]

end Sys2Proof.Machine
end

section
/-!
PROOFS. The register words (11_link_port_registers_and_power.md 11.3 to 11.5): events and ATTN, the FAULT record, STATE,
and the command that an access to a register is.
-/
namespace Sys2Proof.Machine

/-! ### Events -/

theorem Event.bit_lt (e : Event) : e.bit < 11 := by cases e <;> decide

theorem Event.bit_injective : Function.Injective Event.bit := by
  intro d e h
  cases d <;> cases e <;> simp [Event.bit] at h ⊢

theorem Event.exists_bit {i : Nat} (h : i < 11) : ∃ e : Event, e.bit = i := by
  interval_cases i
  exacts [⟨.started, rfl⟩, ⟨.intAnswer, rfl⟩, ⟨.bgAnswer, rfl⟩, ⟨.holdGrant, rfl⟩, ⟨.clockStep, rfl⟩,
    ⟨.timeReject, rfl⟩, ⟨.journalWrap, rfl⟩, ⟨.chainFault, rfl⟩, ⟨.tableFault, rfl⟩, ⟨.partFault, rfl⟩,
    ⟨.restEntered, rfl⟩]

/-- The eleven flags are all the bits of EVENTS and of ENABLE. -/
theorem eq_zero_iff_events (x : BitVec 11) : x = 0#11 ↔ ∀ e : Event, x.getLsbD e.bit = false := by
  refine ⟨fun h e => by simp [h], fun h => BitVec.eq_of_getLsbD_eq fun i hi => ?_⟩
  obtain ⟨e, rfl⟩ := Event.exists_bit hi
  simp [h e]

theorem Event.mask_getLsbD (e d : Event) : e.mask.getLsbD d.bit = decide (d = e) := by
  have hd := d.bit_lt
  have he := e.bit_lt
  have power : e.mask = BitVec.twoPow 11 e.bit := by
    rw [BitVec.twoPow_eq, Event.mask]
    exact BitVec.eq_of_toNat_eq (by simp [Nat.one_shiftLeft])
  rw [power, BitVec.getLsbD_twoPow, decide_eq_true he, Bool.true_and, decide_eq_decide]
  exact ⟨fun h => (Event.bit_injective h).symm, fun h => by rw [h]⟩

theorem State.raise_flag (s : State) (e d : Event) : (s.raise e).flag d = (s.flag d || decide (d = e)) := by
  simp only [State.flag, State.raise_events, BitVec.getLsbD_or, Event.mask_getLsbD]

theorem attn_iff (s : State) : attn s = true ↔ ∃ e : Event, s.flag e = true ∧ s.enable.getLsbD e.bit = true := by
  rw [attn, decide_eq_true_eq, ne_eq, eq_zero_iff_events]
  simp [State.flag]

/-- Settles O14. -/
theorem eventFlagsFollowWrites : Obligations.EventFlagsFollowWrites := by
  intro s v released
  refine ⟨⟨{ s with events := s.events &&& ~~~ (v.setWidth 11) }, ?clear, rfl, ?cleared⟩,
    ⟨{ s with enable := v.setWidth 11 }, ?enable, rfl, ?enabled⟩, attn_iff s, s.raise_flag⟩
  case clear => rw [exec_eventsClear, hostWrite_acts released]
  case cleared =>
    intro e
    simp [State.flag, e.bit_lt]
  case enable => rw [exec_enableWrite, hostWrite_acts released]
  case enabled =>
    intro e
    simp [e.bit_lt]

/-! ### Fields of a word -/

theorem word_getLsbD (n : Nat) {i : Nat} (hi : i < 32) :
    (BitVec.ofNat 32 n).getLsbD i = decide (n / 2 ^ i % 2 = 1) := by
  rw [BitVec.getLsbD_ofNat, decide_eq_true hi, Bool.true_and, Nat.testBit_eq_decide_div_mod_eq]

theorem word_field {n : Nat} (hn : n < 4294967296) (at_ width : Nat) :
    ((BitVec.ofNat 32 n).extractLsb' at_ width).toNat = n / 2 ^ at_ % 2 ^ width := by
  rw [BitVec.extractLsb'_toNat, BitVec.toNat_ofNat, Nat.mod_eq_of_lt hn, Nat.shiftRight_eq_div_pow]

theorem word_field_eq {n : Nat} (hn : n < 4294967296) (at_ : Nat) {width : Nat} {v : BitVec width}
    (h : n / 2 ^ at_ % 2 ^ width = v.toNat) : (BitVec.ofNat 32 n).extractLsb' at_ width = v :=
  BitVec.eq_of_toNat_eq ((word_field hn at_ width).trans h)

theorem bit_lt (b : Bool) : bit b < 2 := by cases b <;> decide

theorem decide_bit_eq_one (b : Bool) : decide (bit b = 1) = b := by cases b <;> rfl

/-! ### The FAULT record -/

/-- Class and detail of the record held, 0 for an empty one (R163). -/
def State.faultCode (s : State) : Nat := (s.faultRecord.map FaultDetail.code).getD 0

theorem faultWord_eq (s : State) : faultWord s = BitVec.ofNat 32 (s.faultCode + 8 * bit s.faultMore) := by
  cases h : s.faultRecord <;> simp [faultWord, State.faultCode, h]

/-- A detail leaves the place of MORE free, and its word has 32 bits. -/
theorem FaultDetail.code_range (d : FaultDetail) : d.code / 8 % 2 = 0 ∧ d.code < 4294967288 := by
  cases d with
  | chain c link =>
    have := link.isLt
    cases c <;> simp only [FaultDetail.code, chainCode] <;> omega
  | table slot check =>
    have := slot.isLt
    have := check.isLt
    simp only [FaultDetail.code]
    omega
  | part check =>
    have := check.isLt
    simp only [FaultDetail.code]
    omega

theorem State.faultCode_range (s : State) : s.faultCode / 8 % 2 = 0 ∧ s.faultCode < 4294967288 := by
  unfold State.faultCode
  cases s.faultRecord with
  | none => decide
  | some d => exact d.code_range

/-- MORE stands in bit 3 and nothing else of the word depends on it. -/
theorem faultWord_more (s : State) : (faultWord s).getLsbD 3 = s.faultMore := by
  obtain ⟨free, -⟩ := s.faultCode_range
  have place : (s.faultCode + 8 * bit s.faultMore) / 2 ^ 3 % 2 = bit s.faultMore := by
    have := bit_lt s.faultMore
    omega
  rw [faultWord_eq, word_getLsbD _ (by decide), place, decide_bit_eq_one]

theorem faultWord_bit (s : State) {i : Nat} (hi : i < 32) (hm : i ≠ 3) :
    (faultWord s).getLsbD i = decide (s.faultCode / 2 ^ i % 2 = 1) := by
  obtain ⟨free, -⟩ := s.faultCode_range
  have := bit_lt s.faultMore
  rw [faultWord_eq, word_getLsbD _ hi]
  congr 2
  interval_cases i <;> omega

theorem faultWord_class (s : State) : ((faultWord s).extractLsb' 0 2).toNat = s.faultCode % 4 := by
  obtain ⟨-, bound⟩ := s.faultCode_range
  have := bit_lt s.faultMore
  rw [faultWord_eq, word_field (by omega)]
  omega

/-- The detail stands above MORE. -/
theorem faultWord_field (s : State) {at_ : Nat} (h : 4 ≤ at_) (width : Nat) :
    ((faultWord s).extractLsb' at_ width).toNat = s.faultCode / 2 ^ at_ % 2 ^ width := by
  obtain ⟨free, bound⟩ := s.faultCode_range
  have more := bit_lt s.faultMore
  obtain ⟨k, rfl⟩ := Nat.exists_eq_add_of_le h
  have above : (s.faultCode + 8 * bit s.faultMore) / 16 = s.faultCode / 16 := by omega
  rw [faultWord_eq, word_field (by omega), pow_add, ← Nat.div_div_eq_div_mul, ← Nat.div_div_eq_div_mul]
  exact congrArg (fun x => x / 2 ^ k % 2 ^ width) above

/-- Settles O15: the word is the record's code with MORE in bit 3, and each field is read off the code. -/
theorem faultReadReturnsAndEmpties : Obligations.FaultReadReturnsAndEmpties := by
  intro s
  have code : ∀ {d}, s.faultRecord = some d → s.faultCode = d.code := fun h => by simp [State.faultCode, h]
  refine ⟨exec_faultRead s, faultWord_more s, ?empty, ?chain, ?table, ?part⟩
  case empty =>
    intro h
    have zero : s.faultCode = 0 := by simp [State.faultCode, h]
    refine ⟨BitVec.eq_of_toNat_eq ?_, BitVec.eq_of_toNat_eq ?_⟩
    · rw [faultWord_class, zero]; rfl
    · rw [faultWord_field s le_rfl, zero]; rfl
  case chain =>
    intro c l h
    have := l.isLt
    have hc : chainCode c < 2 := by cases c <;> decide
    have value : s.faultCode = 1 + 16 * chainCode c + 256 * l.toNat := code h
    refine ⟨BitVec.eq_of_toNat_eq ?_, ?_, BitVec.eq_of_toNat_eq ?_⟩
    · rw [faultWord_class, value, BitVec.toNat_ofNat]; omega
    · have place : s.faultCode / 2 ^ 4 % 2 = chainCode c := by omega
      rw [faultWord_bit s (by decide) (by decide), place]
      cases c <;> rfl
    · rw [faultWord_field s (by decide), value]; omega
  case table =>
    intro slot check h
    have := slot.isLt
    have := check.isLt
    have value : s.faultCode = 2 + 256 * slot.toNat + 65536 * check.toNat := code h
    refine ⟨BitVec.eq_of_toNat_eq ?_, BitVec.eq_of_toNat_eq ?_, BitVec.eq_of_toNat_eq ?_⟩
    · rw [faultWord_class, value, BitVec.toNat_ofNat]; omega
    · rw [faultWord_field s (by decide), value]; omega
    · rw [faultWord_field s (by decide), value]; omega
  case part =>
    intro check h
    have := check.isLt
    have value : s.faultCode = 3 + 256 * check.toNat := code h
    refine ⟨BitVec.eq_of_toNat_eq ?_, BitVec.eq_of_toNat_eq ?_⟩
    · rw [faultWord_class, value, BitVec.toNat_ofNat]; omega
    · rw [faultWord_field s (by decide), value]; omega

/-! ### STATE -/

theorem PartState.code_lt (p : PartState) : p.code < 5 := by cases p <;> decide

theorem ChainState.code_lt (c : ChainState) : c.code < 6 := by cases c <;> decide

theorem TripState.code_lt (t : TripState) : t.code < 2 := by cases t <;> decide

theorem TableState.code_lt (t : TableState) : t.code < 4 := by cases t <;> decide

theorem TripState.decide_code_eq_one (t : TripState) : decide (t.code = 1) = decide (t = .inTrip) := by
  cases t <;> rfl

/-- R160: each code is smaller than the room up to the next field. -/
theorem stateWord_fields (s : State) :
    ((stateWord s).extractLsb' 0 3).toNat = s.part.code
    ∧ ((stateWord s).extractLsb' 4 3).toNat = s.interactive.state.code
    ∧ ((stateWord s).extractLsb' 8 3).toNat = s.background.state.code
    ∧ (stateWord s).getLsbD 12 = decide (s.trip.state = .inTrip)
    ∧ ((stateWord s).extractLsb' 16 2).toNat = s.tables.code
    ∧ (stateWord s).getLsbD 20 = decide (s.tables = .held) ∧ (stateWord s).getLsbD 21 = s.restPending := by
  have part := s.part.code_lt
  have interactive := s.interactive.state.code_lt
  have background := s.background.state.code_lt
  have trip := s.trip.state.code_lt
  have tables := s.tables.code_lt
  have granted := bit_lt s.granted
  have pending := bit_lt s.restPending
  unfold stateWord
  generalize hn : s.part.code + 2 ^ 4 * s.interactive.state.code + 2 ^ 8 * s.background.state.code
    + 2 ^ 12 * s.trip.state.code + 2 ^ 16 * s.tables.code + 2 ^ 20 * bit s.granted + 2 ^ 21 * bit s.restPending = n
  have bound : n < 4294967296 := by omega
  rw [word_field bound, word_field bound, word_field bound, word_getLsbD n (by decide), word_field bound,
    word_getLsbD n (by decide), word_getLsbD n (by decide)]
  have tripPlace : n / 2 ^ 12 % 2 = s.trip.state.code := by omega
  have grantPlace : n / 2 ^ 20 % 2 = bit s.granted := by omega
  have restPlace : n / 2 ^ 21 % 2 = bit s.restPending := by omega
  rw [tripPlace, grantPlace, restPlace, TripState.decide_code_eq_one, decide_bit_eq_one, decide_bit_eq_one]
  exact ⟨by omega, by omega, by omega, rfl, by omega, rfl, rfl⟩

/-! ### Accesses -/

theorem readRegister_bits (s : State) :
    readRegister s .state = stateWord s ∧ readRegister s .fault = faultWord s
    ∧ readRegister s .anchor = s.anchor ∧ readRegister s .nudge = 0#32
    ∧ (∀ i, (readRegister s .control).getLsbD i = (decide (i = 4) && s.holdReq))
    ∧ (∀ i, (readRegister s .events).getLsbD i = s.events.getLsbD i)
    ∧ (∀ i, (readRegister s .enable).getLsbD i = s.enable.getLsbD i) := by
  have widened : ∀ (x : BitVec 11) (i : Nat), (x.setWidth 32).getLsbD i = x.getLsbD i := fun x i => by
    rw [BitVec.getLsbD_setWidth, Bool.and_eq_right_iff_imp, decide_eq_true_eq]
    intro h
    have := BitVec.lt_of_getLsbD h
    omega
  exact ⟨rfl, rfl, rfl, rfl, readRegister_control s, widened s.events, widened s.enable⟩

/-- A write to EVENTS without a flag bit is a write to bits with no function (R160). -/
theorem eventsWrite_cases (w : Word) : eventsWrite w = .eventsClear w
    ∨ (∀ e : Event, w.getLsbD e.bit = false) ∧ eventsWrite w = .registerWriteIgnored .events w := by
  unfold eventsWrite
  split
  next h =>
    refine .inr ⟨fun e => ?_, rfl⟩
    have flag := (eq_zero_iff_events _).mp h e
    rwa [BitVec.getLsbD_setWidth, decide_eq_true e.bit_lt, Bool.true_and] at flag
  next => exact .inl rfl

/-- Settles O16. -/
theorem stateRegisterShowsTheBlocks : Obligations.StateRegisterShowsTheBlocks := by
  refine ⟨stateWord_fields, readRegister_bits, fun w => ?writes, fun o => rfl⟩
  rw [commandOfWrite_control, commandOfWrite_events, commandOfWrite_nudge]
  refine ⟨rfl, fun reset => ?_, fun reset start => ?_, fun reset start wake => ?_, fun reset start wake rest => ?_,
    fun reset start wake rest => ?_, rfl, ?events, rfl, ?nudge, rfl, fun o none_ => ?_⟩
  · exact ⟨_, congrArg some (if_pos reset)⟩
  · simp only [controlWrite, reset, start, if_true, Bool.false_eq_true, if_false]
  · simp only [controlWrite, reset, start, wake, if_true, Bool.false_eq_true, if_false]
  · simp only [controlWrite, reset, start, wake, rest, if_true, Bool.false_eq_true, if_false]
  · simp only [controlWrite, reset, start, wake, rest, Bool.false_eq_true, if_false]
  case events => exact (eventsWrite_cases w).imp (congrArg some) (And.imp_right (congrArg some))
  case nudge => rfl
  · refine commandOfWrite_none w fun r h => none_ ?_
    rw [h]
    cases r <;> decide

end Sys2Proof.Machine
end

section
/-!
PROOFS. Trip time and validity periods (02_trip_time_and_validity_periods.md): the minute tick with the two expiries,
and the end of validity.
-/
namespace Sys2Proof.Machine

/-! ### The tick and the expiries -/

/-- A window that a test names is closed, and an entry without one is as it was. -/
theorem Entry.filterWindow_eq_ite (e : Entry) (p : Window → Bool) :
    { e with window := e.window.filter (fun w => !p w) } = if e.window.any p then { e with window := none } else e := by
  split
  next named =>
    have closed : e.window.filter (fun w => !p w) = none := by
      cases hw : e.window with
      | none => rfl
      | some w =>
        rw [hw, Option.any_some] at named
        rw [Option.filter_some, named]
        rfl
    rw [closed]
  next spared =>
    refine Entry.filterWindow_eq fun w hw => ?_
    simpa [hw] using spared

theorem Entry.closeAtMinutes_eq_ite (e : Entry) : e.closeAtMinutes
    = if e.window.any (fun w => decide (w.minutes = 0#8)) then { e with window := none } else e := by
  simpa only [Entry.closeAtMinutes, decide_not] using
    e.filterWindow_eq_ite (fun w => decide (w.minutes = 0#8))

theorem Entry.closeAtCount_eq_ite (e : Entry) : e.closeAtCount
    = if e.window.any (fun w => decide (w.count = 0#8)) then { e with window := none } else e := by
  simpa only [Entry.closeAtCount, decide_not] using
    e.filterWindow_eq_ite (fun w => decide (w.count = 0#8))

/-- Settles O18: the tick's window is `Entry.tick_eq`; the expiries close by their tests, which no open window
meets under the invariant. -/
theorem minuteTickAndWindowExpiries : Obligations.MinuteTickAndWindowExpiries := by
  refine ⟨fun s running => ?ticks, fun s stopped => ?stopped, fun s => ⟨?minutes, ?count, fun h => ⟨?_, ?_⟩⟩⟩
  case ticks =>
    refine ⟨{ s with clock := saturate s.clock }.mapEntries Entry.tick, ?_, rfl, toNat_saturate s.clock, ?_⟩
    · rw [exec_minuteTick, if_pos running]
    · exact congrArg (fun f => { s.journal with entries := s.journal.entries.map f }) (funext Entry.tick_eq)
  case stopped => rw [exec_minuteTick, if_neg (by rw [stopped]; decide)]
  case minutes => rw [exec_windowMinutesExpiry, State.mapEntries, funext Entry.closeAtMinutes_eq_ite]
  case count => rw [exec_windowCountExpiry, State.mapEntries, funext Entry.closeAtCount_eq_ite]
  · rw [exec_windowMinutesExpiry, h.closeAtMinutes_eq]
  · rw [exec_windowCountExpiry, h.closeAtCount_eq]

/-! ### The end of validity -/

section
variable {offset : Int} {dayStart grace : Nat}

theorem calendarOf_range (offset : Int) (dayStart grace : Nat) :
    -720 ≤ (calendarOf offset dayStart grace).offset ∧ (calendarOf offset dayStart grace).offset ≤ 840
      ∧ (calendarOf offset dayStart grace).dayStart ≤ 359 ∧ (calendarOf offset dayStart grace).grace ≤ 120 := by
  simp only [calendarOf]
  omega

theorem calendarOf_offset_inside (h1 : -720 ≤ offset) (h2 : offset ≤ 840) :
    (calendarOf offset dayStart grace).offset = offset := by
  simp only [calendarOf]
  omega

theorem calendarOf_offset_below (h : offset < -720) : (calendarOf offset dayStart grace).offset = -720 := by
  simp only [calendarOf]
  omega

theorem calendarOf_offset_above (h : 840 < offset) : (calendarOf offset dayStart grace).offset = 840 := by
  simp only [calendarOf]
  omega

end

section
variable {fc start : Nat} {cal : Calendar} {p : Product} {carried : Option Nat}

theorem endOfValidity_explicit (hp : p.rule = 1) : endOfValidity fc cal p start carried = carried.getD start :=
  if_pos hp

theorem endOfValidity_duration (hp : p.rule = 2) : endOfValidity fc cal p start carried = start + p.duration := by
  simp [endOfValidity, ruleExplicit, ruleDuration, hp]

theorem endOfValidity_serviceDay (hp : p.rule = 3) :
    endOfValidity fc cal p start carried = nextServiceDay cal start := by
  simp [endOfValidity, ruleExplicit, ruleDuration, ruleServiceDay, hp]

/-- R27, R28: a start that no clamping to 0 touches lies in its service day, whose end is the next day's beginning. -/
theorem nextServiceDay_bounds (ho : -720 ≤ cal.offset) (hstart : 2000 ≤ start) :
    start < nextServiceDay cal start ∧ nextServiceDay cal start ≤ start + 1440
      ∧ ((nextServiceDay cal start : Int) + cal.offset - cal.dayStart) % 1440 = 0 := by
  have localStart : localTime cal start = (start : Int) + cal.offset := by
    unfold localTime
    omega
  obtain ⟨begun, notOver⟩ := (serviceDay_eq_iff cal (localTime cal start) _).mp rfl
  unfold nextServiceDay referenceTime
  rw [localStart] at *
  omega

end

/-- Settles O22: the calendar by its clamps, the end by its rule. -/
theorem endOfValidityFollowsRule : Obligations.EndOfValidityFollowsRule := by
  intro fc offset dayStart grace start p carried
  have range := calendarOf_range offset dayStart grace
  refine ⟨range, calendarOf_offset_inside, min_eq_left, min_eq_left, calendarOf_offset_below,
    calendarOf_offset_above, fun h => min_eq_right h.le, fun h => min_eq_right h.le, fun e hp => ?explicit,
    endOfValidity_duration, fun hp hstart => ?serviceDay⟩
  case explicit => rw [endOfValidity_explicit hp, Option.getD_some]
  case serviceDay =>
    rw [endOfValidity_serviceDay hp]
    exact nextServiceDay_bounds range.1 hstart

end Sys2Proof.Machine
end

section
/-!
PROOFS. The anchor check, the validation walk with the product lookup, and the arbiter (11.2, 04_network_tables.md 4.3
to 4.7, 09_slips_and_chains.md 9.8).
-/
namespace Sys2Proof.Machine

/-! ### The anchor checks -/

/-- The first of five conditions that fails, each under its number, as R158 orders them. -/
theorem firstFailed_iff {c2 c3 c4 c5 c6 : Prop} [Decidable c2] [Decidable c3] [Decidable c4] [Decidable c5]
    [Decidable c6] {check : Option Nat}
    (h : check = if ¬ c2 then some 2 else if ¬ c3 then some 3 else if ¬ c4 then some 4 else if ¬ c5 then some 5
      else if ¬ c6 then some 6 else none) :
    (check = none ↔ c2 ∧ c3 ∧ c4 ∧ c5 ∧ c6)
    ∧ (check = some 2 ↔ ¬ c2) ∧ (check = some 3 ↔ c2 ∧ ¬ c3)
    ∧ (check = some 4 ↔ c2 ∧ c3 ∧ ¬ c4) ∧ (check = some 5 ↔ c2 ∧ c3 ∧ c4 ∧ ¬ c5)
    ∧ (check = some 6 ↔ c2 ∧ c3 ∧ c4 ∧ c5 ∧ ¬ c6) := by
  rw [h]
  split_ifs <;> simp [*]

section
variable (a : AnchorBlock)

theorem AnchorBlock.slipOrder_iff : limitOf a.slipLimit < baseOf a.slipBase
    ↔ ¬ a.slipBase / 4096 * 4096 ≤ a.slipLimit / 4096 * 4096 + 4095 := by
  rw [limitOf_eq_mul, baseOf_eq_mul, not_le]

theorem AnchorBlock.tableOrder_iff : limitOf a.tableLimit < baseOf a.tableBase
    ↔ ¬ a.tableBase / 4096 * 4096 ≤ a.tableLimit / 4096 * 4096 + 4095 := by
  rw [limitOf_eq_mul, baseOf_eq_mul, not_le]

/-- Two windows in order have a byte in common when neither ends before the other begins. -/
theorem AnchorBlock.windowsOverlap_iff (slip : ¬ limitOf a.slipLimit < baseOf a.slipBase)
    (table : ¬ limitOf a.tableLimit < baseOf a.tableBase) : a.windowsOverlap = true
    ↔ ¬ ¬ ∃ x, a.slipBase / 4096 * 4096 ≤ x ∧ x ≤ a.slipLimit / 4096 * 4096 + 4095
        ∧ a.tableBase / 4096 * 4096 ≤ x ∧ x ≤ a.tableLimit / 4096 * 4096 + 4095 := by
  rw [not_not, AnchorBlock.windowsOverlap, decide_eq_true_eq]
  simp only [limitOf_eq_mul, baseOf_eq_mul] at *
  constructor
  · intro meet
    exact ⟨max (a.slipBase / 4096 * 4096) (a.tableBase / 4096 * 4096), by omega⟩
  · rintro ⟨x, hx⟩
    omega

theorem AnchorBlock.phaseAbove_iff :
    a.phase.any (fun b => decide (1 < b.toNat)) = true ↔ ¬ ∀ b ∈ a.phase, b.toNat ≤ 1 := by
  simp

open Classical in
/-- R158 on the windows as taken; the overlap is tested where both windows are in order. -/
theorem AnchorBlock.failedCheck_eq : a.failedCheck =
    if ¬ a.version = 1 then some 2
    else if ¬ a.slipBase / 4096 * 4096 ≤ a.slipLimit / 4096 * 4096 + 4095 then some 3
    else if ¬ a.tableBase / 4096 * 4096 ≤ a.tableLimit / 4096 * 4096 + 4095 then some 4
    else if ¬ ¬ ∃ x, a.slipBase / 4096 * 4096 ≤ x ∧ x ≤ a.slipLimit / 4096 * 4096 + 4095
        ∧ a.tableBase / 4096 * 4096 ≤ x ∧ x ≤ a.tableLimit / 4096 * 4096 + 4095 then some 5
    else if ¬ ∀ b ∈ a.phase, b.toNat ≤ 1 then some 6 else none := by
  unfold AnchorBlock.failedCheck
  refine ite_congr rfl (fun _ => rfl) fun _ => ?_
  refine ite_congr (propext a.slipOrder_iff) (fun _ => rfl) fun slip => ?_
  refine ite_congr (propext a.tableOrder_iff) (fun _ => rfl) fun table => ?_
  have overlap := a.windowsOverlap_iff (mt a.slipOrder_iff.mp slip) (mt a.tableOrder_iff.mp table)
  exact ite_congr (propext overlap) (fun _ => rfl) fun _ =>
    ite_congr (propext a.phaseAbove_iff) (fun _ => rfl) fun _ => rfl

end

/-- Settles O24. -/
theorem anchorChecksInOrder : Obligations.AnchorChecksInOrder := by
  classical
  exact fun a => firstFailed_iff a.failedCheck_eq

/-! ### The anchor read -/

section
variable {s : State} {failing : List Access}

theorem State.anchorRead_fails (starting : s.part = .starting) (h : readAnchorBlock (s.anchorByte failing) = none) :
    s.anchorRead failing = s.anchorFault 1 := by
  simp only [State.anchorRead, if_pos starting, h]

theorem State.anchorRead_faults {a : AnchorBlock} {check : Nat} (starting : s.part = .starting)
    (h : readAnchorBlock (s.anchorByte failing) = some a) (hc : a.failedCheck = some check) :
    s.anchorRead failing = s.anchorFault check := by
  simp only [State.anchorRead, if_pos starting, h, hc]

theorem State.anchorRead_accepts {a : AnchorBlock} (starting : s.part = .starting)
    (h : readAnchorBlock (s.anchorByte failing) = some a) (hc : a.failedCheck = none) :
    s.anchorRead failing = s.acceptAnchor a := by
  simp only [State.anchorRead, if_pos starting, h, hc]

end

/-- The end of an acceptance: RUNNING and STARTED, and the grant where the level is set, else the walk (R159). -/
theorem State.running_started {u : State} {level : Bool} (h : u.holdReq = level) :
    (if u.holdReq then ({ u with part := .running }.raise .started).grant
      else { ({ u with part := .running }.raise .started) with tables := .checking })
    = { u with
        part := .running, tables := (if level then .held else .checking),
        events := u.events ||| Event.started.mask ||| (if level then Event.holdGrant.mask else 0#11) } := by
  subst h
  by_cases set : u.holdReq = true
  · rw [if_pos set, if_pos set, if_pos set]
    rfl
  · rw [if_neg set, if_neg set, if_neg set, BitVec.or_zero]
    rfl

/-- R159: windows, phase table and p, then the two heads, then the end. -/
theorem State.acceptAnchor_eq (a : AnchorBlock) (s : State) :
    let u := { s with windows := some a.windows, phaseTable := a.phase.map phaseChain, phase := 0 }
    let u1 := u.setHead .interactive (BitVec.ofNat 24 a.interactiveHead)
    let u2 := u1.setHead .background (BitVec.ofNat 24 a.backgroundHead)
    s.acceptAnchor a = { u2 with
      part := .running, tables := (if s.holdReq then .held else .checking),
      events := u2.events ||| Event.started.mask ||| (if s.holdReq then Event.holdGrant.mask else 0#11) } := by
  intro u u1 u2
  have level : u2.holdReq = s.holdReq := by simp [u2, u1, u]
  exact State.running_started level

/-- Settles O23: in STARTING the block read decides, and elsewhere nothing is read. -/
theorem anchorCheckAcceptsOrHalts : Obligations.AnchorCheckAcceptsOrHalts := by
  intro s _
  refine ⟨fun a starting hread hcheck => ?accepts, fun a k starting hread hcheck => ?halts, fun other => ?other⟩
  case accepts =>
    refine ⟨_, _, _, ?_, State.setHead_taken _ _ _, State.setHead_taken _ _ _, s.acceptAnchor_eq a⟩
    rw [exec_anchorCheck, State.anchorRead_accepts starting hread hcheck]
  case halts =>
    refine ⟨_, ?_, State.anchorFault_failed s k⟩
    rw [exec_anchorCheck, State.anchorRead_faults starting hread hcheck]
  case other => rw [exec_anchorCheck, State.anchorRead, if_neg other]

/-! ### The end of a walk -/

section
variable {s : State} {failing : List Access}

theorem State.walk_succeeds {slots : List (Option Word)} (checking : s.tables = .checking)
    (h : s.walkResult failing = .ok slots) : s.walk failing = { s with snapshot := slots, tables := .usable } := by
  simp only [State.walk, if_pos checking, h]

theorem State.walk_fails {slot : Byte} {check : Nat} (checking : s.tables = .checking)
    (h : s.walkResult failing = .error (slot, check)) : s.walk failing = s.tableFault slot check := by
  simp only [State.walk, if_pos checking, h]

end

/-- Settles O25. -/
theorem walkEndsUsableOrUnusable : Obligations.WalkEndsUsableOrUnusable := by
  intro s
  rw [exec_validationWalk]
  refine ⟨fun slots checking h => ?_, fun slot check checking h => ?_, fun other => ?_⟩
  · rw [State.walk_succeeds checking h]
  · rw [State.walk_fails checking h]
    exact ⟨_, rfl, State.tableFault_failed s slot check⟩
  · rw [State.walk, if_neg other]

theorem readDirectory_none {get : Nat → Option Byte} {n a o : Nat} (h1 : a ≤ o) (h2 : o < a + 4 * n)
    (h : get o = none) : readDirectory get n a = none := by
  induction n generalizing a with
  | zero => omega
  | succ n ih =>
    by_cases here : o < a + 4
    · simp only [readDirectory, readField_none h1 here h]
    · rw [readDirectory, ih (by omega) (by omega)]
      split <;> rfl

/-- Settles O36: a byte that cannot be read fails the pass over the block, or the read of the directory. -/
theorem accessErrorFailsAnchorAndWalk : Obligations.AccessErrorFailsAnchorAndWalk := by
  intro timeout failing s o ho
  refine ⟨fun starting hf => ?anchor, fun checking hf => ?walk⟩
  case anchor =>
    have unread : readAnchorBlock (s.anchorByte failing) = none := by
      rw [readAnchorBlock, readBytes_none (Nat.zero_le o) (by omega) (State.anchorByte_failing hf)]
      rfl
    refine ⟨_, exec_accessFailed timeout .anchorRead failing s, ?_⟩
    show AnchorFailed s 1#4 (s.anchorRead failing)
    rw [State.anchorRead_fails starting unread]
    exact State.anchorFault_failed s 1
  case walk =>
    have unread : readDirectory (s.tableByte failing noSlot) 16 s.tableBase = none :=
      readDirectory_none (Nat.le_add_right _ _) (by omega) (State.tableByte_failing hf)
    have result : s.walkResult failing = .error (noSlot, 13) := by simp only [State.walkResult, unread]
    refine ⟨_, exec_accessFailed timeout .walk failing s, ?_⟩
    show TablesFailed s 255#8 13#8 (s.walk failing)
    rw [State.walk_fails checking result]
    exact State.tableFault_failed s noSlot 13

/-! ### The product lookup -/

/-- The probe of a table whose entry `i` is `entry i` (R61). -/
def probeOf (entry : Nat → Product) (code i : Nat) : Probe Product :=
  if (entry i).code = code then .found (entry i) else if code < (entry i).code then .below else .above

section
variable {probe : Nat → Except Stop (Probe Product)} {entry : Nat → Product} {count code : Nat}
  (hprobe : ∀ j < count, probe j = .ok (probeOf entry code j))
include hprobe

/-- The halving search finds nothing in a part of the table without the code. -/
theorem halving_absent {fuel lower bound : Nat} (hb : bound ≤ count)
    (absent : ∀ j, lower ≤ j → j < bound → (entry j).code ≠ code) : halving probe fuel lower bound = .ok none := by
  induction fuel generalizing lower bound with
  | zero => rfl
  | succ fuel ih =>
    by_cases inside : lower < bound
    case neg => simp only [halving, if_neg inside]
    have middle : lower ≤ (lower + (bound - 1)) / 2 ∧ (lower + (bound - 1)) / 2 < bound := by omega
    generalize hm : (lower + (bound - 1)) / 2 = m at middle
    have other := absent m middle.1 middle.2
    simp only [halving, if_pos inside, hm, hprobe m (by omega), probeOf, if_neg other]
    split_ifs
    · exact ih (by omega) fun j h1 h2 => absent j h1 (by omega)
    · exact ih hb fun j h1 h2 => absent j (by omega) h2

/-- In a table that rises by code the halving search keeps the entry sought between its two indices. -/
theorem halving_present (rising : ∀ j < count, ∀ k < j, (entry k).code < (entry j).code) {fuel lower bound j : Nat}
    (hb : bound ≤ count) (hfuel : bound - lower ≤ fuel) (h1 : lower ≤ j) (h2 : j < bound)
    (present : (entry j).code = code) : halving probe fuel lower bound = .ok (some (entry j)) := by
  induction fuel generalizing lower bound with
  | zero => omega
  | succ fuel ih =>
    have inside : lower < bound := by omega
    have middle : lower ≤ (lower + (bound - 1)) / 2 ∧ (lower + (bound - 1)) / 2 < bound := by omega
    generalize hm : (lower + (bound - 1)) / 2 = m at middle
    simp only [halving, if_pos inside, hm, hprobe m (by omega), probeOf]
    rcases lt_trichotomy j m with before | here | after
    · have above : code < (entry m).code := present ▸ rising m (by omega) j before
      simp only [if_neg above.ne', if_pos above]
      exact ih (by omega) (by omega) h1 before
    · simp only [← here, if_pos present]
    · have below : (entry m).code < code := present ▸ rising j (by omega) m after
      simp only [if_neg below.ne, if_neg below.not_gt]
      exact ih hb (by omega) (by omega) h2

end

/-- What a walk that succeeds has found: the slots of the directory, each passed, and no trip network missing. -/
theorem State.walkResult_ok {s : State} {failing : List Access} {slots : List (Option Word)}
    (h : s.walkResult failing = .ok slots) : s.walkSlots failing 0 slots = .ok ()
      ∧ (s.trip.state = .inTrip → missingNetwork slots s.trip.networks = none) := by
  unfold State.walkResult at h
  split at h
  · cases h
  split at h
  · cases h
  next hw =>
    split at h
    · cases h
    next hm =>
      cases h
      exact ⟨hw, fun hin => by rwa [if_pos hin] at hm⟩

/-- What a slot that has passed has shown of its profile and product table (R57, checks 1 to 5). -/
theorem State.walkSlot_ok {s : State} {failing : List Access} {slot : Byte} {offset : Nat}
    (h : s.walkSlot failing slot offset = .ok ()) :
    ∃ p, readProfile (s.tableByte failing slot) (s.tableBase + offset) = some p
      ∧ (p.byteOrder ≤ 1 ∧ 4 ≤ p.serialWidth ∧ p.serialWidth ≤ 8 ∧ p.surcharge ≤ 99999)
      ∧ (1 ≤ p.productCount ∧ p.productCount ≤ 1024 ∧ s.tableHolds p.productOffset (12 * p.productCount) = true)
      ∧ checkProducts (s.tableByte failing slot) p.productCount (s.tableBase + p.productOffset) none = .ok () := by
  unfold State.walkSlot at h
  dsimp only at h
  split at h
  · cases h
  split at h
  · cases h
  next p hp =>
    split at h
    · cases h
    next fields =>
      split at h
      · cases h
      next range =>
        split at h
        · cases h
        next passed => exact ⟨p, hp, not_not.mp fields, not_not.mp range, passed⟩

/-- The product lookup in a profile whose table is in range is the halving search over the table (R61, R64). -/
theorem State.lookupProduct_eq {s : State} {slot : Byte} {a code : Nat} {p : Profile}
    (hp : readProfile (s.tableByte [] slot) a = some p)
    (range : 1 ≤ p.productCount ∧ p.productCount ≤ 1024 ∧ s.tableHolds p.productOffset (12 * p.productCount) = true) :
    s.lookupProduct [] slot a code
      = halving (s.probeProduct [] slot p.productOffset code) p.productCount 0 p.productCount := by
  obtain ⟨h1, h2, h3⟩ := range
  obtain ⟨offset, count⟩ := readProfile_fields hp
  simp only [State.lookupProduct, offset, count, fromTable, require16, h1, h2, h3, decide_true, Bool.and_self, if_true,
    bind, Except.bind]

theorem State.probeProduct_eq {s : State} {slot : Byte} {table code i : Nat} {p : Nat → Product}
    (h : readProduct (s.tableByte [] slot) (s.tableBase + table + 12 * i) = some (p i)) :
    s.probeProduct [] slot table code i = .ok (probeOf p code i) := by
  simp only [State.probeProduct, h, probeOf]

/-- Settles O26: the entries that pass checks 4 and 5 rise by code, and in a table that rises the halving search is
complete. -/
theorem validatedProductLookupIsComplete : Obligations.ValidatedProductLookupIsComplete := by
  intro s slots h
  obtain ⟨walked, networks⟩ := State.walkResult_ok h
  refine ⟨fun hin n hn => ?networks, fun i o hi => ?slot⟩
  case networks =>
    have found := List.find?_eq_none.mp (networks hin) n hn
    simpa using found
  case slot =>
    have passed := State.walkSlots_ok walked i o hi
    rw [Nat.zero_add] at passed
    obtain ⟨p, hp, ⟨order, w1, w2, -⟩, range, products⟩ := State.walkSlot_ok passed
    obtain ⟨entry, reads, rising, -⟩ := checkProducts_ok products
    have probes : ∀ code, ∀ j < p.productCount,
        s.probeProduct [] (byteOf i) p.productOffset code j = .ok (probeOf entry code j) :=
      fun _ j hj => State.probeProduct_eq (reads j hj)
    refine ⟨p, hp, order, w1, w2, range.1, range.2.1, entry, reads, rising, fun code => ?_⟩
    rw [State.lookupProduct_eq hp range]
    refine ⟨fun absent => ?_, fun j hj present => ?_⟩
    · exact halving_absent (probes code) le_rfl fun j _ hj => absent j hj
    · exact halving_present (probes code) rising le_rfl le_rfl (Nat.zero_le j) hj present

/-! ### The arbiter -/

/-- R143: the chain phase entry p names, else the other, whichever is AHEAD. -/
theorem State.choice_eq {s : State} {c : Chain} (h : s.phaseTable[s.phase.val]? = some c) :
    s.choice = if (s.chain c).state = .ahead then some c
      else if (s.chain (otherChain c)).state = .ahead then some (otherChain c) else none := by
  simp only [State.choice, h]

/-- Settles O27. -/
theorem arbiterFollowsPhaseTable : Obligations.ArbiterFollowsPhaseTable := by
  intro s
  rw [exec_arbiterChoice]
  refine ⟨fun c flight examining running usable hold rest entry => ?due, fun notDue => ?notDue⟩
  case due =>
    rw [if_pos (s.mayChoose_iff.mpr ⟨flight, examining, running, usable, hold, rest⟩), State.choice_eq entry]
    refine ⟨fun ahead => ?_, fun named other => ?_, fun named other => ?_⟩
    · rw [if_pos ahead]
    · rw [if_neg named, if_pos other]
    · rw [if_neg named, if_neg other, ← examining]
  case notDue => rw [if_neg (mt s.mayChoose_iff.mp notDue)]

end Sys2Proof.Machine
end

section
/-!
PROOFS. The chains of slips (09_slips_and_chains.md): dispatch, the examination, the follow-up, the re-read of a tail's
link and the NUDGE, no access failing.
-/
namespace Sys2Proof.Machine

/-! ### What the invariant says of a chain in use -/

section
variable {s : State}

theorem Inv.cursor_of_examining (h : Inv s) {c : Chain} (he : s.examining = some c) :
    s.linkValid (s.chain c).cursor = true := by
  obtain ⟨ahead, -⟩ := h.scheduler.examining c he
  exact (h.scheduler.chains c).cursor (by rw [ahead]; decide) (by rw [ahead]; decide)

theorem Inv.cursor_of_inFlight (h : Inv s) {f : InFlight} (hf : s.inFlight = some f) :
    s.linkValid (s.chain f.chain).cursor = true := by
  obtain ⟨active, -⟩ := h.scheduler.inFlight f hf
  exact (h.scheduler.chains f.chain).cursor (by rw [active]; decide) (by rw [active]; decide)

/-- The chain of the slip in flight is ACTIVE, so no re-read of its tail is under way. -/
theorem Inv.rereading_of_inFlight (h : Inv s) {f : InFlight} (hf : s.inFlight = some f) :
    (s.chain f.chain).rereading = false := by
  obtain ⟨active, -⟩ := h.scheduler.inFlight f hf
  refine Bool.eq_false_iff.mpr fun reading => ?_
  have parked := (h.scheduler.chains f.chain).rereading reading
  rw [active] at parked
  cases parked

/-- A re-read is under way on a chain PARKED on link, whose tail is its cursor. -/
theorem Inv.parked_of_rereading (h : Inv s) {c : Chain} (hr : (s.chain c).rereading = true) :
    (s.chain c).state = .parkedOnLink ∧ (s.chain c).tail = (s.chain c).cursor
      ∧ s.linkValid (s.chain c).tail = true := by
  have parked := (h.scheduler.chains c).rereading hr
  have same := (h.scheduler.chains c).tail parked
  refine ⟨parked, same, ?_⟩
  rw [same]
  exact (h.scheduler.chains c).cursor (by rw [parked]; decide) (by rw [parked]; decide)

end

/-! ### Dispatch -/

theorem kind_eq_iff (kind : Byte) : (kind = kindTrip ↔ kind.toNat = 1) ∧ (kind = kindAmend ↔ kind.toNat = 4)
    ∧ (kind = kindMerge ↔ kind.toNat = 5) ∧ (kind = kindRecall ↔ kind.toNat = 6) :=
  ⟨BitVec.toNat_inj.symm, BitVec.toNat_inj.symm, BitVec.toNat_inj.symm, BitVec.toNat_inj.symm⟩

/-- R138: the kinds known, and those that each chain accepts. -/
theorem dispatchRefusal_eq (c : Chain) (kind : Byte) : dispatchRefusal c kind =
    if kind.toNat < 1 ∨ 6 < kind.toNat then some .kindUnknown
    else match c with
      | .interactive => if kind.toNat = 5 ∨ kind.toNat = 6 then some .wrongChain else none
      | .background => if kind.toNat = 1 ∨ kind.toNat = 4 then some .wrongChain else none := by
  obtain ⟨isTrip, isAmend, isMerge, isRecall⟩ := kind_eq_iff kind
  cases c <;> simp only [dispatchRefusal, isTrip, isAmend, isMerge, isRecall]

section
variable {s : State} {failing : List Access} {c : Chain} {kind : Byte} {f : InFlight}

theorem State.dispatch_accepted (h : dispatchRefusal c kind = none) : s.dispatch failing c kind = s := by
  unfold State.dispatch
  rw [h]
  cases s.inFlight <;> rfl

theorem State.dispatch_refused (hf : s.inFlight = some f) {r : Reason} (h : dispatchRefusal c kind = some r) :
    s.dispatch failing c kind = s.answer failing f 16 [] (some r) := by
  unfold State.dispatch
  rw [hf, h]

end

/-! ### The examination -/

/-- The slip in flight that the examination of chain `c` takes (R22, R137). -/
def State.takenSlip (s : State) (c : Chain) : InFlight :=
  { chain := c, kind := Memory.read s.mem (s.slipAddress (s.chain c).cursor + 1), progress := .working,
    evalTime := s.clock }

/-- The state in which the slip of chain `c` has just been taken (R137). -/
def State.taken (s : State) (c : Chain) : State :=
  { s.setChain c { s.chain c with state := .active } with
    examining := none, mem := Memory.write s.mem (s.slipAddress (s.chain c).cursor) 2#8,
    inFlight := some (s.takenSlip c), phase := s.phase + 1 }

section
variable {s : State} {c : Chain}

theorem State.taken_eq (s : State) (c : Chain) : State.take c (s.takenSlip c).kind { s with
    examining := none, mem := Memory.write s.mem (s.slipAddress (s.chain c).cursor) 2#8 } = s.taken c := by
  cases c <;> rfl

theorem State.taken_chain (s : State) (c : Chain) : (s.taken c).chain c = { s.chain c with state := .active } := by
  cases c <;> rfl

theorem State.taken_windows (s : State) (c : Chain) : (s.taken c).windows = s.windows := by cases c <;> rfl

/-- The slip taken lies where it lay. -/
theorem State.taken_placed (hv : s.linkValid (s.chain c).cursor = true) :
    (s.taken c).linkValid ((s.taken c).chain c).cursor = true := by
  rw [State.taken_chain, State.linkValid_congr (s.taken_windows c)]
  exact hv

theorem Inv.taken_wf (h : Inv s) (he : s.examining = some c) : Memory.wf (s.taken c).mem = true :=
  Memory.write_wf h.memory (State.admits_lt (State.admits_slip (h.cursor_of_examining he) (o := 0) (by decide))) 2#8

/-- An examination that reads POSTED takes the slip and dispatches it (R137, R138). -/
theorem Inv.examine_posted (h : Inv s) (he : s.examining = some c)
    (hm : Memory.read s.mem (s.slipAddress (s.chain c).cursor) = 1#8) :
    s.examine [] = (s.taken c).dispatch [] c (s.takenSlip c).kind := by
  rw [State.examine_posted he (h.cursor_of_examining he) hm, ← State.taken_eq]
  rfl

end

/-- Settles O29: the kinds by their table; the slip taken is dispatched, and a refusal is an answer without results. -/
theorem examinationTakesPostedSlip : Obligations.ExaminationTakesPostedSlip := by
  refine ⟨fun kind => ?kinds, fun s c h he hm => ?takes⟩
  case kinds =>
    simp only [dispatchRefusal_eq]
    refine ⟨fun h1 h2 => ?_, fun h1 h2 => ?_, fun h1 => ?_, fun h1 => ?_, fun h1 c => ?_⟩
    · rw [if_neg (by omega), if_neg (by omega)]
    · rw [if_neg (by omega), if_pos (by omega)]
    · rw [if_neg (by omega), if_pos h1]
    · rw [if_neg (by omega), if_neg (by omega)]
    · rw [if_pos (by omega)]
  case takes =>
    rw [exec_examination, h.examine_posted he hm]
    refine ⟨s.taken c, s.takenSlip c, rfl, rfl, Memory.read_write_same h.memory _ _,
      fun a ha => Memory.read_write_other _ _ ha, fun accepted => ?_, fun r refused => ?_⟩
    · rw [State.dispatch_accepted accepted]
    · rw [State.dispatch_refused (f := s.takenSlip c) rfl refused]
      exact ⟨_, rfl, State.answer_answered (State.taken_placed (h.cursor_of_examining he)) (h.taken_wf he) le_rfl
        (by decide)⟩

section
variable {s : State} {failing : List Access} {c : Chain}

theorem State.parkOnStage_restart (h : (s.chain c).restartRemembered = true) :
    s.parkOnStage failing c = s.takeHead failing c := if_pos h

theorem State.parkOnStage_nudged (h1 : (s.chain c).restartRemembered = false) (h2 : (s.chain c).pendingNudge = true) :
    s.parkOnStage failing c = s.setChain c { s.chain c with state := .ahead, pendingNudge := false } := by
  simp only [State.parkOnStage, h1, h2, Bool.false_eq_true, if_false, if_true]

theorem State.parkOnStage_parks (h1 : (s.chain c).restartRemembered = false) (h2 : (s.chain c).pendingNudge = false) :
    s.parkOnStage failing c = s.setChain c { s.chain c with state := .parkedOnStage } := by
  simp only [State.parkOnStage, h1, h2, Bool.false_eq_true, if_false]

end

/-- Settles O30. -/
theorem examinationParksChain : Obligations.ExaminationParksChain := by
  intro s c h he hm
  rw [exec_examination, State.examine_parks he (h.cursor_of_examining he) hm]
  have same : ({ s with examining := none } : State).chain c = s.chain c := State.chain_congr rfl rfl c
  refine ⟨fun h1 h2 => ?_, fun h1 h2 => ?_, fun h1 => ?_⟩
  · rw [State.parkOnStage_parks (by rwa [same]) (by rwa [same]), same]
  · rw [State.parkOnStage_nudged (by rwa [same]) (by rwa [same]), same]
  · rw [State.parkOnStage_restart (by rwa [same])]
    exact ⟨_, rfl, State.takeHead_taken _ c⟩

/-! ### A link that is followed -/

section
variable {s : State} {c : Chain} {l : Link}

/-- The release of slip `l`: RELEASED is written and the chain is AHEAD at the slip's link, with no tail (R139). -/
def State.released (s : State) (c : Chain) (l : Link) : State :=
  { s with mem := Memory.write s.mem (s.slipAddress l) 4#8 }.setChain c
    { s.chain c with state := .ahead, cursor := s.linkOf l, tail := 0#24, rereading := false }

/-- The chain parks on link at slip `l`, its last (R139). -/
def State.parkedAt (s : State) (c : Chain) (l : Link) : State :=
  s.setChain c { s.chain c with state := .parkedOnLink, cursor := l, tail := l, rereading := false }

/-- The release changes the chain's record, here in any form `r` it is given, and memory. -/
theorem State.released_eq {r : ChainRec}
    (hr : r = { s.chain c with state := .ahead, cursor := s.linkOf l, tail := 0#24, rereading := false }) :
    s.released c l = { s.setChain c r with mem := (s.released c l).mem } := by
  subst hr
  cases c <;> rfl

theorem State.released_mem (s : State) (c : Chain) (l : Link) :
    (s.released c l).mem = Memory.write s.mem (s.slipAddress l) 4#8 := by cases c <;> rfl

theorem State.released_read (h : Memory.wf s.mem = true) :
    Memory.read (s.released c l).mem (s.slipAddress l) = 4#8 := by
  rw [State.released_mem]
  exact Memory.read_write_same h _ _

theorem State.released_read_other {a : Nat} (ha : a ≠ s.slipAddress l) :
    Memory.read (s.released c l).mem a = Memory.read s.mem a := by
  rw [State.released_mem]
  exact Memory.read_write_other _ _ ha

/-- A valid link is followed, and a restart that came meanwhile then reads the head (R139, R141). -/
theorem State.link_valid (hv : s.linkValid l = true) (h1 : s.linkOf l ≠ 0#24) (h2 : s.linkValid (s.linkOf l) = true)
    (restart : Bool) : (s.followLink [] c l).afterLink [] c restart
      = if restart then (s.released c l).takeHead [] c else s.released c l := by
  rw [State.followLink_valid hv h1 h2]
  exact State.afterLink_ahead [] restart (by simp)

/-- A link that is not valid breaks the chain, whatever came meanwhile (R139, R141). -/
theorem State.link_invalid (hv : s.linkValid l = true) (h1 : s.linkOf l ≠ 0#24)
    (h2 : s.linkValid (s.linkOf l) = false) (restart : Bool) :
    (s.followLink [] c l).afterLink [] c restart = s.breakChain c (s.linkOf l) := by
  rw [State.followLink_invalid hv h1 h2]
  exact State.afterLink_broken [] restart (by rw [State.breakChain_chain, if_pos rfl]; rfl)

theorem State.link_zero (hv : s.linkValid l = true) (h1 : s.linkOf l = 0#24) (restart : Bool) :
    (s.followLink [] c l).afterLink [] c restart = if restart then (s.parkedAt c l).takeHead [] c
      else if (s.chain c).pendingNudge then
        s.setChain c { s.chain c with state := .parkedOnLink, cursor := l, tail := l, pendingNudge := false,
                                      rereading := true }
      else s.parkedAt c l := by
  rw [State.followLink_zero hv h1, State.afterLink_parked [] restart (by simp)]
  simp only [State.setChain_chain_same]
  cases c <;> rfl

/-- A head read after the chain has parked. -/
theorem State.parkedAt_takeHead (s : State) (c : Chain) (l : Link) :
    HeadTaken s c (s.headOf c) ((s.parkedAt c l).takeHead [] c) := by
  have same : (s.parkedAt c l).headOf c = s.headOf c := by simp [State.parkedAt, State.headOf]
  rw [← same]
  exact (State.takeHead_taken _ c).of_setChain

end

/-! ### The follow-up -/

section
variable {s : State} {failing : List Access} {f : InFlight}

theorem State.chain_landed (s : State) (c : Chain) : ({ s with inFlight := none } : State).chain c = s.chain c :=
  State.chain_congr rfl rfl c

theorem State.followUp_restart (hf : s.inFlight = some f) (hp : f.progress = .answered)
    (hr : (s.chain f.chain).restartRemembered = true) (b : Bool) :
    s.followUp failing b = State.takeHead failing f.chain { s with inFlight := none } := by
  simp only [State.followUp, hf, hp, if_true, s.chain_landed, hr]

theorem State.followUp_link (hf : s.inFlight = some f) (hp : f.progress = .answered)
    (hr : (s.chain f.chain).restartRemembered = false) (b : Bool) : s.followUp failing b
      = (State.followLink failing f.chain (s.chain f.chain).cursor { s with inFlight := none }).afterLink failing
          f.chain b := by
  simp only [State.followUp, hf, hp, if_true, s.chain_landed, hr, Bool.false_eq_true, if_false]

end

/-- Settles O31: with no restart remembered the link decides. -/
theorem followUpActsOnLink : Obligations.FollowUpActsOnLink := by
  intro s f h hf hp
  dsimp only
  have hv : State.linkValid { s with inFlight := none } (s.chain f.chain).cursor = true := h.cursor_of_inFlight hf
  have landed := s.chain_landed f.chain
  have still := h.rereading_of_inFlight hf
  refine ⟨fun hr b => ?restart, fun hr => ?link⟩
  case restart =>
    rw [exec_followUp, State.followUp_restart hf hp hr]
    exact ⟨_, rfl, State.takeHead_taken _ f.chain⟩
  case link =>
    simp only [exec_followUp, State.followUp_link hf hp hr]
    refine ⟨fun h1 h2 => ?valid, fun h1 h2 b => ?invalid, fun h1 h2 => ?parks, fun h1 h2 => ?rereads, fun h1 => ?late⟩
    case valid =>
      simp only [State.link_valid hv h1 h2, Bool.false_eq_true, if_false, if_true]
      refine ⟨_, rfl, State.released_eq ?_, State.released_read h.memory, fun a ha => State.released_read_other ha, _,
        rfl, State.takeHead_taken _ f.chain⟩
      rw [landed, ← still]
      rfl
    case invalid =>
      rw [State.link_invalid hv h1 h2]
      exact ⟨_, rfl, State.breakChain_broken _ f.chain _⟩
    case parks =>
      rw [State.link_zero hv h1, if_neg Bool.false_ne_true, landed, if_neg (by rw [h2]; decide), State.parkedAt, landed,
        ← still]
    case rereads =>
      simp only [State.link_zero hv h1, landed, h2, Bool.false_eq_true, if_false, if_true]
    case late =>
      rw [State.link_zero hv h1]
      exact ⟨_, rfl, State.parkedAt_takeHead _ f.chain _⟩

/-! ### The re-read of a tail's link -/

theorem State.tailReread_link {s : State} {failing : List Access} {c : Chain} (hr : (s.chain c).rereading = true) :
    s.tailReread failing c = (s.followLink failing c (s.chain c).tail).afterLink failing c
      (s.chain c).restartRemembered := if_pos hr

/-- Settles O32: the tail is the cursor of the parked chain, so link 0 leaves it parked as it was. -/
theorem tailRereadActsOnLink : Obligations.TailRereadActsOnLink := by
  intro s c h hr
  dsimp only
  obtain ⟨parked, same, hv⟩ := h.parked_of_rereading hr
  rw [exec_tailLinkReread, State.tailReread_link hr]
  refine ⟨fun h1 h2 => ?valid, fun h1 h2 => ?invalid, fun h1 h2 h3 => ?parks, fun h1 h2 h3 => ?rereads,
    fun h1 h2 => ?head⟩
  case valid =>
    rw [State.link_valid hv h1 h2]
    refine ⟨s.released c (s.chain c).tail, _, rfl, State.released_eq rfl, State.released_read h.memory,
      fun a ha => State.released_read_other ha, fun h3 => ?_, fun h3 => ?_⟩
    · exact if_neg (by rw [h3]; decide)
    · rw [if_pos h3]
      exact State.takeHead_taken _ c
  case invalid =>
    rw [State.link_invalid hv h1 h2]
    exact ⟨_, rfl, State.breakChain_broken s c _⟩
  case parks =>
    rw [State.link_zero hv h1, if_neg (by rw [h2]; decide), if_neg (by rw [h3]; decide), State.parkedAt, ← parked, same]
  case rereads =>
    simp only [State.link_zero hv h1, h2, h3, Bool.false_eq_true, if_false, if_true]
    rw [← parked, same, ← hr]
  case head =>
    rw [State.link_zero hv h1, h2]
    exact ⟨_, rfl, State.parkedAt_takeHead s c _⟩

/-! ### NUDGE -/

theorem nudgedChain_chainNumber (c : Chain) : nudgedChain (chainNumber c) = some c := by cases c <;> rfl

theorem nudgedChain_none {n : BitVec 2} (h : 2 ≤ n.toNat) : nudgedChain n = none := by
  have ne : ∀ m : BitVec 2, m.toNat < 2 → n ≠ m := fun m hm e => by
    rw [e] at h
    omega
  simp only [nudgedChain, if_neg (ne 0#2 (by decide)), if_neg (ne 1#2 (by decide))]

section
variable {s : State} {act : Chain → State → State}

theorem State.onNudge_acts (awake : s.awake = true) (c : Chain) :
    s.onNudge (chainNumber c) act = act c { s with part := .running } := by
  simp only [State.onNudge, if_pos awake, nudgedChain_chainNumber]

theorem State.onNudge_asleep (asleep : s.awake = false) (n : BitVec 2) : s.onNudge n act = s := by
  simp only [State.onNudge, asleep, Bool.false_eq_true, if_false]

theorem State.onNudge_none {n : BitVec 2} (h : 2 ≤ n.toNat) : s.onNudge n act = s := by
  simp only [State.onNudge, nudgedChain_none h, ite_self]

end

/-- Settles O33: a NUDGE that acts replaces the named chain's record, by its state. -/
theorem nudgeActsByChainState : Obligations.NudgeActsByChainState := by
  intro s c released
  have ignored : ∀ n, (∀ act, s.onNudge n act = s) → exec (.nudge n) s = .next s ∧ exec (.nudgeRestart n) s = .next s :=
    fun n h => by simp only [exec_nudge, exec_nudgeRestart, hostWrite_acts released, h, and_self]
  refine ⟨fun awake => ?acts, fun asleep n => ignored n fun _ => State.onNudge_asleep asleep n,
    fun n h => ignored n fun _ => State.onNudge_none h⟩
  case acts =>
    have same : ({ s with part := .running } : State).chain c = s.chain c := State.chain_congr rfl rfl c
    refine ⟨{ s with part := .running }.setChain c (s.chain c).nudged, ?_, ?_, ?_, ?_⟩
    · rw [exec_nudge, hostWrite_acts released, State.onNudge_acts awake, same]
    · cases c <;> rfl
    · rw [State.setChain_chain_other]
      exact State.chain_congr rfl rfl _
    · rw [State.setChain_chain_same]
      refine ⟨fun h1 h2 => ?_, fun h1 h2 => ?_, fun h1 => ?_, ?_, ?_⟩
      · simp only [ChainRec.nudged, h1, h2, Bool.false_eq_true, if_false]
      · simp only [ChainRec.nudged, h1, h2, if_true]
      · simp only [ChainRec.nudged, h1]
      · rintro (h1 | h1) <;> simp only [ChainRec.nudged, h1]
      · rintro (h1 | h1) <;> simp only [ChainRec.nudged, h1]

theorem State.chainBusy_iff (s : State) (c : Chain) : s.chainBusy c = true ↔ (s.chain c).state = .active
    ∨ (s.chain c).rereading = true ∨ s.examining = some c := by
  simp [State.chainBusy, or_assoc]

/-- Settles O34. -/
theorem restartNudgeReadsOrRemembers : Obligations.RestartNudgeReadsOrRemembers := by
  intro s c released awake
  have same : ({ s with part := .running } : State).chain c = s.chain c := State.chain_congr rfl rfl c
  have busy := s.chainBusy_iff c
  have acts : exec (.nudgeRestart (chainNumber c)) s = .next (State.restart [] c { s with part := .running }) := by
    rw [exec_nudgeRestart, hostWrite_acts released, State.onNudge_acts awake]
  rw [← State.chainBusy_congr (t := { s with part := .running }) same rfl] at busy
  rw [acts, State.restart, same]
  refine ⟨fun h => ?_, fun h1 h2 h3 => ?_⟩
  · rw [if_pos (busy.mpr h)]
  · have free : ¬ State.chainBusy c { s with part := .running } = true := by
      rw [busy]
      simp [h1, h2, h3]
    rw [if_neg free]
    exact ⟨_, rfl, State.takeHead_taken _ c⟩

end Sys2Proof.Machine
end

section
/-!
PROOFS. The trip slips (01_the_trip_context.md): TRIP BEGIN and TRIP END with their refusals, and POSITION.
-/
namespace Sys2Proof.Machine

/-! ### A slip being worked -/

theorem not_noTrip {t : TripState} (h : t = .inTrip) : t ≠ .noTrip := by
  rw [h]
  decide

theorem not_inTrip {t : TripState} (h : t = .noTrip) : t ≠ .inTrip := by
  rw [h]
  decide

section
variable {s : State} {kind : Byte} {f : InFlight}

theorem Working.inFlight (h : Working s kind f) : s.inFlight = some f ∧ f.kind = kind ∧ f.progress = .working :=
  State.working_inFlight h.working

/-- The ordinary command of the kind works the slip. -/
theorem Working.exec_eq (h : Working s kind f) {c : Instr} {work : InFlight → State → State}
    (hc : exec c s = .next (s.workOn kind work)) : exec c s = .next (work f s) := by
  rw [hc, State.workOn_of_working h.working]

/-- A failed access of the work finds the same slip (R156). -/
theorem Working.exec_failed (h : Working s kind f) (timeout : Bool) (failing : List Access) :
    exec (accessFailed timeout .work failing) s = .next (s.workSlip failing f) := by
  obtain ⟨hf, -, hp⟩ := h.inFlight
  rw [exec_accessFailed]
  simp only [State.activity, State.workFailing, hf, hp, if_true]

/-- A refusal of the slip as the state stands. -/
theorem Working.refused (h : Working s kind f) {resultAt : Nat} {result : List Byte} {r : Option Reason}
    (h1 : 16 ≤ resultAt) (h2 : resultAt + result.length ≤ 512) :
    Answered s f resultAt result r (s.answer [] f resultAt result r) :=
  h.answer rfl rfl rfl rfl h1 h2

end

/-! ### The TRIP slip -/

section
variable {s : State} {failing : List Access} {f : InFlight} {wanted : Nat}

theorem State.workTrip_begin
    (h : readField (s.slipByte failing (s.chain f.chain).cursor) 16 1 = some formBegin) :
    s.workTrip failing formBegin f = s.workBegin failing f := by
  simp only [State.workTrip, h, if_true]

theorem State.workTrip_end (h : readField (s.slipByte failing (s.chain f.chain).cursor) 16 1 = some formEnd) :
    s.workTrip failing formEnd f = s.workEnd failing f := by
  have other : formEnd ≠ formBegin := by decide
  simp only [State.workTrip, h, if_neg other, if_true]

/-- A form that is neither is refused by either command (R9). -/
theorem State.workTrip_neither {form : Nat}
    (h : readField (s.slipByte failing (s.chain f.chain).cursor) 16 1 = some form) (h1 : form ≠ formBegin)
    (h2 : form ≠ formEnd) : s.workTrip failing wanted f = s.refuseTrip failing f .badField := by
  simp only [State.workTrip, h, if_neg h1, if_neg h2]

theorem State.workBegin_inTrip (h : s.trip.state = .inTrip) :
    s.workBegin failing f = s.refuseTrip failing f .tripActive := if_pos h

theorem State.workEnd_noTrip (h : s.trip.state = .noTrip) :
    s.workEnd failing f = s.refuseTrip failing f .noTrip := if_pos h

theorem State.workEnd_inTrip (h : s.trip.state = .inTrip) : s.workEnd failing f
    = s.endTrip.answer failing f tripResultAt
        (tripEndResult s.journal.entries.length s.trip.ownCount.toNat s.clock.toNat) none :=
  if_neg (by rw [h]; decide)

section
variable {q : TripRequest} (hn : s.trip.state = .noTrip)
  (hq : readTripRequest (s.slipByte failing (s.chain f.chain).cursor) = some q)
include hn hq

theorem State.workBegin_refused {r : Reason} (hc : s.checkTripBegin failing q = .refused r) :
    s.workBegin failing f = s.refuseTrip failing f r := by
  simp only [State.workBegin, if_neg (not_inTrip hn), hq, hc]

theorem State.workBegin_tableRead (hc : s.checkTripBegin failing q = .tableRead) :
    s.workBegin failing f = (s.tableFault noSlot 14).refuseTrip failing f .tableRead := by
  simp only [State.workBegin, if_neg (not_inTrip hn), hq, hc]

theorem State.workBegin_accepted {plan : List RouteSection} (hc : s.checkTripBegin failing q = .accepted plan) :
    s.workBegin failing f = (s.beginTrip q plan).answer failing f tripResultAt
      (tripBeginResult plan.length q.priorityCount (min q.horizon 240) (max q.hi q.lo)) none := by
  simp only [State.workBegin, if_neg (not_inTrip hn), hq, hc]

end

/-! ### The checks of a TRIP BEGIN, in order (R9) -/

section
variable {q : TripRequest}

theorem State.checkTripBegin_badField (h : q.inRange = false) : s.checkTripBegin failing q = .refused .badField := by
  simp only [State.checkTripBegin, h, Bool.not_false, if_true]

section
variable (hq : q.inRange = true)
include hq

theorem State.checkTripBegin_tablesUnusable (ht : s.tables ≠ .usable) :
    s.checkTripBegin failing q = .refused .tablesUnusable := by
  simp only [State.checkTripBegin, hq, Bool.not_true, Bool.false_eq_true, if_false, if_pos ht]

section
variable (ht : s.tables = .usable)
include ht

theorem State.checkTripBegin_badNetwork
    (hm : ∃ n ∈ q.priority ++ [byteOf q.fallback], slotOf s.snapshot n = none) :
    s.checkTripBegin failing q = .refused .badNetwork := by
  simp only [State.checkTripBegin, hq, ht, Bool.not_true, Bool.false_eq_true, if_false, ne_eq, not_true_eq_false,
    missingNetwork_some hm, if_true]

/-! With the tables and the networks in order the route walk decides (R11). -/

section
variable (hm : ∀ n ∈ q.priority ++ [byteOf q.fallback], slotOf s.snapshot n ≠ none)
include hm

theorem State.checkTripBegin_badRoute (route : s.routeWalk failing q.planOffset q.start = .badRoute) :
    s.checkTripBegin failing q = .refused .badRoute := by
  simp only [State.checkTripBegin, hq, ht, Bool.not_true, Bool.false_eq_true, if_false, ne_eq, not_true_eq_false,
    missingNetwork_none hm, Option.isSome_none, route]

theorem State.checkTripBegin_tableRead (route : s.routeWalk failing q.planOffset q.start = .accessError) :
    s.checkTripBegin failing q = .tableRead := by
  simp only [State.checkTripBegin, hq, ht, Bool.not_true, Bool.false_eq_true, if_false, ne_eq, not_true_eq_false,
    missingNetwork_none hm, Option.isSome_none, route]

theorem State.checkTripBegin_planned {plan : List RouteSection}
    (route : s.routeWalk failing q.planOffset q.start = .plan plan) : s.checkTripBegin failing q = .accepted plan := by
  simp only [State.checkTripBegin, hq, ht, Bool.not_true, Bool.false_eq_true, if_false, ne_eq, not_true_eq_false,
    missingNetwork_none hm, Option.isSome_none, route]

end

end
end
end
end

/-! ### The statements on TRIP -/

theorem Working.form {s : State} {f : InFlight} (h : Working s kindTrip f) {form : Byte}
    (hm : Memory.read s.mem (s.slipOf f + 16) = form) :
    readField (s.slipByte [] (s.chain f.chain).cursor) 16 1 = some form.toNat := by
  rw [h.bodyByte, hm]

theorem exec_tripBegin_form {s : State} {f : InFlight} (h : Working s kindTrip f)
    (hm : Memory.read s.mem (s.slipOf f + 16) = 1#8) : exec .tripBegin s = .next (s.workBegin [] f) := by
  rw [h.exec_eq (exec_tripBegin s), State.workTrip_begin (h.form hm)]

theorem exec_tripEnd_form {s : State} {f : InFlight} (h : Working s kindTrip f)
    (hm : Memory.read s.mem (s.slipOf f + 16) = 2#8) : exec .tripEnd s = .next (s.workEnd [] f) := by
  rw [h.exec_eq (exec_tripEnd s), State.workTrip_end (h.form hm)]

/-- R8 on the context stored: H above 240 as 240, hi below lo as lo. -/
theorem min_horizon_eq (v : Nat) : min v 240 = if 240 < v then 240 else v := by
  split <;> omega

theorem max_tolerance_eq (hi lo : Nat) : max hi lo = if hi < lo then lo else hi := by
  split <;> omega

/-- Settles O37. -/
theorem tripBeginStoresContext : Obligations.TripBeginStoresContext := by
  intro s f q plan h hm hn hq range usable networks route
  have accepted := State.checkTripBegin_planned range usable networks route
  refine ⟨_, by rw [exec_tripBegin_form h hm, State.workBegin_accepted hn hq accepted], ?_⟩
  rw [← min_horizon_eq, ← max_tolerance_eq]
  exact h.answer rfl rfl rfl rfl (by decide) (by simp)

/-- Settles O39. -/
theorem tripEndClearsTheTrip : Obligations.TripEndClearsTheTrip := by
  intro s f h hm hin
  refine ⟨s.endTrip, _, by rw [exec_tripEnd_form h hm, State.workEnd_inTrip hin], rfl, rfl, ?_⟩
  exact h.answer rfl rfl rfl rfl (by decide) (by simp)

/-- Settles O38: the refusals in the order of the checks; access errors on table reads leave the slip's reads and the
answer, and change the route walk as its lemmas say. -/
theorem tripSlipRefusals : Obligations.TripSlipRefusals := by
  intro s f h
  have zero : ∀ r, Answered s f 64 (List.replicate 16 0#8) (some r) (s.refuseTrip [] f r) := fun r =>
    h.refused (by decide) (by decide)
  refine ⟨fun h1 h2 => ?neither, fun hm hn => ?endNoTrip, fun hm hin => ?beginInTrip, fun q hm hn hq => ?checks⟩
  case neither =>
    have form := h.form rfl
    have notBegin : (Memory.read s.mem (s.slipOf f + 16)).toNat ≠ formBegin := mt (BitVec.toNat_inj (y := 1#8)).mp h1
    have notEnd : (Memory.read s.mem (s.slipOf f + 16)).toNat ≠ formEnd := mt (BitVec.toNat_inj (y := 2#8)).mp h2
    refine ⟨_, ?_, ?_, zero .badField⟩
    · rw [h.exec_eq (exec_tripBegin s), State.workTrip_neither form notBegin notEnd]
    · rw [h.exec_eq (exec_tripEnd s), State.workTrip_neither form notBegin notEnd]
  case endNoTrip => exact ⟨_, by rw [exec_tripEnd_form h hm, State.workEnd_noTrip hn], zero .noTrip⟩
  case beginInTrip => exact ⟨_, by rw [exec_tripBegin_form h hm, State.workBegin_inTrip hin], zero .tripActive⟩
  case checks =>
    have refused : ∀ r, s.checkTripBegin [] q = .refused r → ∃ t, exec .tripBegin s = .next t
        ∧ Answered s f 64 (List.replicate 16 0#8) (some r) t := fun r hc =>
      ⟨_, by rw [exec_tripBegin_form h hm, State.workBegin_refused hn hq hc], zero r⟩
    refine ⟨fun range => refused _ (State.checkTripBegin_badField range),
      fun range usable => refused _ (State.checkTripBegin_tablesUnusable range usable),
      fun range usable missing => refused _ (State.checkTripBegin_badNetwork range usable missing),
      fun range usable networks route => refused _ (State.checkTripBegin_badRoute range usable networks route),
      fun range usable networks timeout failing table => ⟨fun route => ?tableRead, fun o holds ho hf => ?count,
        fun sections i x o route hx h3 ho hf => ?sections, ?other⟩⟩
    case tableRead =>
      have slip := State.slipByte_of_not (s := s) (l := (s.chain f.chain).cursor) (not_slipRead_of_table table)
      have form : readField (s.slipByte failing (s.chain f.chain).cursor) 16 1 = some formBegin := by
        rw [slip]
        exact h.form hm
      have check := State.checkTripBegin_tableRead range usable networks route
      refine ⟨s.tableFault noSlot 14, _, ?_, State.tableFault_failed s noSlot 14,
        h.answer (by simp) (by simp) (by simp) (by simp) (by decide) (by decide)⟩
      rw [h.exec_failed, State.workSlip, if_pos h.inFlight.2.1, form, Option.getD_some, State.workTrip_begin form,
        State.workBegin_tableRead hn (by rwa [slip]) check, State.refuseTrip, State.answer_of_table table]
      rfl
    case count => exact State.routeWalk_count_fails holds ho hf
    case sections => exact State.routeWalk_section_fails route hx h3 ho hf
    case other =>
      rcases s.routeWalk_as failing q.planOffset q.start with same | ⟨error, -⟩
      · exact .inr same
      · exact .inl error

/-! ### POSITION -/

@[simp] theorem byteOf_toNat_byte (b : Byte) : byteOf b.toNat = b := BitVec.ofNat_toNat 8 b

section
variable {s : State} {failing : List Access} {f : InFlight} {q : PositionRequest}

theorem State.workPosition_noTrip (h : s.trip.state = .noTrip) :
    s.workPosition failing f = s.refusePosition failing f .noTrip := if_pos h

section
variable (hin : s.trip.state = .inTrip)
  (hq : readPositionRequest (s.slipByte failing (s.chain f.chain).cursor) = some q)
include hin hq

theorem State.workPosition_refused {r : Reason} (hc : s.checkPosition q = some r) :
    s.workPosition failing f = s.refusePosition failing f r := by
  simp only [State.workPosition, if_neg (not_noTrip hin), hq, hc]

theorem State.workPosition_accepted (hc : s.checkPosition q = none) : s.workPosition failing f
    = (s.applyPosition q).answer failing f positionResultAt
        (positionResult (s.applyPosition q).trip.current.toNat (s.applyPosition q).trip.delay.toNat
          (positionFlagBits (decide (s.positionJudgement q = some .stepped))
            (decide (s.positionJudgement q = some .notAdopted))) (s.applyPosition q).clock.toNat) none := by
  simp only [State.workPosition, if_neg (not_noTrip hin), hq, hc]

end

theorem State.checkPosition_accepted (h1 : q.flag ≤ 1) (h2 : q.section_ < s.trip.plan.length)
    (h3 : s.trip.current.toNat ≤ q.section_) : s.checkPosition q = none := by
  rw [State.checkPosition, if_neg (by omega), if_neg (by omega)]

theorem State.checkPosition_badField (h : 1 < q.flag ∨ s.trip.plan.length ≤ q.section_) :
    s.checkPosition q = some .badField := if_pos h

theorem State.checkPosition_backward (h1 : q.flag ≤ 1) (h2 : q.section_ < s.trip.plan.length)
    (h3 : q.section_ < s.trip.current.toNat) : s.checkPosition q = some .positionBackward := by
  rw [State.checkPosition, if_neg (by omega), if_pos h3]

theorem positionResult_length (current delay flags clock : Nat) :
    (positionResult current delay flags clock).length = 8 := by
  simp [positionResult]

/-- An accepted POSITION without a report (R16). -/
theorem State.workPosition_placed (hin : s.trip.state = .inTrip)
    (hq : readPositionRequest (s.slipByte failing (s.chain f.chain).cursor) = some q) (hc : s.checkPosition q = none)
    (h0 : q.flag = 0) : s.workPosition failing f = (s.place q).answer failing f positionResultAt
      ([byteOf q.section_, byteOf q.delay, 0#8, 0#8] ++ leBytes 4 s.clock.toNat) none := by
  have none_ : s.positionJudgement q = none := if_neg (by omega)
  have placed : s.applyPosition q = s.place q := by simp only [State.applyPosition, none_]
  rw [State.workPosition_accepted hin hq hc, placed, none_]
  simp only [positionResult, State.place, byteOf_toNat_byte]
  rfl

/-- An accepted POSITION whose report is judged (R16, R23). -/
theorem State.workPosition_judged (hin : s.trip.state = .inTrip)
    (hq : readPositionRequest (s.slipByte failing (s.chain f.chain).cursor) = some q) (hc : s.checkPosition q = none)
    (h1 : q.flag = 1) {j : Judgement} (hj : j = judge s.trip.lo.toNat s.trip.hi.toNat s.clock.toNat q.report) :
    s.workPosition failing f = ((s.place q).applyJudgement j q.report).answer failing f positionResultAt
      ([byteOf q.section_, byteOf q.delay, byteOf (positionFlagBits (decide (j = .stepped)) (decide (j = .notAdopted))),
        0#8] ++ leBytes 4 ((s.place q).applyJudgement j q.report).clock.toNat) none := by
  have judged : s.positionJudgement q = some j := by rw [State.positionJudgement, if_pos h1, hj]
  have applied : s.applyPosition q = (s.place q).applyJudgement j q.report := by
    simp only [State.applyPosition, judged]
  rw [State.workPosition_accepted hin hq hc, applied, judged]
  simp only [positionResult, State.applyJudgement_frame, Option.some.injEq]
  simp only [State.place, byteOf_toNat_byte]

theorem State.stamp_inTrip (h : s.trip.state = .inTrip) : s.stamp = s.clock := if_pos h

theorem State.stamp_noTrip (h : s.trip.state = .noTrip) : s.stamp = 0#32 := if_neg (by rw [h]; decide)

end

/-- Settles O40. -/
theorem positionMovesTheTrain : Obligations.PositionMovesTheTrain := by
  intro s f q h hin hq hflag hsec hcur _
  dsimp only
  have check := State.checkPosition_accepted hflag hsec hcur
  have run := h.exec_eq (exec_position s)
  refine ⟨fun h0 => ?placed, fun h1 => ?judged⟩
  case placed =>
    rw [run, State.workPosition_placed hin hq check h0]
    exact ⟨_, rfl, h.answer rfl rfl rfl rfl (by decide) (by simp)⟩
  case judged =>
    rw [run, State.workPosition_judged hin hq check h1 rfl]
    exact ⟨_, _, rfl, rfl, h.answer (by simp) (by simp) (by simp)
      (by simp) (by decide) (by simp)⟩

/-- Settles O41: a refusal shows section, delay and clock as they stand, which in NO_TRIP are 0. -/
theorem positionRefusals : Obligations.PositionRefusals := by
  intro s f hI h
  have run := h.exec_eq (exec_position s)
  refine ⟨fun hn => ?noTrip, fun q hin hq => ?inTrip⟩
  case noTrip =>
    obtain ⟨cleared, -⟩ := hI.trip.noTrip hn
    rw [run, State.workPosition_noTrip hn, State.refusePosition, State.stamp_noTrip hn, cleared]
    exact ⟨_, rfl, h.refused (by decide) (by decide)⟩
  case inTrip =>
    have refused : ∀ r, s.checkPosition q = some r → ∃ t, exec .position s = .next t
        ∧ Answered s f 32 ([s.trip.current, s.trip.delay, 0#8, 0#8] ++ leBytes 4 s.clock.toNat) (some r) t := by
      intro r hc
      rw [run, State.workPosition_refused hin hq hc, State.refusePosition, State.stamp_inTrip hin]
      refine ⟨_, rfl, ?_⟩
      simp only [positionResult, byteOf_toNat_byte]
      exact h.refused (by decide) (by simp)
    exact ⟨fun bad => refused _ (State.checkPosition_badField bad),
      fun h1 h2 h3 => refused _ (State.checkPosition_backward h1 h2 h3)⟩

end Sys2Proof.Machine
end

section
/-!
PROOFS. The INSPECT slip (03_presented_tokens.md, 06_the_verdict.md): its record, its refusals, what a failed table read
does to it, and the verdict that is the highest.
-/
namespace Sys2Proof.Machine

/-! ### The verdict -/

section
variable {causes : List Cause} {suspicion : Bool} {total : Nat} {notes : List Note}

theorem verdictFor_invalid (h : causes ≠ []) : verdictFor causes suspicion total notes = .invalid := if_pos h

theorem verdictFor_challenge : verdictFor [] true total notes = .challenge := rfl

theorem verdictFor_excess (h : 0 < total) : verdictFor [] false total notes = .excess := by
  simp [verdictFor, h]

theorem verdictFor_noted (h : notes ≠ []) : verdictFor [] false 0 notes = .noted := by
  simp [verdictFor, h]

theorem verdictFor_valid : verdictFor [] false 0 [] = .valid := rfl

/-- The verdicts without an amount are reached only with a total of 0 (R94). -/
theorem amountFor_verdictFor : amountFor (verdictFor causes suspicion total notes) total = total := by
  unfold verdictFor
  split
  · rfl
  split
  · rfl
  split
  · rfl
  next none_due =>
    have zero : total = 0 := by omega
    split <;> simp [amountFor, zero]

end

theorem Cause.inOrder_sorted : Cause.inOrder.Pairwise (fun c d => c.code < d.code) := by decide

theorem Cause.mem_inOrder (c : Cause) : c ∈ Cause.inOrder := by cases c <;> decide

theorem reasonCode_nil : reasonCode [] = 0 := rfl

/-- The reason is the code of the least member. -/
theorem reasonCode_least {causes : List Cause} {c : Cause} (hc : c ∈ causes) (least : ∀ d ∈ causes, c.code ≤ d.code) :
    reasonCode causes = c.code := by
  unfold reasonCode
  cases found : Cause.inOrder.find? (fun d => causes.contains d) with
  | none => exact absurd (List.find?_eq_none.mp found c c.mem_inOrder) (by simp [hc])
  | some m =>
    obtain ⟨hm, before, after, order, skipped⟩ := List.find?_eq_some_iff_append.mp found
    have notBefore : c ∉ before := fun h => by simpa [hc] using skipped c h
    have place : c = m ∨ c ∈ after := by
      have := c.mem_inOrder
      rw [order, List.mem_append, List.mem_cons] at this
      tauto
    rcases place with rfl | later
    · rfl
    · have sorted := Cause.inOrder_sorted
      rw [order] at sorted
      have below := List.rel_of_pairwise_cons (List.pairwise_append.mp sorted).2.1 later
      have above := least m (by simpa using hm)
      exact absurd below (by omega)

/-- Settles O46. -/
theorem highestVerdictDecides : Obligations.HighestVerdictDecides := by
  intro causes suspicion total notes
  dsimp only
  refine ⟨verdictFor_invalid, ?challenge, ?excess, ?noted, ?valid, amountFor_verdictFor, ⟨rfl, rfl, rfl, rfl, rfl⟩,
    ?noCause, fun c hc least => reasonCode_least hc least⟩
  case challenge =>
    rintro rfl rfl
    exact verdictFor_challenge
  case excess =>
    rintro rfl rfl due
    exact verdictFor_excess due
  case noted =>
    rintro rfl rfl rfl noted
    exact verdictFor_noted noted
  case valid =>
    rintro rfl rfl rfl rfl
    exact verdictFor_valid
  case noCause =>
    rintro rfl
    exact reasonCode_nil

/-! ### The INSPECT slip -/

theorem State.workInspectOn_own {c : Chain} {f : InFlight} {s : State} (h : f.chain = c) :
    s.workInspectOn c f = s.workInspect [] f := if_pos h

section
variable {s : State} {failing : List Access} {f : InFlight}

/-- The command of the slip's own chain works the INSPECT in flight (R96, R101). -/
theorem Working.exec_inspection (h : Working s kindInspect f) :
    exec (if f.chain = .interactive then .inspect else .probe) s = .next (s.workInspect [] f) := by
  cases chain : f.chain with
  | interactive => rw [if_pos rfl, h.exec_eq (exec_inspect s), State.workInspectOn_own chain]
  | background => rw [if_neg (by decide), h.exec_eq (exec_probe s), State.workInspectOn_own chain]

theorem State.workInspect_noTrip (h : s.trip.state = .noTrip) :
    s.workInspect failing f = s.refuseInspect failing f .noTrip := if_pos h

section
variable {q : InspectRequest} (hin : s.trip.state = .inTrip)
  (hq : readInspectRequest (s.slipByte failing (s.chain f.chain).cursor) = some q)
include hin hq

theorem State.workInspect_badField (range : q.inRange = false) :
    s.workInspect failing f = s.refuseInspect failing f .badField := by
  simp only [State.workInspect, if_neg (not_noTrip hin), hq, range, Bool.not_false, if_true]

theorem State.workInspect_tablesUnusable (range : q.inRange = true) (ht : s.tables ≠ .usable) :
    s.workInspect failing f = s.refuseInspect failing f .tablesUnusable := by
  simp only [State.workInspect, if_neg (not_noTrip hin), hq, range, Bool.not_true, Bool.false_eq_true, if_false,
    if_pos ht]

end

theorem State.evaluateInspect_table {q : InspectRequest} {slot : Byte} {check : Nat}
    (h : s.findings failing (s.chain f.chain).cursor q f.evalTime = .error (.table slot check)) :
    s.evaluateInspect failing f q
      = ({ s with freeCount := s.freeCount + 1 }.tableFault slot check).refuseInspect failing f .tableRead := by
  simp only [State.evaluateInspect, h]

/-- An inspection that a failed table read ends, whether its accesses fail or a check of R64 does: the tables are
UNUSABLE and the slip is refused (R65, R99). -/
theorem Working.inspection_tableRead (h : Working s kindInspect f) {q : InspectRequest} {slot : Byte} {check : Nat}
    (hin : s.trip.state = .inTrip)
    (hq : readInspectRequest (s.slipByte failing (s.chain f.chain).cursor) = some q) (range : q.inRange = true)
    (usable : s.tables = .usable) (table : ∀ x ∈ failing, x.isTableRead = true)
    (found : s.findings failing (s.chain f.chain).cursor q f.evalTime = .error (.table slot check)) :
    ∃ u, TablesFailed { s with freeCount := s.freeCount + 1 } slot (BitVec.ofNat 8 check) u
      ∧ Answered u f 224 (List.replicate 64 0#8) (some .tableRead) (s.workInspect failing f) := by
  refine ⟨_, State.tableFault_failed _ slot check, ?_⟩
  rw [State.workInspect_evaluates hin hq range usable, State.evaluateInspect_table found, State.refuseInspect,
    State.answer_of_table table]
  exact h.answer (by simp) (by simp) (by simp) (by simp) (by decide) (by simp)

end

/-- Settles O42. -/
theorem inspectRecordsItsVerdict : Obligations.InspectRecordsItsVerdict := by
  intro s f q g h chain hin hq range usable found
  have run : exec .inspect s = .next (State.concludeInspect [] f g { s with freeCount := s.freeCount + 1 }) := by
    rw [h.exec_eq (exec_inspect s), State.workInspectOn_own chain, State.workInspect_evaluates hin hq range usable,
      State.evaluateInspect_ok found]
  refine ⟨_, _, run, rfl, ?_⟩
  rw [State.concludeInspect_interactive chain]
  exact h.answer (by simp) (by simp) (by simp) (by simp) (by decide) (by rw [verdictRecordBytes_length]; decide)

/-- Settles O43. -/
theorem probeLeavesNoTrace : Obligations.ProbeLeavesNoTrace := by
  intro s f q g h chain hin hq range usable found
  have run : exec .probe s = .next (State.answer [] f verdictRecordAt (verdictRecordBytes (g.record 0 f.evalTime))
      none { s with freeCount := s.freeCount + 1 }) := by
    rw [h.exec_eq (exec_probe s), State.workInspectOn_own chain, State.workInspect_evaluates hin hq range usable,
      State.evaluateInspect_ok found, State.concludeInspect_background chain]
  refine ⟨_, run, by simp, by simp, by simp, ?_⟩
  exact h.answer rfl rfl rfl rfl (by decide) (by rw [verdictRecordBytes_length]; decide)

/-- Settles O44. -/
theorem inspectRefusals : Obligations.InspectRefusals := by
  intro s f h
  dsimp only
  have refused : ∀ r, s.workInspect [] f = s.refuseInspect [] f r →
      ∃ t, exec (if f.chain = .interactive then .inspect else .probe) s = .next t
        ∧ Answered s f 224 (List.replicate 64 0#8) (some r) t := fun r work =>
    ⟨_, by rw [h.exec_inspection, work, State.refuseInspect]; rfl, h.refused (by decide) (by simp)⟩
  exact ⟨fun hn => refused _ (State.workInspect_noTrip hn), fun q hin hq =>
    ⟨fun range => refused _ (State.workInspect_badField hin hq range),
      fun range unusable => refused _ (State.workInspect_tablesUnusable hin hq range unusable)⟩⟩

/-- A failing read of byte order or serial width is check 15 of the issuer's slot (R65). -/
theorem State.findings_profile_fails {s : State} {failing : List Access} {l : Link} {q : InspectRequest} {t : Word}
    {issuer : Byte} {first profile o : Nat} (slip : ∀ i, Access.slipRead i ∉ failing) (ho : o < 2)
    (header : readTokenHeader (fun i => s.slipByte [] l (imageAt + i)) q.length = .ok (issuer, some first))
    (hp : s.profileOf issuer = some profile) (hf : .tableRead issuer (profile + o) ∈ failing) :
    s.findings failing l q t = .error (.table issuer 15) := by
  have decoded : s.decodeToken failing l q.length = .error (.table issuer 15) := by
    simp only [State.decodeToken, State.slipByte_of_not slip, header, hp]
    have byte := State.tableByte_failing (s := s) hf
    rcases (by omega : o = 0 ∨ o = 1) with rfl | rfl
    · rw [readField_none (o := profile) (by omega) (by omega) byte]
    · rw [readField_none (a := profile + 1) (by omega) (by omega) byte]
      cases readField (s.tableByte failing issuer) profile 1 <;> rfl
  have assessed : s.assess failing l q t.toNat = .error (.table issuer 15) := by
    simp only [State.assess, decoded]
    rfl
  simp only [State.findings, assessed]

/-- Settles O45. -/
theorem tableReadErrorRefusesInspect : Obligations.TableReadErrorRefusesInspect := by
  intro s f q h hin hq range usable
  refine ⟨fun slot check found => ?checkFails, fun timeout failing table =>
    ⟨fun slot check found => ?accessFails, ?findings, fun issuer first profile o ho header hp hf =>
      State.findings_profile_fails (not_slipRead_of_table table) ho header hp hf⟩⟩
  case checkFails =>
    obtain ⟨u, failed, answered⟩ := h.inspection_tableRead hin hq range usable (by simp) found
    exact ⟨u, _, h.exec_inspection, failed, answered⟩
  case accessFails =>
    have slip := State.slipByte_of_not (s := s) (l := (s.chain f.chain).cursor) (not_slipRead_of_table table)
    obtain ⟨u, failed, answered⟩ := h.inspection_tableRead hin (by rwa [slip]) range usable table found
    refine ⟨u, _, ?_, failed, answered⟩
    rw [h.exec_failed, State.workSlip, h.inFlight.2.1]
    rfl
  case findings =>
    rcases s.findings_findsAs (not_slipRead_of_table table) (s.chain f.chain).cursor q f.evalTime with
      same | ⟨slot, a, ha, error⟩
    · exact .inl same
    · exact .inr ⟨slot, a, ha, error⟩

end Sys2Proof.Machine
end

section
/-!
PROOFS. The fare arithmetic (05_fare_arithmetic.md): its stages are exact and within their bounds, a higher class
percent never lowers an amount, and the cap acts on the total alone.
-/
namespace Sys2Proof.Machine

/-! ### The stages are exact on values in range -/

section
variable (fc : Nat)

/-- Stage 1 (R76). -/
theorem distanceFare_exact {b : Band} {d : Nat} (hb : b.base ≤ 999999) (hr : b.rate ≤ 65535) (hd : d ≤ 393120) :
    distanceFare fc b d = b.base * 1000 + (d - b.lower) * b.rate
      ∧ b.base * 1000 + (d - b.lower) * b.rate ≤ 26763118200 := by
  have along : (d - b.lower) * b.rate ≤ 393120 * 65535 := Nat.mul_le_mul (by omega) hr
  have bound : b.base * 1000 + (d - b.lower) * b.rate ≤ 26763118200 := by omega
  refine ⟨?_, bound⟩
  rw [distanceFare, fit48_eq fc (x := b.base * 1000) (by omega), fit48_eq fc (x := _ * b.rate) (by omega),
    fit48_eq fc (by omega)]

/-- Stage 2 (R77). -/
theorem classFare_exact {f1 k : Nat} (h1 : f1 ≤ 26763118200) (hk : k ≤ 250) :
    classFare fc f1 k = f1 * k / 100 ∧ f1 * k / 100 ≤ 66907795500 := by
  have product : f1 * k ≤ 26763118200 * 250 := Nat.mul_le_mul h1 hk
  exact ⟨by rw [classFare, fit48_eq fc (by omega)], by omega⟩

/-- Stage 3 (R78). -/
theorem personsFare_exact {f2 a ch q : Nat} (h2 : f2 ≤ 66907795500) (ha : a ≤ 9) (hc : ch ≤ 9) (hq : q ≤ 100) :
    personsFare fc f2 a ch q = f2 * a + f2 * ch * q / 100 ∧ f2 * a + f2 * ch * q / 100 ≤ 1204340319000 := by
  have adults : f2 * a ≤ 66907795500 * 9 := Nat.mul_le_mul h2 ha
  have children : f2 * ch * q ≤ 66907795500 * 9 * 100 := Nat.mul_le_mul (Nat.mul_le_mul h2 hc) hq
  refine ⟨?_, by omega⟩
  rw [personsFare, fit48_eq fc (x := f2 * a) (by omega), fit48_eq fc (x := f2 * ch * q) (by omega),
    fit48_eq fc (by omega)]

/-- A value rounded to the unit is at most a half unit above it. -/
theorem rounded_le (f3 unit : Nat) : (f3 + 500 * unit) / (1000 * unit) * unit ≤ (f3 + 500 * unit) / 1000 := by
  rw [← Nat.div_div_eq_div_mul]
  exact Nat.div_mul_le_self _ _

/-- Stage 4 (R79). -/
theorem roundFare_exact {f3 unit : Nat} (h3 : f3 ≤ 1204340319000) (hu : unit ≤ 1000) :
    roundFare fc f3 unit = (f3 + 500 * unit) / (1000 * unit) * unit ∧ roundFare fc f3 unit ≤ 1204341000 := by
  have exact_ : roundFare fc f3 unit = (f3 + 500 * unit) / (1000 * unit) * unit := by
    rw [roundFare, fit48_eq fc (by omega)]
  refine ⟨exact_, ?_⟩
  have := rounded_le f3 unit
  omega

end

/-- Settles O51. -/
theorem fareArithmeticIsExact : Obligations.FareArithmeticIsExact := by
  intro fc g b d k a ch hb hr _ hd hk ha hc hq _ hu
  dsimp only
  obtain ⟨distance, bound1⟩ := distanceFare_exact fc hb hr hd
  obtain ⟨class_, bound2⟩ := classFare_exact fc bound1 hk
  obtain ⟨persons, bound3⟩ := personsFare_exact fc bound2 ha hc hq
  obtain ⟨rounded, bound⟩ := roundFare_exact fc bound3 hu
  have value : (bandAmount fc g b d k a ch).value = roundFare fc ((b.base * 1000 + (d - b.lower) * b.rate) * k / 100 * a
      + (b.base * 1000 + (d - b.lower) * b.rate) * k / 100 * ch * g.childPercent / 100) g.unit := by
    rw [bandAmount, distance, class_, persons]
  refine ⟨by rw [value, rounded], ?_, bound1, bound2, bound3, by rw [value]; exact bound⟩
  rw [bandAmount, distance, class_, persons]

/-! ### A higher class percent -/

theorem personsFare_mono {f2 f2' : Nat} (a ch q : Nat) (h : f2 ≤ f2') :
    f2 * a + f2 * ch * q / 100 ≤ f2' * a + f2' * ch * q / 100 := by
  gcongr

theorem roundFare_mono {f3 f3' : Nat} (unit : Nat) (h : f3 ≤ f3') :
    (f3 + 500 * unit) / (1000 * unit) * unit ≤ (f3' + 500 * unit) / (1000 * unit) * unit := by
  gcongr

/-- Settles O52: every stage after the class rises with it. -/
theorem classLineIsNeverNegative : Obligations.ClassLineIsNeverNegative := by
  intro fc g b d k1 k2 a ch hb hr hl hd hk hk2 ha hc hq hu1 hu
  obtain ⟨low, -⟩ := fareArithmeticIsExact fc g b d k1 a ch hb hr hl hd (hk.trans hk2) ha hc hq hu1 hu
  obtain ⟨high, -⟩ := fareArithmeticIsExact fc g b d k2 a ch hb hr hl hd hk2 ha hc hq hu1 hu
  rw [low, high]
  exact roundFare_mono g.unit (personsFare_mono a ch _ (by gcongr))

/-! ### The total -/

section
variable {selfDeclared : Nat} {first : Option Byte} {lines : List NetworkLines}

/-- When the surcharge is added (R84). -/
theorem surchargeOf_isSome :
    (surchargeOf selfDeclared first lines).isSome = true ↔ selfDeclared = 0 ∧ ∃ n ∈ lines, n.uncovered ≠ 0 := by
  unfold surchargeOf
  split
  next added =>
    have some_ : (∃ n ∈ lines, n.uncovered ≠ 0) := by simpa using added.2
    split <;> simp [added.1, some_]
  next notAdded => simpa using notAdded

/-- The surcharge added is that of the first uncovered section's network. -/
theorem surchargeOf_first {n : Byte} {pre post : List NetworkLines} {x : NetworkLines}
    (added : (surchargeOf selfDeclared (some n) lines).isSome = true) (split_ : lines = pre ++ x :: post)
    (before : ∀ y ∈ pre, y.network ≠ n) (here : x.network = n) :
    surchargeOf selfDeclared (some n) lines = some x.surcharge := by
  have found : lines.find? (fun y => decide (some y.network = some n)) = some x :=
    find_first split_ (fun y hy => by simpa using before y hy) (by simpa using here)
  obtain ⟨self, due⟩ := surchargeOf_isSome.mp added
  rw [surchargeOf, if_pos ⟨self, by simpa using due⟩, found]

end

theorem min_cap_eq (t cap : Nat) : min t cap = if cap < t then cap else t := by
  split <;> omega

/-- Settles O53. -/
theorem totalIsCappedSum : Obligations.TotalIsCappedSum := by
  intro cap span legs p selfDeclared lines
  dsimp only
  refine ⟨min_cap_eq _ _, by simp [totalOf], rfl, rfl, rfl, surchargeOf_isSome, ?notAdded, ?added⟩
  case notAdded =>
    intro h
    have none_ : surchargeOf selfDeclared ((legs.find? (fun l => !l.covered)).map Leg.network) lines = none :=
      Option.not_isSome_iff_eq_none.mp (ne_true_of_eq_false h)
    simp only [totalOf, none_, Option.getD_none]
  case added =>
    intro n added hfirst pre x post split_ before here
    have added' : (surchargeOf selfDeclared ((legs.find? (fun l => !l.covered)).map Leg.network) lines).isSome
      = true := added
    rw [hfirst] at added'
    simp only [totalOf, hfirst, surchargeOf_first added' split_ before here, Option.getD_some]

end Sys2Proof.Machine
end

section
/-!
PROOFS. The Inspection Journal (07_the_inspection_journal.md, 08_amendment_windows.md): own insertion, the passback
search, AMEND, MERGE and RECALL.
-/
namespace Sys2Proof.Machine

/-! ### Own insertion -/

section
variable (o : OwnSighting) (s : State)

@[simp] theorem State.insertOwn_events : (s.insertOwn o).events = s.makeRoom.events := by
  simp [State.insertOwn, State.mapEntries, State.appendEntry]

@[simp] theorem State.insertOwn_wrapped : (s.insertOwn o).journal.wrapped = s.makeRoom.journal.wrapped := by
  rw [State.insertOwn_journal]

@[simp] theorem State.insertOwn_evictedThrough :
    (s.insertOwn o).journal.evictedThrough = s.makeRoom.journal.evictedThrough := by
  rw [State.insertOwn_journal]

end

/-- Settles O54. -/
theorem ownInsertionInOrder : Obligations.OwnInsertionInOrder := by
  intro s o hI
  dsimp only
  obtain ⟨kept, counter, -, room, evicted⟩ := s.makeRoom_spec hI.journal.length
  refine ⟨?counter, ?entries, ?notFull, ?full, ?context, ?ownCount, ?rest⟩
  case counter =>
    rw [State.insertOwn_journal, counter]
    rfl
  case entries =>
    rw [State.insertOwn_journal, kept, counter]
    exact congrArg (· ++ _) (List.map_congr_left fun e _ => Entry.countDown_eq e)
  case notFull =>
    intro h
    rw [State.insertOwn_events, State.insertOwn_wrapped, State.insertOwn_evictedThrough, room h]
    exact ⟨rfl, rfl, rfl⟩
  case full =>
    intro e rest he h
    rw [State.insertOwn_events, State.insertOwn_wrapped, State.insertOwn_evictedThrough]
    exact evicted e rest he h
  case context => rw [State.insertOwn_trip]
  case ownCount =>
    rw [State.insertOwn_trip]
    exact toNat_saturate _
  case rest => exact State.insertOwn_rest o s

/-! ### The passback search -/

section
variable {j : Journal} {issuer : Byte} {serial : Serial}

theorem Entry.sighted_iff {e : Entry} :
    e.sighted issuer serial = true ↔ e.issuer = issuer ∧ e.serial = serial ∧ e.outcome ≠ .voided := by
  simp [Entry.sighted]

theorem Journal.priorSighting_none (h : ∀ e ∈ j.entries, e.sighted issuer serial = false) :
    j.priorSighting issuer serial = none := by
  rw [Journal.priorSighting, List.filter_eq_nil_iff.mpr fun e he => by simp [h e he]]
  rfl

/-- The prior sighting is the latest one (R109). -/
theorem Journal.priorSighting_some {before after : List Entry} {e : Entry} (order : j.entries = before ++ e :: after)
    (found : e.sighted issuer serial = true) (none_later : ∀ x ∈ after, x.sighted issuer serial = false) :
    j.priorSighting issuer serial = some e := by
  have later : after.filter (Entry.sighted issuer serial) = [] :=
    List.filter_eq_nil_iff.mpr fun x hx => by simp [none_later x hx]
  rw [Journal.priorSighting, order, List.filter_append, List.filter_cons_of_pos found, later,
    List.getLast?_concat]

/-- PARTIAL_HISTORY compares exactly (R111). -/
theorem Journal.partialHistory_iff {horizon t : Nat} :
    j.partialHistory horizon t = true ↔ j.wrapped = true ∧ (t : Int) - horizon ≤ j.evictedThrough.toNat := by
  rw [Journal.partialHistory, Bool.and_eq_true, decide_eq_true_iff]
  exact and_congr_right fun _ => by omega

end

theorem suspects_iff {horizon minutes : Nat} {resolves : Bool} :
    suspects horizon minutes resolves = true ↔ 1 ≤ horizon ∧ minutes ≤ horizon ∧ resolves = false := by
  simp [suspects, and_assoc]

/-- The notes the history alone gives (R111). -/
def State.historyNotes (s : State) (t : Word) : List Note :=
  if s.journal.partialHistory s.trip.horizon.toNat t.toNat then [.partialHistory] else []

theorem State.mem_historyNotes {s : State} {t : Word} {n : Note} : n ∈ s.historyNotes t ↔
    n = .partialHistory ∧ s.journal.partialHistory s.trip.horizon.toNat t.toNat = true := by
  unfold State.historyNotes
  split <;> simp [*]

section
variable {s : State} {issuer : Byte} {serial : Serial} {t : Word} {resolves : Bool}

theorem State.passbackSearch_none (h : s.journal.priorSighting issuer serial = none) :
    s.passbackSearch issuer serial t resolves
      = { suspicion := false, notes := s.historyNotes t, priorId := 0, priorNumber := 0, minutes := 0 } := by
  simp only [State.passbackSearch, h, State.historyNotes]

section
variable {e : Entry} (h : s.journal.priorSighting issuer serial = some e)
include h

theorem State.passbackSearch_own (own : e.originId = s.trip.ownId) : s.passbackSearch issuer serial t resolves
    = { suspicion := false, notes := [.reseen] ++ s.historyNotes t, priorId := e.originId.toNat,
        priorNumber := e.originNumber.toNat, minutes := minutesSince t e } := by
  simp only [State.passbackSearch, h, if_pos own, State.historyNotes]

theorem State.passbackSearch_suspect (peer : e.originId ≠ s.trip.ownId)
    (suspect : suspects s.trip.horizon.toNat (minutesSince t e) resolves = true) :
    s.passbackSearch issuer serial t resolves
      = { suspicion := true, notes := s.historyNotes t, priorId := e.originId.toNat,
          priorNumber := e.originNumber.toNat, minutes := minutesSince t e } := by
  simp only [State.passbackSearch, h, if_neg peer, suspect, if_true, State.historyNotes, List.nil_append]

theorem State.passbackSearch_peer (peer : e.originId ≠ s.trip.ownId)
    (clear : suspects s.trip.horizon.toNat (minutesSince t e) resolves = false) :
    s.passbackSearch issuer serial t resolves
      = { suspicion := false, notes := [.reseenPeer] ++ s.historyNotes t, priorId := e.originId.toNat,
          priorNumber := e.originNumber.toNat, minutes := minutesSince t e } := by
  simp only [State.passbackSearch, h, if_neg peer, clear, Bool.false_eq_true, if_false, State.historyNotes]

end

theorem State.passbackSearch_partialHistory :
    .partialHistory ∈ (s.passbackSearch issuer serial t resolves).notes
      ↔ s.journal.partialHistory s.trip.horizon.toNat t.toNat = true := by
  cases h : s.journal.priorSighting issuer serial with
  | none => simp [State.passbackSearch_none h, State.mem_historyNotes]
  | some e =>
    by_cases own : e.originId = s.trip.ownId
    · simp [State.passbackSearch_own h own, State.mem_historyNotes]
    · cases suspect : suspects s.trip.horizon.toNat (minutesSince t e) resolves with
      | true => simp [State.passbackSearch_suspect h own suspect, State.mem_historyNotes]
      | false => simp [State.passbackSearch_peer h own suspect, State.mem_historyNotes]

end

/-- Settles O55: the three findings on the prior sighting, if there is one. -/
theorem passbackSearchFindings : Obligations.PassbackSearchFindings := by
  intro s issuer serial t resolves
  dsimp only
  refine ⟨State.passbackSearch_partialHistory.trans Journal.partialHistory_iff, fun unseen => ?unseen,
    fun before e after order found none_later => ?seen⟩
  case unseen =>
    have none_ := Journal.priorSighting_none fun e he => Bool.eq_false_iff.mpr (mt Entry.sighted_iff.mp (unseen e he))
    simp [State.passbackSearch_none none_, State.mem_historyNotes]
  case seen =>
    have prior := Journal.priorSighting_some order (Entry.sighted_iff.mpr found) fun x hx =>
      Bool.eq_false_iff.mpr (mt Entry.sighted_iff.mp (none_later x hx))
    by_cases own : e.originId = s.trip.ownId
    · simp [State.passbackSearch_own prior own, State.mem_historyNotes, own, minutesSince]
    · cases suspect : suspects s.trip.horizon.toNat (minutesSince t e) resolves with
      | true =>
        have judged := suspects_iff.mp suspect
        rw [minutesSince] at judged
        rw [State.passbackSearch_suspect prior own suspect]
        simp [State.mem_historyNotes, own, minutesSince, judged]
      | false =>
        have judged := mt suspects_iff.mpr (Bool.eq_false_iff.mp suspect)
        rw [minutesSince] at judged
        simp only [State.passbackSearch_peer prior own suspect, List.mem_append, List.mem_singleton,
          State.mem_historyNotes, own, minutesSince, judged]
        simp [own]

/-! ### AMEND -/

theorem Entry.isPair_iff {e : Entry} {id : Byte} {n : Half} :
    e.isPair id n = true ↔ e.originId = id ∧ e.originNumber = n := by
  simp [Entry.isPair]

/-- A request in range names an outcome (R125). -/
theorem amendOutcome_named {n code : Nat} {o : Outcome} (hn : 1 ≤ n) (hc : o.code = code) (ho : o ≠ .none) :
    (if n = 0 then none else amendOutcome code) = some o := by
  rw [if_neg (by omega), ← hc, amendOutcome_code ho]

section
variable {s : State} {n code : Nat}

theorem State.examineAmend_noTrip (h : s.trip.state = .noTrip) :
    s.examineAmend n code = .refused .noTrip [0#8, 0#8, 0#8, 0#8] := if_pos h

section
variable (hin : s.trip.state = .inTrip)
include hin

theorem State.examineAmend_badField (h : n = 0 ∨ code = 0 ∨ 4 < code) :
    s.examineAmend n code = .refused .badField [0#8, 0#8, 0#8, 0#8] := by
  have named : (if n = 0 then none else amendOutcome code) = none := by
    rcases h with h | h | h
    · exact if_pos h
    · rw [h]
      split <;> rfl
    · rw [amendOutcome, outcomeOf_none h]
      split
      · rfl
      · split <;> rfl
  simp only [State.examineAmend, if_neg (not_noTrip hin), named]
  rfl

section
variable {o : Outcome} (hn : 1 ≤ n) (hc : o.code = code) (ho : o ≠ .none)
include hn hc ho

theorem State.examineAmend_notFound (held : s.journal.entryOf s.trip.ownId (BitVec.ofNat 16 n) = none) :
    s.examineAmend n code = .refused .notFound [0#8, 0#8, 0#8, 0#8] := by
  simp only [State.examineAmend, if_neg (not_noTrip hin), amendOutcome_named hn hc ho, held]
  rfl

section
variable {e : Entry} (held : s.journal.entryOf s.trip.ownId (BitVec.ofNat 16 n) = some e)
include held

theorem State.examineAmend_late (closed : e.window = none) : s.examineAmend n code
    = .refused .late [byteOf e.verdict.code, byteOf e.outcome.code, 0#8, 0#8] := by
  simp only [State.examineAmend, if_neg (not_noTrip hin), amendOutcome_named hn hc ho, held, closed]
  rfl

section
variable {w : Window} (open_ : e.window = some w)
include open_

theorem State.examineAmend_notAmendable (forbidden : outcomeAllowed e.verdict o = false) : s.examineAmend n code
    = .refused .notAmendable [byteOf e.verdict.code, 0#8, w.count, w.minutes] := by
  simp only [State.examineAmend, if_neg (not_noTrip hin), amendOutcome_named hn hc ho, held, open_, forbidden,
    Bool.false_eq_true, if_false, amendResult, byteOf_toNat_byte]
  rfl

theorem State.examineAmend_accepted (allowed : outcomeAllowed e.verdict o = true) : s.examineAmend n code
    = .accepted (BitVec.ofNat 16 n) o [byteOf e.verdict.code, byteOf code, w.count, w.minutes] := by
  simp only [State.examineAmend, if_neg (not_noTrip hin), amendOutcome_named hn hc ho, held, open_, allowed, if_true,
    amendResult, byteOf_toNat_byte, hc]

end
end
end
end

section
variable {failing : List Access} {f : InFlight}

theorem State.workAmend_noTrip (h : s.trip.state = .noTrip) : s.workAmend failing f
    = s.answer failing f positionResultAt [0#8, 0#8, 0#8, 0#8] (some .noTrip) := by
  simp only [State.workAmend, if_pos h, State.examineAmend_noTrip h]

section
variable (hin : s.trip.state = .inTrip)
  (hq : readAmendRequest (s.slipByte failing (s.chain f.chain).cursor) = some (n, code))
include hin hq

theorem State.workAmend_refused {r : Reason} {result : List Byte} (h : s.examineAmend n code = .refused r result) :
    s.workAmend failing f = s.answer failing f positionResultAt result (some r) := by
  simp only [State.workAmend, if_neg (not_noTrip hin), hq, h]

theorem State.workAmend_accepted {number : Half} {o : Outcome} {result : List Byte}
    (h : s.examineAmend n code = .accepted number o result) : s.workAmend failing f
      = (s.updateEntry s.trip.ownId number (Entry.amend o)).answer failing f positionResultAt result none := by
  simp only [State.workAmend, if_neg (not_noTrip hin), hq, h]

end
end
end

/-- What an update of an entry does to the journal. -/
theorem State.updateEntry_eq (s : State) (id : Byte) (n : Half) (change : Entry → Entry) : s.updateEntry id n change
    = { s with journal := { s.journal with entries := s.journal.entries.map (fun e =>
          if e.originId = id ∧ e.originNumber = n then change e else e) } } := by
  simp only [State.updateEntry, State.mapEntries, Entry.isPair_iff]

/-- Settles O56. -/
theorem amendSetsOutcome : Obligations.AmendSetsOutcome := by
  intro s f n code o e w h hin hq hn hc ho held open_ allowed
  have accepted := State.examineAmend_accepted hin hn hc ho held open_ ((outcomeAllowed_iff e.verdict o ho).mpr allowed)
  refine ⟨_, by rw [h.exec_eq (exec_amend s), State.workAmend_accepted hin hq accepted, State.updateEntry_eq], ?_⟩
  exact h.answer rfl rfl rfl rfl (by decide) (by simp)

/-- The outcome a code in range names. -/
theorem outcome_of_code {code : Nat} (h1 : 1 ≤ code) (h4 : code ≤ 4) : ∃ o : Outcome, o.code = code ∧ o ≠ .none := by
  obtain ⟨o, -, hc⟩ := outcomeOf_some (n := code) (by omega)
  refine ⟨o, hc, ?_⟩
  rintro rfl
  exact absurd hc (by simp [Outcome.code]; omega)

/-- A code not allowed for the verdict (R126). -/
theorem outcomeAllowed_false {v : Verdict} {o : Outcome} (ho : o ≠ .none)
    (h : (o.code = 3 ∧ v ≠ .challenge) ∨ (o.code ≤ 2 ∧ (v = .noted ∨ v = .valid))) : outcomeAllowed v o = false := by
  rw [Bool.eq_false_iff, ne_eq, outcomeAllowed_iff v o ho]
  cases o with
  | none => exact absurd rfl ho
  | voided => simp [Outcome.code] at h
  | confirmed =>
    have other : v ≠ .challenge := by simpa [Outcome.code] using h
    simp [other]
  | settled =>
    have mild : v = .noted ∨ v = .valid := by simpa [Outcome.code] using h
    rcases mild with rfl | rfl <;> simp
  | waived =>
    have mild : v = .noted ∨ v = .valid := by simpa [Outcome.code] using h
    rcases mild with rfl | rfl <;> simp

/-- Settles O57. -/
theorem amendRefusals : Obligations.AmendRefusals := by
  intro s f h
  have run := h.exec_eq (exec_amend s)
  refine ⟨fun hn => ⟨_, by rw [run, State.workAmend_noTrip hn]; rfl, h.refused (by decide) (by decide)⟩,
    fun n code hin hq => ?_⟩
  have refused : ∀ r a b c d, s.examineAmend n code = .refused r [a, b, c, d] → ∃ t, exec .amend s = .next t
      ∧ Answered s f 32 [a, b, c, d] (some r) t := fun r a b c d found =>
    ⟨_, by rw [run, State.workAmend_refused hin hq found]; rfl, h.refused (by decide) (by simp)⟩
  refine ⟨fun bad => refused _ _ _ _ _ (State.examineAmend_badField hin bad), fun hn h1 h4 held => ?notFound,
    fun e hn h1 h4 held => ?held⟩
  case notFound =>
    obtain ⟨o, hc, ho⟩ := outcome_of_code h1 h4
    exact refused _ _ _ _ _ (State.examineAmend_notFound hin hn hc ho held)
  case held =>
    obtain ⟨o, hc, ho⟩ := outcome_of_code h1 h4
    refine ⟨fun closed => refused _ _ _ _ _ (State.examineAmend_late hin hn hc ho held closed),
      fun w open_ forbidden => ?_⟩
    rw [← hc] at forbidden
    exact refused _ _ _ _ _
      (State.examineAmend_notAmendable hin hn hc ho held open_ (outcomeAllowed_false ho forbidden))

/-! ### MERGE -/

/-- The bounds of a peer record that do not concern its codes (R114). -/
def PeerRecord.Foreign (s : State) (p : PeerRecord) : Prop :=
  ¬ (p.originId = 0 ∨ 63 < p.originId ∨ p.originId = s.trip.ownId.toNat ∨ p.originNumber = 0
    ∨ s.trip.plan.length ≤ p.section_ ∨ 15 < p.issuer)

section
variable {s : State} {p : PeerRecord}

theorem State.classify_bounds (h : ¬ p.Foreign s) : s.classify p = .rejected := if_pos (not_not.mp h)

theorem State.classify_codes (h : p.verdict = 0 ∨ 5 < p.verdict ∨ 4 < p.outcome) : s.classify p = .rejected := by
  unfold State.classify
  split
  · rfl
  rcases h with h | h | h
  · rw [verdictOf_none (.inl h)]
  · rw [verdictOf_none (.inr h)]
  · rw [outcomeOf_none h]
    cases verdictOf p.verdict <;> rfl

section
variable {v : Verdict} {o : Outcome} (foreign : p.Foreign s) (hv : verdictOf p.verdict = some v)
  (ho : outcomeOf p.outcome = some o)
include foreign hv ho

theorem State.classify_held {e : Entry}
    (held : s.journal.entryOf (byteOf p.originId) (BitVec.ofNat 16 p.originNumber) = some e) :
    s.classify p = if e.outcome = .none ∧ o ≠ .none then .updated o else .duplicate := by
  rw [State.classify, if_neg foreign]
  simp only [hv, ho, held]

theorem State.classify_new
    (held : s.journal.entryOf (byteOf p.originId) (BitVec.ofNat 16 p.originNumber) = none) :
    s.classify p = .accepted v o := by
  rw [State.classify, if_neg foreign]
  simp only [hv, ho, held]

end

theorem State.mergeRecord_rejected (h : s.classify p = .rejected) : s.mergeRecord p = s := by
  simp only [State.mergeRecord, h]

theorem State.mergeRecord_duplicate (h : s.classify p = .duplicate) : s.mergeRecord p = s := by
  simp only [State.mergeRecord, h]

theorem State.mergeRecord_updated {o : Outcome} (h : s.classify p = .updated o) : s.mergeRecord p
    = s.updateEntry (byteOf p.originId) (BitVec.ofNat 16 p.originNumber) (fun e => { e with outcome := o }) := by
  simp only [State.mergeRecord, h]

theorem State.mergeRecord_accepted {v : Verdict} {o : Outcome} (h : s.classify p = .accepted v o) :
    s.mergeRecord p = s.makeRoom.appendEntry (p.entry v o) := by
  simp only [State.mergeRecord, h]

end

/-- The origin pair of an entry, compared as numbers. -/
theorem Entry.pair_toNat_iff {e : Entry} {id n : Nat} (hid : id < 256) (hn : n < 65536) :
    (e.originId = byteOf id ∧ e.originNumber = BitVec.ofNat 16 n)
      ↔ (e.originId.toNat = id ∧ e.originNumber.toNat = n) := by
  rw [← BitVec.toNat_inj, byteOf_toNat hid, ← BitVec.toNat_inj, BitVec.toNat_ofNat, Nat.mod_eq_of_lt hn]

/-- Settles O58. -/
theorem mergeRecordClasses : Obligations.MergeRecordClasses := by
  intro s p hI hin hnumber
  dsimp only
  refine ⟨fun bad => ?bad, fun e good held settled => ?duplicate, fun e o good held unset hc ho => ?updated,
    fun v o good held hv hc => ?accepted⟩
  case bad =>
    have rejected : s.classify p = .rejected := by
      by_cases foreign : p.Foreign s
      · exact State.classify_codes (by unfold PeerRecord.Foreign at foreign; tauto)
      · exact State.classify_bounds foreign
    exact ⟨rejected, State.mergeRecord_rejected rejected⟩
  all_goals
    have foreign : p.Foreign s := fun h => good (by tauto)
  case duplicate =>
    obtain ⟨v, hv⟩ := verdictOf_some (n := p.verdict) (by tauto) (by tauto)
    obtain ⟨o, ho, hc⟩ := outcomeOf_some (n := p.outcome) (by tauto)
    have no_update : ¬ (e.outcome = .none ∧ o ≠ .none) := by
      rintro ⟨unset, named⟩
      rcases settled with set | zero
      · exact set unset
      · rw [zero] at ho
        exact named (Option.some.inj ho).symm
    have duplicate : s.classify p = .duplicate := by
      rw [State.classify_held foreign hv ho held, if_neg no_update]
    exact ⟨duplicate, State.mergeRecord_duplicate duplicate⟩
  case updated =>
    obtain ⟨v, hv⟩ := verdictOf_some (n := p.verdict) (by tauto) (by tauto)
    have hoc : outcomeOf p.outcome = some o := by rw [← hc, outcomeOf_code]
    have updated : s.classify p = .updated o := by
      rw [State.classify_held foreign hv hoc held, if_pos ⟨unset, ho⟩]
    have small : p.originId < 256 := by omega
    refine ⟨updated, ?_⟩
    rw [State.mergeRecord_updated updated, State.updateEntry_eq]
    simp only [Entry.pair_toNat_iff small hnumber]
  case accepted =>
    have accepted : s.classify p = .accepted v o :=
      State.classify_new foreign (by rw [← hv, verdictOf_code]) (by rw [← hc, outcomeOf_code]) held
    obtain ⟨kept, counter, -, room, evicted⟩ := s.makeRoom_spec hI.journal.length
    refine ⟨accepted, ?entries, ?counter, ?notFull, ?full, s.mergeRecord_rest p⟩
    all_goals rw [State.mergeRecord_accepted accepted]
    case entries =>
      rw [← kept]
      rfl
    case counter => exact counter
    case notFull =>
      intro h
      rw [room h]
      exact ⟨rfl, rfl, rfl⟩
    case full => exact evicted

section
variable {s : State} {failing : List Access} {f : InFlight}

theorem State.workMerge_noTrip (h : s.trip.state = .noTrip) : s.workMerge failing f
    = s.answer failing f mergeResultAt (mergeResult 0 0 0 0) (some .noTrip) := if_pos h

section
variable {n : Nat} (hin : s.trip.state = .inTrip)
  (hn : readField (s.slipByte failing (s.chain f.chain).cursor) 16 1 = some n)
include hin hn

theorem State.workMerge_badField (h : n = 0 ∨ 16 < n) : s.workMerge failing f
    = s.answer failing f mergeResultAt (mergeResult 0 0 0 0) (some .badField) := by
  have range : ¬ (1 ≤ n ∧ n ≤ 16) := by omega
  simp only [State.workMerge, if_neg (not_noTrip hin), hn, if_neg range]

theorem State.workMerge_counted (h1 : 1 ≤ n) (h16 : n ≤ 16) {u : State} {k : MergeCounts}
    (records : s.mergeRecords failing (s.chain f.chain).cursor n 0
      { accepted := 0, duplicate := 0, updated := 0, rejected := 0 } = (u, some k)) : s.workMerge failing f
    = u.answer failing f mergeResultAt (mergeResult k.accepted k.duplicate k.updated k.rejected) none := by
  have range : 1 ≤ n ∧ n ≤ 16 := ⟨h1, h16⟩
  simp only [State.workMerge, if_neg (not_noTrip hin), hn, if_pos range, records]

/-- A MERGE ends on the first record whose read fails; what had been done stands (R117). -/
theorem State.workMerge_faulted (h1 : 1 ≤ n) (h16 : n ≤ 16) {u : State}
    (records : s.mergeRecords failing (s.chain f.chain).cursor n 0
      { accepted := 0, duplicate := 0, updated := 0, rejected := 0 } = (u, none)) :
    s.workMerge failing f = u.endOnFault f := by
  have range : 1 ≤ n ∧ n ≤ 16 := ⟨h1, h16⟩
  simp only [State.workMerge, if_neg (not_noTrip hin), hn, if_pos range, records]

end
end

/-- Settles O59: the records are taken in order, as the fold takes them. -/
theorem mergeAnswersItsCounts : Obligations.MergeAnswersItsCounts := by
  intro s f _ h
  have run := h.exec_eq (exec_merge s)
  refine ⟨fun hn => ⟨_, by rw [run, State.workMerge_noTrip hn]; rfl, h.refused (by decide) (by decide)⟩,
    fun n hin hm => ⟨fun bad => ?badField, fun h1 h16 => ?counted⟩⟩
  all_goals have count := h.bodyByte
  all_goals rw [← hm] at count
  case badField =>
    exact ⟨_, by rw [run, State.workMerge_badField hin count bad]; rfl, h.refused (by decide) (by decide)⟩
  case counted =>
    obtain ⟨records, k, length, total, fold, reads, worked⟩ := State.mergeRecords_split (s0 := s) (failing := []) n 0 0
      { accepted := 0, duplicate := 0, updated := 0, rejected := 0 } s rfl rfl
      (fun j _ hj => readPeerRecord_some (slipBytes_some h.placed) _ (by omega))
    refine ⟨records, k, _, _, by rw [run, State.workMerge_counted hin count h1 h16 worked], length,
      fun i hi => by rw [← reads i hi, Nat.zero_add], fold, ?_, ?_⟩
    · simpa [MergeCounts.total] using total
    · exact h.answer (by rw [foldl_mergeRecord_frame]) (by rw [foldl_mergeRecord_frame])
        (by rw [foldl_mergeRecord_frame]) (by rw [foldl_mergeRecord_frame]) (by decide)
        (by simp)

/-! ### RECALL -/

section
variable {s : State} {failing : List Access} {f : InFlight}

theorem State.workRecall_noTrip (h : s.trip.state = .noTrip) : s.workRecall failing f
    = s.answer failing f recallResultAt (recallResult 0 []) (some .noTrip) := if_pos h

theorem State.workRecall_inTrip {issuer serial : Nat} (hin : s.trip.state = .inTrip)
    (hq : readRecallRequest (s.slipByte failing (s.chain f.chain).cursor) = some (issuer, serial)) :
    s.workRecall failing f = s.answer failing f recallResultAt
      (s.journal.recallBytes (byteOf issuer) (BitVec.ofNat 64 serial)) none := by
  simp only [State.workRecall, if_neg (not_noTrip hin), hq]

end

/-- The unused places of a RECALL, in bytes. -/
theorem recallResult_eq (count : Nat) (places : List Entry) : recallResult count places
    = leBytes 2 count ++ [0#8, 0#8] ++ places.flatMap placeBytes ++ List.replicate (192 - 24 * places.length) 0#8 := by
  have unused : 24 * (recallPlaces - places.length) = 192 - 24 * places.length := by
    rw [recallPlaces]
    omega
  rw [recallResult, unused, ← List.append_assoc]
  rfl

theorem recallResult_none : recallResult 0 [] = List.replicate 196 0#8 := by
  rw [recallResult_eq]
  rfl

/-- Settles O60. -/
theorem recallReturnsNewestMatches : Obligations.RecallReturnsNewestMatches := by
  intro s f h
  have run := h.exec_eq (exec_recallEntries s)
  refine ⟨fun hn => ?noTrip, fun issuer serial hin hq => ?found⟩
  case noTrip =>
    refine ⟨_, by rw [run, State.workRecall_noTrip hn, recallResult_none], ?_⟩
    exact h.refused (by decide) (by rw [List.length_replicate]; decide)
  case found =>
    dsimp only
    refine ⟨_, by rw [run, State.workRecall_inTrip hin hq], ?_⟩
    rw [← recallResult_eq]
    exact h.answer rfl rfl rfl rfl (by decide) (by
      rw [recallResult_length _ (List.length_take_le _ _)]; decide)

end Sys2Proof.Machine
end

section
/-!
PROOFS. Access errors on a chain's slip or head (09_slips_and_chains.md 9.7, R145): the reads and the writes that fail,
and the work that is cut off.
-/
namespace Sys2Proof.Machine

/-! ### Reads of a slip -/

section
variable {get got : Nat → Option Byte}

theorem readBytes_congr {a n : Nat} (h : ∀ i, a ≤ i → i < a + n → get i = got i) :
    readBytes get a n = readBytes got a n := by
  induction n generalizing a with
  | zero => rfl
  | succ n ih =>
    have rest : readBytes get (a + 1) n = readBytes got (a + 1) n := ih fun i h1 h2 => h i (by omega) (by omega)
    rw [readBytes, readBytes, h a le_rfl (by omega), rest]

theorem readField_congr {a n : Nat} (h : ∀ i, a ≤ i → i < a + n → get i = got i) :
    readField get a n = readField got a n := by
  rw [readField, readField, readBytes_congr h]

/-- A peer record is what its 19 bytes say (R175). -/
theorem readPeerRecord_congr {a : Nat} (h : ∀ i, a ≤ i → i < a + 19 → get i = got i) :
    readPeerRecord get a = readPeerRecord got a := by
  have field : ∀ o n, a ≤ o → o + n ≤ a + 19 → readField get o n = readField got o n := fun o n h1 h2 =>
    readField_congr fun i h3 h4 => h i (by omega) (by omega)
  rw [readPeerRecord, readPeerRecord, field a 1 (by omega) (by omega), field (a + 1) 1 (by omega) (by omega),
    field (a + 2) 2 (by omega) (by omega), field (a + 4) 8 (by omega) (by omega),
    field (a + 12) 4 (by omega) (by omega), field (a + 16) 1 (by omega) (by omega),
    field (a + 17) 1 (by omega) (by omega), field (a + 18) 1 (by omega) (by omega)]

section
variable (h : get 16 = none)
include h

theorem readPositionRequest_none : readPositionRequest get = none := by
  rw [readPositionRequest, readField_none le_rfl (by omega) h]
  rfl

theorem readInspectRequest_none : readInspectRequest get = none := by
  rw [readInspectRequest, readField_none le_rfl (by omega) h]
  rfl

theorem readAmendRequest_none : readAmendRequest get = none := by
  rw [readAmendRequest, readField_none le_rfl (by omega) h]
  rfl

theorem readRecallRequest_none : readRecallRequest get = none := by
  rw [readRecallRequest, readField_none le_rfl (by omega) h]
  rfl

end
end

theorem State.slipByte_of_notMem {s : State} {failing : List Access} {l : Link} {o : Nat}
    (h : .slipRead o ∉ failing) : s.slipByte failing l o = s.slipByte [] l o := by
  simp [State.slipByte, h]

/-! ### A slip being worked whose first body byte is not read -/

section
variable {s : State} {failing : List Access} {f : InFlight}

theorem kind_cases {k : Byte} (h1 : 1 ≤ k.toNat) (h6 : k.toNat ≤ 6) : k = kindTrip ∨ k = kindPosition
    ∨ k = kindInspect ∨ k = kindAmend ∨ k = kindMerge ∨ k = kindRecall := by
  simp only [← BitVec.toNat_inj]
  show k.toNat = 1 ∨ k.toNat = 2 ∨ k.toNat = 3 ∨ k.toNat = 4 ∨ k.toNat = 5 ∨ k.toNat = 6
  omega

/-- An access error on the first body byte ends the work before anything is done (R145). -/
theorem State.workSlip_unread (h1 : 1 ≤ f.kind.toNat) (h6 : f.kind.toNat ≤ 6)
    (read : f.kind = kindTrip ∨ s.trip.state = .inTrip) (hf : .slipRead 16 ∈ failing) :
    s.workSlip failing f = s.endOnFault f := by
  have byte := State.slipByte_failing (s := s) (l := (s.chain f.chain).cursor) hf
  have field := readField_none (n := 1) le_rfl (by omega) byte
  have out : f.kind ≠ kindTrip → s.trip.state ≠ .noTrip := fun other => by
    rw [read.resolve_left other]
    decide
  rcases kind_cases h1 h6 with kind | kind | kind | kind | kind | kind <;> rw [kind] at out
  · rw [State.workSlip, if_pos kind, State.workTrip, field]
  · rw [State.workSlip, kind]
    exact (if_neg (out (by decide))).trans (by rw [readPositionRequest_none byte])
  · rw [State.workSlip, kind]
    exact (if_neg (out (by decide))).trans (by rw [readInspectRequest_none byte])
  · rw [State.workSlip, kind]
    show s.workAmend failing f = _
    simp only [State.workAmend, if_neg (out (by decide)), readAmendRequest_none byte]
  · rw [State.workSlip, kind]
    exact (if_neg (out (by decide))).trans (by rw [field])
  · rw [State.workSlip, kind]
    exact (if_neg (out (by decide))).trans (by rw [readRecallRequest_none byte])

/-- The failed work of the slip in flight (R156). -/
theorem exec_workFailed (hf : s.inFlight = some f) (hp : f.progress = .working) (timeout : Bool) :
    exec (accessFailed timeout .work failing) s = .next (s.workSlip failing f) := by
  rw [exec_accessFailed]
  simp only [State.activity, State.workFailing, hf, hp, if_true]

end

/-! ### A MERGE cut off at a record -/

section
variable {s : State} {failing : List Access} {l : Link} {k : Nat}

theorem State.mergeRecords_unread {o n : Nat} {counts : MergeCounts} (ho : 32 + 20 * k ≤ o) (ho' : o < 32 + 20 * k + 19)
    (hf : .slipRead o ∈ failing) : s.mergeRecords failing l (n + 1) k counts = (s, none) := by
  have unread : readPeerRecord (s.slipByte failing l) (peerRecordAt k) = none :=
    readPeerRecord_none ho ho' (State.slipByte_failing hf)
  simp only [State.mergeRecords, unread]

section
variable (within : ∀ x ∈ failing, ∃ o, x = .slipRead o ∧ 32 + 20 * k ≤ o ∧ o < 32 + 20 * k + 19)
include within

/-- The bytes before the record that fails are read. -/
theorem State.slipByte_before {o : Nat} (ho : o < 32 + 20 * k) : s.slipByte failing l o = s.slipByte [] l o := by
  refine State.slipByte_of_notMem fun hf => ?_
  obtain ⟨o', same, above, -⟩ := within _ hf
  cases same
  omega

/-- The records before the one that fails are merged, and it ends the MERGE (R117, R145). -/
theorem State.mergeRecords_cutOff {n : Nat} (hl : s.linkValid l = true) (hk : k < n) (hn : n ≤ 16)
    (some_ : failing ≠ []) (counts : MergeCounts) : ∃ records : List PeerRecord, records.length = k
      ∧ (∀ i, i < k → readPeerRecord (s.slipByte [] l) (32 + 20 * i) = records[i]?)
      ∧ s.mergeRecords failing l n 0 counts = (records.foldl (fun x p => x.mergeRecord p) s, none) := by
  have read : ∀ j, j < k → readPeerRecord (s.slipByte failing l) (32 + 20 * j)
      = readPeerRecord (s.slipByte [] l) (32 + 20 * j) := fun j hj =>
    readPeerRecord_congr fun i _ hi => State.slipByte_before within (by omega)
  have bytes : ∀ i, i < 512 → (s.slipByte [] l i).isSome = true := fun i hi => by
    rw [State.slipByte_ok hl hi]
    rfl
  obtain ⟨records, k', length, -, -, reads, merged⟩ := State.mergeRecords_split (s0 := s) (failing := failing) (l := l)
    k (n - k - 1 + 1) 0 counts s rfl rfl fun j _ hj => by
      rw [read j (by omega)]
      exact readPeerRecord_some bytes _ (by omega)
  refine ⟨records, length, fun i hi => ?_, ?_⟩
  · rw [← read i hi, ← reads i hi, Nat.zero_add]
  · obtain ⟨x, hx⟩ := List.exists_mem_of_ne_nil failing some_
    obtain ⟨o, rfl, ho, ho'⟩ := within x hx
    rw [show n = k + (n - k - 1 + 1) by omega, merged]
    exact State.mergeRecords_unread (by omega) (by omega) hx

end
end

/-! ### Examination and links -/

section
variable {s : State} {failing : List Access} {c : Chain} {l : Link}

theorem State.afterLink_breakChain (restart : Bool) :
    (s.breakChain c l).afterLink failing c restart = s.breakChain c l :=
  State.afterLink_broken failing restart (by rw [State.breakChain_chain, if_pos rfl]; rfl)

/-- A restart whose head is not read (R141). -/
theorem State.takeHead_unread {o : Nat} (h1 : headOffset c ≤ o) (h2 : o < headOffset c + 3)
    (hf : .anchorRead o ∈ failing) : s.takeHead failing c = s.breakChain c 0#24 := by
  simp only [State.takeHead, readField_none h1 h2 (State.anchorByte_failing hf)]

theorem State.chain_unexamined (s : State) (c : Chain) : ({ s with examining := none } : State).chain c = s.chain c :=
  State.chain_congr rfl rfl c

/-- An examination that cannot read stage and kind breaks the chain (R145). -/
theorem State.examine_unread (he : s.examining = some c) {o : Nat} (ho : o < 2) (hf : .slipRead o ∈ failing) :
    s.examine failing = State.breakChain c (s.chain c).cursor { s with examining := none } := by
  unfold State.examine
  simp only [he]
  rw [s.chain_unexamined, readBytes_none (o := o) (by omega) (by omega) (State.slipByte_failing hf)]

section
variable (writes : ∀ x ∈ failing, x.isWrite = true)
include writes

/-- A link whose RELEASED cannot be written breaks the chain (R145). -/
theorem State.followLink_unreleased (hv : s.linkValid l = true) (h1 : s.linkOf l ≠ 0#24)
    (h2 : s.linkValid (s.linkOf l) = true) (hf : .stageWrite .released ∈ failing) :
    s.followLink failing c l = s.breakChain c l := by
  unfold State.followLink
  rw [State.slipByte_of_not (not_slipRead_of_write writes), State.readLink hv]
  refine (if_neg h1).trans ((if_pos h2).trans ?_)
  rw [State.storeSlip, storeAll_one_fails hf]
  exact if_neg Bool.false_ne_true

section
variable (he : s.examining = some c) (hv : s.linkValid (s.chain c).cursor = true)
  (hm : Memory.read s.mem (s.slipAddress (s.chain c).cursor) = 1#8)
include he hv hm

/-- A slip whose TAKEN cannot be written breaks the chain (R145). -/
theorem State.examine_untaken (hf : .stageWrite .taken ∈ failing) :
    s.examine failing = State.breakChain c (s.chain c).cursor { s with examining := none } := by
  unfold State.examine
  simp only [he]
  rw [s.chain_unexamined, State.slipByte_of_not (not_slipRead_of_write writes),
    State.readHeader (s := { s with examining := none }) hv]
  refine (if_pos hm).trans ?_
  rw [State.storeSlip, storeAll_one_fails hf]
  exact if_neg Bool.false_ne_true

/-- A slip whose TAKEN is written is dispatched, whichever other writes fail (R137, R138). -/
theorem State.examine_taken (hf : .stageWrite .taken ∉ failing) :
    s.examine failing = (s.taken c).dispatch failing c (s.takenSlip c).kind := by
  unfold State.examine
  simp only [he]
  rw [s.chain_unexamined, State.slipByte_of_not (not_slipRead_of_write writes),
    State.readHeader (s := { s with examining := none }) hv]
  refine (if_pos hm).trans ?_
  rw [State.storeSlip, storeAll_one hf (State.admits_slip (s := { s with examining := none }) hv (by decide)),
    ← State.taken_eq]
  exact if_pos rfl

end
end
end

/-! ### Answers cut off -/

section
variable {s : State} {failing : List Access} {f : InFlight} {made : List (Access × Nat)} {a : Access} {o : Nat}
  {later : List (Access × Nat)}

/-- The work on a slip whose answer is cut off: what the block of its kind did stands (R145). -/
theorem State.work_cutOff (hf : s.inFlight = some f) (hp : f.progress = .working)
    (hv : s.linkValid (s.chain f.chain).cursor = true) (hwf : Memory.wf s.mem = true) (h1 : 1 ≤ f.kind.toNat)
    (h6 : f.kind.toNat ≤ 6) (writes : ∀ x ∈ failing, x.isWrite = true)
    (order : answerOrder (resultArea f.kind).1 (resultArea f.kind).2 = made ++ (a, o) :: later) (ha : a ∈ failing)
    (hmade : ∀ x ∈ made, x.1 ∉ failing) (timeout : Bool) : ∃ whole t, exec (s.workCommand f) s = .next whole
      ∧ whole.inFlight = some { f with progress := .answered }
      ∧ exec (accessFailed timeout .work failing) s = .next t ∧ AnswerCutOff s f made whole t := by
  obtain ⟨u, result, r, worked, length, answers⟩ := State.workSlip_answers hv h1 h6
  obtain ⟨above, below⟩ := resultArea_bounds f.kind
  obtain ⟨cut, answered⟩ := State.answer_cutOff (r := r) worked.windows worked.interactive worked.background worked.mem
    worked.flag hv hwf above (by rw [length]; exact below) (by rw [length]; exact order) ha hmade
  refine ⟨_, _, ?_, answered, ?_, cut⟩
  · rw [State.exec_workCommand hf hp h1 h6 hv]
    exact congrArg _ (answers [] (by simp))
  · rw [exec_workFailed hf hp]
    exact congrArg _ (answers failing writes)

/-- A refusal at dispatch whose answer is cut off (R138, R145). -/
theorem Inv.dispatch_cutOff (h : Inv s) {c : Chain} {r : Reason} (he : s.examining = some c)
    (hm : Memory.read s.mem (s.slipAddress (s.chain c).cursor) = 1#8)
    (refused : dispatchRefusal c (s.takenSlip c).kind = some r) (writes : ∀ x ∈ failing, x.isWrite = true)
    (order : answerOrder 16 0 = made ++ (a, o) :: later) (ha : a ∈ failing) (taken : .stageWrite .taken ∉ failing)
    (hmade : ∀ x ∈ made, x.1 ∉ failing) (timeout : Bool) : ∃ whole t, exec .examination s = .next whole
      ∧ whole.inFlight = some { s.takenSlip c with progress := .answered }
      ∧ exec (accessFailed timeout .examination failing) s = .next t
      ∧ AnswerCutOff (s.taken c) (s.takenSlip c) made whole t := by
  have hv := h.cursor_of_examining he
  obtain ⟨cut, answered⟩ := State.answer_cutOff (s := s.taken c) (u := s.taken c) (f := s.takenSlip c) (result := [])
    (r := some r) rfl rfl rfl rfl rfl (State.taken_placed hv) (h.taken_wf he) le_rfl (by decide) order ha hmade
  refine ⟨_, _, ?_, answered, ?_, cut⟩
  · rw [exec_examination, h.examine_posted he hm, State.dispatch_refused (f := s.takenSlip c) rfl refused]
  · rw [exec_accessFailed, State.activity, State.examine_taken writes he hv hm taken,
      State.dispatch_refused (f := s.takenSlip c) rfl refused]

end

/-- Settles O35, row by row of R145's table. -/
theorem accessErrorBreaksChain : Obligations.AccessErrorBreaksChain := by
  intro timeout failing s h
  simp only [exec_accessFailed _ .examination, exec_accessFailed _ (.followUp _), exec_accessFailed _ (.tailReread _),
    exec_accessFailed _ (.restartHead _), State.activity]
  refine ⟨fun c o he ho hf => ?stageRead, fun f o b hf hp hr h1 h2 hx => ?linkRead, fun c o hr h1 h2 hx => ?tailRead,
    fun c o released awake h1 h2 h3 h4 h5 hx => ?headRead, fun f hf hp h1 h6 read hx => ?bodyRead,
    fun f n k hf hp hkind hin hn hn16 hk some_ within => ?record, fun writes => ⟨fun c he hm hx => ?taken,
      fun f b hf hp hr h1 h2 hx => ?released, fun c hr h1 h2 hx => ?tailReleased,
      fun f made a o later hf hp h1 h6 order ha hmade => ?answer,
      fun c r made a o later he hm refused order ha taken hmade => ?dispatch⟩⟩
  case stageRead =>
    rw [State.examine_unread he ho hf]
    exact ⟨_, rfl, State.breakChain_broken _ c _⟩
  case linkRead =>
    rw [State.followUp_link hf hp hr, State.followLink_failing h1 h2 hx, State.afterLink_breakChain]
    exact ⟨_, rfl, State.breakChain_broken _ f.chain _⟩
  case tailRead =>
    rw [State.tailReread_link hr, State.followLink_failing h1 h2 hx, State.afterLink_breakChain]
    exact ⟨_, rfl, State.breakChain_broken s c _⟩
  case headRead =>
    have same : ({ s with part := .running } : State).chain c = s.chain c := State.chain_congr rfl rfl c
    have free : ¬ State.chainBusy c { s with part := .running } = true := by
      rw [State.chainBusy_congr (s := s) same rfl, State.chainBusy_iff]
      simp [h1, h2, h3]
    rw [hostWrite_acts released, State.onNudge_acts awake, State.restart, if_neg free, State.takeHead_unread h4 h5 hx]
    exact ⟨_, rfl, State.breakChain_broken _ c _⟩
  case bodyRead =>
    rw [exec_workFailed hf hp, State.workSlip_unread h1 h6 read hx]
    exact ⟨_, rfl, State.endOnFault_broken s f⟩
  case record =>
    obtain ⟨records, length, reads, merged⟩ := State.mergeRecords_cutOff within (h.cursor_of_inFlight hf) hk hn16 some_
      { accepted := 0, duplicate := 0, updated := 0, rejected := 0 }
    have count : readField (s.slipByte failing (s.chain f.chain).cursor) 16 1 = some n := by
      rw [readField_one, State.slipByte_before within (by omega),
        State.slipByte_ok (h.cursor_of_inFlight hf) (by omega), hn]
      rfl
    have worked := WorkedOn.foldl_mergeRecord s f records
    have same := State.chain_congr worked.interactive worked.background f.chain
    refine ⟨records, _, _, ?_, length, reads, rfl, same ▸ State.endOnFault_broken _ f⟩
    rw [exec_workFailed hf hp, State.workSlip, hkind]
    exact congrArg _ (State.workMerge_faulted hin count (by omega) hn16 merged)
  case taken =>
    rw [State.examine_untaken writes he (h.cursor_of_examining he) hm hx]
    exact ⟨_, rfl, State.breakChain_broken _ c _⟩
  case released =>
    have hv : State.linkValid { s with inFlight := none } (s.chain f.chain).cursor = true := h.cursor_of_inFlight hf
    rw [State.followUp_link hf hp hr, State.followLink_unreleased writes hv h1 h2 hx, State.afterLink_breakChain]
    exact ⟨_, rfl, State.breakChain_broken _ f.chain _⟩
  case tailReleased =>
    obtain ⟨-, -, hv⟩ := h.parked_of_rereading hr
    rw [State.tailReread_link hr, State.followLink_unreleased writes hv h1 h2 hx, State.afterLink_breakChain]
    exact ⟨_, rfl, State.breakChain_broken s c _⟩
  case answer =>
    exact State.work_cutOff hf hp (h.cursor_of_inFlight hf) h.memory h1 h6 writes order ha hmade timeout
  case dispatch =>
    obtain ⟨whole, t, run, answered, cutRun, cut⟩ :=
      h.dispatch_cutOff he hm refused writes order ha taken hmade timeout
    rw [exec_accessFailed] at cutRun
    exact ⟨s.takenSlip c, s.taken c, whole, t, rfl, rfl, Memory.read_write_same h.memory _ _,
      fun b hb => Memory.read_write_other _ _ hb, run, answered, cutRun, cut⟩

end Sys2Proof.Machine
end
